-- ==== Sys2Proof/Syntax.lean ====
section
/-! DEFINITION. The commands of the part: one constructor per row of spec/opcode_table.json. -/

namespace Sys2Proof

/-- The IN roles of the channel map (R187). -/
inductive InRole where
  | boardEnc | feederEnc | standDia | standArm | splicer | jointSight
  | zoneTemp | glueFb | defect | knife | slitter | stacker
  deriving DecidableEq, Repr

/-- A command: an arrival, an expiry or a completion, or the moment at which MU takes the request at the
head of its management queue (R195). Request commands carry no operands of their own: the arguments are in
the queued request's payload, which FRAME_RECEIVE brought (R194). -/
inductive Instr where
  /-- POWER_ON_RESET, R171: power-on or a pin reset, with the levels of the strap pins (strap 1 is bit 0). -/
  | powerOnReset (straps : Byte)
  /-- FRAME_RECEIVE, R175: the bytes of a frame that has arrived whole, the check's two bytes last. -/
  | frameReceive (bytes : List Byte)
  /-- TRANSMISSION_END, R178. -/
  | transmissionEnd
  /-- WAITING_FRAME_ENTRY, R182. -/
  | waitingFrameEntry
  /-- ROSTER_SWEEP, R184. -/
  | rosterSweep
  /-- FRESHNESS_EXPIRY, R191: of the input with this role and index. -/
  | freshnessExpiry (role : InRole) (index : Nat)
  /-- REFRESH_EXPIRY, R164. -/
  | refreshExpiry
  /-- TRANSIT_DEADLINE_EXPIRY, R156. -/
  | transitDeadlineExpiry
  /-- ACCEPTED_TIMEOUT, R96: of the stand with this number, 1 to 5. -/
  | acceptedTimeout (stand : Nat)
  /-- DONE_TIMEOUT, R97: of the stand with this number, 1 to 5. -/
  | doneTimeout (stand : Nat)
  /-- GLUE_SETTLE_EXPIRY, R113: of the glue unit with this number, 1 to 3. -/
  | glueSettleExpiry (unit : Nat)
  /-- MGMT_UNKNOWN_REQUEST, R195. -/
  | mgmtUnknownRequest
  /-- ENTER_RUN, R197. -/
  | enterRun
  /-- ENTER_CONFIG, R198. -/
  | enterConfig
  /-- RESTART, R199. -/
  | restart
  /-- SET_LINE, R5. -/
  | setLine
  /-- SET_ENCODER, R6. -/
  | setEncoder
  /-- SET_STATION, R4. -/
  | setStation
  /-- SET_STAND, R72. -/
  | setStand
  /-- SET_BRIDGE, R13. -/
  | setBridge
  /-- SET_LIMITS, R200. -/
  | setLimits
  /-- MAP_WRITE, R188. -/
  | mapWrite
  /-- MAP_CLEAR, R189. -/
  | mapClear
  /-- ROSTER_CLEAR, R186. -/
  | rosterClear
  /-- LOAD_RECIPE, R104. -/
  | loadRecipe
  /-- ERASE_RECIPE, R105. -/
  | eraseRecipe
  /-- READ_RECIPE, R106. -/
  | readRecipe
  /-- ASSIGN_REEL, R74. -/
  | assignReel
  /-- APPEND_ORDER, R42. -/
  | appendOrder
  /-- AMEND_ORDER, R60. -/
  | amendOrder
  /-- WITHDRAW_ORDER, R63 and R64. -/
  | withdrawOrder
  /-- HOLD_ORDER, R65. -/
  | holdOrder
  /-- RELEASE_ORDER, R65. -/
  | releaseOrder
  /-- READ_ORDER, R68. -/
  | readOrder
  /-- READ_QUEUE, R69. -/
  | readQueue
  /-- READ_COMPLETION, R67. -/
  | readCompletion
  /-- READ_STATUS, R209. -/
  | readStatus
  /-- READ_TRACK, R39. -/
  | readTrack
  /-- READ_ALARMS, R202. -/
  | readAlarms
  /-- ACK_ALARMS, R203. -/
  | ackAlarms
  /-- SET_NOTICE_MASK, R204. -/
  | setNoticeMask
  /-- SNAPSHOT, R207. -/
  | snapshot
  /-- SNAPSHOT_CLEAR, R207. -/
  | snapshotClear
  /-- READ_COUNTERS, R208. -/
  | readCounters
  /-- ALIGN_BRIDGE, R16. -/
  | alignBridge
  /-- MARK, R36. -/
  | mark
  /-- SET_CEILING, R166. -/
  | setCeiling
  /-- CLEAR_CEILING, R167. -/
  | clearCeiling
  /-- CLEAR_BREAK, R168. -/
  | clearBreak
  deriving DecidableEq, Repr

end Sys2Proof
end

