-- ==== Sys2Proof/WellFormed.lean ====
section
/-! DEFINITION. The operand ranges of the commands that name one of a set of like things. -/

namespace Sys2Proof

/-- The lowest and highest index of each IN role (R187). -/
def InRole.range : InRole → Nat × Nat
  | .boardEnc => (0, 0)
  | .feederEnc => (1, 2)
  | .standDia => (1, 5)
  | .standArm => (1, 5)
  | .splicer => (1, 5)
  | .jointSight => (1, 2)
  | .zoneTemp => (1, 8)
  | .glueFb => (1, 3)
  | .defect => (1, 4)
  | .knife => (0, 0)
  | .slitter => (0, 0)
  | .stacker => (0, 0)

/-- The index lies in the role's range (R187). -/
def InRole.hasIndex (r : InRole) (i : Nat) : Bool :=
  decide (r.range.1 ≤ i) && decide (i ≤ r.range.2)

/-- A well-formed command: the input, stand or glue unit it names exists (R187, R71, R108). Every byte
string is a well-formed arrival, since the part checks frames itself (R175), and so is every strap value (R171). -/
def Instr.wellFormed : Instr → Bool
  | .freshnessExpiry r i => r.hasIndex i
  | .acceptedTimeout s => decide (1 ≤ s) && decide (s ≤ 5)
  | .doneTimeout s => decide (1 ≤ s) && decide (s ≤ 5)
  | .glueSettleExpiry g => decide (1 ≤ g) && decide (g ≤ 3)
  | _ => true

end Sys2Proof
end

