-- ==== Sys2Proof/Decode.lean ====
section
/-! DEFINITION. The reading of a table word. The opcode table gives no row any bits, so no word spells a command. -/

namespace Sys2Proof

/-- The command that the bits of a table word spell: none, since no row of the table gives bits. -/
def decodeTableWord (_nbits _w : Nat) : Option Instr := none

end Sys2Proof
end

