-- ==== Sys2Proof/Config.lean ====
section
/-! DEFINITION. What is fixed for the part, and the free values the manual leaves open. -/

namespace Sys2Proof.Config

/-- Capacities of the blocks (00_scope.md, block overview). -/
def forwardCap : Nat := 8
/-- R180. -/
def urgentCap : Nat := 16
/-- R180. -/
def normalCap : Nat := 32
/-- R184. -/
def rosterCap : Nat := 64
/-- R187. -/
def mapCap : Nat := 96
/-- R27. -/
def trackCap : Nat := 64
/-- R27: DEFECT, BOND and MARK entries together. -/
def dbmCap : Nat := 40
/-- R43. -/
def orderCap : Nat := 24
/-- R48. -/
def regionCap : Nat := 6
/-- R55: free places of the tracking list that a commitment needs. -/
def commitPlaces : Nat := 6
/-- R67. -/
def completionCap : Nat := 16
/-- R130. -/
def changeCap : Nat := 4
/-- R130. -/
def divertCap : Nat := 16
/-- R145. -/
def cutCap : Nat := 64
/-- R152. -/
def stackerCap : Nat := 32
/-- R194. -/
def mgmtCap : Nat := 8
/-- R96: the ACCEPTED limit, in ms. -/
def acceptedLimit : Nat := 200
/-- R34: the greatest extent of a defect fallback. -/
def defectExtentCap : Nat := 1000000
/-- R173: the greatest payload (R172), less an MGMT_REPLY's code, number and status. -/
def resultRoom : Nat := 116

/-- FREE VALUE (log 6): byte `k` of a request payload that is too short to hold the request's code and number, as the reply
echoes it, by the part's free-value count when the request came. The manual says such a request is refused with BAD_ARG (R195), and that
every reply carries the request's code and number (R195), and not what they are when they were not sent. -/
opaque missingRequestByte : Nat → Nat → Byte

/-- FREE VALUE (log 26): the profile a SWAP carries when the inactive station holds none, by the part's free-value count. -/
opaque noProfile : Nat → Nat

end Sys2Proof.Config
end

