-- ==== Sys2Proof/Machine/State.lean ====
section
/-! DEFINITION. The state of the part, block by block as the manual's block overview names them, and the state right after reset. -/

namespace Sys2Proof.Machine

/-! ## Names -/

/-- CONFIG or RUN (R196). -/
inductive Mode where
  | config | run
  deriving DecidableEq, Repr

/-- The line form (R5). -/
inductive LineForm where
  | single | double
  deriving DecidableEq, Repr

/-- One of the two reel positions of a stand (R73). -/
inductive Arm where
  | a | b
  deriving DecidableEq, Repr

/-- The state of an arm (R73). -/
inductive ArmState where
  | empty | loaded | prepared | running
  deriving DecidableEq, Repr

/-- The stations (R2). Indices count from 0: `stand 0` is STAND 1. -/
inductive Station where
  | stand (s : Fin 5)
  | glue (g : Fin 3)
  | wrap (w : Fin 3)
  | zone (z : Fin 8)
  | jointDet (f : Fin 2)
  | defect (d : Fin 4)
  | slitter
  deriving DecidableEq, Repr

/-- An input of the part: an IN role with its index (R187), counted from 0. -/
inductive Input where
  | boardEnc
  | feederEnc (f : Fin 2)
  | standDia (s : Fin 5)
  | standArm (s : Fin 5)
  | splicer (s : Fin 5)
  | jointSight (f : Fin 2)
  | zoneTemp (z : Fin 8)
  | glueFb (g : Fin 3)
  | defect (d : Fin 4)
  | knife
  | slitter
  | stacker
  deriving DecidableEq, Repr

/-- An output of the part: an OUT role with its index (R187), counted from 0. -/
inductive Output where
  | driveCeiling
  | splicer (s : Fin 5)
  | glueSet (g : Fin 3)
  | wrapSet (w : Fin 3)
  | zoneSet (z : Fin 8)
  | slitter
  | knife
  | stacker
  | rejectGate
  deriving DecidableEq, Repr

/-- The 37 alarms, in number order (section 10.4). -/
inductive Alarm where
  | encoderGlitch | reverseLimit | bridgeLow | bridgeHigh | jointUnexpected | jointMissed
  | trackOverflow | defectMerge | defectDrop | orderWait | completionLost | spliceNotReady
  | spliceTimeout | spliceFault | webBreak | reelExhausted | gradeNotReady | offGrade
  | glueDeviation | zoneDeficient | slitterLate | knifeSequence | knifeRegistration
  | knifeCommandLate | divertLost | backlog | stackerMissing | stackerPhantom
  | stackerCommandLost | rxCheck | hopExpired | forwardOverrun | rosterFull | actuatorLost
  | badSample | inputStale | counterSaturated
  deriving DecidableEq, Repr

/-- The cull causes, in the order of R206: the eleven of R137 and BACKLOG (R148). -/
inductive Cause where
  | noOrder | untracked | registration | length | straddle | swap | splice | offGrade
  | bond | defect | mark | backlog
  deriving DecidableEq, Repr

/-- The reasons for which a frame is dropped (R206). -/
inductive DropReason where
  | check | stripped | notRequest | hopExpired | forwardOverrun
  deriving DecidableEq, Repr

/-- The live counters (R206). -/
inductive Counter where
  | boardLength | stackedCuts | goodSheets
  | culled (c : Cause)
  | droppedDefects
  | splices (s : Fin 5)
  | framesReceived | framesForwarded
  | framesDropped (r : DropReason)
  | busyReplies | noticesLost
  deriving DecidableEq, Repr

/-- The contribution slots (R159). -/
inductive Slot where
  | heat (z : Fin 8)
  | splice (s : Fin 5)
  | bridge (f : Fin 2)
  | orderWait | backlog | actuatorLost | encoder | webBreak | operator
  deriving DecidableEq, Repr

/-- The reply statuses (R174). -/
inductive Status where
  | ok | busy | wrongMode | badArg | notFound | full | conflict | inUse | slotLoaded
  | state | moving | notConfigured
  deriving DecidableEq, Repr

/-! ## RIF: frames, queues, roster (09) -/

/-- A frame on the ring (R172). -/
structure Frame where
  dest : Byte
  src : Byte
  kind : Byte
  hop : Byte
  seq : Byte
  payload : List Byte
  check : BitVec 16
  deriving DecidableEq, Repr

/-- The commands the part posts (R173). A run cut number is kept whole, and is taken modulo 65,536 in the frame. -/
inductive Command where
  | driveCeiling (v : Nat)
  | go (s : Fin 5) (arm : Arm) (seq : Byte)
  | abort (s : Fin 5) (seq : Byte)
  | glueSet (g : Fin 3) (gap : Nat)
  | wrapSet (w : Fin 3) (wrap : Nat)
  | zoneSet (z : Fin 8) (target : Nat)
  | preset (profile : Nat)
  | swap (profile : Nat)
  | changeLength (len : Nat) (afterCut : Option Nat)
  | divert (cut : Nat)
  | eject (tag : Nat)
  | orderEnd (tag : Nat)
  deriving DecidableEq, Repr

/-- The notices (R205). -/
inductive Notice where
  | alarm (a : Alarm) (count stamp : Nat)
  | orderDone (tag : Nat) (short withdrawn gradeLate aborted : Bool)
  | mark (number id cut : Nat) (culled : Bool)
  deriving DecidableEq, Repr

/-- A frame the part originates, before its transmission gives it a sequence value (R179): a command with the node and
channel of its role's OUT entry, a reply, or a notice. -/
inductive Message where
  | command (c : Command) (node channel : Byte)
  | reply (dest code : Byte) (number : BitVec 16) (status : Status) (results : List Byte)
  | notice (n : Notice)
  deriving DecidableEq, Repr

/-- A frame in a waiting order (R182). `late` marks a CHANGE LENGTH for which KNIFE_COMMAND_LATE has been latched (R130). -/
structure Waiting where
  msg : Message
  late : Bool
  deriving DecidableEq, Repr

/-- A roster entry (R184). -/
structure RosterEntry where
  node : Nat
  lastHeard : Nat
  deriving DecidableEq, Repr

/-- RIF's state. The owners' lists of waiting commands (RSC's held GO and ABORT, DEC's pending change list and divert list,
SC's command list), the setpoint hold and MU's waiting reply stand once, in the waiting order of their queue (R182). -/
structure Rif where
  forward : List Frame
  forwardCount : Nat
  /-- `none` is IDLE; `some f` is SENDING, with the frame being sent. -/
  port : Option Frame
  urgent : List Message
  normal : List Message
  urgentWait : List Waiting
  normalWait : List Waiting
  txSeq : Byte
  roster : List RosterEntry
  agingSec : Nat
  /-- The whole second of part time at which the next sweep is due (R184). -/
  nextSweep : Nat
  lost : Bool
  deriving DecidableEq, Repr

/-! ## SI: channel map and freshness (09) -/

/-- The freshness states (R191). -/
inductive Fresh where
  | waiting | fresh | stale
  deriving DecidableEq, Repr

/-- An IN entry with its freshness record (R187, R191). -/
structure InEntry where
  node : Byte
  channel : Byte
  input : Input
  state : Fresh
  last : Option Nat
  deriving DecidableEq, Repr

/-- An OUT entry (R187). -/
structure OutEntry where
  output : Output
  node : Byte
  channel : Byte
  deriving DecidableEq, Repr

/-- SI's state. -/
structure Si where
  inMap : List InEntry
  outMap : List OutEntry
  encoderLimit : Nat
  inputLimit : Nat
  deriving DecidableEq, Repr

/-! ## WT: coordinates and the tracking list (01, 02) -/

/-- An encoder record (R6, R7). The oldest speed stands first. -/
structure Encoder where
  sigma : Nat
  gmax : Nat
  reverseLimit : Nat
  ref : Option (Word × Word)
  residue : Nat
  debt : Nat
  pos : Nat
  history : List Nat
  deriving DecidableEq, Repr

/-- A bridge: settings (R13), transfer constant (R14), conditions (R15) and last sight counter (R17). -/
structure Bridge where
  lfix : Nat
  capacity : Nat
  qnom : Nat
  minimum : Nat
  maximum : Nat
  window : Nat
  maxCorr : Nat
  k : Int
  low : Bool
  high : Bool
  lastSight : Option Byte
  deriving DecidableEq, Repr

/-- The binding of a feeder-origin entry (R21, R23). `web` is the length of web of a closed zone. -/
structure Binding where
  feeder : Fin 2
  start : Int
  bound : Bool
  web : Option Nat
  deriving DecidableEq, Repr

/-- The kinds of entry, with the optional fields of each (R21). -/
inductive EntryKind where
  | spliceJoint (stand : Fin 5) (grade : Nat)
  | defect
  | bond
  | mark (number : Nat)
  | swapZone
  | offGrade (stand : Fin 5) (tag : Nat)
  deriving DecidableEq, Repr

/-- A tracking-list entry (R21). -/
structure TrackEntry where
  id : Nat
  kind : EntryKind
  start : Nat
  extent : Option Nat
  cull : Bool
  origin : Station
  binding : Option Binding
  deriving DecidableEq, Repr

/-- WT's state. -/
structure Wt where
  line : LineForm
  board : Encoder
  feeders : Vector Encoder 2
  bridges : Vector Bridge 2
  offsets : Vector Nat 26
  track : List TrackEntry
  nextId : Nat
  credit : Nat
  remainder : Nat
  bucketSize : Nat
  refillLength : Nat
  defectLast : Vector (Option Byte) 4
  deriving DecidableEq, Repr

/-! ## OS: orders and regions (03) -/

/-- An order record (R41). Its state is not a field: it follows from where the order stands (R43). -/
structure Order where
  tag : Nat
  revision : Nat
  slot : Nat
  grades : Vector Nat 5
  outs : Nat
  length : Nat
  quantity : Nat
  stackHeight : Nat
  profile : Nat
  overrun : Nat
  hold : Bool
  deriving DecidableEq, Repr

/-- What OS knows of the NEXT order, which stands at the head of the queue (R45, R46). -/
structure NextOrder where
  ready : Bool
  needsSwap : Bool
  deriving DecidableEq, Repr

/-- A region (R47). `order` absent is a WASTE region. -/
structure Region where
  order : Option Order
  start : Nat
  stop : Option Nat
  length : Nat
  swap : Bool
  first : Option Nat
  last : Option Nat
  change : Option Nat
  deferred : Bool
  countdown : Nat
  attributed : Nat
  good : Nat
  stacked : Nat
  missing : Nat
  culled : Vector Nat 12
  short : Bool
  withdrawn : Bool
  gradeLate : Bool
  ended : Bool
  deriving DecidableEq, Repr

/-- A completion record (R66). -/
structure Completion where
  tag : Nat
  stacked : Nat
  goodSheets : Nat
  missing : Nat
  culled : Vector Nat 12
  overrunCuts : Nat
  boardLength : Nat
  short : Bool
  withdrawn : Bool
  gradeLate : Bool
  aborted : Bool
  deriving DecidableEq, Repr

/-- OS's state. -/
structure Os where
  queue : List Order
  next : Option NextOrder
  regions : List Region
  log : List Completion
  commitLead : Nat
  wasteLength : Nat
  swapTime : Nat
  deriving DecidableEq, Repr

/-! ## RSC: reels and splices (04) -/

/-- An arm record (R73). -/
structure ArmRecord where
  state : ArmState
  reel : Option Nat
  grade : Nat
  caliper : Option Nat
  core : Option Nat
  deriving DecidableEq, Repr

/-- The splice states (R94). -/
inductive SpliceState where
  | idle | armed | sent | active
  deriving DecidableEq, Repr

/-- The most recent GO (R94). `isOpen`: its transaction is open. -/
structure GoRecord where
  seq : Byte
  arm : Arm
  grade : Nat
  isOpen : Bool
  deriving DecidableEq, Repr

/-- A planned splice (R90, R91). -/
structure Plan where
  grade : Nat
  tag : Nat
  target : Nat
  reached : Bool
  deriving DecidableEq, Repr

/-- A stand record (R71). The feeder is fixed by the stand's number and the offset stands in the station table. -/
structure Stand where
  spliceTime : Nat
  maxSpeed : Nat
  reserve : Nat
  arming : Nat
  preCull : Nat
  postCull : Nat
  margin : Nat
  armA : ArmRecord
  armB : ArmRecord
  splice : SpliceState
  nextSeq : Byte
  recent : Option GoRecord
  acceptBy : Option Nat
  doneBy : Option Nat
  plan : Option Plan
  g0 : Nat
  history : List Nat
  historyArm : Option Arm
  staleSince : Bool
  reckon : Option (Nat × Nat)
  exhausted : Bool
  awaiting : Bool
  /-- The last evaluation was in the first case of R84. -/
  crawling : Bool
  deriving DecidableEq, Repr

/-- RSC's state. -/
structure Rsc where
  stands : Vector Stand 5
  deriving DecidableEq, Repr

/-! ## BC: recipes, glue, wraps, zones (05) -/

/-- A recipe's contents (R103). A wrap holds its four (speed, wrap) breakpoints in order. -/
structure Recipe where
  baseGap : Vector Nat 3
  slope : Vector Int 3
  glueTol : Nat
  wraps : Vector (Vector (Nat × Nat) 4) 3
  zoneTarget : Vector Nat 8
  zoneTol : Nat
  derate : Nat
  maxSpeed : Nat
  deriving DecidableEq, Repr

/-- A recipe slot (R102). `recipe` absent is EMPTY. -/
structure RecipeSlot where
  recipe : Option Recipe
  refs : Nat
  deriving DecidableEq, Repr

/-- A glue unit (R109, R111, R113, R114). `settleBy` absent: the settle deadline has passed. -/
structure GlueUnit where
  acting : Option Nat
  requested : Option Nat
  last : Option Nat
  testSet : Option Nat
  testTol : Option Nat
  settleBy : Option Nat
  deviation : Bool
  entry : Option Nat
  openedAt : Nat
  deriving DecidableEq, Repr

/-- A preheater wrap (R109, R111). -/
structure WrapUnit where
  acting : Option Nat
  requested : Option Nat
  last : Option Nat
  deriving DecidableEq, Repr

/-- The zone states (R118). -/
inductive ZoneState where
  | stale | unset | settled | tracking
  deriving DecidableEq, Repr

/-- A plate zone (R109, R111, R117, R118, R120). `byDeficit`: HEAT is active by a deficit. -/
structure ZoneUnit where
  acting : Option Nat
  requested : Option Nat
  last : Option Nat
  history : List Int
  staleSince : Bool
  state : ZoneState
  byDeficit : Bool
  deriving DecidableEq, Repr

/-- BC's state. -/
structure Bc where
  slots : Vector RecipeSlot 32
  glue : Vector GlueUnit 3
  wraps : Vector WrapUnit 3
  zones : Vector ZoneUnit 8
  minGap : Vector Nat 3
  maxGap : Vector Nat 3
  settleTime : Nat
  wrapLead : Vector Nat 3
  zoneLead : Vector Nat 8
  zoneCount : Nat
  deriving DecidableEq, Repr

/-! ## DEC: slitter and knife (06) -/

/-- The slitter's inactive station (R122). -/
inductive Inactive where
  | free
  | presetting (profile : Nat)
  | ready (profile : Nat)
  deriving DecidableEq, Repr

/-- The swap states (R122). -/
inductive SwapState where
  | none | requested | done
  deriving DecidableEq, Repr

/-- The swap record (R122, R125). -/
structure SwapRecord where
  start : Nat
  entry : Option Nat
  extent : Nat
  late : Bool
  deriving DecidableEq, Repr

/-- DEC's state. -/
structure Dec where
  active : Option Nat
  inactive : Inactive
  swap : SwapState
  swapRec : Option SwapRecord
  cLast : Option Nat
  kLast : Option Nat
  regLimit : Nat
  lengthTol : Nat
  straddleTol : Nat
  deriving DecidableEq, Repr

/-! ## SC: the cut queue (07) -/

/-- A cut-queue entry (R145). The region is named by its order's tag (R43: a tag appears at most once). -/
structure CutEntry where
  cut : Nat
  tag : Nat
  knifeTime : Nat
  stackEnd : Bool
  orderEnd : Bool
  deriving DecidableEq, Repr

/-- SC's state. -/
structure Sc where
  cuts : List CutEntry
  lastArrival : Option (BitVec 16)
  backlog : Bool
  entered : Nat
  stacked : Nat
  missing : Nat
  phantom : Nat
  transit : Nat
  watermark : Nat
  deriving DecidableEq, Repr

/-! ## SG: the ceiling (08) -/

/-- A contribution (R159). -/
structure Contribution where
  active : Bool
  value : Nat
  deriving DecidableEq, Repr

/-- SG's state. -/
structure Sg where
  slots : Vector Contribution 21
  effective : Option Nat
  lastPosted : Option Nat
  nextRefresh : Option Nat
  lineMax : Nat
  crawl : Nat
  refreshPeriod : Nat
  deriving DecidableEq, Repr

/-! ## MU: management, alarms, counters (10) -/

/-- A queued request (R194): its source and its payload, in which its code, number and arguments stand; and the model's free-value count
when it came (log 6). -/
structure Request where
  src : Byte
  payload : List Byte
  stamp : Nat
  deriving DecidableEq, Repr

/-- An alarm's latch, count and stamp (R201). -/
structure AlarmRecord where
  latch : Bool
  count : Nat
  stamp : Nat
  deriving DecidableEq, Repr

/-- A live counter and its saturation flag (R206). -/
structure CounterRecord where
  value : Nat
  saturated : Bool
  deriving DecidableEq, Repr

/-- The snapshot set (R207). -/
structure Snapshot where
  counters : Vector CounterRecord 30
  b : Nat
  elapsed : Nat
  taken : Bool
  deriving DecidableEq, Repr

/-- MU's state. -/
structure Mu where
  mode : Mode
  queue : List Request
  alarms : Vector AlarmRecord 37
  generation : Nat
  readMade : Bool
  mask : BitVec 64
  counters : Vector CounterRecord 30
  snap : Snapshot
  lastClear : Nat
  deriving DecidableEq, Repr

/-! ## The part and the machine -/

/-- The part: its time and node number (R171) and its ten blocks. `free` counts the free values taken so far; it is the model's own
(log 6). -/
structure Part where
  time : Nat
  node : Option Nat
  free : Nat
  rif : Rif
  si : Si
  wt : Wt
  os : Os
  rsc : Rsc
  bc : Bc
  dec : Dec
  sc : Sc
  sg : Sg
  mu : Mu
  deriving DecidableEq, Repr

/-- The machine: the commands that are waiting, first in, first out, and the part. -/
structure State where
  pending : List Instr
  part : Part
  deriving DecidableEq, Repr

/-- No rule of the manual stops the part, so no command faults: every trouble is a latch, a refused request or a counted
drop, and each of those is a next state. Nobody raises a fault; that is exact, neither safe nor unsafe. -/
inductive Fault where
  deriving DecidableEq, Repr

/-- The refusals of the model. -/
inductive Refusal where
  /-- A command that has no meaning yet, by its mnemonic: raised by an arm of `exec` only, and by none of them now (safe). -/
  | notModelled (mnemonic : String)
  deriving DecidableEq, Repr

/-! ## Reset -/

/-- An encoder record after reset (R6, R7). -/
def Encoder.reset : Encoder where
  sigma := 65536
  gmax := 4096
  reverseLimit := 100000
  ref := none
  residue := 0
  debt := 0
  pos := 0
  history := List.replicate 8 0

/-- A bridge after reset (R13, R14, R15, R17). -/
def Bridge.reset : Bridge where
  lfix := 0
  capacity := 3000000
  qnom := 800000
  minimum := 200000
  maximum := 2500000
  window := 20000
  maxCorr := 5000
  k := 0
  low := false
  high := false
  lastSight := none

/-- An arm record with nothing on the arm (R73). -/
def ArmRecord.cleared : ArmRecord where
  state := .empty
  reel := none
  grade := 0
  caliper := none
  core := none

/-- A stand record after reset (R72, R73, R94, R101). -/
def Stand.reset : Stand where
  spliceTime := 8000
  maxSpeed := 50000
  reserve := 300000
  arming := 2000000
  preCull := 3000
  postCull := 5000
  margin := 20000
  armA := ArmRecord.cleared
  armB := ArmRecord.cleared
  splice := .idle
  nextSeq := 1
  recent := none
  acceptBy := none
  doneBy := none
  plan := none
  g0 := 0
  history := []
  historyArm := none
  staleSince := false
  reckon := none
  exhausted := false
  awaiting := false
  crawling := false

/-- A glue unit with no run-state (R121). -/
def GlueUnit.reset : GlueUnit where
  acting := none
  requested := none
  last := none
  testSet := none
  testTol := none
  settleBy := none
  deviation := false
  entry := none
  openedAt := 0

/-- A wrap with no run-state (R121). -/
def WrapUnit.reset : WrapUnit where
  acting := none
  requested := none
  last := none

/-- A zone with no run-state (R121). -/
def ZoneUnit.reset : ZoneUnit where
  acting := none
  requested := none
  last := none
  history := []
  staleSince := false
  state := .unset
  byDeficit := false

/-- The table of contributions with every slot inactive (R159). -/
def Sg.noSlots : Vector Contribution 21 :=
  Vector.replicate 21 { active := false, value := 0 }

/-- The live counters at 0 (R206). -/
def Mu.noCounters : Vector CounterRecord 30 :=
  Vector.replicate 30 { value := 0, saturated := false }

/-- The alarms clear (R201). -/
def Mu.noAlarms : Vector AlarmRecord 37 :=
  Vector.replicate 37 { latch := false, count := 0, stamp := 0 }

/-- The snapshot set with no copy taken (R207). -/
def Snapshot.reset : Snapshot where
  counters := Mu.noCounters
  b := 0
  elapsed := 0
  taken := false

/-- The node number that strap pins at `straps` give (R171). -/
def strapNode (straps : Byte) : Option Nat :=
  if 1 ≤ straps.toNat ∧ straps.toNat ≤ 239 then some straps.toNat else none

/-- The part after power-on or a pin reset with the strap pins at `straps` (R171, R192, R20, R40, R70, R101, R121, R144,
R158, R170, R210). -/
def Part.reset (straps : Byte) : Part where
  time := 0
  node := strapNode straps
  free := 0
  rif :=
    { forward := [], forwardCount := 0, port := none, urgent := [], normal := [], urgentWait := [], normalWait := [],
      txSeq := 0, roster := [], agingSec := 20, nextSweep := 1000, lost := false }
  si := { inMap := [], outMap := [], encoderLimit := 20, inputLimit := 500 }
  wt :=
    { line := .single, board := Encoder.reset, feeders := Vector.replicate 2 Encoder.reset,
      bridges := Vector.replicate 2 Bridge.reset, offsets := Vector.replicate 26 0, track := [], nextId := 1,
      credit := 0, remainder := 0, bucketSize := 8, refillLength := 100000, defectLast := Vector.replicate 4 none }
  os :=
    { queue := [], next := none, regions := [], log := [], commitLead := 900000, wasteLength := 10000, swapTime := 1500 }
  rsc := { stands := Vector.replicate 5 Stand.reset }
  bc :=
    { slots := Vector.replicate 32 { recipe := none, refs := 0 }, glue := Vector.replicate 3 GlueUnit.reset,
      wraps := Vector.replicate 3 WrapUnit.reset, zones := Vector.replicate 8 ZoneUnit.reset,
      minGap := Vector.replicate 3 50, maxGap := Vector.replicate 3 1000, settleTime := 500,
      wrapLead := Vector.replicate 3 100000, zoneLead := Vector.replicate 8 150000, zoneCount := 8 }
  dec :=
    { active := none, inactive := .free, swap := .none, swapRec := none, cLast := none, kLast := none,
      regLimit := 5000, lengthTol := 20, straddleTol := 200 }
  sc :=
    { cuts := [], lastArrival := none, backlog := false, entered := 0, stacked := 0, missing := 0, phantom := 0,
      transit := 5000, watermark := 48 }
  sg :=
    { slots := Sg.noSlots, effective := none, lastPosted := none, nextRefresh := none, lineMax := 100000,
      crawl := 5000, refreshPeriod := 250 }
  mu :=
    { mode := .config, queue := [], alarms := Mu.noAlarms, generation := 0, readMade := false, mask := 0,
      counters := Mu.noCounters, snap := Snapshot.reset, lastClear := 0 }

/-- The machine right after reset, with no command waiting. The strap pins read 1, so the node number is 1 (DESIGN CHOICE,
log 1: the manual gives no level of the pins). -/
def State.reset : State where
  pending := []
  part := Part.reset 1

end Sys2Proof.Machine
end

