-- ==== Sys2Proof/Machine/Ops.lean ====
section
/-! DEFINITION. The named operations that every block uses: rounding and clamping, the stations and their points, the units
in use, and the accessors of the part's records. -/

namespace Sys2Proof.Machine

/-! ## Arithmetic (00_scope.md, Conventions) -/

/-- Division rounded up. -/
def ceilDiv (a b : Nat) : Nat := (a + b - 1) / b

/-- A value clamped to `lo` to `hi`. -/
def clamp (lo hi x : Nat) : Nat := min hi (max lo x)

/-- A signed value clamped to `lo` to `hi`. -/
def clampInt (lo hi x : Int) : Int := min hi (max lo x)

/-- A 32-bit count raised by `n`, saturating. -/
def sat32 (x n : Nat) : Nat := min (2 ^ 32 - 1) (x + n)

/-- A knife coordinate formed as a sum that includes a signed value: a result below 0 is taken as 0 (R1). -/
def coord (x : Int) : Nat := x.toNat

/-- The mean of a history, rounded down; absent for an empty history. -/
def meanNat (l : List Nat) : Option Nat :=
  if l.isEmpty then none else some (l.sum / l.length)

/-- The mean of a history of signed values, rounded toward minus infinity; absent for an empty history. -/
def meanInt (l : List Int) : Option Int :=
  if l.isEmpty then none else some (l.sum / (l.length : Int))

/-- A value entered into a history of up to 8 values, oldest first. -/
def enter8 {α : Type} (l : List α) (x : α) : List α :=
  (if 8 ≤ l.length then l.tail else l) ++ [x]

/-- Units per second from m/min (00_scope.md, Speed). -/
def fromMpm (v : Nat) : Nat := v * 10000 / 60

/-- m/min from units per second (00_scope.md, Speed). -/
def toMpm (v : Nat) : Nat := v * 6 / 1000

/-! ## Numbering -/

/-- The place of a thing numbered from 1 in the manual. -/
def place (n k : Nat) : Option (Fin n) :=
  if h : 1 ≤ k ∧ k ≤ n then some ⟨k - 1, by omega⟩ else none

/-- The place of a station in the station table. -/
def Station.idx : Station → Fin 26
  | .stand s => ⟨s.val, by omega⟩
  | .glue g => ⟨5 + g.val, by omega⟩
  | .wrap w => ⟨8 + w.val, by omega⟩
  | .zone z => ⟨11 + z.val, by omega⟩
  | .jointDet f => ⟨19 + f.val, by omega⟩
  | .defect d => ⟨21 + d.val, by omega⟩
  | .slitter => ⟨25, by omega⟩

/-- The number of an alarm (section 10.4): its place in the declaration's order. -/
def Alarm.idx : Alarm → Fin 37
  | .encoderGlitch => 0
  | .reverseLimit => 1
  | .bridgeLow => 2
  | .bridgeHigh => 3
  | .jointUnexpected => 4
  | .jointMissed => 5
  | .trackOverflow => 6
  | .defectMerge => 7
  | .defectDrop => 8
  | .orderWait => 9
  | .completionLost => 10
  | .spliceNotReady => 11
  | .spliceTimeout => 12
  | .spliceFault => 13
  | .webBreak => 14
  | .reelExhausted => 15
  | .gradeNotReady => 16
  | .offGrade => 17
  | .glueDeviation => 18
  | .zoneDeficient => 19
  | .slitterLate => 20
  | .knifeSequence => 21
  | .knifeRegistration => 22
  | .knifeCommandLate => 23
  | .divertLost => 24
  | .backlog => 25
  | .stackerMissing => 26
  | .stackerPhantom => 27
  | .stackerCommandLost => 28
  | .rxCheck => 29
  | .hopExpired => 30
  | .forwardOverrun => 31
  | .rosterFull => 32
  | .actuatorLost => 33
  | .badSample => 34
  | .inputStale => 35
  | .counterSaturated => 36

/-- The place of a cull cause in the order of R206. -/
def Cause.idx : Cause → Fin 12
  | .noOrder => 0
  | .untracked => 1
  | .registration => 2
  | .length => 3
  | .straddle => 4
  | .swap => 5
  | .splice => 6
  | .offGrade => 7
  | .bond => 8
  | .defect => 9
  | .mark => 10
  | .backlog => 11

/-- The place of a drop reason in the order of R206. -/
def DropReason.idx : DropReason → Fin 5
  | .check => 0
  | .stripped => 1
  | .notRequest => 2
  | .hopExpired => 3
  | .forwardOverrun => 4

/-- The place of a live counter in the order of R206. -/
def Counter.idx : Counter → Fin 30
  | .boardLength => 0
  | .stackedCuts => 1
  | .goodSheets => 2
  | .culled c => ⟨3 + c.idx.val, by omega⟩
  | .droppedDefects => 15
  | .splices s => ⟨16 + s.val, by omega⟩
  | .framesReceived => 21
  | .framesForwarded => 22
  | .framesDropped r => ⟨23 + r.idx.val, by omega⟩
  | .busyReplies => 28
  | .noticesLost => 29

/-- The greatest value of a live counter (R206). -/
def Counter.max : Counter → Nat
  | .boardLength => 2 ^ 48 - 1
  | _ => 2 ^ 32 - 1

/-- The place of a contribution slot in the table of R159. -/
def Slot.idx : Slot → Fin 21
  | .heat z => ⟨z.val, by omega⟩
  | .splice s => ⟨8 + s.val, by omega⟩
  | .bridge f => ⟨13 + f.val, by omega⟩
  | .orderWait => 15
  | .backlog => 16
  | .actuatorLost => 17
  | .encoder => 18
  | .webBreak => 19
  | .operator => 20

/-! ## Modes, stations, positions -/

/-- The part is in RUN (R196). -/
def inRun (p : Part) : Bool := decide (p.mu.mode = .run)

/-- The offset of a station (R2). -/
def offset (p : Part) (st : Station) : Nat := p.wt.offsets.get st.idx

/-- The board position B (R1). -/
def posB (p : Part) : Nat := p.wt.board.pos

/-- The feeder position F_f (R1). -/
def posF (p : Part) (f : Fin 2) : Nat := (p.wt.feeders.get f).pos

/-- The bridge transfer constant K_f (R14). -/
def bridgeK (p : Part) (f : Fin 2) : Int := (p.wt.bridges.get f).k

/-- The bridge content Q_f (section 1.4, R15). -/
def bridgeContent (p : Part) (f : Fin 2) : Int :=
  (posF p f : Int) + bridgeK p f - posB p - (p.wt.bridges.get f).lfix

/-- An encoder's average speed: the sum of its eight entries divided by 8, rounded down (R10). -/
def Encoder.speed (e : Encoder) : Nat := e.history.sum / 8

/-- The line speed v̄ (R10). -/
def lineSpeed (p : Part) : Nat := p.wt.board.speed

/-- The knife point now at a board station (R3). -/
def boardPoint (p : Part) (st : Station) : Nat := posB p + offset p st

/-- The feeder is in use under the line form (R5). -/
def feederInUse (p : Part) (f : Fin 2) : Bool :=
  decide (f = 0) || decide (p.wt.line = .double)

/-! ## Stands -/

/-- The feeder of a stand: 1 for stands 1 and 2, 2 for stands 3 and 4, none for stand 5 (R71). -/
def standFeeder (s : Fin 5) : Option (Fin 2) :=
  if s.val < 2 then some 0 else if s.val < 4 then some 1 else none

/-- The stand is in use under the line form (R71). -/
def standInUse (p : Part) (s : Fin 5) : Bool :=
  decide (p.wt.line = .double) || decide (s.val < 2) || decide (s.val = 4)

/-- The stand record (R71). -/
def standOf (p : Part) (s : Fin 5) : Stand := p.rsc.stands.get s

/-- The part with a stand record replaced. -/
def setStandRec (p : Part) (s : Fin 5) (x : Stand) : Part :=
  { p with rsc := { p.rsc with stands := upd p.rsc.stands s x } }

/-- The reference position of a stand (R71). -/
def standRef (p : Part) (s : Fin 5) : Nat :=
  match standFeeder s with
  | some f => posF p f
  | none => posB p

/-- The point at a stand: the knife coordinate of the board point now there (R71, R3). -/
def standPoint (p : Part) (s : Fin 5) : Nat :=
  match standFeeder s with
  | some f => coord ((posF p f : Int) + offset p (.stand s) + bridgeK p f)
  | none => boardPoint p (.stand s)

/-- The stand's speed (R71). -/
def standSpeed (p : Part) (s : Fin 5) : Nat :=
  match standFeeder s with
  | some f => (p.wt.feeders.get f).speed
  | none => lineSpeed p

/-- The arm that is running, or none (R75: the arm named as running is the one that reports RUNNING). -/
def Stand.running (st : Stand) : Option Arm :=
  if st.armA.state = .running then some .a
  else if st.armB.state = .running then some .b
  else none

/-- The other arm. -/
def Arm.other : Arm → Arm
  | .a => .b
  | .b => .a

/-- An arm's record. -/
def Stand.arm (st : Stand) : Arm → ArmRecord
  | .a => st.armA
  | .b => st.armB

/-- The stand with an arm's record replaced. -/
def Stand.setArm (st : Stand) (w : Arm) (r : ArmRecord) : Stand :=
  match w with
  | .a => { st with armA := r }
  | .b => { st with armB := r }

/-- The ready arm: the arm that is not running, while one of them is running (R73). -/
def Stand.readyArm (st : Stand) : Option Arm := st.running.map Arm.other

/-- The grade of the running arm, or 0 for NONE (R76, R85). -/
def Stand.runningGrade (st : Stand) : Nat :=
  match st.running with
  | some w => (st.arm w).grade
  | none => 0

/-! ## Channel map -/

/-- The OUT entry of an output (R187). -/
def outEntry (p : Part) (o : Output) : Option OutEntry :=
  p.si.outMap.find? (fun e => decide (e.output = o))

/-- The IN entry bound to an input (R187). -/
def inEntry (p : Part) (i : Input) : Option InEntry :=
  p.si.inMap.find? (fun e => decide (e.input = i))

/-- The input is bound and STALE (R191). A WAITING or unbound input is not stale. -/
def inputStale (p : Part) (i : Input) : Bool :=
  p.si.inMap.any (fun e => decide (e.input = i) && decide (e.state = .stale))

/-- The freshness limit of an input (R191). -/
def freshLimit (p : Part) : Input → Nat
  | .boardEnc => p.si.encoderLimit
  | .feederEnc _ => p.si.encoderLimit
  | _ => p.si.inputLimit

/-! ## Lists -/

/-- A list with its last element changed. -/
def modifyLast {α : Type} (f : α → α) : List α → List α
  | [] => []
  | [x] => [f x]
  | x :: xs => x :: modifyLast f xs

/-- A list with every element that meets `c` changed. -/
def modifyWhere {α : Type} (c : α → Bool) (f : α → α) (l : List α) : List α :=
  l.map (fun x => if c x then f x else x)

/-- A fold over the places of a table, in order. -/
def forEach {n : Nat} (f : Fin n → Part → Part) (p : Part) : Part :=
  (List.finRange n).foldl (fun q i => f i q) p

end Sys2Proof.Machine
end

