-- ==== Sys2Proof/Machine/Operands.lean ====
section
/-! DEFINITION. What frames and payloads carry: the frame layout and its check, the code tables, the fields of requests,
replies and notices, and the values of samples. -/

namespace Sys2Proof

/-! ## IN roles (R174, R187) -/

/-- The IN role's code (R174). -/
def InRole.code : InRole → Nat
  | .boardEnc => 1
  | .feederEnc => 2
  | .standDia => 3
  | .standArm => 4
  | .splicer => 5
  | .jointSight => 6
  | .zoneTemp => 7
  | .glueFb => 8
  | .defect => 9
  | .knife => 10
  | .slitter => 11
  | .stacker => 12

/-- The number of values a sample of the role carries (R187). -/
def InRole.values : InRole → Nat
  | .boardEnc => 2
  | .feederEnc => 2
  | .standDia => 1
  | .standArm => 3
  | .splicer => 2
  | .jointSight => 1
  | .zoneTemp => 1
  | .glueFb => 1
  | .defect => 2
  | .knife => 2
  | .slitter => 2
  | .stacker => 1

/-- Every IN role. -/
def InRole.all : List InRole :=
  [.boardEnc, .feederEnc, .standDia, .standArm, .splicer, .jointSight, .zoneTemp, .glueFb, .defect, .knife, .slitter, .stacker]

end Sys2Proof

namespace Sys2Proof.Machine

/-! ## Bytes -/

/-- The unsigned number that bytes spell, most significant byte first (R172). -/
def natOf (bs : List Byte) : Nat := bs.foldl (fun n b => n * 256 + b.toNat) 0

/-- A number in `k` bytes, most significant byte first, modulo 256^k (R172). -/
def bytesOf : Nat → Nat → List Byte
  | 0, _ => []
  | k + 1, n => BitVec.ofNat 8 (n / 256 ^ k) :: bytesOf k n

/-- A number in `k` bytes read as two's complement (R172). -/
def signedOf (k n : Nat) : Int :=
  if n < 2 ^ (8 * k - 1) then (n : Int) else (n : Int) - 2 ^ (8 * k)

/-- One step of the check's register: the top bit shifted out, the generator x^16 + x^12 + x^5 + 1 applied (R172). -/
def crcShift (c : BitVec 16) : BitVec 16 :=
  if c.getLsbD 15 then (c <<< 1) ^^^ 0x1021#16 else c <<< 1

/-- Eight steps of the register. -/
def crcShifts : Nat → BitVec 16 → BitVec 16
  | 0, c => c
  | k + 1, c => crcShifts k (crcShift c)

/-- One byte taken into the check, most significant bit first (R172). -/
def crcByte (c : BitVec 16) (b : Byte) : BitVec 16 :=
  crcShifts 8 (c ^^^ BitVec.ofNat 16 (b.toNat * 256))

/-- The 16-bit check of bytes: register preset to all ones, no final inversion (R172). -/
def crc16 (bs : List Byte) : BitVec 16 := bs.foldl crcByte 0xFFFF#16

/-! ## Frames (R172) -/

/-- The six header bytes. -/
def Frame.header (f : Frame) : List Byte :=
  [f.dest, f.src, f.kind, f.hop, f.seq, BitVec.ofNat 8 f.payload.length]

/-- The frame with its check computed over header and payload. -/
def Frame.checked (f : Frame) : Frame := { f with check := crc16 (f.header ++ f.payload) }

/-- The frame as it stands on the ring, the check last. -/
def Frame.bytes (f : Frame) : List Byte := f.header ++ f.payload ++ bytesOf 2 f.check.toNat

/-- The frame that arrived, or none where R175 drops it: the check does not match, the length field is above 120 or differs
from the number of payload bytes, or the destination is 240 to 254. Bytes too few for a header and a check are none (log 21). -/
def parseFrame : List Byte → Option Frame
  | d :: s :: k :: h :: q :: n :: rest =>
    let m := rest.length - 2
    let f : Frame :=
      { dest := d, src := s, kind := k, hop := h, seq := q, payload := rest.take m,
        check := BitVec.ofNat 16 (natOf (rest.drop m)) }
    if rest.length < 2 then none
    else if f.check ≠ crc16 ([d, s, k, h, q, n] ++ f.payload) then none
    else if 120 < n.toNat then none
    else if n.toNat ≠ m then none
    else if 240 ≤ d.toNat ∧ d.toNat ≤ 254 then none
    else some f
  | _ => none

/-- The frame kinds (R172). -/
def kindSample : Byte := 1
/-- R172. -/
def kindCommand : Byte := 2
/-- R172. -/
def kindRequest : Byte := 3
/-- R172. -/
def kindReply : Byte := 4
/-- R172. -/
def kindNotice : Byte := 5

/-! ## Codes (R173, R174) -/

/-- The status byte (R174). -/
def Status.code : Status → Nat
  | .ok => 0
  | .busy => 1
  | .wrongMode => 2
  | .badArg => 3
  | .notFound => 4
  | .full => 5
  | .conflict => 6
  | .inUse => 7
  | .slotLoaded => 8
  | .state => 9
  | .moving => 10
  | .notConfigured => 11

/-- yes or no (R174). -/
def codeBool (b : Bool) : Nat := if b then 1 else 0

/-- The mode's code (R174). -/
def Mode.code : Mode → Nat
  | .config => 0
  | .run => 1

/-- The line form's code (R174). -/
def LineForm.code : LineForm → Nat
  | .single => 1
  | .double => 2

/-- The line form with a code (R5: any other value is refused). -/
def lineFormOf : Nat → Option LineForm
  | 1 => some .single
  | 2 => some .double
  | _ => none

/-- The arm's code (R174). -/
def Arm.code : Arm → Nat
  | .a => 1
  | .b => 2

/-- The arm with a code (R174). -/
def armOf : Nat → Option Arm
  | 1 => some .a
  | 2 => some .b
  | _ => none

/-- The code of a running arm, 0 for NONE (R174). -/
def codeRunning : Option Arm → Nat
  | none => 0
  | some w => w.code

/-- The arm state's code (R174). -/
def ArmState.code : ArmState → Nat
  | .empty => 0
  | .loaded => 1
  | .prepared => 2
  | .running => 3

/-- The arm state with a code (R173). -/
def armStateOf : Nat → Option ArmState
  | 0 => some .empty
  | 1 => some .loaded
  | 2 => some .prepared
  | 3 => some .running
  | _ => none

/-- The splice state's code (R174). -/
def SpliceState.code : SpliceState → Nat
  | .idle => 0
  | .armed => 1
  | .sent => 2
  | .active => 3

/-- The station's code (R174). -/
def Station.code : Station → Nat
  | .stand s => 1 + s.val
  | .glue g => 9 + g.val
  | .wrap w => 17 + w.val
  | .zone z => 25 + z.val
  | .jointDet f => 41 + f.val
  | .defect d => 49 + d.val
  | .slitter => 64

/-- Every station of R2. -/
def Station.all : List Station :=
  (List.finRange 5).map .stand ++ (List.finRange 3).map .glue ++ (List.finRange 3).map .wrap
    ++ (List.finRange 8).map .zone ++ (List.finRange 2).map .jointDet ++ (List.finRange 4).map .defect ++ [.slitter]

/-- The station with a code (R174). -/
def stationOf (n : Nat) : Option Station := Station.all.find? (fun st => decide (st.code = n))

/-- The input with a role and an index (R187). -/
def inputOf (r : InRole) (i : Nat) : Option Input :=
  match r with
  | .boardEnc => if i = 0 then some .boardEnc else none
  | .feederEnc => (place 2 i).map .feederEnc
  | .standDia => (place 5 i).map .standDia
  | .standArm => (place 5 i).map .standArm
  | .splicer => (place 5 i).map .splicer
  | .jointSight => (place 2 i).map .jointSight
  | .zoneTemp => (place 8 i).map .zoneTemp
  | .glueFb => (place 3 i).map .glueFb
  | .defect => (place 4 i).map .defect
  | .knife => if i = 0 then some .knife else none
  | .slitter => if i = 0 then some .slitter else none
  | .stacker => if i = 0 then some .stacker else none

/-- An input's role (R187). -/
def Input.role : Input → InRole
  | .boardEnc => .boardEnc
  | .feederEnc _ => .feederEnc
  | .standDia _ => .standDia
  | .standArm _ => .standArm
  | .splicer _ => .splicer
  | .jointSight _ => .jointSight
  | .zoneTemp _ => .zoneTemp
  | .glueFb _ => .glueFb
  | .defect _ => .defect
  | .knife => .knife
  | .slitter => .slitter
  | .stacker => .stacker

/-- An input's index (R187). -/
def Input.index : Input → Nat
  | .boardEnc => 0
  | .feederEnc f => f.val + 1
  | .standDia s => s.val + 1
  | .standArm s => s.val + 1
  | .splicer s => s.val + 1
  | .jointSight f => f.val + 1
  | .zoneTemp z => z.val + 1
  | .glueFb g => g.val + 1
  | .defect d => d.val + 1
  | .knife => 0
  | .slitter => 0
  | .stacker => 0

/-- The input with a role code and an index (R174, R187). -/
def inputOfCodes (r i : Nat) : Option Input :=
  (InRole.all.find? (fun x => decide (x.code = r))).bind (fun x => inputOf x i)

/-- The OUT role's code (R174). -/
def Output.roleCode : Output → Nat
  | .driveCeiling => 1
  | .splicer _ => 2
  | .glueSet _ => 3
  | .wrapSet _ => 4
  | .zoneSet _ => 5
  | .slitter => 6
  | .knife => 7
  | .stacker => 8
  | .rejectGate => 9

/-- An output's index (R187). -/
def Output.index : Output → Nat
  | .driveCeiling => 0
  | .splicer s => s.val + 1
  | .glueSet g => g.val + 1
  | .wrapSet w => w.val + 1
  | .zoneSet z => z.val + 1
  | .slitter => 0
  | .knife => 0
  | .stacker => 0
  | .rejectGate => 0

/-- The output with a role code and an index (R174, R187). -/
def outputOfCodes (r i : Nat) : Option Output :=
  match r with
  | 1 => if i = 0 then some .driveCeiling else none
  | 2 => (place 5 i).map .splicer
  | 3 => (place 3 i).map .glueSet
  | 4 => (place 3 i).map .wrapSet
  | 5 => (place 8 i).map .zoneSet
  | 6 => if i = 0 then some .slitter else none
  | 7 => if i = 0 then some .knife else none
  | 8 => if i = 0 then some .stacker else none
  | 9 => if i = 0 then some .rejectGate else none
  | _ => none

/-- The entry kind's code (R174). -/
def EntryKind.code : EntryKind → Nat
  | .spliceJoint _ _ => 1
  | .defect => 2
  | .bond => 3
  | .mark _ => 4
  | .swapZone => 5
  | .offGrade _ _ => 6

/-! ## Fields of replies and notices (R193) -/

/-- One 32-bit value. -/
def w32 (n : Nat) : List Byte := bytesOf 4 n

/-- One signed 32-bit value. -/
def i32 (x : Int) : List Byte := bytesOf 4 (x % 2 ^ 32).toNat

/-- One 64-bit value, the high word first. -/
def w64 (n : Nat) : List Byte := bytesOf 8 n

/-- One signed 64-bit value. -/
def i64 (x : Int) : List Byte := bytesOf 8 (x % 2 ^ 64).toNat

/-- yes or no, as a 32-bit value. -/
def flag (b : Bool) : List Byte := w32 (codeBool b)

/-- An optional 32-bit value: every bit set when absent. -/
def opt32 : Option Nat → List Byte
  | none => w32 (2 ^ 32 - 1)
  | some n => w32 n

/-- An optional 64-bit value: every bit set when absent. -/
def opt64 : Option Nat → List Byte
  | none => w64 (2 ^ 64 - 1)
  | some n => w64 n

/-- An optional value that can hold every bit set: a presence field, then the value or 0. -/
def present32 : Option Nat → List Byte
  | none => w32 0 ++ w32 0
  | some n => w32 1 ++ w32 n

/-- An optional signed 32-bit value, with its presence field. -/
def presentI32 : Option Int → List Byte
  | none => w32 0 ++ w32 0
  | some x => w32 1 ++ i32 x

/-- A set of yes-or-no values as one number, the first in bit 0. -/
def bitsOf : List Bool → Nat
  | [] => 0
  | b :: bs => codeBool b + 2 * bitsOf bs

/-! ## Fields of requests (R193) -/

/-- The fields of a payload, by their widths in bytes; none when bytes are wanting or left over. -/
def fieldsOf : List Nat → List Byte → Option (List Nat)
  | [], [] => some []
  | [], _ :: _ => none
  | w :: ws, bs =>
    if bs.length < w then none
    else (fieldsOf ws (bs.drop w)).map (fun l => natOf (bs.take w) :: l)

/-- Byte `k` of a request's payload, or the free value where it was not sent (log 6). -/
def Request.byte (r : Request) (k : Nat) : Byte :=
  (r.payload[k]?).getD (Config.missingRequestByte r.stamp k)

/-- The request code, where the payload holds one and a request number (R174). -/
def Request.code (r : Request) : Option Nat :=
  if r.payload.length < 3 then none else some (natOf (r.payload.take 1))

/-- The code byte that the reply echoes (R195). -/
def Request.codeByte (r : Request) : Byte := r.byte 0

/-- The request number that the reply echoes (R195). -/
def Request.number (r : Request) : BitVec 16 := BitVec.ofNat 16 (natOf [r.byte 1, r.byte 2])

/-- The request's arguments (R174). -/
def Request.args (r : Request) : List Byte := r.payload.drop 3

/-! ## Commands and notices as payloads -/

/-- The output a command goes through (R173). -/
def Command.output : Command → Output
  | .driveCeiling _ => .driveCeiling
  | .go s _ _ => .splicer s
  | .abort s _ => .splicer s
  | .glueSet g _ => .glueSet g
  | .wrapSet w _ => .wrapSet w
  | .zoneSet z _ => .zoneSet z
  | .preset _ => .slitter
  | .swap _ => .slitter
  | .changeLength _ _ => .knife
  | .divert _ => .rejectGate
  | .eject _ => .stacker
  | .orderEnd _ => .stacker

/-- The command goes to the urgent queue, and not to the normal one (R173). -/
def Command.urgent : Command → Bool
  | .glueSet _ _ => false
  | .wrapSet _ _ => false
  | .zoneSet _ _ => false
  | .preset _ => false
  | .driveCeiling _ => true
  | .go _ _ _ => true
  | .abort _ _ => true
  | .swap _ => true
  | .changeLength _ _ => true
  | .divert _ => true
  | .eject _ => true
  | .orderEnd _ => true

/-- The command is a setpoint command, and not a sequence command (R173). -/
def Command.setpoint : Command → Bool
  | .driveCeiling _ => true
  | .glueSet _ _ => true
  | .wrapSet _ _ => true
  | .zoneSet _ _ => true
  | .preset _ => true
  | .swap _ => true
  | .go _ _ _ => false
  | .abort _ _ => false
  | .changeLength _ _ => false
  | .divert _ => false
  | .eject _ => false
  | .orderEnd _ => false

/-- The command code (R173). -/
def Command.code : Command → Nat
  | .driveCeiling _ => 16
  | .go _ _ _ => 33
  | .abort _ _ => 34
  | .glueSet _ _ => 49
  | .wrapSet _ _ => 50
  | .zoneSet _ _ => 51
  | .preset _ => 65
  | .swap _ => 66
  | .changeLength _ _ => 81
  | .divert _ => 97
  | .eject _ => 113
  | .orderEnd _ => 114

/-- The command's arguments, as 32-bit values (R173). Knife cut numbers are the knife's own, modulo 65,536 (R129, R138). -/
def Command.arguments : Command → List Nat
  | .driveCeiling v => [v]
  | .go _ arm seq => [arm.code, seq.toNat]
  | .abort _ seq => [seq.toNat]
  | .glueSet _ v => [v]
  | .wrapSet _ v => [v]
  | .zoneSet _ v => [v]
  | .preset v => [v]
  | .swap v => [v]
  | .changeLength l none => [l]
  | .changeLength l (some n) => [l, n % 65536]
  | .divert n => [n % 65536]
  | .eject t => [t]
  | .orderEnd t => [t]

/-- A COMMAND payload (R173). -/
def Command.payload (c : Command) (channel : Byte) : List Byte :=
  [channel, BitVec.ofNat 8 c.code] ++ c.arguments.flatMap w32

/-- A NOTICE payload (R205, R193). -/
def Notice.payload : Notice → List Byte
  | .alarm w count stamp => [1] ++ w32 w.idx.val ++ w32 count ++ w64 stamp
  | .orderDone tag short withdrawn gradeLate aborted =>
    [2] ++ w32 tag ++ w32 (bitsOf [short, withdrawn, gradeLate, aborted])
  | .mark number id cut culled => [3] ++ w32 number ++ w32 id ++ w32 cut ++ flag culled

/-- An originated frame as its transmission begins: source the node number, hop 63, the transmit sequence's value (R179). -/
def Message.frame (node : Nat) (seq : Byte) (m : Message) : Frame :=
  let base : Frame :=
    { dest := 0, src := BitVec.ofNat 8 node, kind := kindNotice, hop := 63, seq := seq, payload := [], check := 0 }
  match m with
  | .command c n ch => { base with dest := n, kind := kindCommand, payload := c.payload ch }.checked
  | .reply dest code number status results =>
    { base with dest := dest, kind := kindReply,
                payload := [code] ++ bytesOf 2 number.toNat ++ [BitVec.ofNat 8 status.code] ++ results }.checked
  | .notice n => { base with payload := n.payload }.checked

/-! ## Samples (R173) -/

/-- The values of a payload: as many whole 32-bit values as `n` says. -/
def wordsOf : Nat → List Byte → List Word
  | 0, _ => []
  | n + 1, bs => BitVec.ofNat 32 (natOf (bs.take 4)) :: wordsOf n (bs.drop 4)

/-- The values of a SAMPLE payload that passes R190's checks for a role that carries `want` values: a value count of 1 to 6,
a length of 2 + 4 x the count, and the role's own count. -/
def sampleValues (want : Nat) (payload : List Byte) : Option (List Word) :=
  match payload with
  | _ :: n :: rest =>
    if 1 ≤ n.toNat ∧ n.toNat ≤ 6 ∧ rest.length = 4 * n.toNat ∧ n.toNat = want then some (wordsOf n.toNat rest) else none
  | _ => none

end Sys2Proof.Machine
end

