-- ==== Sys2Proof/Machine/Ring.lean ====
section
/-! DEFINITION. RIF's queues without their alarms: the two originate queues and their waiting orders, the choice of the next
frame, and the places a frame takes (R178 to R182). -/

namespace Sys2Proof.Machine

/-- An originate queue: `true` is the urgent one, `false` the normal one (R180). -/
def queueOf (p : Part) (u : Bool) : List Message := if u then p.rif.urgent else p.rif.normal

/-- The frames waiting for a queue, in the order in which they began to wait (R182). -/
def waitOf (p : Part) (u : Bool) : List Waiting := if u then p.rif.urgentWait else p.rif.normalWait

/-- The part with a queue replaced. -/
def setQueue (p : Part) (u : Bool) (q : List Message) : Part :=
  if u then { p with rif := { p.rif with urgent := q } } else { p with rif := { p.rif with normal := q } }

/-- The part with a waiting order replaced. -/
def setWait (p : Part) (u : Bool) (w : List Waiting) : Part :=
  if u then { p with rif := { p.rif with urgentWait := w } } else { p with rif := { p.rif with normalWait := w } }

/-- A queue's capacity: 16 and 32 frames (R180). -/
def queueCap (u : Bool) : Nat := if u then Config.urgentCap else Config.normalCap

/-- The queue has room (R180). -/
def hasRoom (p : Part) (u : Bool) : Bool := decide ((queueOf p u).length < queueCap u)

/-- A frame posted now enters at the tail: the queue has room and no frame is waiting for it (R180). -/
def canEnter (p : Part) (u : Bool) : Bool := hasRoom p u && (waitOf p u).isEmpty

/-- The owner of a frame that enters its queue is told: RSC starts the ACCEPTED limit of a GO then (R182, R95). -/
def tellOwner (m : Message) (p : Part) : Part :=
  match m with
  | .command (.go s _ seq) _ _ =>
    let st := standOf p s
    if st.splice = .sent ∧ st.recent.map GoRecord.seq = some seq then
      setStandRec p s { st with acceptBy := some (p.time + Config.acceptedLimit) }
    else p
  | _ => p

/-- The oldest waiting frame enters its queue, when the queue has room (R182). -/
def enterOldest (u : Bool) (p : Part) : Part :=
  match waitOf p u with
  | [] => p
  | w :: ws =>
    if hasRoom p u then tellOwner w.msg (setWait (setQueue p u (queueOf p u ++ [w.msg])) u ws) else p

/-- `n` entries of waiting frames. -/
def enterTimes (u : Bool) : Nat → Part → Part
  | 0, p => p
  | n + 1, p => enterTimes u n (enterOldest u p)

/-- Waiting frames enter their queue, the oldest first, while it has room (R182: at once when a place is freed). -/
def refill (u : Bool) (p : Part) : Part := enterTimes u (waitOf p u).length p

/-- Where a posted frame went: into its queue, into the waiting order, or nowhere (R182, R183). -/
inductive Placed where
  | entered | waiting | discarded
  deriving DecidableEq, Repr

/-- A frame takes its place: at the tail of its queue, or of the waiting order (R180, R182). -/
def placeMessage (u : Bool) (m : Message) (p : Part) : Part × Placed :=
  if canEnter p u then (setQueue p u (queueOf p u ++ [m]), .entered)
  else (setWait p u (waitOf p u ++ [{ msg := m, late := false }]), .waiting)

/-- A pending setpoint command with this coalescing key (R181). -/
def hasKey (o : Output) : Message → Bool
  | .command c _ _ => c.setpoint && decide (c.output = o)
  | _ => false

/-- A list with its first element that meets `c` replaced. -/
def replaceFirst {α : Type} (c : α → Bool) (x : α) : List α → List α
  | [] => []
  | y :: ys => if c y then x :: ys else y :: replaceFirst c x ys

/-- A setpoint command takes its place, replacing the pending one with its key as R181 gives. -/
def placeSetpoint (o : Output) (u : Bool) (m : Message) (p : Part) : Part :=
  if (queueOf p u).any (hasKey o) then setQueue p u (replaceFirst (hasKey o) m (queueOf p u))
  else if (queueOf p (!u)).any (hasKey o) then
    (placeMessage u m (refill (!u) (setQueue p (!u) ((queueOf p (!u)).eraseP (hasKey o))))).1
  else if (waitOf p u).any (fun w => hasKey o w.msg) then
    setWait p u (replaceFirst (fun w => hasKey o w.msg) { msg := m, late := false } (waitOf p u))
  else if (waitOf p (!u)).any (fun w => hasKey o w.msg) then
    (placeMessage u m (setWait p (!u) ((waitOf p (!u)).eraseP (fun w => hasKey o w.msg)))).1
  else (placeMessage u m p).1

/-- An originated frame's transmission begins: it takes the transmit sequence's value (R179). -/
def transmit (m : Message) (p : Part) : Part :=
  { p with rif := { p.rif with port := some (m.frame (p.node.getD 0) p.rif.txSeq), txSeq := p.rif.txSeq + 1 } }

/-- The arbiter's choice (R178). The chosen frame leaves its queue or buffer, and a waiting frame takes the place it frees;
with all three empty the port becomes IDLE. The answer says whether a forwarded frame was chosen. -/
def arbitrate (p : Part) : Part × Bool :=
  match p.rif.urgent with
  | m :: rest => (refill true (transmit m (setQueue p true rest)), false)
  | [] =>
    match p.rif.forward, p.rif.normal with
    | f :: fs, [] =>
      ({ p with rif := { p.rif with port := some f, forward := fs, forwardCount := min 4 (p.rif.forwardCount + 1) } }, true)
    | f :: fs, m :: rest =>
      if p.rif.forwardCount = 4 then
        (refill false (transmit m { p with rif := { p.rif with normal := rest, forwardCount := 0 } }), false)
      else
        ({ p with rif := { p.rif with port := some f, forward := fs, forwardCount := min 4 (p.rif.forwardCount + 1) } }, true)
    | [], m :: rest =>
      (refill false (transmit m { p with rif := { p.rif with normal := rest, forwardCount := 0 } }), false)
    | [], [] => ({ p with rif := { p.rif with port := none } }, false)

/-- The frame is a reply. -/
def Message.isReply : Message → Bool
  | .reply _ _ _ _ _ => true
  | _ => false

/-- The frame is a command. -/
def Message.isCommand : Message → Bool
  | .command _ _ _ => true
  | _ => false

/-- MU is free: no reply of an earlier request is waiting for room in the normal queue (R195). -/
def muFree (p : Part) : Bool := !(p.rif.normalWait.any (fun w => w.msg.isReply))

/-- DEC's pending change list: the CHANGE LENGTH commands that wait (R130). -/
def changeList (p : Part) : List Waiting :=
  p.rif.urgentWait.filter (fun w => match w.msg with | .command (.changeLength _ _) _ _ => true | _ => false)

/-- DEC's divert list: the DIVERT commands that wait (R130). -/
def divertList (p : Part) : List Waiting :=
  p.rif.urgentWait.filter (fun w => match w.msg with | .command (.divert _) _ _ => true | _ => false)

/-- SC's command list: the EJECT and ORDER END commands that wait (R152). -/
def stackerList (p : Part) : List Waiting :=
  p.rif.urgentWait.filter
    (fun w => match w.msg with | .command (.eject _) _ _ => true | .command (.orderEnd _) _ _ => true | _ => false)

/-- RIF's setpoint hold: the setpoint commands that wait for either queue (R182). -/
def setpointHold (p : Part) : List Waiting :=
  (p.rif.urgentWait ++ p.rif.normalWait).filter (fun w => match w.msg with | .command c _ _ => c.setpoint | _ => false)

/-- The number of a frame that waits as a GO of the stand to an arm that is no longer PREPARED (R95). -/
def spoiledGo (p : Part) (s : Fin 5) (w : Waiting) : Option Byte :=
  match w.msg with
  | .command (.go t arm seq) _ _ => if t = s ∧ ((standOf p s).arm arm).state ≠ .prepared then some seq else none
  | _ => none

/-- RSC withdraws each held GO of a stand whose own arm is no longer PREPARED: it leaves the waiting order, and the frames behind it close up (R95, R182).
That a GO of an earlier number is tested by its own arm, like the most recent one, is the model's reading (log 38). -/
def withdrawGo (s : Fin 5) (p : Part) : Part := setWait p true (p.rif.urgentWait.filter (fun w => (spoiledGo p s w).isNone))

/-- RSC withdraws a held ABORT of a stand for a sequence number (R98, R100). -/
def withdrawAbort (s : Fin 5) (seq : Byte) (p : Part) : Part :=
  setWait p true
    (p.rif.urgentWait.filter
      (fun w => match w.msg with | .command (.abort t n) _ _ => !(decide (t = s) && decide (n = seq)) | _ => true))

end Sys2Proof.Machine
end

