-- ==== Sys2Proof/Machine/Flags.lean ====
section
/-! DEFINITION. The alarm latches, the live counters and the notices (R201 to R206), and with them every post of a frame:
a post on an IDLE port starts a transmission, which may raise a counter (R178, R177). -/

namespace Sys2Proof.Machine

/-! ## Latches and counters -/

/-- The alarm's record (R201). -/
def alarmOf (p : Part) (w : Alarm) : AlarmRecord := p.mu.alarms.get w.idx

/-- The alarm is enabled in the notice mask (R204). -/
def enabled (p : Part) (w : Alarm) : Bool := p.mu.mask.getLsbD w.idx.val

/-- One occurrence of an alarm: the latch is set, the count rises to at most 255, the stamp becomes the present generation
(R201). The answer holds the ALARM notice to post, where the latch was clear and the alarm is enabled. -/
def occur (w : Alarm) (p : Part) : Part × Option Notice :=
  let r := alarmOf p w
  let n := min 255 (r.count + 1)
  ({ p with mu := { p.mu with alarms := upd p.mu.alarms w.idx { latch := true, count := n, stamp := p.mu.generation } } },
   if !r.latch && enabled p w then some (.alarm w n p.mu.generation) else none)

/-- The counter's record (R206). -/
def counterOf (p : Part) (c : Counter) : CounterRecord := p.mu.counters.get c.idx

/-- A live counter raised by `n` (R206). The answer says whether this rise set the saturation flag. -/
def bump (c : Counter) (n : Nat) (p : Part) : Part × Bool :=
  let r := counterOf p c
  if r.value + n ≤ c.max then
    ({ p with mu := { p.mu with counters := upd p.mu.counters c.idx { r with value := r.value + n } } }, false)
  else
    ({ p with mu := { p.mu with counters := upd p.mu.counters c.idx { value := c.max, saturated := true } } }, !r.saturated)

/-- A notice is lost (R182): its counter rises. Where that latches COUNTER_SATURATED, the ALARM notice of the latch meets the
same full queue and is lost too, with the counter then at its maximum and its flag set, so that nothing more follows. -/
def loseNotice (p : Part) : Part :=
  let r := bump .noticesLost 1 p
  if r.2 then (occur .counterSaturated r.1).1 else r.1

/-- A notice enters the normal queue, or is discarded when that queue is full or frames wait for it (R182, R205). A part
without a node number originates no frame (R171). -/
def queueNotice (n : Notice) (p : Part) : Part :=
  if p.node.isNone then p
  else if canEnter p false then setQueue p false (queueOf p false ++ [.notice n]) else loseNotice p

/-- An alarm is latched, its notice queued. -/
def latchQueued (w : Alarm) (p : Part) : Part :=
  match occur w p with
  | (q, none) => q
  | (q, some n) => queueNotice n q

/-- A live counter rises, and COUNTER_SATURATED is latched where the rise sets its flag (R206). -/
def raiseQueued (c : Counter) (n : Nat) (p : Part) : Part :=
  match bump c n p with
  | (q, true) => latchQueued .counterSaturated q
  | (q, false) => q

/-! ## The transmit port -/

/-- The arbiter takes the next frame, and a forwarded frame whose transmission begins is counted (R178, R177). -/
def nextFrame (p : Part) : Part :=
  match arbitrate p with
  | (q, true) => raiseQueued .framesForwarded 1 q
  | (q, false) => q

/-- An IDLE port takes a frame that has become available (R178). -/
def kick (p : Part) : Part :=
  match p.rif.port with
  | none => nextFrame p
  | some _ => p

/-- An alarm is latched (R201). -/
def latch (w : Alarm) (p : Part) : Part := kick (latchQueued w p)

/-- A live counter rises (R206). -/
def raise (c : Counter) (n : Nat) (p : Part) : Part := kick (raiseQueued c n p)

/-- A notice is posted (R205). -/
def postNotice (n : Notice) (p : Part) : Part := kick (queueNotice n p)

/-! ## Posts -/

/-- A setpoint command is posted through its role's OUT entry; without one it is discarded (R181, R183). -/
def postSetpoint (c : Command) (p : Part) : Part :=
  match outEntry p c.output with
  | none => p
  | some e => kick (placeSetpoint c.output c.urgent (.command c e.node e.channel) p)

/-- A sequence command is posted through its role's OUT entry; without one it is discarded (R182, R183). -/
def postSequence (c : Command) (p : Part) : Part × Placed :=
  match outEntry p c.output with
  | none => (p, .discarded)
  | some e =>
    let r := placeMessage c.urgent (.command c e.node e.channel) p
    (kick r.1, r.2)

/-- A reply of an executed request: it enters the normal queue or waits in MU (R182, R195). -/
def postReply (r : Request) (st : Status) (results : List Byte) (p : Part) : Part :=
  kick (placeMessage false (.reply r.src r.codeByte r.number st results) p).1

/-- A BUSY reply: it enters the normal queue or is discarded (R182, R194). -/
def postBusy (r : Request) (p : Part) : Part :=
  if canEnter p false then kick (setQueue p false (queueOf p false ++ [.reply r.src r.codeByte r.number .busy []])) else p

end Sys2Proof.Machine
end

