-- ==== Sys2Proof/Machine/Governor.lean ====
section
/-! DEFINITION. SG: the contribution table, the effective ceiling and its posts (R159 to R170). -/

namespace Sys2Proof.Machine

/-- The least of the line max and every active contribution (R161). -/
def ceilingOf (g : Sg) : Nat :=
  g.slots.toList.foldl (fun m c => if c.active then min m c.value else m) g.lineMax

/-- DRIVE_CEILING is posted and recorded as the last posted ceiling (R163, R164). -/
def postCeiling (v : Nat) (p : Part) : Part :=
  postSetpoint (.driveCeiling v) { p with sg := { p.sg with lastPosted := some v } }

/-- A write to a slot (R160): the slot takes its contents, the effective ceiling is computed again, and DRIVE_CEILING is posted
where it differs from the one before. A write of what the slot holds changes nothing. -/
def writeSlot (slot : Slot) (c : Contribution) (p : Part) : Part :=
  if p.sg.slots.get slot.idx = c then p
  else
    let g : Sg := { p.sg with slots := upd p.sg.slots slot.idx c }
    let e := ceilingOf g
    if inRun p && !decide (p.sg.effective = some e) then postCeiling e { p with sg := { g with effective := some e } }
    else { p with sg := g }

/-- An activation, or a change of value while active, clamped to 0 to the line max (R160). -/
def activate (slot : Slot) (v : Nat) (p : Part) : Part :=
  writeSlot slot { active := true, value := min v p.sg.lineMax } p

/-- A deactivation (R160). -/
def deactivate (slot : Slot) (p : Part) : Part :=
  writeSlot slot { active := false, value := 0 } p

/-- The slot is active (R159). -/
def slotActive (p : Part) (slot : Slot) : Bool := (p.sg.slots.get slot.idx).active

/-- A contribution held at the crawl speed while `c` holds (R159). -/
def holdAtCrawl (slot : Slot) (c : Bool) (p : Part) : Part :=
  if c then activate slot p.sg.crawl p else deactivate slot p

/-- SG's run-state made empty, at the end of a run (R170). -/
def Sg.ended (g : Sg) : Sg :=
  { g with slots := Sg.noSlots, effective := none, lastPosted := none, nextRefresh := none }

/-- SG at RUN entry: the table empty, the effective ceiling at the line max and posted, the refresh timer started (R165). -/
def enterRunSg (p : Part) : Part :=
  postCeiling p.sg.lineMax
    { p with sg := { p.sg with slots := Sg.noSlots, effective := some p.sg.lineMax,
                               nextRefresh := some (p.time + p.sg.refreshPeriod) } }

/-- RIF's test of the lost flag (R185): set when the node of any OUT entry is absent from the roster. That ACTUATOR_LOST is latched before its contribution is
written is the model's choice (log 33). -/
def testLost (p : Part) : Part :=
  let absent := p.si.outMap.any (fun e => !(p.rif.roster.any (fun r => decide (r.node = e.node.toNat))))
  if inRun p then
    if absent && !p.rif.lost then
      activate .actuatorLost p.sg.crawl (latch .actuatorLost { p with rif := { p.rif with lost := true } })
    else if !absent && p.rif.lost then
      deactivate .actuatorLost { p with rif := { p.rif with lost := false } }
    else p
  else p

end Sys2Proof.Machine
end

