-- ==== Sys2Proof/Machine/TrackList.lean ====
section
/-! DEFINITION. WT's tracking list: its order, its capacity, the fallback, closing and reopening of zones, binding and
retirement (R21 to R30, R37, R38). Each operation that changes a zone answers the changes it hands to OS (R30). -/

namespace Sys2Proof.Machine

/-! ## Zones -/

/-- A zone: its start, and its extent where it is closed (R25). -/
structure Zone where
  start : Nat
  extent : Option Nat
  deriving DecidableEq, Repr

/-- A change of an entry's zone, with the zone before and after it and the entry's cull value (R30). -/
structure Change where
  before : Option Zone
  after : Option Zone
  cull : Bool
  deriving DecidableEq, Repr

/-- The changes to hand on for one entry whose zone was `before` and is `after`: none where the span is as it was (R30). -/
def zoneChange (cull : Bool) (before after : Option Zone) : List Change :=
  if before = after then [] else [{ before := before, after := after, cull := cull }]

/-- The entry's zone. -/
def TrackEntry.zone (e : TrackEntry) : Zone := { start := e.start, extent := e.extent }

/-- The zone meets the span [x, y) (R26). -/
def Zone.meets (z : Zone) (x y : Nat) : Bool :=
  match z.extent with
  | none => decide (z.start < y)
  | some e => if e = 0 then decide (x ≤ z.start) && decide (z.start < y) else decide (z.start < y) && decide (x < z.start + e)

/-- Two closed zones [s1, t1) and [s2, t2) overlap (R26). -/
def spansOverlap (s1 t1 s2 t2 : Nat) : Bool := decide (s1 < t2) && decide (s2 < t1)

/-- The end of a closed entry's zone; the start of an open one. -/
def TrackEntry.stop (e : TrackEntry) : Nat := e.start + e.extent.getD 0

/-- The entry is closed (R25). -/
def TrackEntry.closed (e : TrackEntry) : Bool := e.extent.isSome

/-- The entry is bound: every board-origin entry is, and a feeder-origin entry once its binding is (R23, R24). -/
def TrackEntry.isBound (e : TrackEntry) : Bool :=
  match e.binding with
  | none => true
  | some b => b.bound

/-- The entry is an unbound entry of feeder `f`. -/
def TrackEntry.unboundOf (e : TrackEntry) (f : Fin 2) : Bool :=
  match e.binding with
  | none => false
  | some b => !b.bound && decide (b.feeder = f)

/-- DEFECT, BOND and MARK entries share a bound of their own (R27). -/
def EntryKind.isDbm : EntryKind → Bool
  | .defect => true
  | .bond => true
  | .mark _ => true
  | .spliceJoint _ _ => false
  | .swapZone => false
  | .offGrade _ _ => false

/-- A MARK entry. -/
def EntryKind.isMark : EntryKind → Bool
  | .mark _ => true
  | _ => false

/-! ## Order (R22) -/

/-- `a` stands before `b`: the lower start, and the lower id among equal starts (R22). -/
def entryBefore (a b : TrackEntry) : Bool :=
  decide (a.start < b.start) || (decide (a.start = b.start) && decide (a.id < b.id))

/-- An entry put at its place (R22). -/
def insertEntry (e : TrackEntry) : List TrackEntry → List TrackEntry
  | [] => [e]
  | x :: xs => if entryBefore e x then e :: x :: xs else x :: insertEntry e xs

/-- A list of entries put in its order (R22). -/
def sortEntries : List TrackEntry → List TrackEntry
  | [] => []
  | e :: es => insertEntry e (sortEntries es)

/-- The part with the tracking list replaced, in its order. -/
def setTrack (p : Part) (l : List TrackEntry) : Part :=
  { p with wt := { p.wt with track := sortEntries l } }

/-- The part with entries removed: the ones that remain stay in their order. -/
def keepEntries (c : TrackEntry → Bool) (p : Part) : Part :=
  { p with wt := { p.wt with track := p.wt.track.filter c } }

/-- The entry with an id. -/
def entryById (p : Part) (id : Nat) : Option TrackEntry :=
  p.wt.track.find? (fun e => decide (e.id = id))

/-- The entry with the id of `e` takes the zone and the binding of `e`; its other fields stand from its insertion on (R21). -/
def replaceEntry (e : TrackEntry) (p : Part) : Part :=
  setTrack p (modifyWhere (fun x => decide (x.id = e.id))
    (fun x => { x with start := e.start, extent := e.extent, binding := e.binding }) p.wt.track)

/-! ## Capacity and ids (R21, R27) -/

/-- Free places (R27). -/
def freePlaces (p : Part) : Nat := Config.trackCap - p.wt.track.length

/-- The DEFECT, BOND and MARK count (R27). -/
def dbmCount (p : Part) : Nat := (p.wt.track.filter (fun e => e.kind.isDbm)).length

/-- An insertion of this kind finds its place (R27). -/
def hasPlace (k : EntryKind) (p : Part) : Bool :=
  decide (0 < freePlaces p) && (!k.isDbm || decide (dbmCount p < Config.dbmCap))

/-- The id after `n`: from 65,535 on to 1 (R21). -/
def idAfter (n : Nat) : Nat := if n = 65535 then 1 else n + 1

/-- The first id from `n` on that no entry holds; at most `k` values are stepped over (R21). -/
def freeId (l : List TrackEntry) : Nat → Nat → Nat
  | 0, n => n
  | k + 1, n => if l.any (fun e => decide (e.id = n)) then freeId l k (idAfter n) else n

/-- The id the next entry takes (R21). A held id is stepped over here, at the insertion, and not as next-id steps: the model's choice (log 34). -/
def newId (p : Part) : Nat := freeId p.wt.track p.wt.track.length p.wt.nextId

/-- An entry is inserted at its place, with the next free id (R21, R22). The entry's own id field is replaced. -/
def addEntry (e : TrackEntry) (p : Part) : Part × Nat × List Change :=
  let id := newId p
  let e1 := { e with id := id }
  ({ p with wt := { p.wt with track := insertEntry e1 p.wt.track, nextId := idAfter id } }, id,
   zoneChange e1.cull none (some e1.zone))

/-- The start and extent of a zone whose first point is computed at `x`, with length of web `web`: a start below 0 is 0, and the
extent is reduced by the amount cut off, never below 0 (R23). -/
def placeZone (x : Int) (web : Option Nat) : Nat × Option Nat :=
  if 0 ≤ x then (x.toNat, web) else (0, web.map (fun n => n - (-x).toNat))

/-! ## Defect overlaps and the fallback (R28, R29, R33) -/

/-- A DEFECT entry whose zone overlaps [s, t). -/
def defectOverlaps (s t : Nat) (e : TrackEntry) : Bool :=
  decide (e.kind = .defect) && spansOverlap e.start e.stop s t

/-- The least start and the greatest end of a span and of entries. -/
def unionSpan (s t : Nat) (l : List TrackEntry) : Nat × Nat :=
  l.foldl (fun u e => (min u.1 e.start, max u.2 e.stop)) (s, t)

/-- DEFECT entry `d` takes the zone [s, t) and absorbs every other DEFECT entry the zone overlaps: it grows to the union, and
they are removed (R28, R33). A zone that already is the union is no change (R30). -/
def absorbInto (d : TrackEntry) (s t : Nat) (p : Part) : Part × List Change :=
  let gone := p.wt.track.filter (fun e => defectOverlaps s t e && !decide (e.id = d.id))
  let u := unionSpan s t gone
  let d1 := { d with start := u.1, extent := some (u.2 - u.1) }
  let rest := p.wt.track.filter (fun e => !(defectOverlaps s t e && !decide (e.id = d.id)))
  (setTrack p (modifyWhere (fun e => decide (e.id = d.id)) (fun e => { e with start := d1.start, extent := d1.extent }) rest),
   zoneChange d.cull (some d.zone) (some d1.zone) ++ gone.flatMap (fun e => zoneChange e.cull (some e.zone) none))

/-- The entry can cover a zone of a joint of feeder `f`, or of a board-origin zone (R28). -/
def mayCover (f : Option (Fin 2)) (start : Nat) (e : TrackEntry) : Bool :=
  e.cull && e.closed && !e.kind.isMark
    && (e.isBound || (match f with | some g => e.unboundOf g | none => false)) && decide (e.start ≤ start)

/-- The covering entry: the eligible entry with the greatest start, and the highest id among equal starts (R28), which is the
last eligible one of the list's order. -/
def coveringEntry (f : Option (Fin 2)) (start : Nat) (p : Part) : Option TrackEntry :=
  (p.wt.track.filter (mayCover f start)).getLast?

/-- The entry with its end raised to `t` (R28). The length of web that an unbound closed zone keeps (R23) grows by the rise of the extent, also where R23's cut
had left the extent at 0: the model's choice (log 34). -/
def raiseEnd (t : Nat) (e : TrackEntry) : TrackEntry :=
  { e with extent := some (t - e.start),
           binding := e.binding.map (fun b => { b with web := b.web.map (fun n => n + (t - e.stop)) }) }

/-- The fallback for a closed zone [start, stop) that finds no place (R28, R29). TRACK_OVERFLOW is latched before the covering extension is made and handed
to OS: the model's choice (log 33). -/
def coverZone (f : Option (Fin 2)) (start stop : Nat) (p : Part) : Part × List Change :=
  let p := latch .trackOverflow p
  match coveringEntry f start p with
  | none => (p, [])
  | some e =>
    if stop ≤ e.stop then (p, [])
    else if e.kind = .defect then absorbInto e e.start stop p
    else
      let e1 := raiseEnd stop e
      (replaceEntry e1 p, zoneChange e.cull (some e.zone) (some e1.zone))

/-- A closed entry is inserted, or covered by the fallback; the answer holds its id where it has a place (R28, R29). -/
def insertOrCover (f : Option (Fin 2)) (e : TrackEntry) (p : Part) : Part × Option Nat × List Change :=
  if hasPlace e.kind p then
    let r := addEntry e p
    (r.1, some r.2.1, r.2.2)
  else
    let r := coverZone f e.start e.stop p
    (r.1, none, r.2)

/-- An open entry is inserted, or left out with TRACK_OVERFLOW latched (R29, R35, R127). -/
def insertOpen (e : TrackEntry) (p : Part) : Part × Option Nat × List Change :=
  if hasPlace e.kind p then
    let r := addEntry e p
    (r.1, some r.2.1, r.2.2)
  else (latch .trackOverflow p, none, [])

/-! ## Retirement (R37, R38) -/

/-- The entry is retired once `k` is the end of the last reported cut: bound, closed, no MARK, its end at or below `k` (R37). -/
def retires (k : Nat) (e : TrackEntry) : Bool :=
  e.isBound && e.closed && !e.kind.isMark && decide (e.stop ≤ k)

/-- When WT retires a SPLICE_JOINT entry of a stand, the knife-side grade becomes that entry's grade (R85). -/
def passJoint (p : Part) (e : TrackEntry) : Part :=
  match e.kind with
  | .spliceJoint s g => setStandRec p s { standOf p s with g0 := g }
  | _ => p

/-- WT's test for retirement (R37): at each change of k_last, at each binding and at each closure. Each test is of the whole list (log 34). -/
def retire (p : Part) : Part :=
  match p.dec.kLast with
  | none => p
  | some k => keepEntries (fun e => !retires k e) ((p.wt.track.filter (retires k)).foldl passJoint p)

/-- A cut report removes the MARK entries below the end of its cut (R38). -/
def passMarks (y : Nat) (p : Part) : Part :=
  keepEntries (fun e => !(e.kind.isMark && decide (e.start < y))) p

/-! ## Closing and reopening (R25) -/

/-- A zone is closed with an extent, the travel since it opened; with a travel of 0 it is removed at once (R25, R126). An unbound zone takes its
place from its feeder start afresh (R23). That the closure's test for retirement comes before the change is handed to OS is the model's choice (log 34).
The model's choices (log 28): a travel of more than 2^32 - 1 is kept whole; an unbound zone with a travel above 0 whose extent is 0 after R23's cut is
kept; and a zone whose start was cut at 0 and which was bound while open takes the whole travel from start 0. -/
def closeZone (id extent : Nat) (p : Part) : Part × List Change :=
  match entryById p id with
  | none => (p, [])
  | some e =>
    let placed : Nat × Option Nat :=
      match e.binding with
      | some b => if b.bound then (e.start, some extent) else placeZone (b.start + bridgeK p b.feeder) (some extent)
      | none => (e.start, some extent)
    let e1 :=
      { e with start := placed.1, extent := placed.2, binding := e.binding.map (fun b => { b with web := some extent }) }
    if extent = 0 then
      (keepEntries (fun x => !decide (x.id = id)) p, zoneChange e.cull (some e.zone) none)
    else
      (retire (replaceEntry e1 p), zoneChange e.cull (some e.zone) (some e1.zone))

/-- A closed zone is made open: its extent becomes absent (R127). -/
def openZone (id : Nat) (p : Part) : Part × List Change :=
  match entryById p id with
  | none => (p, [])
  | some e =>
    let e1 := { e with extent := none }
    (replaceEntry e1 p, zoneChange e.cull (some e.zone) (some e1.zone))

/-! ## Moves and bindings (R14, R23, R24) -/

/-- The unbound entry of feeder `f` at its place under K_f (R23). -/
def placedUnder (k : Int) (f : Fin 2) (e : TrackEntry) : TrackEntry :=
  match e.binding with
  | some b =>
    if !b.bound && decide (b.feeder = f) then
      let z := placeZone (b.start + k) b.web
      { e with start := z.1, extent := z.2 }
    else e
  | none => e

/-- The changes between entries and what they became, where a zone moved. -/
def movedZones (old new : List TrackEntry) : List Change :=
  (old.zip new).flatMap (fun x => zoneChange x.1.cull (some x.1.zone) (some x.2.zone))

/-- Every unbound entry of feeder `f` takes its place under the present K_f (R14). -/
def moveUnbound (f : Fin 2) (p : Part) : Part × List Change :=
  let new := p.wt.track.map (placedUnder (bridgeK p f) f)
  (setTrack p new, movedZones p.wt.track new)

/-- The entry bound where it stands (R24). -/
def TrackEntry.bind (e : TrackEntry) : TrackEntry :=
  { e with binding := e.binding.map (fun b => { b with bound := true }) }

/-- An unbound BOND entry whose start has passed the joint detector of its web (R24). -/
def bondPassed (p : Part) (e : TrackEntry) : Bool :=
  decide (e.kind = .bond)
    && (match e.binding with
        | some b => !b.bound && decide (e.start < boardPoint p (.jointDet b.feeder))
        | none => false)

/-- WT binds the BOND entries that have passed their detector, and tests them for retirement (R24). -/
def bindBonds (p : Part) : Part :=
  if p.wt.track.any (bondPassed p) then
    retire { p with wt := { p.wt with track := modifyWhere (bondPassed p) TrackEntry.bind p.wt.track } }
  else p

/-- The joint coordinate of a SPLICE_JOINT entry: its start plus its stand's pre-cull length (R18); absent for other kinds. -/
def jointOf (p : Part) (e : TrackEntry) : Option Nat :=
  match e.kind with
  | .spliceJoint s _ => some (e.start + (standOf p s).preCull)
  | _ => none

/-- An unbound joint of an in-use feeder that has passed its detector beyond W (R19). -/
def jointMissed (p : Part) (e : TrackEntry) : Bool :=
  match e.binding, jointOf p e with
  | some b, some j =>
    !b.bound && feederInUse p b.feeder
      && decide (j + (p.wt.bridges.get b.feeder).window < boardPoint p (.jointDet b.feeder))
  | _, _ => false

/-- WT's look for missed joints: each is bound where it stands, with JOINT_MISSED latched once for each (R19). -/
def missJoints (p : Part) : Part :=
  let missed := p.wt.track.filter (jointMissed p)
  if missed.isEmpty then p
  else
    retire (missed.foldl (fun q _ => latch .jointMissed q)
      { p with wt := { p.wt with track := modifyWhere (jointMissed p) TrackEntry.bind p.wt.track } })

end Sys2Proof.Machine
end

