-- ==== Sys2Proof/Machine/Reels.lean ====
section
/-! DEFINITION. RSC: remaining length, run-out standing, the stand evaluation, planned splices and the grade check
(R71 to R93, R95). The reports and timeouts of the splicer are in Splicer.lean, since they reach OS. -/

namespace Sys2Proof.Machine

/-! ## Remaining length (R77 to R80) -/

/-- The remaining length of a running reel from the averaged diameter `d`, core `core` and caliper `c` (R78). -/
def reelLength (d core c : Nat) : Nat :=
  if d ≤ core then 0 else (d * d - core * core) * 7854 / (100 * c)

/-- R: absent while the running arm is NONE, while its record lacks a caliper or a core, and while the history is empty (R78). -/
def Stand.remaining (st : Stand) : Option Nat :=
  match st.running with
  | none => none
  | some w =>
    match meanNat st.history, (st.arm w).core, (st.arm w).caliper with
    | some d, some core, some c => some (reelLength d core c)
    | _, _, _ => none

/-- R_eff: R while the diameter input is fresh, reckoned down from the reckoning reference while it is stale (R79). -/
def effective (p : Part) (s : Fin 5) : Option Nat :=
  if inputStale p (.standDia s) then
    match (standOf p s).reckon with
    | none => none
    | some (r, at0) => some (r - (standRef p s - at0))
  else (standOf p s).remaining

/-- The lead: the web that passes the stand in one splice time, rounded up (R81). -/
def lead (p : Part) (s : Fin 5) : Nat := ceilDiv (standSpeed p s * (standOf p s).spliceTime) 1000

/-- The run-out standings (R81). -/
inductive Standing where
  | far | near | due | unknown
  deriving DecidableEq, Repr

/-- The run-out standing (R81). -/
def standing (p : Part) (s : Fin 5) : Standing :=
  match effective p s with
  | none => .unknown
  | some r =>
    let st := standOf p s
    if r ≤ st.reserve + lead p s then .due
    else if r ≤ st.reserve + lead p s + st.arming then .near
    else .far

/-- The standing is NEAR or DUE. -/
def Standing.close (x : Standing) : Bool := decide (x = .near) || decide (x = .due)

/-! ## Posting a GO (R95) -/

/-- RSC posts GO to the arm: the next sequence number, the record of the GO, the state SENT; the ACCEPTED limit starts when the
GO enters the urgent queue, or at once when the role has no OUT entry (R95). -/
def postGo (s : Fin 5) (w : Arm) (p : Part) : Part :=
  let st := standOf p s
  let p1 := setStandRec p s
    { st with splice := .sent, nextSeq := st.nextSeq + 1, acceptBy := none, doneBy := none,
              recent := some { seq := st.nextSeq, arm := w, grade := (st.arm w).grade, isOpen := true } }
  let r := postSequence (.go s w st.nextSeq) p1
  match r.2 with
  | .waiting => r.1
  | _ => setStandRec r.1 s { standOf r.1 s with acceptBy := some (p.time + Config.acceptedLimit) }

/-! ## The stand evaluation (R82 to R84, R91, R92) -/

/-- REEL_EXHAUSTED: R_eff is 0 and the exhausted flag is clear (R80). -/
def testExhausted (s : Fin 5) (p : Part) : Part :=
  if decide (effective p s = some 0) && !(standOf p s).exhausted then
    latch .reelExhausted (setStandRec p s { standOf p s with exhausted := true })
  else p

/-- The region of an order, by its tag (R43). -/
def regionOf (p : Part) (tag : Nat) : Option Region :=
  p.os.regions.find? (fun r => decide (r.order.map Order.tag = some tag))

/-- A change of the region of an order, by its tag. -/
def modifyRegion (tag : Nat) (f : Region → Region) (p : Part) : Part :=
  { p with os := { p.os with regions := modifyWhere (fun r => decide (r.order.map Order.tag = some tag)) f p.os.regions } }

/-- The grade-late flag of a region is set (R47). -/
def setGradeLate (tag : Nat) (p : Part) : Part := modifyRegion tag (fun r => { r with gradeLate := true }) p

/-- A plan is hopeless: its region has a committed end at or below the point at the stand, or has left the list (R92). -/
def hopeless (p : Part) (s : Fin 5) (pl : Plan) : Bool :=
  match regionOf p pl.tag with
  | none => true
  | some r =>
    match r.stop with
    | none => false
    | some e => decide (e ≤ standPoint p s)

/-- The test of the plan for cancellation: a hopeless plan becomes absent, GRADE_NOT_READY is latched and the region's
grade-late flag is set (R92). -/
def testHopeless (s : Fin 5) (p : Part) : Part :=
  match (standOf p s).plan with
  | none => p
  | some pl =>
    if hopeless p s pl then
      latch .gradeNotReady (setGradeLate pl.tag (setStandRec p s { standOf p s with plan := none }))
    else p

/-- The plan's trigger is reached: the point at the stand plus the lead is at or beyond J (R91). -/
def triggerReached (p : Part) (s : Fin 5) (pl : Plan) : Bool := decide (pl.target ≤ standPoint p s + lead p s)

/-- The test of the plan's trigger: a WAITING plan whose trigger is reached becomes REACHED. The answer says whether this
evaluation is the first to find it so (R91). -/
def testTrigger (s : Fin 5) (p : Part) : Part × Bool :=
  match (standOf p s).plan with
  | none => (p, false)
  | some pl =>
    if !pl.reached && triggerReached p s pl then
      (setStandRec p s { standOf p s with plan := some { pl with reached := true } }, true)
    else (p, false)

/-- The arm a GO may name now: the ready arm, PREPARED, with the splice state IDLE or ARMED and no arm report awaited (R83). -/
def goArm (st : Stand) : Option Arm :=
  if (st.splice = .idle ∨ st.splice = .armed) ∧ st.awaiting = false then
    match st.readyArm with
    | some w => if (st.arm w).state = .prepared then some w else none
    | none => none
  else none

/-- The GO is a planned splice: a plan is held, its trigger has been reached and the arm holds its grade (R83). -/
def plannedGo (st : Stand) (w : Arm) : Bool :=
  match st.plan with
  | some pl => pl.reached && decide ((st.arm w).grade = pl.grade)
  | none => false

/-- The decision on a GO (R83); SPLICE_NOT_READY is latched at the evaluation that first finds the trigger reached when no planned
GO can be posted (R91). That it is latched before a run-out GO of the same evaluation is posted is the model's choice (log 33). -/
def decideGo (s : Fin 5) (first : Bool) (p : Part) : Part :=
  match goArm (standOf p s) with
  | some w =>
    if plannedGo (standOf p s) w then postGo s w p
    else
      let q := if first then latch .spliceNotReady p else p
      if standing q s = .due then postGo s w q else q
  | none => if first then latch .spliceNotReady p else p

/-- ARMED when the standing is NEAR or DUE or a plan is held, IDLE otherwise, while no GO is in flight (R82). -/
def settleSplice (s : Fin 5) (p : Part) : Part :=
  let st := standOf p s
  if st.splice = .idle ∨ st.splice = .armed then
    setStandRec p s
      { st with splice := if (standing p s).close || st.plan.isSome then .armed else .idle }
  else p

/-- A splice is in flight: SENT or ACTIVE. -/
def Stand.inFlight (st : Stand) : Bool := decide (st.splice = .sent) || decide (st.splice = .active)

/-- The ready arm exists and is PREPARED. -/
def Stand.readyPrepared (st : Stand) : Bool :=
  match st.readyArm with
  | some w => decide ((st.arm w).state = .prepared)
  | none => false

/-- The first case of R84: DUE, nothing in flight, no report awaited, and no prepared ready arm. -/
def crawlCase (p : Part) (s : Fin 5) : Bool :=
  let st := standOf p s
  decide (standing p s = .due) && !st.inFlight && !st.awaiting && !st.readyPrepared

/-- A plan is held whose trigger is reached, or lies within the arming distance (R84). -/
def planNear (p : Part) (s : Fin 5) : Bool :=
  match (standOf p s).plan with
  | none => false
  | some pl => pl.reached || decide (pl.target ≤ standPoint p s + lead p s + (standOf p s).arming)

/-- The second case of R84. -/
def holdCase (p : Part) (s : Fin 5) : Bool :=
  let st := standOf p s
  (standing p s).close || planNear p s || st.inFlight || st.awaiting

/-- The stand writes its SPLICE contribution; SPLICE_NOT_READY is latched on entry into the first case (R84), before the write: the model's choice (log 33). -/
def writeSplice (s : Fin 5) (p : Part) : Part :=
  let st := standOf p s
  if crawlCase p s then
    let q := setStandRec p s { st with crawling := true }
    activate (.splice s) p.sg.crawl (if st.crawling then q else latch .spliceNotReady q)
  else
    let q := setStandRec p s { st with crawling := false }
    if holdCase p s then activate (.splice s) st.maxSpeed q else deactivate (.splice s) q

/-- A stand evaluation (R82), for a stand in use, in RUN. -/
def evalStand (s : Fin 5) (p : Part) : Part :=
  if inRun p && standInUse p s then
    let t := testTrigger s (testHopeless s (testExhausted s p))
    writeSplice s (settleSplice s (decideGo s t.2 t.1))
  else p

/-- The evaluation of every stand of a feeder (R82), by stand number: the model's choice, which R12, R14 and R82 leave open (log 32). -/
def evalFeeder (f : Fin 2) (p : Part) : Part :=
  forEach (n := 5) (fun s q => if standFeeder s = some f then evalStand s q else q) p

/-! ## The grade check (R85 to R90) -/

/-- The joints of a stand in the tracking list, in list order: joint coordinate and grade (R85). -/
def jointsOf (p : Part) (s : Fin 5) : List (Nat × Nat) :=
  p.wt.track.filterMap (fun e =>
    match e.kind with
    | .spliceJoint t g => if t = s then some (e.start + (standOf p s).preCull, g) else none
    | _ => none)

/-- The web grade at `x`: `g` below the first joint, then the grade of the last joint at or below `x` (R85). -/
def gradeAt (g : Nat) (joints : List (Nat × Nat)) (x : Nat) : Nat :=
  joints.foldl (fun acc j => if j.1 ≤ x then j.2 else acc) g

/-- The web grade of a stand at `x` (R85). -/
def webGrade (p : Part) (s : Fin 5) (x : Nat) : Nat := gradeAt (standOf p s).g0 (jointsOf p s) x

/-- The coordinate lies below an end, where there is one. -/
def below (x : Nat) : Option Nat → Bool
  | none => true
  | some e => decide (x < e)

/-- The maximal stretches of [x, stop) on which the web grade is not `need`. `cur` is the web grade at `x`, `from?` the start of a
stretch that has reached `x`, and the joints are those not yet passed (R87). -/
def offStretches (need : Nat) (stop : Option Nat) : List (Nat × Nat) → Nat → Nat → Option Nat → List (Nat × Option Nat)
  | [], x, cur, from? =>
    if cur = need then (match from? with | some a => [(a, some x)] | none => [])
    else [((from?).getD x, stop)]
  | (j, g) :: js, x, cur, from? =>
    if j ≤ x then offStretches need stop js x g from?
    else if !(below j stop) then
      if cur = need then (match from? with | some a => [(a, some x)] | none => [])
      else [((from?).getD x, stop)]
    else if cur = need then
      match from? with
      | some a => (a, some x) :: offStretches need stop js j g none
      | none => offStretches need stop js j g none
    else offStretches need stop js j g (some ((from?).getD x))

/-- The stretches of a region, from B on, whose web grade does not meet what the region requires of the stand (R86, R87). -/
def regionOff (p : Part) (s : Fin 5) (r : Region) : List (Nat × Option Nat × Nat) :=
  match r.order with
  | none => []
  | some o =>
    let need := o.grades.get s
    let x := max (posB p) r.start
    if need = 0 then []
    else if below x r.stop then
      (offStretches need r.stop (jointsOf p s) x (standOf p s).g0 none).map (fun z => (z.1, z.2, o.tag))
    else []

/-- The OFF_GRADE entries the grade check computes: start, end or none, region tag (R87). -/
def computedOff (p : Part) (s : Fin 5) : List (Nat × Option Nat × Nat) := p.os.regions.flatMap (regionOff p s)

/-- An OFF_GRADE entry of the stand, with its region's tag. -/
def TrackEntry.offTag (s : Fin 5) (e : TrackEntry) : Option Nat :=
  match e.kind with
  | .offGrade t tag => if t = s then some tag else none
  | _ => none

/-- The stand has an open OFF_GRADE entry. -/
def hasOpenOff (p : Part) (s : Fin 5) : Bool :=
  p.wt.track.any (fun e => (e.offTag s).isSome && !e.closed)

/-- The entry equals a computed one in start, extent or openness, and region tag (R87). -/
def sameOff (s : Fin 5) (c : Nat × Option Nat × Nat) (e : TrackEntry) : Bool :=
  decide (e.offTag s = some c.2.2) && decide (e.start = c.1) && decide (e.extent = c.2.1.map (fun t => t - c.1))

/-- A computed entry is inserted, closed or open (R87, R29). -/
def insertOff (s : Fin 5) (c : Nat × Option Nat × Nat) (p : Part) : Part × List Change :=
  let e : TrackEntry :=
    { id := 0, kind := .offGrade s c.2.2, start := c.1, extent := c.2.1.map (fun t => t - c.1), cull := true,
      origin := .stand s, binding := none }
  let r := if e.closed then insertOrCover none e p else insertOpen e p
  (r.1, r.2.2)

/-- The grade check of a stand: its OFF_GRADE entries are rebuilt over [B, infinity) (R87); OFF_GRADE is latched where an open entry
newly appears (R89). That it removes, then ends, then inserts, and the computed entries in region order and rising coordinate (log 34), and that
OFF_GRADE is latched before the changes are handed to OS (log 33), are the model's choices. -/
def gradeCheck (s : Fin 5) (p : Part) : Part × List Change :=
  if inRun p && standInUse p s then
    let computed := computedOff p s
    let b := posB p
    let had := hasOpenOff p s
    let ofStand (e : TrackEntry) : Bool := (e.offTag s).isSome
    let isGone (e : TrackEntry) : Bool := ofStand e && decide (b ≤ e.start) && !(computed.any (fun c => sameOff s c e))
    let isCut (e : TrackEntry) : Bool := ofStand e && decide (e.start < b) && !e.closed
    let gone := p.wt.track.filter isGone
    let cutOpen := p.wt.track.filter isCut
    let kept := p.wt.track.filter (fun e => !isGone e)
    let wanted := computed.filter (fun c => !(kept.any (fun e => decide (b ≤ e.start) && sameOff s c e)))
    let closed := modifyWhere isCut (fun e => { e with extent := some (b - e.start) }) kept
    let p1 : Part := { p with wt := { p.wt with track := closed } }
    let p2 := if cutOpen.isEmpty then p1 else retire p1
    let removed : List Change :=
      gone.map (fun e => { before := some e.zone, after := none, cull := e.cull })
        ++ cutOpen.map (fun e =>
            { before := some e.zone, after := some { start := e.start, extent := some (b - e.start) }, cull := e.cull })
    let r := wanted.foldl
      (fun acc c => let i := insertOff s c acc.1; (i.1, acc.2 ++ i.2)) (p2, removed)
    (if hasOpenOff r.1 s && !had then latch .offGrade r.1 else r.1, r.2)
  else (p, [])

/-- The test for a plan at a commitment whose new region belongs to `o` from `start` on: a plan is armed, or, when one is held,
GRADE_NOT_READY is latched and the region's grade-late flag set (R90). -/
def armPlan (s : Fin 5) (o : Order) (start : Nat) (p : Part) : Part :=
  let need := o.grades.get s
  if need ≠ 0 ∧ webGrade p s start ≠ need ∧ standInUse p s = true then
    match (standOf p s).plan with
    | none =>
      evalStand s (setStandRec p s
        { standOf p s with
            plan := some { grade := need, tag := o.tag, target := start - (standOf p s).margin, reached := false } })
    | some _ => setGradeLate o.tag (latch .gradeNotReady p)
  else p

/-- Some stand holds an open OFF_GRADE entry (R89). -/
def anyOpenOff (p : Part) : Bool :=
  p.wt.track.any (fun e => (match e.kind with | .offGrade _ _ => true | _ => false) && !e.closed)

end Sys2Proof.Machine
end

