-- ==== Sys2Proof/Machine/Bond.lean ====
section
/-! DEFINITION. BC: which recipe applies at each unit, the setpoints computed from it, the plate zones' states and HEAT
contributions, and the glue feedback (R102 to R120). -/

namespace Sys2Proof.Machine

/-! ## Units and lookups (R108 to R110) -/

/-- A glue unit is in use (R108). -/
def glueInUse (p : Part) (g : Fin 3) : Bool := decide (g ≠ 1) || decide (p.wt.line = .double)

/-- A zone is in use: zones 1 to the plate zone count (R108). -/
def zoneInUse (p : Part) (z : Fin 8) : Bool := decide (z.val < p.bc.zoneCount)

/-- The station point of a glue unit (R108): units 1 and 2 at the nip, unit 3 at its board station. -/
def gluePoint (p : Part) (g : Fin 3) : Nat :=
  if g = 0 then coord ((posF p 0 : Int) + bridgeK p 0)
  else if g = 1 then coord ((posF p 1 : Int) + bridgeK p 1)
  else boardPoint p (.glue 2)

/-- The region that contains `x`, the last one when its start is at or below `x` (R109). -/
def regionAt (p : Part) (x : Nat) : Option Region :=
  p.os.regions.find? (fun r => decide (r.start ≤ x) && below x r.stop)

/-- A recipe lookup at `x`: the recipe slot of an ORDER region there; otherwise the recipe keeps the value it had (R109). -/
def lookupAt (p : Part) (x : Nat) (old : Option Nat) : Option Nat :=
  match regionAt p x with
  | some r => match r.order with | some o => some o.slot | none => old
  | none => old

/-- The recipe in a slot, where it is LOADED (R102). -/
def recipeIn (p : Part) (slot : Option Nat) : Option Recipe :=
  match slot with
  | none => none
  | some n => match place 32 n with | some i => (p.bc.slots.get i).recipe | none => none

/-- The part with a glue unit replaced. -/
def setGlue (p : Part) (g : Fin 3) (x : GlueUnit) : Part := { p with bc := { p.bc with glue := upd p.bc.glue g x } }

/-- The part with a wrap replaced. -/
def setWrap (p : Part) (w : Fin 3) (x : WrapUnit) : Part := { p with bc := { p.bc with wraps := upd p.bc.wraps w x } }

/-- The part with a zone replaced. -/
def setZone (p : Part) (z : Fin 8) (x : ZoneUnit) : Part := { p with bc := { p.bc with zones := upd p.bc.zones z x } }

/-! ## Glue gaps (R111, R112) -/

/-- The gap of a recipe at a line speed, clamped to the unit's range (R112). -/
def gapAt (base : Nat) (slope : Int) (v lo hi : Nat) : Nat :=
  (min (hi : Int) (max (lo : Int) ((base : Int) + slope * (toMpm v : Int) / 100))).toNat

/-- BC computes a glue unit's gap and posts it where it differs from the last posted one; the posting sets the test setpoint and
tolerance and starts the settle deadline (R111, R112, R113). -/
def computeGlue (g : Fin 3) (p : Part) : Part :=
  let u := p.bc.glue.get g
  match recipeIn p u.requested with
  | none => p
  | some r =>
    let gap := gapAt (r.baseGap.get g) (r.slope.get g) (lineSpeed p) (p.bc.minGap.get g) (p.bc.maxGap.get g)
    if u.last = some gap then p
    else
      postSetpoint (.glueSet g gap)
        (setGlue p g
          { u with last := some gap, testSet := some gap, testTol := some r.glueTol,
                   settleBy := if p.bc.settleTime = 0 then none else some (p.time + p.bc.settleTime) })

/-- A glue unit's lookup: both recipes change at the same lookup (R109, R110). -/
def lookupGlue (g : Fin 3) (p : Part) : Part :=
  if inRun p && glueInUse p g then
    let u := p.bc.glue.get g
    let r := lookupAt p (gluePoint p g) u.requested
    let q := setGlue p g { u with acting := r, requested := r }
    if r = u.requested then q else computeGlue g q
  else p

/-! ## Preheater wraps (R116) -/

/-- The wrap between two breakpoints, rounded toward minus infinity (R116). -/
def wrapBetween (lo hi : Nat × Nat) (v : Nat) : Int :=
  (lo.2 : Int) + ((hi.2 : Int) - lo.2) * ((v : Int) - lo.1) / ((hi.1 : Int) - lo.1)

/-- The wrap of four breakpoints at a line speed in m/min (R116). -/
def wrapAt (bp : Vector (Nat × Nat) 4) (v : Nat) : Nat :=
  if v < (bp.get 0).1 then (bp.get 0).2
  else if v < (bp.get 1).1 then (wrapBetween (bp.get 0) (bp.get 1) v).toNat
  else if v < (bp.get 2).1 then (wrapBetween (bp.get 1) (bp.get 2) v).toNat
  else if v < (bp.get 3).1 then (wrapBetween (bp.get 2) (bp.get 3) v).toNat
  else (bp.get 3).2

/-- BC computes a wrap and posts it where it differs from the last posted one (R111, R116). -/
def computeWrap (w : Fin 3) (p : Part) : Part :=
  let u := p.bc.wraps.get w
  match recipeIn p u.requested with
  | none => p
  | some r =>
    let v := wrapAt (r.wraps.get w) (toMpm (lineSpeed p))
    if u.last = some v then p else postSetpoint (.wrapSet w v) (setWrap p w { u with last := some v })

/-- A wrap's lookup (R109, R110). -/
def lookupWrap (w : Fin 3) (p : Part) : Part :=
  if inRun p then
    let u := p.bc.wraps.get w
    let x := boardPoint p (.wrap w)
    let req := lookupAt p (x + p.bc.wrapLead.get w) u.requested
    let q := setWrap p w { u with acting := lookupAt p x u.acting, requested := req }
    if req = u.requested then q else computeWrap w q
  else p

/-! ## Plate zones (R117 to R120) -/

/-- The zone's state (R118). -/
def zoneState (p : Part) (z : Fin 8) : ZoneState :=
  let u := p.bc.zones.get z
  if inputStale p (.zoneTemp z) then .stale
  else
    match recipeIn p u.requested, meanInt u.history with
    | some r, some t => if (t - (r.zoneTarget.get z : Int)).natAbs ≤ r.zoneTol then .settled else .tracking
    | _, _ => .unset

/-- BC sets the zone's state (R118). -/
def setZoneState (z : Fin 8) (p : Part) : Part :=
  setZone p z { p.bc.zones.get z with state := zoneState p z }

/-- BC computes a zone's target and posts it where it differs from the last posted one (R111, R118). -/
def computeZone (z : Fin 8) (p : Part) : Part :=
  let u := p.bc.zones.get z
  match recipeIn p u.requested with
  | none => p
  | some r =>
    let v := r.zoneTarget.get z
    if u.last = some v then p else postSetpoint (.zoneSet z v) (setZone p z { u with last := some v })

/-- The zone's deficit: the acting recipe's target less its tolerance less the average; absent while the acting recipe or the
average is (R119). -/
def deficit (p : Part) (z : Fin 8) : Option Int :=
  match recipeIn p (p.bc.zones.get z).acting, meanInt (p.bc.zones.get z).history with
  | some r, some t => some ((r.zoneTarget.get z : Int) - r.zoneTol - t)
  | _, _ => none

/-- The HEAT value of a recipe at a deficit: its max speed less the derate, raised to the crawl speed and lowered to the line
max (R119). -/
def heatValue (r : Recipe) (d : Int) (crawl lineMax : Nat) : Nat :=
  (min (lineMax : Int) (max (crawl : Int) ((fromMpm r.maxSpeed : Int) - r.derate * d))).toNat

/-- The zone writes its HEAT contribution; ZONE_DEFICIENT is latched where it becomes active by a deficit (R119, R120), before the write: the model's choice
(log 33). -/
def writeHeat (z : Fin 8) (p : Part) : Part :=
  if inRun p && zoneInUse p z then
    let u := p.bc.zones.get z
    if inputStale p (.zoneTemp z) then
      activate (.heat z) p.sg.crawl (setZone p z { u with byDeficit := false })
    else
      match deficit p z, recipeIn p u.acting with
      | some d, some r =>
        if 0 < d then
          let q := setZone p z { u with byDeficit := true }
          activate (.heat z) (heatValue r d p.sg.crawl p.sg.lineMax) (if u.byDeficit then q else latch .zoneDeficient q)
        else deactivate (.heat z) (setZone p z { u with byDeficit := false })
      | _, _ => deactivate (.heat z) (setZone p z { u with byDeficit := false })
  else p

/-- What follows a change of a zone's recipes: the target for a changed requested recipe, the state, and the HEAT contribution for a
changed acting recipe (R110, R118, R120). Where both have changed, ZONE_SET is posted before HEAT is written: the model's choice (log 30). -/
def zoneChanged (z : Fin 8) (req act : Bool) (p : Part) : Part :=
  let q := if req then setZoneState z (computeZone z p) else p
  if act then writeHeat z q else q

/-- A zone's lookup (R109, R110). -/
def lookupZone (z : Fin 8) (p : Part) : Part :=
  if inRun p && zoneInUse p z then
    let u := p.bc.zones.get z
    let x := boardPoint p (.zone z)
    let act := lookupAt p x u.acting
    let req := lookupAt p (x + p.bc.zoneLead.get z) u.requested
    zoneChanged z (decide (req ≠ u.requested)) (decide (act ≠ u.acting)) (setZone p z { u with acting := act, requested := req })
  else p

/-- BC looks up the recipes of every unit in use (R110). The rule gives no order among the units, which decides the order of the posted setpoints: the
model's choice is the glue units, the wraps, the zones (log 30). -/
def lookupAll (p : Part) : Part :=
  forEach (n := 8) lookupZone (forEach (n := 3) lookupWrap (forEach (n := 3) lookupGlue p))

/-- A change of the line speed makes BC compute every gap and every wrap that has a requested recipe (R110); the gaps before the wraps, by the model's
choice (log 30). -/
def speedChanged (p : Part) : Part :=
  if inRun p then
    forEach (n := 3) computeWrap (forEach (n := 3) (fun g q => if glueInUse q g then computeGlue g q else q) p)
  else p

/-- A plate temperature is entered into the zone's history, which is emptied before when the input has been stale since the last
value was entered; the state and the HEAT contribution follow (R117, R118, R120). -/
def zoneTempSample (z : Fin 8) (t : Int) (p : Part) : Part :=
  if inRun p && zoneInUse p z then
    let u := p.bc.zones.get z
    writeHeat z (setZoneState z
      (setZone p z { u with history := enter8 (if u.staleSince then [] else u.history) t, staleSince := false }))
  else p

/-- The ZONE_TEMP input changed between fresh and stale (R118, R120). -/
def zoneFreshness (z : Fin 8) (stale : Bool) (p : Part) : Part :=
  if inRun p && zoneInUse p z then
    let u := p.bc.zones.get z
    writeHeat z (setZoneState z (setZone p z { u with staleSince := u.staleSince || stale }))
  else p

/-! ## Glue feedback (R113 to R115) -/

/-- The feeder whose nip a glue unit stands at, for units 1 and 2. -/
def glueFeeder (g : Fin 3) : Option (Fin 2) :=
  if g = 0 then some 0 else if g = 1 then some 1 else none

/-- The BOND entry a deviation of the unit opens (R35, R114). -/
def bondEntry (p : Part) (g : Fin 3) : TrackEntry :=
  match glueFeeder g with
  | some f =>
    { id := 0, kind := .bond, start := coord ((posF p f : Int) + bridgeK p f), extent := none, cull := true,
      origin := .glue g, binding := some { feeder := f, start := posF p f, bound := false, web := none } }
  | none =>
    { id := 0, kind := .bond, start := boardPoint p (.glue g), extent := none, cull := true, origin := .glue g,
      binding := none }

/-- The travel of a glue unit's reference position since its zone opened (R25). -/
def glueTravel (p : Part) (g : Fin 3) : Nat :=
  match glueFeeder g with
  | some f =>
    match (p.bc.glue.get g).entry.bind (entryById p) with
    | some e => ((posF p f : Int) - ((e.binding.map Binding.start).getD (posF p f : Int))).toNat
    | none => 0
  | none => posB p - (p.bc.glue.get g).openedAt

/-- A deviation begins (R114). -/
def beginDeviation (g : Fin 3) (p : Part) : Part × List Change :=
  let q := latch .glueDeviation (setGlue p g { p.bc.glue.get g with deviation := true })
  let r := insertOpen (bondEntry q g) q
  (setGlue r.1 g { r.1.bc.glue.get g with entry := r.2.1, openedAt := posB r.1 }, r.2.2)

/-- A deviation ends (R115). -/
def endDeviation (g : Fin 3) (p : Part) : Part × List Change :=
  let u := p.bc.glue.get g
  let n := glueTravel p g
  let q := setGlue p g { u with deviation := false, entry := none }
  match u.entry with
  | none => (q, [])
  | some id => closeZone id n q

/-- A GLUE_FB sample: tested when the test setpoint is present and the settle deadline has passed (R113 to R115). -/
def glueSample (g : Fin 3) (gap : Int) (p : Part) : Part × List Change :=
  let u := p.bc.glue.get g
  if inRun p && glueInUse p g && u.settleBy.isNone then
    match u.testSet, u.testTol with
    | some t, some tol =>
      if tol < (gap - t).natAbs then (if u.deviation then (p, []) else beginDeviation g p)
      else if u.deviation then endDeviation g p
      else (p, [])
    | _, _ => (p, [])
  else (p, [])

end Sys2Proof.Machine
end

