-- ==== Sys2Proof/Machine/Commands.lean ====
section
/-! DEFINITION. The commands of DEC and SC with the limits of their owners' lists (R123, R129, R130, R138, R152), and the part of the
slitter record that OS asks for (R122, R123). -/

namespace Sys2Proof.Machine

/-- A sequence command is posted, unless it would have to wait in a list of its owner that is full: then it is discarded and the
owner's alarm is latched (R130, R152). -/
def postLimited (c : Command) (held : Part → List Waiting) (cap : Nat) (lost : Alarm) (p : Part) : Part :=
  if (outEntry p c.output).isSome && !canEnter p c.urgent && decide (cap ≤ (held p).length) then latch lost p
  else (postSequence c p).1

/-- DEC posts CHANGE LENGTH (R129, R130). -/
def postChange (len : Nat) (afterCut : Option Nat) (p : Part) : Part :=
  postLimited (.changeLength len afterCut) changeList Config.changeCap .knifeCommandLate p

/-- DEC posts DIVERT for a cut (R138, R130). -/
def postDivert (cut : Nat) (p : Part) : Part :=
  postLimited (.divert cut) divertList Config.divertCap .divertLost p

/-- SC posts EJECT for an order (R152). -/
def postEject (tag : Nat) (p : Part) : Part :=
  postLimited (.eject tag) stackerList Config.stackerCap .stackerCommandLost p

/-- SC posts ORDER END for an order (R152). -/
def postOrderEnd (tag : Nat) (p : Part) : Part :=
  postLimited (.orderEnd tag) stackerList Config.stackerCap .stackerCommandLost p

/-- A swap is pending: the record is present and the swap state is NONE or REQUESTED (R122). -/
def swapPending (p : Part) : Bool := p.dec.swapRec.isSome && !decide (p.dec.swap = .done)

/-- The inactive station is free in the sense NEXT selection reads: FREE, and no swap pending (R122). -/
def stationFree (p : Part) : Bool := decide (p.dec.inactive = .free) && !swapPending p

/-- DEC takes a request to preset the inactive station (R123). -/
def presetStation (profile : Nat) (p : Part) : Part :=
  if inRun p then postSetpoint (.preset profile) { p with dec := { p.dec with inactive := .presetting profile } } else p

/-- DEC releases the inactive station, and posts nothing (R123). -/
def releaseStation (p : Part) : Part :=
  if inRun p then { p with dec := { p.dec with inactive := .free } } else p

/-- The profile the inactive station holds (R125); a free value where it holds none (log 26). -/
def heldProfile (p : Part) : Nat :=
  match p.dec.inactive with
  | .ready n => n
  | .presetting n => n
  | .free => Config.noProfile p.free

/-- DEC's test of the swap point, at an advance of B (R125). -/
def testSwapPoint (p : Part) : Part :=
  match p.dec.swapRec with
  | none => p
  | some r =>
    if p.dec.swap = .none ∧ r.start ≤ boardPoint p .slitter then
      postSetpoint (.swap (heldProfile p)) { p with free := p.free + 1, dec := { p.dec with swap := .requested } }
    else p

/-- The open SWAP_ZONE entry of a late swap that has no entry of its own (R127). -/
def lateZone (start : Nat) : TrackEntry :=
  { id := 0, kind := .swapZone, start := start, extent := none, cull := true, origin := .slitter, binding := none }

/-- DEC's test for a late slitter, at an advance of B (R127). A record whose entry has left the list holds none (log 17). -/
def testSlitterLate (p : Part) : Part × List Change :=
  match p.dec.swapRec with
  | none => (p, [])
  | some r =>
    if p.dec.swap = .requested ∧ r.late = false ∧ r.start + r.extent ≤ boardPoint p .slitter then
      let q := latch .slitterLate { p with dec := { p.dec with swapRec := some { r with late := true } } }
      match r.entry.bind (entryById q) with
      | some e => openZone e.id q
      | none =>
        let i := insertOpen (lateZone (r.start + r.extent)) q
        ({ i.1 with dec := { i.1.dec with swapRec := some { r with late := true, entry := i.2.1 } } }, i.2.2)
    else (p, [])

end Sys2Proof.Machine
end

