-- ==== Sys2Proof/Machine/Orders.lean ====
section
/-! DEFINITION. OS: NEXT selection and readiness, the change point, commitment and its deferral, and the completion of regions
(R43 to R59, R66, R67). -/

namespace Sys2Proof.Machine

/-! ## References, NEXT selection (R44 to R46) -/

/-- The reference count of a recipe slot is changed (R44). -/
def changeRefs (f : Nat → Nat) (slot : Nat) (p : Part) : Part :=
  match place 32 slot with
  | none => p
  | some i =>
    let x := p.bc.slots.get i
    { p with bc := { p.bc with slots := upd p.bc.slots i { x with refs := f x.refs } } }

/-- One more order names the slot (R44). -/
def addRef (slot : Nat) (p : Part) : Part := changeRefs (fun n => n + 1) slot p

/-- One order fewer names the slot (R44). -/
def dropRef (slot : Nat) (p : Part) : Part := changeRefs (fun n => n - 1) slot p

/-- The NEXT order's profile is compared with the active station's (R46): equal, it is ready at once and needs no swap; otherwise
DEC is asked for a preset. -/
def compareProfile (o : Order) (p : Part) : Part :=
  if p.dec.active = some o.profile then { p with os := { p.os with next := some { ready := true, needsSwap := false } } }
  else presetStation o.profile { p with os := { p.os with next := some { ready := false, needsSwap := true } } }

/-- NEXT selection (R45), without the commitment check that a gain of readiness starts. -/
def selectNext (p : Part) : Part :=
  match p.os.queue with
  | [] => p
  | o :: _ => if inRun p && p.os.next.isNone && !o.hold && stationFree p then compareProfile o p else p

/-! ## The change point (R51 to R53) -/

/-- Q: the quantity divided by the outs, rounded up (R51). -/
def Order.cutsWanted (o : Order) : Nat := ceilDiv o.quantity o.outs

/-- T: Q plus the overrun allowance, rounded up (R51). -/
def Order.target (o : Order) : Nat := o.cutsWanted + ceilDiv (o.cutsWanted * o.overrun) 1000

/-- The grid origin of a region: coordinate g0 and number n0 (R51). -/
def gridOrigin (p : Part) (r : Region) : Nat × Nat :=
  if r.attributed = 0 then (r.start, r.first.getD 0 - 1) else (p.dec.kLast.getD r.start, p.dec.cLast.getD 0)

/-- The future grid cut `j` (from 1) of a grid with origin `g0` and length `len` is foreseen culled: a closed zone whose cull is yes
meets it (R52). -/
def foreseen (g0 len : Nat) (zones : List Zone) (j : Nat) : Bool :=
  zones.any (fun z => z.extent.isSome && z.meets (g0 + (j - 1) * len) (g0 + j * len))

/-- How many of the first `n` future grid cuts are foreseen culled (R52). -/
def foreseenCount (g0 len : Nat) (zones : List Zone) : Nat → Nat
  | 0 => 0
  | n + 1 => foreseenCount g0 len zones n + (if foreseen g0 len zones (n + 1) then 1 else 0)

/-- The first and last future grid cut that a closed zone meets, where it meets one. -/
def cutRange (g0 len : Nat) (z : Zone) : Option (Nat × Nat) :=
  match z.extent with
  | none => none
  | some e =>
    let lo := if z.start < g0 then 1 else (z.start - g0) / len + 1
    if e = 0 then (if z.start < g0 then none else some (lo, lo))
    else if z.start + e ≤ g0 then none
    else some (lo, ceilDiv (z.start + e - g0) len)

/-- The position of the `need`-th cut that no range covers, with the first `n` cuts already walked. The ranges stand in rising order of
their first cut, as the zones of the tracking list do. -/
def walkCuts : List (Nat × Nat) → Nat → Nat → Nat
  | [], need, n => n + need
  | (lo, hi) :: rs, need, n =>
    let clear := lo - 1 - n
    if need ≤ clear then n + need else walkCuts rs (need - clear) (max (max n (lo - 1)) hi)

/-- N: the least number of future grid cuts after which `need` of them are not foreseen culled (R52). -/
def cutsToTarget (g0 len need : Nat) (zones : List Zone) : Nat :=
  if need = 0 then 0 else walkCuts (zones.filterMap (cutRange g0 len)) need 0

/-- The zones OS foresees culls from: closed entries whose cull is yes, in list order (R52). -/
def cullZones (p : Part) : List Zone := (p.wt.track.filter (fun e => e.cull && e.closed)).map TrackEntry.zone

/-- C of an ORDER region: g0 + N x L (R52). -/
def changePoint (p : Part) (r : Region) (o : Order) : Nat :=
  let g := gridOrigin p r
  g.1 + cutsToTarget g.1 r.length (o.target - r.good) (cullZones p) * r.length

/-- The open region: the last one, without an end (R48). -/
def openRegion (p : Part) : Option Region :=
  match p.os.regions.getLast? with
  | some r => if r.stop.isNone then some r else none
  | none => none

/-- The part with its region list replaced. -/
def setRegions (p : Part) (l : List Region) : Part := { p with os := { p.os with regions := l } }

/-- The part with its last region changed. -/
def modifyOpen (f : Region → Region) (p : Part) : Part := setRegions p (modifyLast f p.os.regions)

/-- OS computes C for the open ORDER region (R53). -/
def computeChange (p : Part) : Part :=
  match openRegion p with
  | none => p
  | some r =>
    match r.order with
    | none => p
    | some o => modifyOpen (fun r => { r with change := some (changePoint p r o) }) p

/-! ## Commitment (R54 to R59) -/

/-- A case of R54 holds for the open region. The initial region does not commit while its first cut number is absent. -/
def commitDue (p : Part) (r : Region) : Bool :=
  r.first.isSome &&
    match r.order with
    | none => (match p.os.next with | some n => n.ready | none => false)
    | some _ =>
      r.withdrawn || (match r.change with | some c => decide (c ≤ posB p + p.os.commitLead) | none => false)

/-- Both capacities that a commitment needs (R55). -/
def commitRoom (p : Part) : Bool :=
  decide (p.os.regions.length < Config.regionCap) && decide (Config.commitPlaces ≤ freePlaces p)

/-- The minimum lead: the offset of the SLITTER station plus 200,000 (R49). -/
def minimumLead (p : Part) : Nat := offset p .slitter + 200000

/-- The target of a commitment (R56). -/
def commitTarget (p : Part) (r : Region) : Nat :=
  let far := posB p + p.os.commitLead
  match r.order, r.change with
  | some _, some c => if r.withdrawn then far else if posB p + minimumLead p ≤ c then c else far
  | _, _ => far

/-- The number of grid cuts to the committed end: the least m of at least 1 whose grid point is at or beyond the target (R56). -/
def commitCuts (g0 len target : Nat) : Nat := max 1 (ceilDiv (target - g0) len)

/-- An open region with its record fields at their first values (R47, R57). -/
def newRegion (o : Option Order) (start len first : Nat) (swap : Bool) : Region :=
  { order := o, start := start, stop := none, length := len, swap := swap, first := some first, last := none, change := none,
    deferred := false, countdown := (o.map Order.stackHeight).getD 0, attributed := 0, good := 0, stacked := 0, missing := 0,
    culled := Vector.replicate 12 0, short := false, withdrawn := false, gradeLate := false, ended := false }

/-- The extent of a swap zone: v̄ x swap time / 1,000, rounded up and clamped to 2,000 to 200,000 (R58). -/
def swapExtent (p : Part) : Nat := clamp 2000 200000 (ceilDiv (lineSpeed p * p.os.swapTime) 1000)

/-- The swap zone of a commitment, and the swap record it gives DEC (R58, R125). -/
def insertSwap (start : Nat) (p : Part) : Part :=
  let e := swapExtent p
  let z : TrackEntry :=
    { id := 0, kind := .swapZone, start := start, extent := some e, cull := true, origin := .slitter, binding := none }
  let r := insertOrCover none z p
  { r.1 with dec := { r.1.dec with swap := .none, swapRec := some { start := start, entry := r.2.1, extent := e, late := false } } }

/-- The end of the open region is fixed and a deferral ends (R55, R56). The answer is the region as committed. That ORDER_WAIT is made inactive here, before the
append and R58's CHANGE LENGTH, is the model's choice (log 33). -/
def fixEnd (r : Region) (p : Part) : Part × Nat × Nat :=
  let g := gridOrigin p r
  let m := commitCuts g.1 r.length (commitTarget p r)
  let stop := g.1 + m * r.length
  let last := g.2 + m
  let q := modifyOpen (fun x => { x with stop := some stop, last := some last, change := none, deferred := false }) p
  (if r.deferred then deactivate .orderWait q else q, stop, last)

/-- The region appended at a committed end: for the ready NEXT order, which becomes RUNNING, or a WASTE region (R57). -/
def appendRegion (len stop last : Nat) (p : Part) : Part × Region :=
  match p.os.queue, p.os.next with
  | o :: rest, some n =>
    if n.ready then
      let r := newRegion (some o) stop o.length (last + 1) n.needsSwap
      ({ p with os := { p.os with queue := rest, next := none, regions := p.os.regions ++ [r] } }, r)
    else
      let r := newRegion none stop len (last + 1) false
      (setRegions p (p.os.regions ++ [r]), r)
  | _, _ =>
    let r := newRegion none stop len (last + 1) false
    (setRegions p (p.os.regions ++ [r]), r)

/-- The grade check of every stand in use at a commitment, with the test for a plan for the new region (R59, R88, R90). The stands are taken by number, each
one's test for a plan before the next one's check: the model's choice (log 32). -/
def gradeChecks (r : Region) (p : Part) : Part :=
  forEach (n := 5)
    (fun s q =>
      let c := (gradeCheck s q).1
      match r.order with
      | some o => armPlan s o r.start c
      | none => c)
    p

/-- A commitment of the open region, with all that R56 to R59 hand out. R110 gives BC's lookups no place among them: that they follow the grade checks
and come before C and NEXT selection is the model's choice (log 30). -/
def commit (r : Region) (p : Part) : Part :=
  let f := fixEnd r p
  let a := appendRegion r.length f.2.1 f.2.2 f.1
  let q1 := if a.2.length = r.length then a.1 else postChange a.2.length (some f.2.2) a.1
  let q2 := if a.2.swap then insertSwap a.2.start q1 else q1
  selectNext (computeChange (lookupAll (gradeChecks a.2 q2)))

/-- A commitment is deferred: ORDER_WAIT is latched and its contribution made active (R55), in this order by the model's choice (log 33). -/
def deferCommit (r : Region) (p : Part) : Part :=
  if r.deferred then p
  else activate .orderWait p.sg.crawl (latch .orderWait (modifyOpen (fun x => { x with deferred := true }) p))

/-- A deferral ends without commitment (R55). -/
def endDeferral (r : Region) (p : Part) : Part :=
  if r.deferred then deactivate .orderWait (modifyOpen (fun x => { x with deferred := false }) p) else p

/-- At most `k` commitment checks, each after the commitment before it (R54). -/
def commitTimes : Nat → Part → Part
  | 0, p => p
  | k + 1, p =>
    match openRegion p with
    | none => p
    | some r =>
      if commitDue p r then
        if commitRoom p then commitTimes k (commit r p) else deferCommit r p
      else endDeferral r p

/-- OS's commitment check (R54). Each commitment adds a region and needs fewer than 6, so at most six can follow one another. -/
def commitCheck (p : Part) : Part :=
  if inRun p then commitTimes (Config.regionCap + 1) p else p

/-- NEXT selection, and the commitment check that a gain of readiness starts (R45, R46). -/
def nextSelection (p : Part) : Part := commitCheck (selectNext p)

/-! ## Changes handed over by WT (R30, R53) -/

/-- The change has a closed zone, with cull yes, that meets [g0, C) (R53). -/
def changeMatters (g0 c : Nat) (x : Change) : Bool :=
  x.cull && ((match x.before with | some z => z.extent.isSome && z.meets g0 c | none => false)
    || (match x.after with | some z => z.extent.isSome && z.meets g0 c | none => false))

/-- OS takes the changes of one cause (R30): C is computed again where one of them matters to the open ORDER region. -/
def takeChanges (l : List Change) (p : Part) : Part :=
  match openRegion p with
  | none => p
  | some r =>
    match r.change with
    | none => p
    | some c => if l.any (changeMatters (gridOrigin p r).1 c) then computeChange p else p

/-- OS takes the changes of one cause, and makes its commitment check (R53, R54). -/
def handOver (l : List Change) (p : Part) : Part := commitCheck (takeChanges l p)

/-- The changes of one cause are handed on to OS, where there are any (R30). -/
def handOn (r : Part × List Change) : Part := if r.2.isEmpty then r.1 else handOver r.2 r.1

/-- The grade check of a stand, handed to OS as a single cause (R87, R88). -/
def checkGrades (s : Fin 5) (p : Part) : Part :=
  let r := gradeCheck s p
  handOver r.2 r.1

/-! ## Completion (R66, R67) -/

/-- SC holds an entry of the region in the cut queue (R66). -/
def queued (p : Part) (r : Region) : Bool :=
  match r.order with
  | none => false
  | some o => p.sc.cuts.any (fun c => decide (c.tag = o.tag))

/-- A record is written to the completion log; a full log first loses its oldest, with COMPLETION_LOST latched (R67), and the ORDER
DONE notice is posted (R66, R205). -/
def writeRecord (c : Completion) (p : Part) : Part :=
  let full := decide (Config.completionCap ≤ p.os.log.length)
  let q := { p with os := { p.os with log := (if full then p.os.log.tail else p.os.log) ++ [c] } }
  postNotice (.orderDone c.tag c.short c.withdrawn c.gradeLate c.aborted) (if full then latch .completionLost q else q)

/-- The completion record of an ORDER region (R66); `length` is its board length. -/
def recordOf (r : Region) (o : Order) (length : Nat) (aborted : Bool) : Completion :=
  { tag := o.tag, stacked := r.stacked, goodSheets := r.stacked * o.outs, missing := r.missing, culled := r.culled,
    overrunCuts := r.stacked - o.cutsWanted, boardLength := length, short := decide (r.stacked * o.outs < o.quantity),
    withdrawn := r.withdrawn, gradeLate := r.gradeLate, aborted := aborted }

/-- The first region is completed and leaves the list (R66). -/
def completeFirst (r : Region) (rest : List Region) (p : Part) : Part :=
  match r.order with
  | none => setRegions p rest
  | some o =>
    let q := dropRef o.slot (setRegions p rest)
    writeRecord (recordOf r o (r.stop.getD r.start - r.start) false) q

/-- The test for completion, at most `k` times: the first region, ENDED and with no entry in the cut queue. Each removal starts the test again for
the region that is now first, and the commitment check (R66, R54); that the test, with the removals it finds, comes before the check is the model's choice
(log 30). Each removal makes BC look up its recipes (R110); that the lookups follow
the record's COMPLETION_LOST and ORDER DONE notices is the model's choice (log 30). -/
def completeTimes : Nat → Part → Part
  | 0, p => p
  | k + 1, p =>
    match p.os.regions with
    | [] => p
    | r :: rest => if r.ended && !queued p r then commitCheck (completeTimes k (lookupAll (completeFirst r rest p))) else p

/-- OS's test for completion, with what each removal starts (R66). -/
def completeRegions (p : Part) : Part := completeTimes p.os.regions.length p

end Sys2Proof.Machine
end

