-- ==== Sys2Proof/Machine/Stacker.lean ====
section
/-! DEFINITION. SC: the cut queue, the stack countdown, the backlog, order ends, arrivals and missing cuts (R145 to R158). -/

namespace Sys2Proof.Machine

/-- The part with its cut queue replaced. -/
def setCuts (p : Part) (l : List CutEntry) : Part := { p with sc := { p.sc with cuts := l } }

/-- The backlog test, at a change of occupancy (R149). -/
def testBacklog (p : Part) : Part :=
  if !p.sc.backlog && decide (p.sc.watermark ≤ p.sc.cuts.length) then
    activate .backlog p.sg.crawl { p with sc := { p.sc with backlog := true } }
  else if p.sc.backlog && decide (p.sc.cuts.length ≤ p.sc.watermark - 8) then
    deactivate .backlog { p with sc := { p.sc with backlog := false } }
  else p

/-! ## Cuts entering (R147, R148) -/

/-- The culled count of a region for a cause rises by 1 (R47). -/
def Region.cullOne (c : Cause) (r : Region) : Region :=
  { r with culled := upd r.culled c.idx (sat32 (r.culled.get c.idx) 1) }

/-- A region that has entered a good cut: its good count rises and its stack countdown falls, and is reloaded at 0 (R147). -/
def Region.enterGood (o : Order) (r : Region) : Region :=
  { r with good := sat32 r.good 1, countdown := if r.countdown ≤ 1 then o.stackHeight else r.countdown - 1 }

/-- A good cut is handed to SC (R139): it enters the cut queue (R147), or is diverted with cause BACKLOG when the queue is full
(R148). R148 does not order its effects: the counts, then DIVERT, then the latch is the model's choice (log 33). The answer says whether the cut was culled. -/
def takeGood (cut : Nat) (r : Region) (o : Order) (p : Part) : Part × Bool :=
  if p.sc.cuts.length < Config.cutCap then
    let e : CutEntry :=
      { cut := cut, tag := o.tag, knifeTime := p.time, stackEnd := decide (r.countdown ≤ 1), orderEnd := false }
    let q : Part := { p with sc := { p.sc with cuts := p.sc.cuts ++ [e], entered := sat32 p.sc.entered 1 } }
    (testBacklog (modifyRegion o.tag (Region.enterGood o) q), false)
  else
    (latch .backlog (postDivert cut (raise (.culled .backlog) 1 (modifyRegion o.tag (Region.cullOne .backlog) p))), true)

/-! ## Order ends (R150 to R152) -/

/-- A list with its first element that meets `c` changed. -/
def modifyFirst {α : Type} (c : α → Bool) (f : α → α) : List α → List α
  | [] => []
  | x :: xs => if c x then f x :: xs else x :: modifyFirst c f xs

/-- A list with its last element that meets `c` changed. -/
def modifyFinal {α : Type} (c : α → Bool) (f : α → α) (l : List α) : List α := (modifyFirst c f l.reverse).reverse

/-- The flags of the last entry of an ended order: order-end, and stack-end where a stack is being built (R150; log 42). -/
def CutEntry.flagged (partStack : Bool) (e : CutEntry) : CutEntry :=
  { e with orderEnd := true, stackEnd := e.stackEnd || partStack }

/-- DEC tells SC that an ORDER region has ended (R150, R151). Both rules take a countdown that is not at the stack height to mean that the stack being built
holds a cut. After an amendment that lowers the height to 1 with cuts on the stack the two differ, since R62 keeps the countdown at least 1; that the
countdown alone is tested, so that no EJECT follows there, is the model's choice (DESIGN CHOICE, log 42). -/
def orderEnded (r : Region) (o : Order) (p : Part) : Part :=
  let partStack := decide (r.countdown ≠ o.stackHeight)
  if p.sc.cuts.any (fun c => decide (c.tag = o.tag)) then
    setCuts p (modifyFinal (fun c => decide (c.tag = o.tag)) (CutEntry.flagged partStack) p.sc.cuts)
  else postOrderEnd o.tag (if partStack then postEject o.tag p else p)

/-- The flags of an entry that leaves the queue are acted on: EJECT, then ORDER END (R154, R156). -/
def actFlags (e : CutEntry) (p : Part) : Part :=
  let q := if e.stackEnd then postEject e.tag p else p
  if e.orderEnd then postOrderEnd e.tag q else q

/-! ## Arrivals and missing cuts (R153 to R156) -/

/-- The outs of an order in the region list. -/
def outsOf (p : Part) (tag : Nat) : Nat :=
  match regionOf p tag with
  | some r => (match r.order with | some o => o.outs | none => 0)
  | none => 0

/-- The head entry is counted stacked, and OS is told of the removal (R154, R66). -/
def removeStacked (e : CutEntry) (rest : List CutEntry) (p : Part) : Part :=
  let outs := outsOf p e.tag
  let q := modifyRegion e.tag (fun r => { r with stacked := sat32 r.stacked 1 }) (setCuts p rest)
  let q1 := raise .goodSheets outs (raise .stackedCuts 1 q)
  completeRegions (actFlags e { q1 with sc := { q1.sc with stacked := sat32 q1.sc.stacked 1 } })

/-- The head entry is removed as missing, and OS is told of the removal (R156, R66). -/
def removeMissing (e : CutEntry) (rest : List CutEntry) (p : Part) : Part :=
  let q := modifyRegion e.tag (fun r => { r with missing := sat32 r.missing 1 }) (setCuts p rest)
  completeRegions (actFlags e (latch .stackerMissing { q with sc := { q.sc with missing := sat32 q.sc.missing 1 } }))

/-- The transit deadline of the head entry has passed (R156; log 11). -/
def headOverdue (p : Part) : Bool :=
  match p.sc.cuts with
  | [] => false
  | e :: _ => decide (e.knifeTime + p.sc.transit ≤ p.time)

/-- At most `k` heads in turn whose deadlines have passed are removed as missing (R156). -/
def missingTimes : Nat → Part → Part
  | 0, p => p
  | k + 1, p =>
    match p.sc.cuts with
    | [] => p
    | e :: rest => if headOverdue p then missingTimes k (removeMissing e rest p) else p

/-- The head is tested against its deadline, and the backlog test is made (R154, R156). -/
def testHead (p : Part) : Part := testBacklog (missingTimes p.sc.cuts.length p)

/-- `n` arrivals, one after another; those that find the queue empty are phantom (R154, R155). -/
def takeArrivals : Nat → Part → Part
  | 0, p => p
  | n + 1, p =>
    match p.sc.cuts with
    | [] => latch .stackerPhantom { p with sc := { p.sc with phantom := sat32 p.sc.phantom (n + 1) } }
    | e :: rest => takeArrivals n (testHead (removeStacked e rest p))

/-- A STACKER sample (R153). -/
def stackerSample (a : BitVec 16) (p : Part) : Part :=
  if inRun p then
    match p.sc.lastArrival with
    | none => { p with sc := { p.sc with lastArrival := some a } }
    | some b => takeArrivals (a - b).toNat { p with sc := { p.sc with lastArrival := some a } }
  else p

end Sys2Proof.Machine
end

