-- ==== Sys2Proof/Machine/Knife.lean ====
section
/-! DEFINITION. DEC: the knife's cut reports, the cull decision, and the slitter's reports (R124, R126, R131 to R142). -/

namespace Sys2Proof.Machine

/-! ## One cut (R137 to R141) -/

/-- A cut as DEC has placed it: its run cut number, its span [start, stop), the measured length of a reported one (absent for a
synthesized one), and whether its end was set to B (R133, R134). -/
structure Cut where
  number : Nat
  start : Nat
  stop : Nat
  measured : Option Nat
  moved : Bool
  deriving DecidableEq, Repr

/-- The region's cut-number range contains the number (R50). -/
def Region.holds (n : Nat) (r : Region) : Bool :=
  match r.first with
  | none => false
  | some f => decide (f ≤ n) && (match r.last with | none => true | some l => decide (n ≤ l))

/-- The region a cut belongs to (R50). -/
def regionFor (p : Part) (n : Nat) : Option Region := p.os.regions.find? (Region.holds n)

/-- The commanded length of a cut (R136). -/
def commandedLength (p : Part) (n : Nat) : Nat :=
  match regionFor p n with
  | some r => r.length
  | none => 0

/-- The region a cut belongs to, changed. -/
def modifyFor (n : Nat) (f : Region → Region) (p : Part) : Part := setRegions p (modifyFirst (Region.holds n) f p.os.regions)

/-- The cut's span meets an entry of a kind, with cull yes (R137, R26). -/
def meetsKind (p : Part) (c : Cut) (k : EntryKind → Bool) : Bool :=
  p.wt.track.any (fun e => e.cull && k e.kind && e.zone.meets c.start c.stop)

/-- A boundary lies inside the span, by more than the tolerance from both of its ends (R137). -/
def straddles (tol b : Nat) (c : Cut) : Bool := decide (c.start + tol < b) && decide (b + tol < c.stop)

/-- The cause for which a cut is culled: the first of the table that applies; none for a good cut (R137). -/
def cullCause (p : Part) (r : Region) (c : Cut) : Option Cause :=
  if r.order.isNone then some .noOrder
  else if c.measured.isNone then some .untracked
  else if c.moved then some .registration
  else if (match c.measured with
           | some m => decide (p.dec.lengthTol < ((m : Int) - r.length).natAbs)
           | none => false) then some .length
  else if straddles p.dec.straddleTol r.start c
      || (match r.stop with | some e => straddles p.dec.straddleTol e c | none => false) then some .straddle
  else if meetsKind p c (fun k => decide (k = .swapZone)) then some .swap
  else if meetsKind p c (fun k => match k with | .spliceJoint _ _ => true | _ => false) then some .splice
  else if meetsKind p c (fun k => match k with | .offGrade _ _ => true | _ => false) then some .offGrade
  else if meetsKind p c (fun k => decide (k = .bond)) then some .bond
  else if meetsKind p c (fun k => decide (k = .defect)) then some .defect
  else if meetsKind p c EntryKind.isMark then some .mark
  else none

/-- The cut is attributed to its region (R137). -/
def attributeCut (n : Nat) (p : Part) : Part := modifyFor n (fun r => { r with attributed := sat32 r.attributed 1 }) p

/-- A culled cut is counted and diverted (R138), the counts first by the model's choice (log 33). -/
def cullCut (n : Nat) (w : Cause) (p : Part) : Part :=
  postDivert n (raise (.culled w) 1 (modifyFor n (Region.cullOne w) p))

/-- The cut is disposed of: culled (R138), or handed to SC (R139). The answer says whether it was culled. -/
def disposeCut (r : Region) (c : Cut) (p : Part) : Part × Bool :=
  match cullCause p r c, r.order with
  | some w, _ => (cullCut c.number w p, true)
  | none, some o => takeGood c.number r o p
  | none, none => (p, false)

/-- The MARK notices of a cut, in list order (R140). -/
def markNotices (p : Part) (c : Cut) (culled : Bool) : List Notice :=
  p.wt.track.filterMap (fun e =>
    match e.kind with
    | .mark k => if e.zone.meets c.start c.stop then some (.mark k e.id c.number culled) else none
    | _ => none)

/-- A place freed by passed marks starts OS's commitment check (R54). The first report after RUN entry leaves it to the check of R141, since the grid
has no origin before c_last and k_last are set (log 12). -/
def placesFreed (before : Nat) (p : Part) : Part :=
  if p.wt.track.length < before ∧ p.dec.kLast.isSome then commitCheck p else p

/-- The MARK notices are posted and the passed marks removed (R140, R38, R54). -/
def handleMarks (c : Cut) (culled : Bool) (p : Part) : Part :=
  placesFreed p.wt.track.length (passMarks c.stop ((markNotices p c culled).foldl (fun q n => postNotice n q) p))

/-- The region's last cut is reached, and it is not ENDED yet (R141). -/
def Region.reachedBy (n : Nat) (r : Region) : Bool :=
  !r.ended && (match r.last with | some l => decide (l ≤ n) | none => false)

/-- SC is told of a region that has ended, if it is an ORDER region (R50). -/
def tellEnded (p : Part) (r : Region) : Part :=
  match r.order with
  | some o => orderEnded r o p
  | none => p

/-- Committed regions that the run cut number reaches become ENDED, SC is told of each, and OS tests for completion (R50, R66, R141). Where one cut ends several,
all are marked ENDED, then SC is told of each in list order, and only then OS tests: the model's choice (log 30). -/
def endRegions (n : Nat) (p : Part) : Part :=
  let reached := p.os.regions.filter (Region.reachedBy n)
  if reached.isEmpty then p
  else
    completeRegions
      (reached.foldl tellEnded (setRegions p (modifyWhere (Region.reachedBy n) (fun r => { r with ended := true }) p.os.regions)))

/-- One cut of a report, taken whole (R142, steps 2 to 6). -/
def takeCut (c : Cut) (p : Part) : Part :=
  match regionFor p c.number with
  | none => endRegions c.number (handleMarks c false p)
  | some r =>
    let d := disposeCut r c (attributeCut c.number p)
    endRegions c.number (handleMarks c d.2 d.1)

/-! ## Reports (R131 to R135, R142) -/

/-- `k` synthesized cuts from a run cut number and a coordinate on, laid end to end at their commanded lengths (R133). The answer holds the
end of the last one. -/
def synthesize : Nat → Nat → Nat → Part → Part × Nat
  | 0, _, x, p => (p, x)
  | k + 1, n, x, p =>
    let y := x + commandedLength p n
    synthesize k (n + 1) y (takeCut { number := n, start := x, stop := y, measured := none, moved := false } p)

/-- A reported cut placed end to end from `x`, with its end tested for registration (R134). -/
def placeCut (p : Part) (n x m : Nat) : Cut :=
  if p.dec.regLimit < (((x + m : Nat) : Int) - posB p).natAbs then
    { number := n, start := min x (posB p), stop := posB p, measured := some m, moved := true }
  else { number := n, start := x, stop := x + m, measured := some m, moved := false }

/-- A reported cut placed at B, as the first one and at a resynchronization (R131, R135). -/
def freshCut (p : Part) (n m : Nat) : Cut :=
  { number := n, start := posB p - m, stop := posB p, measured := some m, moved := false }

/-- A waiting CHANGE LENGTH whose cut the count has reached, and for which nothing has been latched (R130). -/
def changeOverdue (n : Nat) (w : Waiting) : Bool :=
  !w.late && (match w.msg with | .command (.changeLength _ (some k)) _ _ => decide (k ≤ n) | _ => false)

/-- The test of the pending change list for lateness (R130). -/
def testChanges (n : Nat) (p : Part) : Part :=
  let late := p.rif.urgentWait.filter (changeOverdue n)
  late.foldl (fun q _ => latch .knifeCommandLate q)
    (setWait p true (modifyWhere (changeOverdue n) (fun w => { w with late := true }) p.rif.urgentWait))

/-- The end of a report whose last cut has run cut number `n` and ends at `y` (R142). Where the open region is an ORDER region and holds `n`, a cut of
the report was attributed to it, and OS computes C anew (R141): the numbers of a report rise, and the open region's range has no end (R50). One
commitment check, after C, stands for that of the report's end and that of the places which the retirement frees (R54): the model's choice (log 12). -/
def finishReport (n y : Nat) (p : Part) : Part :=
  let q := retire (testChanges n { p with dec := { p.dec with cLast := some n, kLast := some y } })
  commitCheck (if (openRegion q).any (Region.holds n) then computeChange q else q)

/-- The last cut of a report is taken, and the report is finished (R142). -/
def lastCut (c : Cut) (p : Part) : Part := finishReport c.number c.stop (takeCut c p)

/-- The registration failure of a cut is latched (R134). -/
def latchMoved (c : Cut) (p : Part) : Part := if c.moved then latch .knifeRegistration p else p

/-- The first report after RUN entry (R131): the first region takes its first cut number. -/
def firstReport (n m : Nat) (p : Part) : Part :=
  lastCut (freshCut p n m)
    (setRegions p (match p.os.regions with | [] => [] | r :: rest => { r with first := some n } :: rest))

/-- A later report with gap `g` above 0 (R132). That KNIFE_SEQUENCE is latched before the first of its cuts is taken is the model's choice (log 30). -/
def laterReport (g cl kl m : Nat) (p : Part) : Part :=
  if g = 1 then
    let c := placeCut p (cl + 1) kl m
    lastCut c (latchMoved c p)
  else if g ≤ 64 then
    let s := synthesize (g - 1) (cl + 1) kl (latch .knifeSequence p)
    let c := placeCut s.1 (cl + g) s.2 m
    lastCut c (latchMoved c s.1)
  else lastCut (freshCut p (cl + g) m) (latch .knifeSequence p)

/-- A KNIFE sample (R131, R132). -/
def knifeSample (n : BitVec 16) (measured : Nat) (p : Part) : Part :=
  if inRun p then
    let m := min measured 120000
    match p.dec.cLast, p.dec.kLast with
    | some cl, some kl =>
      let g := (n - BitVec.ofNat 16 cl).toNat
      if g = 0 then p else laterReport g cl kl m p
    | _, _ => firstReport n.toNat m p
  else p

/-! ## Slitter reports (R124, R126, R128) -/

/-- DEC hands on a PRESET DONE: the NEXT order is ready if the profile is its present one (R46, R124). -/
def presetHandedOn (profile : Nat) (p : Part) : Part :=
  match p.os.queue, p.os.next with
  | o :: _, some n => if o.profile = profile then commitCheck { p with os := { p.os with next := some { n with ready := true } } } else p
  | _, _ => p

/-- A PRESET DONE report (R124). -/
def presetDone (profile : Nat) (p : Part) : Part :=
  match p.dec.inactive with
  | .presetting q =>
    if q = profile then presetHandedOn profile { p with dec := { p.dec with inactive := .ready profile } } else p
  | .free => p
  | .ready _ => p

/-- The late zone of the swap record is closed where the slitter is now (R126). -/
def closeLateZone (p : Part) : Part :=
  match p.dec.swapRec with
  | none => p
  | some r =>
    if r.late then
      match r.entry.bind (entryById p) with
      | some e =>
        handOn (closeZone e.id (boardPoint p .slitter - e.start) p)
      | none => p
    else p

/-- A SWAPPED report (R126). -/
def swapped (profile : Nat) (p : Part) : Part :=
  if p.dec.swap = .requested then
    nextSelection (closeLateZone { p with dec := { p.dec with active := some profile, inactive := .free, swap := .done } })
  else p

/-- A SLITTER sample (R128). -/
def slitterSample (code profile : Nat) (p : Part) : Part :=
  if inRun p then
    if profile < 1 ∨ 999 < profile then latch .badSample p
    else if code = 1 then presetDone profile p
    else if code = 2 then swapped profile p
    else latch .badSample p
  else p

end Sys2Proof.Machine
end

