-- ==== Sys2Proof/Machine/Web.lean ====
section
/-! DEFINITION. WT: encoder samples, what follows an advance, the bridges, joint sightings and defects (R7 to R19, R31 to R34). -/

namespace Sys2Proof.Machine

/-! ## Settings of WT's records -/

/-- The part with a feeder's encoder record replaced. -/
def setFeeder (p : Part) (f : Fin 2) (e : Encoder) : Part := { p with wt := { p.wt with feeders := upd p.wt.feeders f e } }

/-- The part with the board encoder record replaced. -/
def setBoard (p : Part) (e : Encoder) : Part := { p with wt := { p.wt with board := e } }

/-- The part with a bridge replaced. -/
def setBridgeRec (p : Part) (f : Fin 2) (b : Bridge) : Part := { p with wt := { p.wt with bridges := upd p.wt.bridges f b } }

/-! ## Bridges (R15) -/

/-- The LOW condition of a check (R15). R15 names BRIDGE_LOW and the contribution together: the latch first, the model's choice (log 33). -/
def checkLow (f : Fin 2) (p : Part) : Part :=
  let b := p.wt.bridges.get f
  let q := bridgeContent p f
  if !b.low && decide (q < b.minimum) then
    activate (.bridge f) p.sg.crawl (latch .bridgeLow (setBridgeRec p f { b with low := true }))
  else if b.low && decide ((b.minimum : Int) + 50000 ≤ q) then
    deactivate (.bridge f) (setBridgeRec p f { b with low := false })
  else p

/-- The HIGH condition of a check (R15). -/
def checkHigh (f : Fin 2) (p : Part) : Part :=
  let b := p.wt.bridges.get f
  let q := bridgeContent p f
  if !b.high && decide ((b.maximum : Int) < q) then latch .bridgeHigh (setBridgeRec p f { b with high := true })
  else if b.high && decide (q ≤ (b.maximum : Int)) then setBridgeRec p f { b with high := false }
  else p

/-- A check of a bridge, for a feeder in use, in RUN (R15). LOW is taken before HIGH, by the model's choice (log 32). -/
def checkBridge (f : Fin 2) (p : Part) : Part :=
  if inRun p && feederInUse p f then checkHigh f (checkLow f p) else p

/-! ## Changes of K (R14) -/

/-- The stands with a joint that moved between two lists of the same entries (R88). -/
def movedStands (l : List Change) (old new : List TrackEntry) : List (Fin 5) :=
  if l.isEmpty then []
  else
    (List.finRange 5).filter (fun s =>
      (old.zip new).any (fun x =>
        (match x.1.kind with | .spliceJoint t _ => decide (t = s) | _ => false) && !decide (x.1.zone = x.2.zone)))

/-- What follows once K_f has changed: the moves, with `more` as one cause, the bindings, the bridge, the grade checks of the stands whose
joints moved, RSC's evaluations and the lookup of glue unit f (R14, R24, R82, R88, R110). The rules order none of these among themselves: their order here is the
model's choice (log 29); the stands are taken by number (log 32). A move is no event of R37's test for retirement. `also` names a stand whose joint moved for a reason
of its own. -/
def kChanged (f : Fin 2) (more : List Change) (also : Option (Fin 5)) (p : Part) : Part :=
  let old := p.wt.track
  let new := old.map (placedUnder (bridgeK p f) f)
  let m := moveUnbound f p
  let stands := movedStands m.2 old new
  let q := checkBridge f (commitCheck (bindBonds (handOver (more ++ m.2) m.1)))
  let q1 := forEach (n := 5) (fun s r => if decide (s ∈ stands) || decide (also = some s) then checkGrades s r else r) q
  lookupGlue (if f = 0 then 0 else 1) (evalFeeder f q1)

/-- K_f takes a value; a value it already has changes nothing (log 27). -/
def setK (f : Fin 2) (k : Int) (p : Part) : Part :=
  if bridgeK p f = k then p else kChanged f [] none (setBridgeRec p f { p.wt.bridges.get f with k := k })

/-! ## Joint sightings (R17, R18) -/

/-- An unbound joint of the feeder that a sighting at `k` can match, with its distance (R18). -/
def sightDistance (p : Part) (f : Fin 2) (k : Nat) (e : TrackEntry) : Option Nat :=
  match jointOf p e with
  | some j =>
    let d := ((j : Int) - k).natAbs
    if e.unboundOf f && decide (d ≤ (p.wt.bridges.get f).window) then some d else none
  | none => none

/-- The nearest candidate, and the lower id of two equally near (R18). -/
def nearest (p : Part) (f : Fin 2) (k : Nat) : List TrackEntry → Option (TrackEntry × Nat)
  | [] => none
  | e :: es =>
    match sightDistance p f k e, nearest p f k es with
    | some d, some (e1, d1) => if d < d1 ∨ (d = d1 ∧ e.id < e1.id) then some (e, d) else some (e1, d1)
    | some d, none => some (e, d)
    | none, r => r

/-- The matched entry, bound with its joint at `k` (R18). -/
def sighted (p : Part) (k : Nat) (s : Fin 5) (e : TrackEntry) : TrackEntry :=
  let z := placeZone ((k : Int) - (standOf p s).preCull) (e.binding.bind Binding.web)
  ({ e with start := z.1, extent := z.2 }).bind

/-- A sighting of feeder `f` at `k` that matches the joint `e` of stand `s` (R18). The binding's test for retirement comes before the changes are handed to
OS, by the model's choice (log 34). With a correction of 0 there is no change of K_f: the moved joint is handed to OS with its commitment check before the
grade check of its stand, also the model's choice (log 29). -/
def matchJoint (f : Fin 2) (k : Nat) (s : Fin 5) (e : TrackEntry) (p : Part) : Part :=
  let b := p.wt.bridges.get f
  let err := (k : Int) - ((e.start + (standOf p s).preCull : Nat) : Int)
  let corr := clampInt (-(b.maxCorr : Int)) b.maxCorr err
  let e1 := sighted p k s e
  let own : List Change := zoneChange e.cull (some e.zone) (some e1.zone)
  let also := if e.zone = e1.zone then none else some s
  let q := retire (replaceEntry e1 p)
  if corr = 0 then
    let q1 := handOver own q
    if also.isSome then checkGrades s q1 else q1
  else kChanged f own also (setBridgeRec q f { b with k := b.k + corr })

/-- A sighting of feeder `f` (R18). -/
def sighting (f : Fin 2) (k : Nat) (p : Part) : Part :=
  match nearest p f k p.wt.track with
  | none => latch .jointUnexpected p
  | some (e, _) =>
    match e.kind with
    | .spliceJoint s _ => matchJoint f k s e p
    | _ => p

/-- A JOINT_SIGHT sample (R17). -/
def sightSample (f : Fin 2) (c : Byte) (p : Part) : Part :=
  if inRun p && feederInUse p f then
    let b := p.wt.bridges.get f
    match b.lastSight with
    | none => setBridgeRec p f { b with lastSight := some c }
    | some l =>
      if c = l then p
      else
        let q := setBridgeRec p f { b with lastSight := some c }
        sighting f (boardPoint q (.jointDet f)) q
  else p

/-! ## Defects (R31 to R34) -/

/-- The refill of the defect credit for an advance of B (R32). -/
def refillCredit (adv : Nat) (p : Part) : Part :=
  let w := p.wt
  let r := w.remainder + adv
  if w.bucketSize ≤ w.credit then { p with wt := { w with remainder := 0 } }
  else if w.bucketSize ≤ w.credit + r / w.refillLength then { p with wt := { w with credit := w.bucketSize, remainder := 0 } }
  else { p with wt := { w with credit := w.credit + r / w.refillLength, remainder := r % w.refillLength } }

/-- A defect is dropped (R34). The latch comes before the count, by the model's choice (log 33). -/
def dropDefect (p : Part) : Part := raise .droppedDefects 1 (latch .defectDrop p)

/-- A DEFECT entry. -/
def isDefect (e : TrackEntry) : Bool := decide (e.kind = .defect)

/-- A taken defect that finds no place of its own is merged into the latest DEFECT entry, or dropped (R34). That DEFECT_MERGE is latched once the extension
has been handed to OS is the model's choice (log 33). -/
def mergeLatest (s t : Nat) (p : Part) : Part :=
  match (p.wt.track.filter isDefect).getLast? with
  | none => dropDefect p
  | some d =>
    let u := unionSpan (min s d.start) (max t d.stop) (p.wt.track.filter (defectOverlaps (min s d.start) (max t d.stop)))
    if Config.defectExtentCap < u.2 - u.1 then dropDefect p
    else
      latch .defectMerge (handOn (absorbInto d (min s d.start) (max t d.stop) p))

/-- The DEFECT entry of a zone. -/
def defectEntry (d : Fin 4) (s extent : Nat) : TrackEntry :=
  { id := 0, kind := .defect, start := s, extent := some extent, cull := true, origin := .defect d, binding := none }

/-- A taken defect (R33, R34). -/
def takeDefect (d : Fin 4) (extent : Nat) (p : Part) : Part :=
  let s := boardPoint p (.defect d)
  let t := s + extent
  match p.wt.track.find? (defectOverlaps s t) with
  | some e =>
    handOn (absorbInto e (min s e.start) (max t e.stop) p)
  | none =>
    if 0 < p.wt.credit ∧ hasPlace .defect p = true then
      let r := addEntry (defectEntry d s extent) p
      handOver r.2.2 { r.1 with wt := { r.1.wt with credit := r.1.wt.credit - 1 } }
    else mergeLatest s t p

/-- A DEFECT sample (R31). -/
def defectSample (d : Fin 4) (extent : Nat) (c : Byte) (p : Part) : Part :=
  if inRun p then
    let q : Part := { p with wt := { p.wt with defectLast := upd p.wt.defectLast d (some c) } }
    match p.wt.defectLast.get d with
    | none => q
    | some l => if c = l then p else takeDefect d (clamp 1 50000 extent) q
  else p

/-! ## Encoder samples (R8 to R10) -/

/-- What a sample does to an encoder record: the record after it, the advance of the position, and whether it was a glitch or took the debt
above the reverse limit. -/
structure Motion where
  after : Encoder
  advance : Nat
  glitch : Bool
  reverse : Bool
  deriving DecidableEq, Repr

/-- The instantaneous speed (R10). -/
def instantSpeed (sigma : Nat) (dc : Int) (dt : Nat) : Nat :=
  (clampInt 0 100000 (dc * sigma * 1000000 / ((65536 * dt : Nat) : Int))).toNat

/-- The motion and speed stages (R9, R10) of a pulse difference `dc` over a time `dt`, of a record whose reference has been replaced. -/
def Encoder.move (e : Encoder) (dc : Int) (dt : Nat) : Motion :=
  let a := (e.residue : Int) + dc * e.sigma
  let dp := a / 65536
  let base : Encoder :=
    { e with residue := (a % 65536).toNat, history := enter8 e.history (instantSpeed e.sigma dc dt) }
  if dp < 0 then
    { after := { base with debt := min e.reverseLimit (e.debt + dp.natAbs) }, advance := 0, glitch := false,
      reverse := decide (e.reverseLimit < e.debt + dp.natAbs) }
  else
    let r := min e.debt dp.toNat
    { after := { base with debt := e.debt - r, pos := e.pos + (dp.toNat - r) }, advance := dp.toNat - r, glitch := false,
      reverse := false }

/-- An encoder sample taken by a record (R8). -/
def Encoder.sample (e : Encoder) (c t : Word) : Motion :=
  match e.ref with
  | none => { after := { e with ref := some (c, t) }, advance := 0, glitch := false, reverse := false }
  | some (c0, t0) =>
    let dc := (c - c0).toInt
    if t = t0 then { after := e, advance := 0, glitch := false, reverse := false }
    else if e.gmax < dc.natAbs then
      { after := { e with ref := some (c, t) }, advance := 0, glitch := true, reverse := false }
    else ({ e with ref := some (c, t) } : Encoder).move dc (t - t0).toNat

/-- The alarms of a sample (R8, R9). -/
def motionAlarms (m : Motion) (p : Part) : Part :=
  if m.glitch then latch .encoderGlitch p else if m.reverse then latch .reverseLimit p else p

/-- DEC's test for a late slitter, with the change handed to OS (R127). -/
def slitterLate (p : Part) : Part := handOn (testSlitterLate p)

/-- What follows an advance of B (R12), in the order of R12's list (log 4), the bridges by number (log 32). -/
def boardAdvanced (adv : Nat) (p : Part) : Part :=
  let q := commitCheck (bindBonds (refillCredit adv (missJoints (forEach (n := 2) checkBridge p))))
  raise .boardLength adv (slitterLate (testSwapPoint (lookupAll (evalStand 4 q))))

/-- What follows an advance of F_f (R12). -/
def feederAdvanced (f : Fin 2) (p : Part) : Part := evalFeeder f (checkBridge f p)

/-- A BOARD_ENC sample (R8 to R10, R12, R82, R110). The record takes the position and the speed entry together, so the reactions to the advance read
the average with the sample's own speed in it: the model's choice, which R9 to R12 leave open (log 29). So is that the gaps and the wraps for a changed line speed are computed after
all of R12's reactions, so that GLUE_SET and WRAP_SET follow ZONE_SET, and, where the sample changes the average without an advance, after R82's evaluation of
stand 5 (log 29). -/
def boardSample (c t : Word) (p : Part) : Part :=
  if inRun p then
    let m := p.wt.board.sample c t
    let q := motionAlarms m (setBoard p m.after)
    let q1 := if m.advance = 0 then q else boardAdvanced m.advance q
    if m.after.speed = p.wt.board.speed then q1
    else speedChanged (if m.advance = 0 then evalStand 4 q1 else q1)
  else p

/-- A FEEDER_ENC sample (R8 to R10, R12, R82). -/
def feederSample (f : Fin 2) (c t : Word) (p : Part) : Part :=
  if inRun p && feederInUse p f then
    let e := p.wt.feeders.get f
    let m := e.sample c t
    let q := motionAlarms m (setFeeder p f m.after)
    if m.advance ≠ 0 then feederAdvanced f q
    else if m.after.speed = e.speed then q
    else evalFeeder f q
  else p

end Sys2Proof.Machine
end

