-- ==== Sys2Proof/Machine/Splicer.lean ====
section
/-! DEFINITION. RSC: diameter samples, arm reports, and the splicer protocol (R75 to R78, R93 to R100). -/

namespace Sys2Proof.Machine

/-! ## Diameter samples (R77, R78) -/

/-- The history after a diameter is entered (R77). -/
def Stand.enterDiameter (st : Stand) (d : Nat) : Stand :=
  let old := if st.staleSince || !decide (st.historyArm = st.running) then [] else st.history
  { st with history := enter8 old d, historyArm := st.running, staleSince := false }

/-- A STAND_DIA sample (R77, R78). -/
def diameterSample (s : Fin 5) (v : Int) (p : Part) : Part :=
  if inRun p && standInUse p s then
    let st := (standOf p s).enterDiameter (clampInt 0 18000 v).toNat
    let st1 := match st.remaining with | some r => { st with reckon := some (r, standRef p s) } | none => st
    evalStand s (setStandRec p s st1)
  else p

/-! ## Arm reports (R75, R76) -/

/-- The report names the arms as it should (R75): `run` is the code of the running arm. -/
def armsConsistent (a b : ArmState) (run : Nat) : Bool :=
  match run with
  | 0 => !decide (a = .running) && !decide (b = .running)
  | 1 => decide (a = .running) && !decide (b = .running)
  | 2 => decide (b = .running) && !decide (a = .running)
  | _ => false

/-- An arm takes its reported state (R75). -/
def ArmRecord.report (r : ArmRecord) (x : ArmState) : ArmRecord :=
  if x = .empty ∧ r.state ≠ .empty then ArmRecord.cleared else { r with state := x }

/-- The GO of the most recent number waits, and its arm is no longer PREPARED, in whatever splice state (R95). -/
def goSpoiled (p : Part) (s : Fin 5) : Bool :=
  match (standOf p s).recent with
  | some g => p.rif.urgentWait.any (fun w => decide (spoiledGo p s w = some g.seq))
  | none => false

/-- The open transaction is closed and both limits are stopped. -/
def Stand.close (st : Stand) : Stand :=
  { st with recent := st.recent.map (fun g => { g with isOpen := false }), acceptBy := none, doneBy := none }

/-- The held GOs of the stand are tested by a taken arm report (R95): each whose arm is no longer PREPARED is withdrawn, and with the most recent one its
transaction is closed, both limits are stopped and the state is IDLE. An earlier number's leaves the record and the state as they are, the model's choice (log 38). -/
def testHeldGo (s : Fin 5) (p : Part) : Part :=
  let q := withdrawGo s p
  if goSpoiled p s then setStandRec q s { (standOf q s).close with splice := .idle } else q

/-- The stand's record at a change of the running arm (R76). -/
def Stand.rearmed (st : Stand) (noJoint : Bool) : Stand :=
  { st with history := [], historyArm := none, reckon := none, exhausted := false,
            g0 := if noJoint then st.runningGrade else st.g0 }

/-- A consistent STAND_ARM report is taken (R75, R76). The awaited report is in and each spoiled held GO is withdrawn before the grade check of a changed
running arm: the model's choice (log 30). -/
def takeArms (s : Fin 5) (a b : ArmState) (p : Part) : Part :=
  let st := standOf p s
  let st1 := { st with armA := st.armA.report a, armB := st.armB.report b, awaiting := false }
  let changed := !decide (st1.running = st.running)
  let st2 := if changed then st1.rearmed (jointsOf p s).isEmpty else st1
  let q := testHeldGo s (setStandRec p s st2)
  evalStand s (if changed && inRun q then checkGrades s q else q)

/-- A STAND_ARM sample (R75). -/
def armSample (s : Fin 5) (a b run : Nat) (p : Part) : Part :=
  if inRun p && !standInUse p s then p
  else
    match armStateOf a, armStateOf b with
    | some x, some y => if armsConsistent x y run then takeArms s x y p else latch .badSample p
    | _, _ => latch .badSample p

/-! ## The joint of a DONE (R98) -/

/-- The joint of a stand now: its knife coordinate, and the entry it asks WT for (R98). -/
def jointEntry (p : Part) (s : Fin 5) (grade : Nat) : Nat × TrackEntry :=
  let st := standOf p s
  let web := st.preCull + st.postCull
  match standFeeder s with
  | some f =>
    let x : Int := (posF p f : Int) + offset p (.stand s)
    let z := placeZone (x - st.preCull + bridgeK p f) (some web)
    (coord (x + bridgeK p f),
     { id := 0, kind := .spliceJoint s grade, start := z.1, extent := z.2, cull := true, origin := .stand s,
       binding := some { feeder := f, start := x - st.preCull, bound := false, web := some web } })
  | none =>
    let j := boardPoint p (.stand s)
    let z := placeZone ((j : Int) - st.preCull) (some web)
    (j, { id := 0, kind := .spliceJoint s grade, start := z.1, extent := z.2, cull := true, origin := .stand s, binding := none })

/-- The plan is tested for satisfaction by a GO of a grade, and a satisfying joint at `j` for lateness (R92, R93). -/
def satisfyPlan (s : Fin 5) (grade j : Nat) (p : Part) : Part :=
  let st := standOf p s
  match st.plan with
  | none => p
  | some pl =>
    if pl.grade = grade then
      let q := setStandRec p s { st with plan := none }
      match regionOf q pl.tag with
      | some r => if r.start ≤ j then setGradeLate pl.tag q else q
      | none => q
    else p

/-- A DONE is taken (R98). That the splices are counted once the joint has been handed to OS is the model's choice (log 33). -/
def takeDone (s : Fin 5) (g : GoRecord) (p : Part) : Part :=
  let p1 := withdrawAbort s g.seq (setStandRec p s (standOf p s).close)
  let j := jointEntry p1 s g.grade
  let i := insertOrCover (standFeeder s) j.2 p1
  let p2 := raise (.splices s) 1 (handOver i.2.2 i.1)
  let p3 := setStandRec p2 s { standOf p2 s with awaiting := true, splice := .idle }
  evalStand s (checkGrades s (satisfyPlan s g.grade j.1 p3))

/-! ## Faults, aborts and timeouts (R96, R97, R99, R100) -/

/-- The web has broken: WEB_BREAK is latched and its contribution made active with value 0 (R99), in this order by the model's choice (log 33). -/
def webBroken (p : Part) : Part := activate .webBreak 0 (latch .webBreak p)

/-- A splice in SENT or ACTIVE ends without a joint: the transaction is closed and the state is IDLE (R99, R100). -/
def dropSplice (s : Fin 5) (p : Part) : Part := setStandRec p s { (standOf p s).close with splice := .idle }

/-- A FAULT is taken; `broke` is the cause BREAK (R99). -/
def takeFault (s : Fin 5) (broke : Bool) (p : Part) : Part :=
  if (standOf p s).inFlight then
    evalStand s (if broke then webBroken (dropSplice s p) else latch .spliceFault (dropSplice s p))
  else
    let q := setStandRec p s (standOf p s).close
    if broke then webBroken q else q

/-- An ABORTED is taken (R100). -/
def takeAborted (s : Fin 5) (seq : Byte) (p : Part) : Part :=
  if (standOf p s).inFlight then evalStand s (latch .spliceFault (dropSplice s p))
  else withdrawAbort s seq (setStandRec p s (standOf p s).close)

/-- An ACCEPTED is taken (R96). -/
def takeAccepted (s : Fin 5) (p : Part) : Part :=
  let st := standOf p s
  if st.splice = .sent then
    setStandRec p s { st with splice := .active, acceptBy := none, doneBy := some (p.time + 2 * st.spliceTime) }
  else p

/-- A SPLICER sample (R94 to R100). A report leaves a GO of its number that still waits where it is: the model's choice (log 38). -/
def splicerSample (s : Fin 5) (code seq : Nat) (p : Part) : Part :=
  if inRun p && !standInUse p s then p
  else if code < 1 ∨ 6 < code then latch .badSample p
  else
    match (standOf p s).recent with
    | none => p
    | some g =>
      if seq = g.seq.toNat ∧ g.isOpen = true then
        if code = 1 then takeAccepted s p
        else if code = 2 then takeDone s g p
        else if code = 3 then takeAborted s g.seq p
        else takeFault s (decide (code = 5)) p
      else p

/-- A limit of the stand has expired: ABORT is posted, the state is IDLE, SPLICE_TIMEOUT is latched and the evaluation follows (R96, R97). -/
def spliceTimeout (s : Fin 5) (p : Part) : Part :=
  let st := standOf p s
  match st.recent with
  | some g =>
    let q := (postSequence (.abort s g.seq) p).1
    evalStand s (latch .spliceTimeout
      (setStandRec q s { standOf q s with splice := .idle, acceptBy := none, doneBy := none }))
  | none => p

/-- A deadline is present and has come (log 11). -/
def due (now : Nat) : Option Nat → Bool
  | some d => decide (d ≤ now)
  | none => false

/-- The ACCEPTED limit expires (R96); a limit that is not due does not (log 3). -/
def acceptedExpiry (s : Fin 5) (p : Part) : Part :=
  let st := standOf p s
  if st.splice = .sent ∧ due p.time st.acceptBy = true then spliceTimeout s p else p

/-- The DONE limit expires (R97). -/
def doneExpiry (s : Fin 5) (p : Part) : Part :=
  let st := standOf p s
  if st.splice = .active ∧ due p.time st.doneBy = true then spliceTimeout s p else p

end Sys2Proof.Machine
end

