-- ==== Sys2Proof/Machine/Intake.lean ====
section
/-! DEFINITION. SI: the delivery of samples to their owners and the freshness of inputs (R187, R190, R191, R11). -/

namespace Sys2Proof.Machine

/-! ## What the owner of an input is told (R191) -/

/-- An in-use encoder input is stale (R11). -/
def encoderStale (p : Part) : Bool :=
  inputStale p .boardEnc || inputStale p (.feederEnc 0) || (feederInUse p 1 && inputStale p (.feederEnc 1))

/-- WT holds the ENCODER contribution while an in-use encoder input is stale (R11). -/
def holdEncoder (p : Part) : Part := if inRun p then holdAtCrawl .encoder (encoderStale p) p else p

/-- The owner of an input is told that it is stale (R11, R77, R82, R118, R120). -/
def toldStale (i : Input) (p : Part) : Part :=
  match i with
  | .boardEnc => holdEncoder (setBoard p { p.wt.board with ref := none })
  | .feederEnc f => holdEncoder (setFeeder p f { p.wt.feeders.get f with ref := none })
  | .standDia s => evalStand s (setStandRec p s { standOf p s with staleSince := true })
  | .zoneTemp z => zoneFreshness z true p
  | _ => p

/-- The owner of an input is told that it is fresh (R11, R82, R118, R120). -/
def toldFresh (i : Input) (p : Part) : Part :=
  match i with
  | .boardEnc => holdEncoder p
  | .feederEnc _ => holdEncoder p
  | .standDia s => evalStand s p
  | .zoneTemp z => zoneFreshness z false p
  | _ => p

/-! ## Freshness records (R191) -/

/-- The part with the freshness record of an input changed. -/
def setFreshness (i : Input) (st : Fresh) (last : Option Nat) (p : Part) : Part :=
  { p with si := { p.si with
      inMap := modifyWhere (fun e => decide (e.input = i)) (fun e => { e with state := st, last := last }) p.si.inMap } }

/-- A sample that passes R190 is taken: its record keeps the time, and in RUN becomes FRESH; the owner of a STALE input is told before the sample is
delivered. In CONFIG the record stays WAITING (R191; log 22). -/
def refresh (e : InEntry) (p : Part) : Part :=
  if inRun p then
    let q := setFreshness e.input .fresh (some p.time) p
    if e.state = .stale then toldFresh e.input q else q
  else setFreshness e.input .waiting (some p.time) p

/-- The freshness limit of an input has run out: its record is FRESH, and no sample has passed for the length of the limit (R191). -/
def freshnessDue (p : Part) (e : InEntry) : Bool :=
  decide (e.state = .fresh) &&
    (match e.last with | some t => decide (t + freshLimit p e.input ≤ p.time) | none => false)

/-- The freshness limit of an input expires (R191); a limit that is not due does not (log 3). INPUT_STALE is latched before the owner is told: the model's
choice (log 33). -/
def freshnessExpires (i : Input) (p : Part) : Part :=
  match inEntry p i with
  | none => p
  | some e =>
    if inRun p && freshnessDue p e then toldStale i (latch .inputStale (setFreshness i .stale e.last p)) else p

/-! ## Delivery (R190) -/

/-- A value read as an unsigned number. -/
def un (w : Word) : Nat := w.toNat

/-- The values of a sample are delivered to the input's owner (R190). A wrapping count is taken modulo its range (log 10). -/
def deliver (i : Input) (vs : List Word) (p : Part) : Part :=
  match i, vs with
  | .boardEnc, [c, t] => boardSample c t p
  | .feederEnc f, [c, t] => feederSample f c t p
  | .standDia s, [d] => diameterSample s d.toInt p
  | .standArm s, [a, b, r] => armSample s (un a) (un b) (un r) p
  | .splicer s, [c, n] => splicerSample s (un c) (un n) p
  | .jointSight f, [c] => sightSample f (c.setWidth 8) p
  | .zoneTemp z, [t] => zoneTempSample z t.toInt p
  | .glueFb g, [x] =>
    handOn (glueSample g x.toInt p)
  | .defect d, [e, c] => defectSample d (un e) (c.setWidth 8) p
  | .knife, [n, m] => knifeSample (n.setWidth 16) (un m) p
  | .slitter, [c, f] => slitterSample (un c) (un f) p
  | .stacker, [a] => stackerSample (a.setWidth 16) p
  | _, _ => p

/-- SI takes a copy of a SAMPLE frame (R190). -/
def takeSample (src : Byte) (payload : List Byte) (p : Part) : Part :=
  match payload with
  | [] => p
  | ch :: _ =>
    match p.si.inMap.find? (fun e => decide (e.node = src) && decide (e.channel = ch)) with
    | none => p
    | some e =>
      match sampleValues e.input.role.values payload with
      | none => latch .badSample p
      | some vs => deliver e.input vs (refresh e p)

end Sys2Proof.Machine
end

