-- ==== Sys2Proof/Machine/Receive.lean ====
section
/-! DEFINITION. RIF's receive path, the end of a transmission, waiting frames, the roster, and the expiries of the block timers
(R171, R175 to R178, R182, R184, R185, R194; R96, R97, R113, R156, R164, R191), with the meanings of their commands. -/

namespace Sys2Proof.Machine

/-! ## Receiving (R175 to R177, R184, R194) -/

/-- A frame is dropped for a reason (R175 to R177). -/
def dropFrame (r : DropReason) (p : Part) : Part := raise (.framesDropped r) 1 p

/-- A source heard now: its roster entry is refreshed, or learned where there is room; RIF tests the lost flag at a learning
(R184, R185). -/
def learn (src : Byte) (p : Part) : Part :=
  let n := src.toNat
  if p.rif.roster.any (fun e => decide (e.node = n)) then
    { p with rif := { p.rif with
        roster := modifyWhere (fun e => decide (e.node = n)) (fun e => { e with lastHeard := p.time }) p.rif.roster } }
  else if p.rif.roster.length < Config.rosterCap then
    testLost { p with rif := { p.rif with roster := p.rif.roster ++ [{ node := n, lastHeard := p.time }] } }
  else latch .rosterFull p

/-- MU takes in a request, or answers BUSY (R194). -/
def takeIn (src : Byte) (payload : List Byte) (p : Part) : Part :=
  let r : Request := { src := src, payload := payload, stamp := p.free }
  let q : Part := { p with free := p.free + 1 }
  if q.mu.queue.length < Config.mgmtCap then { q with mu := { q.mu with queue := q.mu.queue ++ [r] } }
  else raise .busyReplies 1 (postBusy r q)

/-- A frame reaches the forward buffer (R177). The count of a drop comes before its latch, by the model's choice (log 33). -/
def forwardFrame (f : Frame) (p : Part) : Part :=
  if f.hop.toNat ≤ 1 then latch .hopExpired (dropFrame .hopExpired p)
  else if p.rif.forward.length < Config.forwardCap then
    kick { p with rif := { p.rif with forward := p.rif.forward ++ [({ f with hop := f.hop - 1 } : Frame).checked] } }
  else latch .forwardOverrun (dropFrame .forwardOverrun p)

/-- A frame that has passed the check, in a part with node number `n` (R176). -/
def handleFrame (n : Nat) (f : Frame) (p : Part) : Part :=
  let q := if f.src.toNat ≤ 239 ∧ f.src.toNat ≠ n then learn f.src p else p
  if f.src.toNat = n then dropFrame .stripped q
  else if f.dest.toNat = n then
    if f.kind = kindRequest then takeIn f.src f.payload q else dropFrame .notRequest q
  else forwardFrame f (if f.kind = kindSample then takeSample f.src f.payload q else q)

/-- The bytes of a frame arrive (R175). A part without a node number is a repeater (R171). The count of a drop comes before its latch, by the model's
choice (log 33). -/
def receive (bytes : List Byte) (p : Part) : Part :=
  let q := raise .framesReceived 1 p
  match parseFrame bytes, q.node with
  | none, _ => latch .rxCheck (dropFrame .check q)
  | some f, none => forwardFrame f q
  | some f, some n => handleFrame n f q

/-! ## Transmitting (R178, R182) -/

/-- A transmission ends, and the arbiter chooses the next frame (R178). -/
def endTransmission (p : Part) : Part :=
  match p.rif.port with
  | none => p
  | some _ => nextFrame p

/-- Waiting frames enter the queues that have room for them, the oldest first (R182). -/
def enterWaiting (p : Part) : Part := kick (refill false (refill true p))

/-! ## Expiries -/

/-- The roster's sweep is due (R184). -/
def sweepDue (p : Part) : Bool := decide (p.rif.nextSweep ≤ p.time)

/-- A roster entry last heard the aging period or more in the past (R184). -/
def aged (p : Part) (e : RosterEntry) : Bool := decide (e.lastHeard + 1000 * p.rif.agingSec ≤ p.time)

/-- The sweep of the roster (R184). RIF tests the lost flag at each removal (R185): one test after all of them comes out the same (DEDUCED, log 43). -/
def sweep (p : Part) : Part :=
  if sweepDue p then
    let q : Part :=
      { p with rif := { p.rif with roster := p.rif.roster.filter (fun e => !aged p e), nextSweep := (p.time / 1000 + 1) * 1000 } }
    if p.rif.roster.any (aged p) then testLost q else q
  else p

/-- The refresh timer expires (R164). -/
def refreshExpires (p : Part) : Part :=
  match p.sg.nextRefresh, p.sg.effective with
  | some t, some e =>
    if inRun p && decide (t ≤ p.time) then
      postCeiling e { p with sg := { p.sg with nextRefresh := some (t + p.sg.refreshPeriod) } }
    else p
  | _, _ => p

/-- The transit deadline of the head entry expires (R156). -/
def transitExpires (p : Part) : Part := if inRun p && headOverdue p then testHead p else p

/-- The settle deadline of a glue unit passes (R113). -/
def settleExpires (g : Fin 3) (p : Part) : Part :=
  let u := p.bc.glue.get g
  if due p.time u.settleBy then setGlue p g { u with settleBy := none } else p

/-! ## The meanings of the commands -/

/-- A command's effect on the part is a next state, with the waiting commands as they are. -/
def onPart (f : Part → Part) (s : State) : Host.Outcome State Fault Refusal := .next { s with part := f s.part }

/-- POWER_ON_RESET (R171 and the reset column of every chapter). -/
def execPowerOnReset (straps : Byte) (s : State) : Host.Outcome State Fault Refusal := onPart (fun _ => Part.reset straps) s

/-- FRAME_RECEIVE (R175). -/
def execFrameReceive (bytes : List Byte) (s : State) : Host.Outcome State Fault Refusal := onPart (receive bytes) s

/-- TRANSMISSION_END (R178). -/
def execTransmissionEnd (s : State) : Host.Outcome State Fault Refusal := onPart endTransmission s

/-- WAITING_FRAME_ENTRY (R182; log 5). -/
def execWaitingFrameEntry (s : State) : Host.Outcome State Fault Refusal := onPart enterWaiting s

/-- ROSTER_SWEEP (R184). -/
def execRosterSweep (s : State) : Host.Outcome State Fault Refusal := onPart sweep s

/-- FRESHNESS_EXPIRY (R191); an input that the part does not have has no limit. -/
def execFreshnessExpiry (role : InRole) (index : Nat) (s : State) : Host.Outcome State Fault Refusal :=
  onPart (fun p => match inputOf role index with | some i => freshnessExpires i p | none => p) s

/-- REFRESH_EXPIRY (R164). -/
def execRefreshExpiry (s : State) : Host.Outcome State Fault Refusal := onPart refreshExpires s

/-- TRANSIT_DEADLINE_EXPIRY (R156). -/
def execTransitDeadlineExpiry (s : State) : Host.Outcome State Fault Refusal := onPart transitExpires s

/-- ACCEPTED_TIMEOUT (R96). -/
def execAcceptedTimeout (stand : Nat) (s : State) : Host.Outcome State Fault Refusal :=
  onPart (fun p => match place 5 stand with | some i => acceptedExpiry i p | none => p) s

/-- DONE_TIMEOUT (R97). -/
def execDoneTimeout (stand : Nat) (s : State) : Host.Outcome State Fault Refusal :=
  onPart (fun p => match place 5 stand with | some i => doneExpiry i p | none => p) s

/-- GLUE_SETTLE_EXPIRY (R113). -/
def execGlueSettleExpiry (unit : Nat) (s : State) : Host.Outcome State Fault Refusal :=
  onPart (fun p => match place 3 unit with | some i => settleExpires i p | none => p) s

end Sys2Proof.Machine
end

