-- ==== Sys2Proof/Machine/Requests.lean ====
section
/-! DEFINITION. MU's execution of the head request (R194, R195), and the requests that write the machine's description (R4 to R6, R13, R72,
R186, R188, R189, R200). -/

namespace Sys2Proof.Machine

/-! ## One request (R195) -/

/-- The mode in which a request is taken (R195). -/
inductive Taken where
  | either
  | only (m : Mode)
  deriving DecidableEq, Repr

/-- The request is taken in this mode. -/
def Taken.allows (t : Taken) (m : Mode) : Bool :=
  match t with
  | .either => true
  | .only n => decide (n = m)

/-- What a request's execution answers: the part, the status and the results. -/
structure Answer where
  part : Part
  status : Status
  results : List Byte
  deriving DecidableEq, Repr

/-- An OK answer. -/
def okWith (results : List Byte) (p : Part) : Answer := { part := p, status := .ok, results := results }

/-- A refusal: no effect, no results (R195). -/
def refuse (st : Status) (p : Part) : Answer := { part := p, status := st, results := [] }

/-- The head request of the management queue, where MU is free and its code is `code` (R195). -/
def headRequest (code : Nat) (p : Part) : Option Request :=
  match p.mu.queue with
  | r :: _ => if muFree p && decide (r.code = some code) then some r else none
  | [] => none

/-- The head request leaves the queue (R195). -/
def popRequest (p : Part) : Part := { p with mu := { p.mu with queue := p.mu.queue.tail } }

/-- The head request with this code is executed: MU's two checks, then the owner's rule `act`, which makes the reply itself (R195). The
arguments are fields of the given widths. Where the head is no such request, or MU is not free, nothing happens (log 3). -/
def serveWith (code : Nat) (taken : Taken) (widths : List Nat) (act : Request → List Nat → Part → Part) (p : Part) : Part :=
  match headRequest code p with
  | none => p
  | some r =>
    let q := popRequest p
    match fieldsOf widths r.args with
    | none => postReply r .badArg [] q
    | some fs => if taken.allows q.mu.mode then act r fs q else postReply r .wrongMode [] q

/-- The reply of an answer is posted. -/
def replyTo (r : Request) (x : Answer) : Part := postReply r x.status x.results x.part

/-- The head request with this code is executed, and its reply is posted when its effects are made (R195). -/
def serve (code : Nat) (taken : Taken) (widths : List Nat) (act : List Nat → Part → Answer) (p : Part) : Part :=
  serveWith code taken widths (fun r fs q => replyTo r (act fs q)) p

/-- A value within a range. -/
def within (lo hi x : Nat) : Bool := decide (lo ≤ x) && decide (x ≤ hi)

/-! ## SET LINE, SET ENCODER, SET STATION (R4 to R6) -/

/-- SET LINE (R5). -/
def setLineForm (fs : List Nat) (p : Part) : Answer :=
  match fs with
  | [v] =>
    match lineFormOf v with
    | some l => okWith [] { p with wt := { p.wt with line := l } }
    | none => refuse .badArg p
  | _ => refuse .badArg p

/-- The encoder record with its settings stored (R6). -/
def Encoder.configure (e : Encoder) (sigma gmax limit : Nat) : Encoder :=
  { e with sigma := sigma, gmax := gmax, reverseLimit := min limit 1000000 }

/-- SET ENCODER (R6). -/
def setEncoderSettings (fs : List Nat) (p : Part) : Answer :=
  match fs with
  | [n, sigma, gmax, limit] =>
    if within 4096 16777215 sigma && within 1 65535 gmax then
      match n with
      | 0 => okWith [] (setBoard p (p.wt.board.configure sigma gmax limit))
      | 1 => okWith [] (setFeeder p 0 ((p.wt.feeders.get 0).configure sigma gmax limit))
      | 2 => okWith [] (setFeeder p 1 ((p.wt.feeders.get 1).configure sigma gmax limit))
      | _ => refuse .badArg p
    else refuse .badArg p
  | _ => refuse .badArg p

/-- The station's offset is fixed at 0 (R2, R4). -/
def Station.fixed (st : Station) : Bool := decide (st = .glue 0) || decide (st = .glue 1)

/-- SET STATION (R4). -/
def setStationOffset (fs : List Nat) (p : Part) : Answer :=
  match fs with
  | [n, off] =>
    match stationOf n with
    | some st =>
      if st.fixed || decide (3000000 < off) then refuse .badArg p
      else okWith [] { p with wt := { p.wt with offsets := upd p.wt.offsets st.idx off } }
    | none => refuse .badArg p
  | _ => refuse .badArg p

/-! ## SET STAND, SET BRIDGE (R72, R13) -/

/-- SET STAND (R72). -/
def setStandSettings (fs : List Nat) (p : Part) : Answer :=
  match fs with
  | [n, time, speed, reserve, arming, pre, post, margin] =>
    match place 5 n with
    | some s =>
      let st :=
        { standOf p s with
            spliceTime := clamp 500 20000 time, maxSpeed := clamp 5000 100000 speed, reserve := min 5000000 reserve,
            arming := min 10000000 arming, preCull := min 50000 pre, postCull := min 50000 post, margin := min 1000000 margin }
      okWith (w32 st.spliceTime ++ w32 st.maxSpeed ++ w32 st.reserve ++ w32 st.arming ++ w32 st.preCull ++ w32 st.postCull
          ++ w32 st.margin)
        (setStandRec p s st)
    | none => refuse .badArg p
  | _ => refuse .badArg p

/-- SET BRIDGE (R13). That its contents, its sighting window and its maximum correction are fields of 32 bits, though R193 gives 64 to the signed values of R1,
among which R1 lists bridge contents, matching distances and corrections, is the model's choice (log 36). -/
def setBridgeSettings (fs : List Nat) (p : Part) : Answer :=
  match fs with
  | [n, lfix, cap, qnom, lo, hi, w, corr] =>
    match place 2 n with
    | some f =>
      if decide (lfix ≤ 5000000) && within 10000 5000000 cap && decide (qnom ≤ cap) && decide (lo ≤ cap) && decide (hi ≤ cap)
          && within 1000 100000 w && decide (corr ≤ 50000) && decide (lo + 50000 < hi) then
        okWith []
          (setBridgeRec p f
            { p.wt.bridges.get f with
                lfix := lfix, capacity := cap, qnom := qnom, minimum := lo, maximum := hi, window := w, maxCorr := corr })
      else refuse .badArg p
    | none => refuse .badArg p
  | _ => refuse .badArg p

/-! ## SET LIMITS (R200) -/

/-- The identity of a setting: its base, and the index of the unit, wrap or zone. -/
inductive Setting where
  | bucketSize | refillLength | commitLead | wasteLength | swapTime
  | minGap (g : Fin 3) | maxGap (g : Fin 3)
  | settleTime
  | wrapLead (w : Fin 3)
  | zoneLead (z : Fin 8)
  | zoneCount | regLimit | lengthTol | straddleTol | transit | watermark | lineMax | crawl | refreshPeriod | aging
  | encoderLimit | inputLimit
  deriving DecidableEq, Repr

/-- The setting with an identity (R200). -/
def settingOf (n : Nat) : Option Setting :=
  match n with
  | 1 => some .bucketSize
  | 2 => some .refillLength
  | 3 => some .commitLead
  | 4 => some .wasteLength
  | 5 => some .swapTime
  | 24 => some .settleTime
  | 40 => some .zoneCount
  | 48 => some .regLimit
  | 49 => some .lengthTol
  | 50 => some .straddleTol
  | 56 => some .transit
  | 57 => some .watermark
  | 64 => some .lineMax
  | 65 => some .crawl
  | 66 => some .refreshPeriod
  | 72 => some .aging
  | 73 => some .encoderLimit
  | 74 => some .inputLimit
  | _ =>
    if 17 ≤ n ∧ n ≤ 19 then (place 3 (n - 16)).map .minGap
    else if 21 ≤ n ∧ n ≤ 23 then (place 3 (n - 20)).map .maxGap
    else if 25 ≤ n ∧ n ≤ 27 then (place 3 (n - 24)).map .wrapLead
    else if 32 ≤ n ∧ n ≤ 39 then (place 8 (n - 31)).map .zoneLead
    else none

/-- A setting's range (R32, R49, R107, R136, R146, R162, R184, R191). -/
def Setting.range : Setting → Nat × Nat
  | .bucketSize => (1, 64)
  | .refillLength => (1000, 10000000)
  | .commitLead => (200000, 5000000)
  | .wasteLength => (2000, 60000)
  | .swapTime => (100, 20000)
  | .minGap _ => (50, 1000)
  | .maxGap _ => (50, 1000)
  | .settleTime => (0, 5000)
  | .wrapLead _ => (0, 3000000)
  | .zoneLead _ => (0, 3000000)
  | .zoneCount => (1, 8)
  | .regLimit => (100, 50000)
  | .lengthTol => (0, 5000)
  | .straddleTol => (0, 30000)
  | .transit => (100, 60000)
  | .watermark => (8, 64)
  | .lineMax => (10000, 100000)
  | .crawl => (1000, 20000)
  | .refreshPeriod => (50, 5000)
  | .aging => (1, 300)
  | .encoderLimit => (5, 1000)
  | .inputLimit => (50, 10000)

/-- A setting takes a value. -/
def storeSetting (x : Setting) (v : Nat) (p : Part) : Part :=
  match x with
  | .bucketSize => { p with wt := { p.wt with bucketSize := v } }
  | .refillLength => { p with wt := { p.wt with refillLength := v } }
  | .commitLead => { p with os := { p.os with commitLead := v } }
  | .wasteLength => { p with os := { p.os with wasteLength := v } }
  | .swapTime => { p with os := { p.os with swapTime := v } }
  | .minGap g => { p with bc := { p.bc with minGap := upd p.bc.minGap g v } }
  | .maxGap g => { p with bc := { p.bc with maxGap := upd p.bc.maxGap g v } }
  | .settleTime => { p with bc := { p.bc with settleTime := v } }
  | .wrapLead w => { p with bc := { p.bc with wrapLead := upd p.bc.wrapLead w v } }
  | .zoneLead z => { p with bc := { p.bc with zoneLead := upd p.bc.zoneLead z v } }
  | .zoneCount => { p with bc := { p.bc with zoneCount := v } }
  | .regLimit => { p with dec := { p.dec with regLimit := v } }
  | .lengthTol => { p with dec := { p.dec with lengthTol := v } }
  | .straddleTol => { p with dec := { p.dec with straddleTol := v } }
  | .transit => { p with sc := { p.sc with transit := v } }
  | .watermark => { p with sc := { p.sc with watermark := v } }
  | .lineMax => { p with sg := { p.sg with lineMax := v } }
  | .crawl => { p with sg := { p.sg with crawl := v } }
  | .refreshPeriod => { p with sg := { p.sg with refreshPeriod := v } }
  | .aging => { p with rif := { p.rif with agingSec := v } }
  | .encoderLimit => { p with si := { p.si with encoderLimit := v } }
  | .inputLimit => { p with si := { p.si with inputLimit := v } }

/-- A setting's stored value. -/
def readSetting (x : Setting) (p : Part) : Nat :=
  match x with
  | .bucketSize => p.wt.bucketSize
  | .refillLength => p.wt.refillLength
  | .commitLead => p.os.commitLead
  | .wasteLength => p.os.wasteLength
  | .swapTime => p.os.swapTime
  | .minGap g => p.bc.minGap.get g
  | .maxGap g => p.bc.maxGap.get g
  | .settleTime => p.bc.settleTime
  | .wrapLead w => p.bc.wrapLead.get w
  | .zoneLead z => p.bc.zoneLead.get z
  | .zoneCount => p.bc.zoneCount
  | .regLimit => p.dec.regLimit
  | .lengthTol => p.dec.lengthTol
  | .straddleTol => p.dec.straddleTol
  | .transit => p.sc.transit
  | .watermark => p.sc.watermark
  | .lineMax => p.sg.lineMax
  | .crawl => p.sg.crawl
  | .refreshPeriod => p.sg.refreshPeriod
  | .aging => p.rif.agingSec
  | .encoderLimit => p.si.encoderLimit
  | .inputLimit => p.si.inputLimit

/-- The adjustments between settings: a maximum gap is raised to its minimum (R107), the crawl speed lowered to the line max (R162). -/
def adjustSettings (p : Part) : Part :=
  let hi := Vector.ofFn (fun g : Fin 3 => max (p.bc.minGap.get g) (p.bc.maxGap.get g))
  { p with bc := { p.bc with maxGap := hi }, sg := { p.sg with crawl := min p.sg.crawl p.sg.lineMax } }

/-- The pairs of a SET LIMITS, with their identities looked up; none where one is not in the table (R200). -/
def settingPairs : List (Nat × Nat) → Option (List (Setting × Nat))
  | [] => some []
  | (n, v) :: rest =>
    match settingOf n, settingPairs rest with
    | some x, some l => some ((x, v) :: l)
    | _, _ => none

/-- SET LIMITS, on its pairs (R200). -/
def storePairs (l : List (Nat × Nat)) (p : Part) : Answer :=
  match l, settingPairs l with
  | [], _ => refuse .badArg p
  | _, none => refuse .badArg p
  | _, some xs =>
    let q := adjustSettings (xs.foldl (fun q x => storeSetting x.1 (clamp x.1.range.1 x.1.range.2 x.2) q) p)
    okWith (xs.flatMap (fun x => w32 (readSetting x.1 q))) q

/-- The fields of a payload in pairs. -/
def pairUp : List Nat → List (Nat × Nat)
  | a :: b :: rest => (a, b) :: pairUp rest
  | _ => []

/-- The widths of as many pairs as a payload of `n` bytes holds. -/
def pairWidths (n : Nat) : List Nat := (List.replicate (n / 6) [2, 4]).flatten

/-! ## MAP WRITE, MAP CLEAR, ROSTER CLEAR (R186 to R189) -/

/-- The number of entries in the channel map (R187). -/
def mapCount (p : Part) : Nat := p.si.inMap.length + p.si.outMap.length

/-- A MAP WRITE of an IN entry (R188, R191: its record is WAITING). A replaced entry's record begins anew, without the time of a last sample: the model's
choice (log 22). -/
def writeIn (node channel : Byte) (i : Input) (p : Part) : Answer :=
  let e : InEntry := { node := node, channel := channel, input := i, state := .waiting, last := none }
  let sameKey (x : InEntry) : Bool := decide (x.node = node) && decide (x.channel = channel)
  if p.si.inMap.any (fun x => decide (x.input = i) && !sameKey x) then refuse .conflict p
  else if p.si.inMap.any sameKey then
    okWith (w32 (mapCount p)) { p with si := { p.si with inMap := modifyWhere sameKey (fun _ => e) p.si.inMap } }
  else if Config.mapCap ≤ mapCount p then refuse .full p
  else okWith (w32 (mapCount p + 1)) { p with si := { p.si with inMap := p.si.inMap ++ [e] } }

/-- A MAP WRITE of an OUT entry (R188). -/
def writeOut (node channel : Byte) (o : Output) (p : Part) : Answer :=
  let e : OutEntry := { output := o, node := node, channel := channel }
  let sameKey (x : OutEntry) : Bool := decide (x.output = o)
  if p.si.outMap.any sameKey then
    okWith (w32 (mapCount p)) { p with si := { p.si with outMap := modifyWhere sameKey (fun _ => e) p.si.outMap } }
  else if Config.mapCap ≤ mapCount p then refuse .full p
  else okWith (w32 (mapCount p + 1)) { p with si := { p.si with outMap := p.si.outMap ++ [e] } }

/-- MAP WRITE (R188). A channel above 255 is no channel (log 16). -/
def writeMap (fs : List Nat) (p : Part) : Answer :=
  match fs with
  | [dir, node, channel, role, index] =>
    if !within 1 239 node || decide (p.node = some node) || decide (255 < channel) then refuse .badArg p
    else
      match dir, inputOfCodes role index, outputOfCodes role index with
      | 1, some i, _ => writeIn (BitVec.ofNat 8 node) (BitVec.ofNat 8 channel) i p
      | 2, _, some o => writeOut (BitVec.ofNat 8 node) (BitVec.ofNat 8 channel) o p
      | _, _, _ => refuse .badArg p
  | _ => refuse .badArg p

/-- A MAP CLEAR of an IN key (R189). That a node outside 1 to 239 or a channel above 255 is malformed (log 16), and that the part's own node number is not, but
a key that has no entry (log 41), are the model's choices. -/
def clearIn (node channel : Nat) (p : Part) : Answer :=
  let isKey (x : InEntry) : Bool := decide (x.node.toNat = node) && decide (x.channel.toNat = channel)
  if !within 1 239 node || decide (255 < channel) then refuse .badArg p
  else if p.si.inMap.any isKey then
    let q : Part := { p with si := { p.si with inMap := p.si.inMap.filter (fun x => !isKey x) } }
    okWith (w32 (mapCount q)) q
  else refuse .notFound p

/-- A MAP CLEAR of an OUT key (R189). -/
def clearOut (o : Output) (p : Part) : Answer :=
  let isKey (x : OutEntry) : Bool := decide (x.output = o)
  if p.si.outMap.any isKey then
    let q : Part := { p with si := { p.si with outMap := p.si.outMap.filter (fun x => !isKey x) } }
    okWith (w32 (mapCount q)) q
  else refuse .notFound p

/-- MAP CLEAR (R189); direction 0, with its key fields 0, is ALL (R174). -/
def clearMap (fs : List Nat) (p : Part) : Answer :=
  match fs with
  | [0, 0, 0] => okWith (w32 0) { p with si := { p.si with inMap := [], outMap := [] } }
  | [1, node, channel] => clearIn node channel p
  | [2, role, index] => match outputOfCodes role index with | some o => clearOut o p | none => refuse .badArg p
  | _ => refuse .badArg p

/-- ROSTER CLEAR (R186). -/
def clearRoster (_ : List Nat) (p : Part) : Answer :=
  okWith (w32 p.rif.roster.length) { p with rif := { p.rif with roster := [] } }

/-! ## The meanings of the commands -/

/-- SET_LINE (R5). -/
def execSetLine (s : State) : Host.Outcome State Fault Refusal := onPart (serve 16 (.only .config) [4] setLineForm) s

/-- SET_ENCODER (R6). -/
def execSetEncoder (s : State) : Host.Outcome State Fault Refusal :=
  onPart (serve 17 (.only .config) [4, 4, 4, 4] setEncoderSettings) s

/-- SET_STATION (R4). -/
def execSetStation (s : State) : Host.Outcome State Fault Refusal := onPart (serve 18 (.only .config) [4, 4] setStationOffset) s

/-- SET_STAND (R72). -/
def execSetStand (s : State) : Host.Outcome State Fault Refusal :=
  onPart (serve 19 (.only .config) [4, 4, 4, 4, 4, 4, 4, 4] setStandSettings) s

/-- SET_BRIDGE (R13), with eight fields of 32 bits (log 36). -/
def execSetBridge (s : State) : Host.Outcome State Fault Refusal :=
  onPart (serve 20 (.only .config) [4, 4, 4, 4, 4, 4, 4, 4] setBridgeSettings) s

/-- The SET LIMITS at the head of the queue, if it is one (R200). -/
def serveLimits (p : Part) : Part :=
  match headRequest 21 p with
  | none => p
  | some r => serve 21 (.only .config) (pairWidths r.args.length) (fun fs q => storePairs (pairUp fs) q) p

/-- SET_LIMITS (R200). -/
def execSetLimits (s : State) : Host.Outcome State Fault Refusal := onPart serveLimits s

/-- MAP_WRITE (R188). -/
def execMapWrite (s : State) : Host.Outcome State Fault Refusal := onPart (serve 22 (.only .config) [4, 4, 4, 4, 4] writeMap) s

/-- MAP_CLEAR (R189). -/
def execMapClear (s : State) : Host.Outcome State Fault Refusal := onPart (serve 23 (.only .config) [4, 4, 4] clearMap) s

/-- ROSTER_CLEAR (R186). -/
def execRosterClear (s : State) : Host.Outcome State Fault Refusal := onPart (serve 24 (.only .config) [] clearRoster) s

end Sys2Proof.Machine
end

