-- ==== Sys2Proof/Machine/Recipes.lean ====
section
/-! DEFINITION. The requests for recipes and reels: LOAD RECIPE, ERASE RECIPE, READ RECIPE (R104 to R106) and ASSIGN REEL (R74). -/

namespace Sys2Proof.Machine

/-! ## Recipes as fields (R103; log 7) -/

/-- The number of field values of a recipe (R103). -/
def recipeFields : Nat := 42

/-- A LOAD RECIPE payload's widths: R193's 32-bit fields, or the packed form that fits a frame, a 32-bit slot and 16-bit fields (log 7). -/
def recipeWidths (bytes : Nat) : List Nat :=
  if bytes = 4 + 2 * recipeFields then 4 :: List.replicate recipeFields 2 else 4 :: List.replicate recipeFields 4

/-- A field that may be below 0, as the width it came in reads it. -/
def recipeSigned (packed : Bool) (n : Nat) : Int := if packed then signedOf 2 n else signedOf 4 n

/-- Field `k` of the recipe's fields, counted from 0 in the order of R103. -/
def fieldAt (fs : List Nat) (k : Nat) : Nat := fs.getD k 0

/-- The recipe that the fields spell: base gaps, slopes, glue tolerance, breakpoints, zone targets, zone tolerance, derate, max speed. -/
def recipeOf (packed : Bool) (fs : List Nat) : Recipe where
  baseGap := Vector.ofFn (fun g : Fin 3 => fieldAt fs g.val)
  slope := Vector.ofFn (fun g : Fin 3 => recipeSigned packed (fieldAt fs (3 + g.val)))
  glueTol := fieldAt fs 6
  wraps := Vector.ofFn (fun w : Fin 3 =>
    Vector.ofFn (fun k : Fin 4 => (fieldAt fs (7 + 8 * w.val + 2 * k.val), fieldAt fs (8 + 8 * w.val + 2 * k.val))))
  zoneTarget := Vector.ofFn (fun z : Fin 8 => fieldAt fs (31 + z.val))
  zoneTol := fieldAt fs 39
  derate := fieldAt fs 40
  maxSpeed := fieldAt fs 41

/-- Every field lies in its range (R103). -/
def Recipe.inRange (r : Recipe) : Bool :=
  r.baseGap.toList.all (within 50 1000) && r.slope.toList.all (fun x => decide (-500 ≤ x) && decide (x ≤ 500))
    && within 1 500 r.glueTol
    && r.wraps.toList.all (fun w => w.toList.all (fun b => decide (b.1 ≤ 600) && decide (b.2 ≤ 1000)))
    && r.zoneTarget.toList.all (fun t => decide (t ≤ 3000)) && within 1 500 r.zoneTol && decide (r.derate ≤ 10000)
    && within 10 600 r.maxSpeed

/-- The speeds rise strictly. -/
def rises : List (Nat × Nat) → Bool
  | a :: b :: rest => decide (a.1 < b.1) && rises (b :: rest)
  | _ => true

/-- The breakpoint speeds of every wrap rise strictly (R103, R104). -/
def Recipe.rising (r : Recipe) : Bool := r.wraps.toList.all (fun w => rises w.toList)

/-- A recipe's fields as 16-bit values, in the order of R103 (log 7). -/
def Recipe.bytes (r : Recipe) : List Byte :=
  r.baseGap.toList.flatMap (bytesOf 2) ++ r.slope.toList.flatMap (fun x => bytesOf 2 (x % 65536).toNat) ++ bytesOf 2 r.glueTol
    ++ r.wraps.toList.flatMap (fun w => w.toList.flatMap (fun b => bytesOf 2 b.1 ++ bytesOf 2 b.2))
    ++ r.zoneTarget.toList.flatMap (bytesOf 2) ++ bytesOf 2 r.zoneTol ++ bytesOf 2 r.derate ++ bytesOf 2 r.maxSpeed

/-! ## LOAD, ERASE, READ (R104 to R106) -/

/-- The part with a recipe slot replaced. -/
def setSlot (p : Part) (i : Fin 32) (x : RecipeSlot) : Part := { p with bc := { p.bc with slots := upd p.bc.slots i x } }

/-- LOAD RECIPE (R104). -/
def loadRecipeInto (packed : Bool) (fs : List Nat) (p : Part) : Answer :=
  match fs with
  | n :: rest =>
    match place 32 n with
    | none => refuse .badArg p
    | some i =>
      let r := recipeOf packed rest
      if (p.bc.slots.get i).recipe.isSome then refuse .slotLoaded p
      else if r.inRange && r.rising then okWith [] (setSlot p i { recipe := some r, refs := 0 })
      else refuse .badArg p
  | [] => refuse .badArg p

/-- A recipe reference to an erased slot becomes absent (R105). -/
def forget (slot : Nat) (r : Option Nat) : Option Nat := if r = some slot then none else r

/-- The glue units and wraps forget an erased slot; without a requested recipe they compute nothing (R105, R111). -/
def forgetUnits (slot : Nat) (p : Part) : Part :=
  { p with bc := { p.bc with
      glue := p.bc.glue.map (fun u => { u with acting := forget slot u.acting, requested := forget slot u.requested }),
      wraps := p.bc.wraps.map (fun u => { u with acting := forget slot u.acting, requested := forget slot u.requested }) } }

/-- A zone forgets an erased slot, and takes the steps of a change of its recipes (R105, R110). -/
def forgetZone (slot : Nat) (z : Fin 8) (p : Part) : Part :=
  let u := p.bc.zones.get z
  zoneChanged z (decide (u.requested = some slot)) (decide (u.acting = some slot))
    (setZone p z { u with acting := forget slot u.acting, requested := forget slot u.requested })

/-- ERASE RECIPE (R105). The zones take their steps by number: the model's choice (log 32). -/
def eraseRecipeIn (fs : List Nat) (p : Part) : Answer :=
  match fs with
  | [n] =>
    match place 32 n with
    | none => refuse .badArg p
    | some i =>
      let x := p.bc.slots.get i
      if x.recipe.isNone then refuse .notFound p
      else if 0 < x.refs then refuse .inUse p
      else okWith [] (forEach (n := 8) (forgetZone n) (forgetUnits n (setSlot p i { x with recipe := none })))
  | _ => refuse .badArg p

/-- The recipes of the units in the order glue 1 to 3, wrap 1 to 3, zone 1 to 8: acting where `act`, else requested. -/
def unitRecipes (act : Bool) (p : Part) : List (Option Nat) :=
  p.bc.glue.toList.map (fun u => if act then u.acting else u.requested)
    ++ p.bc.wraps.toList.map (fun u => if act then u.acting else u.requested)
    ++ p.bc.zones.toList.map (fun u => if act then u.acting else u.requested)

/-- READ RECIPE (R106; log 7). -/
def readRecipeFrom (fs : List Nat) (p : Part) : Answer :=
  match fs with
  | [n] =>
    match place 32 n with
    | none => refuse .badArg p
    | some i =>
      let x := p.bc.slots.get i
      let set (act : Bool) : List Byte := w32 (bitsOf ((unitRecipes act p).map (fun r => decide (r = some n))))
      match x.recipe with
      | none => okWith (w32 0 ++ w32 x.refs ++ set true ++ set false) p
      | some r => okWith (w32 1 ++ w32 x.refs ++ r.bytes ++ set true ++ set false) p
  | _ => refuse .badArg p

/-! ## ASSIGN REEL (R74) -/

/-- An optional field is absent, or within its range (R193: absent is every bit set). -/
def optionalField (lo hi v : Nat) : Option (Option Nat) :=
  if v = 2 ^ 32 - 1 then some none else if within lo hi v then some (some v) else none

/-- An accepted ASSIGN REEL: the reel record of the arm is replaced, and in RUN the stand is evaluated (R74). -/
def assign (s : Fin 5) (w : Arm) (reel : Option Nat) (grade : Nat) (caliper core : Option Nat) (p : Part) : Part :=
  let st := standOf p s
  evalStand s (setStandRec p s
    (st.setArm w { st.arm w with reel := reel, grade := grade, caliper := caliper, core := core }))

/-- ASSIGN REEL (R74). A reel id other than 0 behind a presence field of 0, which R193 does not carry and for which it gives no outcome, is left out of account:
the model's choice (log 39). -/
def assignReelTo (fs : List Nat) (p : Part) : Answer :=
  match fs with
  | [n, a, present, reel, grade, caliper, core] =>
    match place 5 n, armOf a, optionalField 80 800 caliper, optionalField 800 2500 core with
    | some s, some w, some c, some d =>
      if 1 < present ∨ 65535 < grade then refuse .badArg p
      else if ((standOf p s).arm w).state = .running then refuse .state p
      else okWith [] (assign s w (if present = 1 then some reel else none) grade c d p)
    | _, _, _, _ => refuse .badArg p
  | _ => refuse .badArg p

/-! ## The meanings of the commands -/

/-- The LOAD RECIPE at the head of the queue, if it is one, in either layout (R104; log 7). -/
def serveRecipe (p : Part) : Part :=
  match headRequest 32 p with
  | none => p
  | some r =>
    serve 32 .either (recipeWidths r.args.length) (loadRecipeInto (decide (r.args.length = 4 + 2 * recipeFields))) p

/-- LOAD_RECIPE (R104). -/
def execLoadRecipe (s : State) : Host.Outcome State Fault Refusal := onPart serveRecipe s

/-- ERASE_RECIPE (R105). -/
def execEraseRecipe (s : State) : Host.Outcome State Fault Refusal := onPart (serve 33 .either [4] eraseRecipeIn) s

/-- READ_RECIPE (R106). -/
def execReadRecipe (s : State) : Host.Outcome State Fault Refusal := onPart (serve 34 .either [4] readRecipeFrom) s

/-- ASSIGN_REEL (R74). -/
def execAssignReel (s : State) : Host.Outcome State Fault Refusal :=
  onPart (serve 35 .either [4, 4, 4, 4, 4, 4, 4] assignReelTo) s

end Sys2Proof.Machine
end

