-- ==== Sys2Proof/Machine/Jobs.lean ====
section
/-! DEFINITION. The requests for orders: APPEND, AMEND, WITHDRAW, HOLD and RELEASE ORDER, READ ORDER, READ QUEUE and READ COMPLETION
(R42, R60 to R65, R67 to R69). -/

namespace Sys2Proof.Machine

/-! ## Orders -/

/-- The order of the queue with this tag, and its position. -/
def queuedAt (p : Part) (tag : Nat) : Option (Nat × Order) :=
  match p.os.queue.findIdx? (fun o => decide (o.tag = tag)) with
  | some i => (p.os.queue[i]?).map (fun o => (i, o))
  | none => none

/-- The order at this position of the queue is NEXT (R43). -/
def isNext (p : Part) (i : Nat) : Bool := decide (i = 0) && p.os.next.isSome

/-- The tag is held by an order in the queue or in the region list (R42). -/
def tagHeld (p : Part) (tag : Nat) : Bool := p.os.queue.any (fun o => decide (o.tag = tag)) || (regionOf p tag).isSome

/-- The recipe slot is LOADED. -/
def slotLoaded (p : Part) (n : Nat) : Bool := (recipeIn p (some n)).isSome

/-- Every field of the order lies in its range (R41). -/
def Order.inRange (o : Order) : Bool :=
  within 1 32 o.slot && o.grades.toList.all (fun g => decide (g ≤ 65535)) && within 1 8 o.outs && within 2000 60000 o.length
    && within 1 999999 o.quantity && within 1 500 o.stackHeight && within 1 999 o.profile && decide (o.overrun ≤ 200)

/-- The part with its order queue replaced. -/
def setOrders (p : Part) (l : List Order) : Part := { p with os := { p.os with queue := l } }

/-! ## APPEND ORDER (R42) -/

/-- An accepted APPEND ORDER (R42, R44, R45). -/
def appendAccepted (o : Order) (p : Part) : Part := nextSelection (addRef o.slot (setOrders p (p.os.queue ++ [o])))

/-- APPEND ORDER (R42), on the fields of R174's layout. -/
def appendOrderOf (fs : List Nat) (p : Part) : Answer :=
  match fs with
  | [tag, slot, outs, hold, g1, g2, g3, g4, g5, len, qty, stack, profile, overrun] =>
    let o : Order :=
      { tag := tag, revision := 0, slot := slot, grades := #v[g1, g2, g3, g4, g5], outs := outs, length := len, quantity := qty,
        stackHeight := stack, profile := profile, overrun := overrun, hold := decide (hold = 1) }
    if 1 < hold ∨ o.inRange = false then refuse .badArg p
    else if slotLoaded p slot = false then refuse .notFound p
    else if tagHeld p tag then refuse .conflict p
    else if Config.orderCap ≤ p.os.queue.length then refuse .full p
    else okWith (w32 p.os.queue.length) (appendAccepted o p)
  | _ => refuse .badArg p

/-! ## AMEND ORDER (R60 to R62) -/

/-- The order with the fields of an amendment and its revision raised; the tag stays. -/
def Order.amended (o : Order) (n : Order) : Order := { n with tag := o.tag, revision := o.revision + 1 }

/-- The slot's reference moves where an amendment changes it (R44, R61). -/
def moveRef (old new : Nat) (p : Part) : Part := if old = new then p else addRef new (dropRef old p)

/-- An accepted amendment of a NEXT order (R61): a changed profile is compared again, and an order with the active profile releases the
inactive station (R123). Where readiness is lost and given again within the request, one commitment check is made, after the comparison: the model's
choice (log 37). -/
def amendNext (o n : Order) (p : Part) : Part :=
  if o.profile = n.profile then p
  else if p.dec.active = some n.profile then commitCheck (compareProfile n (releaseStation p))
  else commitCheck (compareProfile n p)

/-- An accepted amendment of a QUEUED order (R61): a hold set to no has the effect of RELEASE ORDER (R65). -/
def amendQueued (o n : Order) (p : Part) : Part := if o.hold && !n.hold then nextSelection p else p

/-- An accepted amendment of the order at a position of the queue (R60, R61). -/
def amendInQueue (i : Nat) (o n : Order) (p : Part) : Part :=
  let a := o.amended n
  let q := moveRef o.slot a.slot (setOrders p (p.os.queue.set i a))
  if isNext p i then amendNext o a q else amendQueued o a q

/-- The stack countdown after a change of the stack height, at least 1 (R62); what an order's end then makes of it is log 42. -/
def countdownAfter (oldHeight newHeight countdown : Nat) : Nat := max 1 (newHeight - (oldHeight - countdown))

/-- A field that a RUNNING order may not change differs (R60). -/
def Order.changesFixed (o n : Order) : Bool :=
  !(decide (o.slot = n.slot) && decide (o.grades = n.grades) && decide (o.outs = n.outs) && decide (o.length = n.length)
    && decide (o.profile = n.profile) && decide (o.hold = n.hold))

/-- An accepted amendment of a RUNNING order with an open region (R62). -/
def amendRunning (o n : Order) (p : Part) : Part :=
  let a := o.amended n
  commitCheck (computeChange (modifyRegion o.tag
    (fun r => { r with order := some a, countdown := countdownAfter o.stackHeight a.stackHeight r.countdown }) p))

/-- The checks of AMEND ORDER from the expected revision on, in their order (R60). -/
def amendChecks (o n : Order) (expected hold : Nat) (running : Bool) (p : Part) : Option Status :=
  if o.revision ≠ expected then some .conflict
  else if o.revision = 255 then some .state
  else if 1 < hold ∨ n.inRange = false then some .badArg
  else if slotLoaded p n.slot = false then some .notFound
  else if running && o.changesFixed n then some .state
  else none

/-- AMEND ORDER of an order found, with the amendment's effect `act` (R60). -/
def amendFound (o n : Order) (expected hold : Nat) (running : Bool) (act : Part → Part) (p : Part) : Answer :=
  match amendChecks o n expected hold running p with
  | some st => refuse st p
  | none => okWith (w32 (o.revision + 1)) (act p)

/-- AMEND ORDER (R60), on fields in the order of R41. -/
def amendOrderBy (fs : List Nat) (p : Part) : Answer :=
  match fs with
  | [tag, expected, slot, g1, g2, g3, g4, g5, outs, len, qty, stack, profile, overrun, hold] =>
    let n : Order :=
      { tag := tag, revision := 0, slot := slot, grades := #v[g1, g2, g3, g4, g5], outs := outs, length := len, quantity := qty,
        stackHeight := stack, profile := profile, overrun := overrun, hold := decide (hold = 1) }
    match queuedAt p tag with
    | some (i, o) => amendFound o n expected hold false (amendInQueue i o n) p
    | none =>
      match regionOf p tag with
      | none => refuse .notFound p
      | some r =>
        match r.order with
        | none => refuse .notFound p
        | some o => if r.stop.isSome then refuse .state p else amendFound o n expected hold true (amendRunning o n) p
  | _ => refuse .badArg p

/-! ## WITHDRAW, HOLD, RELEASE (R63 to R65) -/

/-- An order leaves the queue by withdrawal; a NEXT order's preset is abandoned (R63, R123). Where a ready NEXT order leaves, one commitment check is made,
after the selection of the new one: the model's choice (log 37). -/
def withdrawFromQueue (i : Nat) (o : Order) (p : Part) : Part :=
  let q := dropRef o.slot (setOrders p (p.os.queue.eraseIdx i))
  nextSelection (if isNext p i then releaseStation { q with os := { q.os with next := none } } else q)

/-- WITHDRAW ORDER (R63, R64). -/
def withdrawOrderOf (fs : List Nat) (p : Part) : Answer :=
  match fs with
  | [tag] =>
    match queuedAt p tag, regionOf p tag with
    | some (i, o), _ => okWith [] (withdrawFromQueue i o p)
    | none, some r =>
      if r.stop.isSome then refuse .state p
      else okWith [] (commitCheck (modifyRegion tag (fun x => { x with withdrawn := true }) p))
    | none, none => refuse .notFound p
  | _ => refuse .badArg p

/-- The hold of a QUEUED order is set, or the request is refused (R65). -/
def setHold (hold : Bool) (after : Part → Part) (fs : List Nat) (p : Part) : Answer :=
  match fs with
  | [tag] =>
    match queuedAt p tag, regionOf p tag with
    | some (i, o), _ =>
      if isNext p i then refuse .state p else okWith [] (after (setOrders p (p.os.queue.set i { o with hold := hold })))
    | none, some _ => refuse .state p
    | none, none => refuse .notFound p
  | _ => refuse .badArg p

/-! ## READ ORDER (R68; log 8) -/

/-- The state's code of an order in the queue (R174). -/
def queueState (p : Part) (i : Nat) : Nat := if isNext p i then 2 else 1

/-- The state's code of an order in the region list (R174). -/
def regionState (r : Region) : Nat := if r.ended then 4 else 3

/-- An order record with its revision, hold and state, in the order of R41. -/
def orderFields (o : Order) (state : Nat) : List Byte :=
  w32 o.tag ++ w32 o.revision ++ w32 o.slot ++ o.grades.toList.flatMap w32 ++ w32 o.outs ++ w32 o.length ++ w32 o.quantity
    ++ w32 o.stackHeight ++ w32 o.profile ++ w32 o.overrun ++ flag o.hold ++ w32 state

/-- Whether the order at a position of the queue is ready and needs a swap; absent for one that is not NEXT (R68). -/
def nextFields (p : Part) (i : Nat) : List Byte :=
  if i = 0 then opt32 (p.os.next.map (fun n => codeBool n.ready)) ++ opt32 (p.os.next.map (fun n => codeBool n.needsSwap))
  else opt32 none ++ opt32 none

/-- Page 1 of READ ORDER (R68). -/
def regionPage (r : Region) (o : Order) : List Byte :=
  let isOpen := r.stop.isNone
  w64 r.start ++ opt64 r.stop ++ present32 r.first ++ present32 r.last ++ flag r.swap ++ w32 r.countdown
    ++ w32 (bitsOf [r.short, r.withdrawn, r.gradeLate]) ++ w32 r.attributed ++ w32 r.good ++ w32 r.stacked ++ w32 r.missing
    ++ opt32 (if isOpen then some o.target else none) ++ opt64 (if isOpen then r.change else none)
    ++ opt32 (if isOpen then some (codeBool r.deferred) else none)

/-- READ ORDER (R68). -/
def readOrderOf (fs : List Nat) (p : Part) : Answer :=
  match fs with
  | [tag, page] =>
    if 2 < page then refuse .badArg p
    else
      match queuedAt p tag, regionOf p tag with
      | some (i, o), _ => if page = 0 then okWith (orderFields o (queueState p i) ++ nextFields p i) p else refuse .state p
      | none, some r =>
        match r.order with
        | none => refuse .notFound p
        | some o =>
          if page = 0 then okWith (orderFields o (regionState r) ++ opt32 none ++ opt32 none) p
          else if page = 1 then okWith (regionPage r o) p
          else okWith (r.culled.toList.flatMap w32) p
      | none, none => refuse .notFound p
  | _ => refuse .badArg p

/-! ## READ QUEUE, READ COMPLETION (R67, R69; log 8) -/

/-- The next index of a list read from `start` on, of which `taken` items were returned. -/
def nextIndex (start taken total : Nat) : Option Nat := if taken ≠ 0 ∧ start + taken < total then some (start + taken) else none

/-- A region's summary (R69). -/
def regionSummary (r : Region) : List Byte :=
  w32 (if r.order.isSome then 1 else 2) ++ present32 (r.order.map Order.tag) ++ w64 r.start ++ opt64 r.stop ++ present32 r.first
    ++ present32 r.last ++ flag r.ended

/-- READ QUEUE (R69). -/
def readQueuePart (fs : List Nat) (p : Part) : Answer :=
  match fs with
  | [0, i] =>
    if 23 < i then refuse .badArg p
    else
      let total := p.os.queue.length
      match p.os.queue[i]? with
      | some o => okWith (w32 total ++ orderFields o (queueState p i) ++ opt32 (nextIndex i 1 total)) p
      | none => okWith (w32 total ++ opt32 none) p
  | [1, i] =>
    if 5 < i then refuse .badArg p
    else
      let total := p.os.regions.length
      let items := (p.os.regions.drop i).take 2
      okWith (w32 total ++ items.flatMap regionSummary ++ opt32 (nextIndex i items.length total)) p
  | _ => refuse .badArg p

/-- A completion record (R66). -/
def completionFields (c : Completion) : List Byte :=
  w32 c.tag ++ w32 c.stacked ++ w32 c.goodSheets ++ w32 c.missing ++ c.culled.toList.flatMap w32 ++ w32 c.overrunCuts
    ++ w64 c.boardLength ++ w32 (bitsOf [c.short, c.withdrawn, c.gradeLate, c.aborted])

/-- READ COMPLETION (R67). -/
def takeCompletion (_ : List Nat) (p : Part) : Answer :=
  match p.os.log with
  | [] => refuse .notFound p
  | c :: rest => okWith (completionFields c) { p with os := { p.os with log := rest } }

/-! ## The meanings of the commands -/

/-- APPEND_ORDER (R42), 31 bytes after the request number (R174). -/
def execAppendOrder (s : State) : Host.Outcome State Fault Refusal :=
  onPart (serve 36 .either [4, 1, 1, 1, 2, 2, 2, 2, 2, 4, 4, 2, 2, 2] appendOrderOf) s

/-- AMEND_ORDER (R60). -/
def execAmendOrder (s : State) : Host.Outcome State Fault Refusal :=
  onPart (serve 37 .either (List.replicate 15 4) amendOrderBy) s

/-- WITHDRAW_ORDER (R63, R64). -/
def execWithdrawOrder (s : State) : Host.Outcome State Fault Refusal := onPart (serve 38 .either [4] withdrawOrderOf) s

/-- HOLD_ORDER (R65). -/
def execHoldOrder (s : State) : Host.Outcome State Fault Refusal := onPart (serve 39 .either [4] (setHold true id)) s

/-- RELEASE_ORDER (R65). -/
def execReleaseOrder (s : State) : Host.Outcome State Fault Refusal :=
  onPart (serve 40 .either [4] (setHold false nextSelection)) s

/-- READ_ORDER (R68). -/
def execReadOrder (s : State) : Host.Outcome State Fault Refusal := onPart (serve 41 .either [4, 4] readOrderOf) s

/-- READ_QUEUE (R69). -/
def execReadQueue (s : State) : Host.Outcome State Fault Refusal := onPart (serve 42 .either [4, 4] readQueuePart) s

/-- READ_COMPLETION (R67). -/
def execReadCompletion (s : State) : Host.Outcome State Fault Refusal := onPart (serve 43 .either [] takeCompletion) s

end Sys2Proof.Machine
end

