-- ==== Sys2Proof/Machine/Modes.lean ====
section
/-! DEFINITION. Mode changes: ENTER RUN, ENTER CONFIG and RESTART (R196 to R199), with every block's values at RUN entry and at the end of a run
(R20, R40, R70, R101, R121, R144, R158, R165, R170, R183, R192, R210). -/

namespace Sys2Proof.Machine

/-! ## What ENTER RUN requires (R197) -/

/-- A role of the list of R197, as direction, role and index, with whether the map has it. -/
structure Required where
  direction : Nat
  role : Nat
  index : Nat
  bound : Bool
  deriving DecidableEq, Repr

/-- A required IN role. -/
def needIn (p : Part) (i : Input) : Required :=
  { direction := 1, role := i.role.code, index := i.index, bound := (inEntry p i).isSome }

/-- A required OUT role. -/
def needOut (p : Part) (o : Output) : Required :=
  { direction := 2, role := o.roleCode, index := o.index, bound := (outEntry p o).isSome }

/-- The roles that must be bound, in the order of R197. -/
def requiredRoles (p : Part) : List Required :=
  [needIn p .boardEnc, needIn p (.feederEnc 0)] ++ (if p.wt.line = .double then [needIn p (.feederEnc 1)] else [])
    ++ [needIn p .knife, needIn p .slitter, needIn p .stacker, needOut p .driveCeiling, needOut p .knife, needOut p .slitter,
        needOut p .stacker, needOut p .rejectGate]

/-- The missing roles. -/
def missingRoles (p : Part) : List Required := (requiredRoles p).filter (fun r => !r.bound)

/-- The commit lead exceeds the minimum lead (R197, R49). -/
def leadOk (p : Part) : Bool := decide (minimumLead p < p.os.commitLead)

/-- The result of a NOT_CONFIGURED reply: up to eight missing roles, and whether the lead test failed (R197). -/
def notConfigured (p : Part) : List Byte :=
  ((missingRoles p).take 8).flatMap (fun r => w32 r.direction ++ w32 r.role ++ w32 r.index) ++ flag (!leadOk p)

/-! ## RUN entry -/

/-- An encoder record at RUN entry (R7). -/
def Encoder.fresh (e : Encoder) : Encoder :=
  { e with ref := none, residue := 0, debt := 0, pos := 0, history := List.replicate 8 0 }

/-- A bridge at RUN entry (R14, R15, R17). -/
def Bridge.fresh (b : Bridge) : Bridge :=
  { b with k := (b.lfix : Int) + b.qnom, low := false, high := false, lastSight := none }

/-- WT at RUN entry (R7, R14, R15, R17, R31, R32, R40). -/
def Wt.enterRun (w : Wt) : Wt :=
  { w with board := w.board.fresh, feeders := w.feeders.map Encoder.fresh, bridges := w.bridges.map Bridge.fresh, track := [],
           nextId := 1, credit := w.bucketSize, remainder := 0, defectLast := Vector.replicate 4 none }

/-- A stand's run-state made empty, with G0 at 0 (R101). The settings, the arms and the next sequence number stay. -/
def Stand.ended (st : Stand) : Stand :=
  { st with splice := .idle, recent := none, acceptBy := none, doneBy := none, plan := none, history := [], historyArm := none,
            staleSince := false, reckon := none, exhausted := false, awaiting := false, crawling := false, g0 := 0 }

/-- RSC at RUN entry (R85, R101). -/
def Rsc.enterRun (r : Rsc) : Rsc := { stands := r.stands.map (fun st => { st.ended with g0 := st.runningGrade }) }

/-- RSC at the end of a run (R101). -/
def Rsc.ended (r : Rsc) : Rsc := { stands := r.stands.map Stand.ended }

/-- BC's run-state made empty (R121). -/
def Bc.ended (b : Bc) : Bc :=
  { b with glue := Vector.replicate 3 GlueUnit.reset, wraps := Vector.replicate 3 WrapUnit.reset,
           zones := Vector.replicate 8 ZoneUnit.reset }

/-- DEC at RUN entry (R144). -/
def Dec.enterRun (d : Dec) : Dec :=
  { d with inactive := .free, swap := .none, swapRec := none, cLast := none, kLast := none }

/-- SC at RUN entry (R158). -/
def Sc.enterRun (c : Sc) : Sc :=
  { c with cuts := [], lastArrival := none, backlog := false, entered := 0, stacked := 0, missing := 0, phantom := 0 }

/-- The freshness records all WAITING; each keeps the time of its last sample (R191, R192). -/
def Si.waiting (x : Si) : Si := { x with inMap := x.inMap.map (fun e => { e with state := .waiting }) }

/-- The open WASTE region of RUN entry (R48). -/
def initialRegion (len : Nat) : Region := { newRegion none 0 len 0 false with first := none }

/-- The run-state of every block at its RUN-entry value, with nothing posted yet. -/
def enterValues (p : Part) : Part :=
  { p with mu := { p.mu with mode := .run }, wt := p.wt.enterRun, rsc := p.rsc.enterRun, bc := p.bc.ended, dec := p.dec.enterRun,
           sc := p.sc.enterRun, si := p.si.waiting, rif := { p.rif with lost := false },
           os := { p.os with next := none, regions := [] } }

/-- RUN entry (R197; its order log 18): the blocks' values, SG's post, the bridges' first check, the test of the lost flag, the initial
region, the first CHANGE LENGTH, NEXT selection, one evaluation of each stand and the first lookups. The bridges and the stands are taken by number (log 32). -/
def enterRunMode (p : Part) : Part :=
  let q := testLost (forEach (n := 2) checkBridge (enterRunSg (enterValues p)))
  let q1 := postChange q.os.wasteLength none (setRegions q [initialRegion q.os.wasteLength])
  lookupAll (forEach (n := 5) evalStand (nextSelection q1))

/-- ENTER RUN (R197). -/
def enterRunRequest (_ : List Nat) (p : Part) : Answer :=
  if (missingRoles p).isEmpty && leadOk p then okWith [] (enterRunMode p)
  else { part := p, status := .notConfigured, results := notConfigured p }

/-! ## The end of a run -/

/-- The board length of an aborted region that had passed the knife (R70). -/
def abortedLength (p : Part) (r : Region) : Nat :=
  match r.stop with
  | none => posB p - r.start
  | some e => min (posB p) e - r.start

/-- A region leaves the list as the run ends; at ENTER CONFIG an ORDER region is written as an aborted record (R70). -/
def dropRegion (record : Bool) (p : Part) (r : Region) : Part :=
  match r.order with
  | none => p
  | some o => if record then writeRecord (recordOf r o (abortedLength p r) true) (dropRef o.slot p) else dropRef o.slot p

/-- OS at the end of a run (R70). -/
def endOs (record : Bool) (p : Part) : Part :=
  let q := p.os.regions.foldl (dropRegion record) p
  { q with os := { q.os with next := none, regions := [] } }

/-- An encoder record at the end of a run (R20). -/
def Encoder.ended (e : Encoder) : Encoder := { e with ref := none, residue := 0, debt := 0, history := List.replicate 8 0 }

/-- A bridge at the end of a run (R20). -/
def Bridge.ended (b : Bridge) : Bridge := { b with low := false, high := false, lastSight := none }

/-- WT at the end of a run: B, F and K stay (R20, R40). -/
def Wt.ended (w : Wt) : Wt :=
  { w with board := w.board.ended, feeders := w.feeders.map Encoder.ended, bridges := w.bridges.map Bridge.ended, track := [],
           credit := 0, remainder := 0, defectLast := Vector.replicate 4 none }

/-- DEC at the end of a run (R144). -/
def Dec.ended (d : Dec) : Dec :=
  { d.enterRun with active := if d.swap = .requested then none else d.active }

/-- SC at the end of a run: the run counts stay (R158). -/
def Sc.ended (c : Sc) : Sc := { c with cuts := [], lastArrival := none, backlog := false }

/-- RIF at the end of a run: commands are discarded, replies and notices stay (R183, R192). -/
def Rif.ended (r : Rif) : Rif :=
  { r with urgent := r.urgent.filter (fun m => !m.isCommand), normal := r.normal.filter (fun m => !m.isCommand),
           urgentWait := r.urgentWait.filter (fun w => !w.msg.isCommand),
           normalWait := r.normalWait.filter (fun w => !w.msg.isCommand), lost := false }

/-- The run-state of every block but OS discarded, the mode CONFIG. -/
def endValues (p : Part) : Part :=
  { p with mu := { p.mu with mode := .config }, wt := p.wt.ended, rsc := p.rsc.ended,
           bc := p.bc.ended, dec := p.dec.ended, sc := p.sc.ended, sg := p.sg.ended, si := p.si.waiting, rif := p.rif.ended }

/-- The run ends (R198, R199); the records of ENTER CONFIG are written before RIF discards the commands (log 14). -/
def endRun (record : Bool) (p : Part) : Part := refill false (endValues (endOs record p))

/-- ENTER CONFIG (R198). -/
def enterConfigRequest (_ : List Nat) (p : Part) : Answer :=
  if 0 < lineSpeed p then { part := p, status := .moving, results := w32 (lineSpeed p) }
  else okWith (w64 (posB p)) (endRun true p)

/-- What RESTART clears in both modes (R199). -/
def restartClear (p : Part) : Part :=
  { p with mu := { p.mu with alarms := Mu.noAlarms, generation := 0, readMade := false, counters := Mu.noCounters,
                             snap := Snapshot.reset, lastClear := p.time },
           rif := { p.rif with roster := [] }, os := { p.os with log := [] } }

/-- RESTART (R199). R101's values at RESTART hold in either mode: in CONFIG G0, which an arm report may have set there (R76), becomes 0 again (log 35). -/
def restartRequest (_ : List Nat) (p : Part) : Answer :=
  okWith [] (restartClear (if inRun p then endRun false p else { p with rsc := p.rsc.ended }))

/-! ## The meanings of the commands -/

/-- ENTER_RUN (R197). -/
def execEnterRun (s : State) : Host.Outcome State Fault Refusal := onPart (serve 1 (.only .config) [] enterRunRequest) s

/-- ENTER_CONFIG (R198). -/
def execEnterConfig (s : State) : Host.Outcome State Fault Refusal := onPart (serve 2 (.only .run) [] enterConfigRequest) s

/-- RESTART (R199). -/
def execRestart (s : State) : Host.Outcome State Fault Refusal := onPart (serve 3 .either [] restartRequest) s

end Sys2Proof.Machine
end

