-- ==== Sys2Proof/Machine/Line.lean ====
section
/-! DEFINITION. The requests that act on a running line: ALIGN BRIDGE (R16), MARK (R36), SET CEILING, CLEAR CEILING and CLEAR BREAK
(R166 to R168). -/

namespace Sys2Proof.Machine

/-- ALIGN BRIDGE (R16): the content is a signed 64-bit value, clamped to 0 to the capacity. -/
def alignBridgeTo (fs : List Nat) (p : Part) : Answer :=
  match fs with
  | [n, raw] =>
    match place 2 n with
    | some f =>
      if feederInUse p f then
        let b := p.wt.bridges.get f
        let q := clampInt 0 b.capacity (signedOf 8 raw)
        let k := q + posB p + b.lfix - posF p f
        okWith (i64 (bridgeContent p f) ++ i64 k) (setK f k p)
      else refuse .badArg p
    | none => refuse .badArg p
  | _ => refuse .badArg p

/-- A feeder station (R2, R36). -/
def Station.onFeeder : Station → Bool
  | .stand s => (standFeeder s).isSome
  | .glue g => decide (g.val < 2)
  | _ => false

/-- The coordinate of a mark placed now at a board station, raised to the end of the last reported cut (R36). -/
def markPoint (p : Part) (st : Station) : Nat := max (boardPoint p st) (p.dec.kLast.getD 0)

/-- An accepted MARK (R36). -/
def placeMark (st : Station) (cull : Bool) (number : Nat) (p : Part) : Answer :=
  let x := markPoint p st
  let e : TrackEntry :=
    { id := 0, kind := .mark number, start := x, extent := some 0, cull := cull, origin := st, binding := none }
  if hasPlace e.kind p then
    let r := addEntry e p
    okWith (w32 r.2.1 ++ w64 x) (handOver r.2.2 r.1)
  else refuse .full p

/-- MARK (R36). A mark number above 65,535 is no mark number (log 16). -/
def markAt (fs : List Nat) (p : Part) : Answer :=
  match fs with
  | [n, cull, number] =>
    match stationOf n with
    | some st =>
      if st.onFeeder || decide (1 < cull) || decide (65535 < number) then refuse .badArg p
      else placeMark st (decide (cull = 1)) number p
    | none => refuse .badArg p
  | _ => refuse .badArg p

/-- SET CEILING (R166). -/
def setOperator (fs : List Nat) (p : Part) : Answer :=
  match fs with
  | [v] =>
    let q := activate .operator v p
    okWith (w32 (min v p.sg.lineMax) ++ opt32 q.sg.effective) q
  | _ => refuse .badArg p

/-- A slot is made inactive by request (R167, R168): the answer says whether it was active, and the effective ceiling. -/
def clearSlot (slot : Slot) (_ : List Nat) (p : Part) : Answer :=
  let q := deactivate slot p
  okWith (flag (slotActive p slot) ++ opt32 q.sg.effective) q

/-! ## The meanings of the commands -/

/-- ALIGN_BRIDGE (R16). -/
def execAlignBridge (s : State) : Host.Outcome State Fault Refusal := onPart (serve 64 (.only .run) [4, 8] alignBridgeTo) s

/-- MARK (R36). -/
def execMark (s : State) : Host.Outcome State Fault Refusal := onPart (serve 65 (.only .run) [4, 4, 4] markAt) s

/-- SET_CEILING (R166). -/
def execSetCeiling (s : State) : Host.Outcome State Fault Refusal := onPart (serve 66 (.only .run) [4] setOperator) s

/-- CLEAR_CEILING (R167). -/
def execClearCeiling (s : State) : Host.Outcome State Fault Refusal := onPart (serve 67 (.only .run) [] (clearSlot .operator)) s

/-- CLEAR_BREAK (R168). -/
def execClearBreak (s : State) : Host.Outcome State Fault Refusal := onPart (serve 68 (.only .run) [] (clearSlot .webBreak)) s

end Sys2Proof.Machine
end

