-- ==== Sys2Proof/Machine/Reports.lean ====
section
/-! DEFINITION. The requests that read the part: READ STATUS (R209), READ TRACK (R39), READ ALARMS and ACK ALARMS (R202, R203), SET NOTICE MASK
(R204), SNAPSHOT, SNAPSHOT CLEAR and READ COUNTERS (R207, R208), and the requests of unknown code (R195). -/

namespace Sys2Proof.Machine

/-! ## READ STATUS: lists (R209) -/

/-- As many items as fit in `room` bytes: their bytes, and their number. -/
def fitItems : Nat → List (List Byte) → List Byte × Nat
  | _, [] => ([], 0)
  | room, x :: xs =>
    if x.length ≤ room then
      let r := fitItems (room - x.length) xs
      (x ++ r.1, r.2 + 1)
    else ([], 0)

/-- A section's reply: the fields before its list, the items of the list from the start index on, the fields after it, then the next index (R209,
R193; log 8). A start index counts the items of the list from 0 (log 8); one beyond the last position is refused, but for 0 where the list is empty. -/
def listSection (start : Nat) (fields : List Byte) (items : List (List Byte)) (after : List Byte) (p : Part) : Answer :=
  if items.length ≤ start ∧ ¬(items = [] ∧ start = 0) then refuse .badArg p
  else
    let r := fitItems (Config.resultRoom - fields.length - after.length - 4) (items.drop start)
    okWith (fields ++ r.1 ++ after ++ opt32 (nextIndex start r.2 items.length)) p

/-! ## READ STATUS: sections (R209) -/

/-- The number of latches set (R209). -/
def latchCount (p : Part) : Nat := (p.mu.alarms.toList.filter AlarmRecord.latch).length

/-- Section 0, part. -/
def statusPart (p : Part) : List Byte :=
  w32 p.mu.mode.code ++ w32 (p.node.getD 0) ++ w64 p.time ++ w32 p.wt.line.code ++ w32 p.mu.queue.length ++ flag (!muFree p)
    ++ w32 (p.mu.generation % 256) ++ w32 (latchCount p)

/-- A bridge of section 1. -/
def statusBridge (p : Part) (f : Fin 2) : List Byte :=
  let b := p.wt.bridges.get f
  i64 b.k ++ i64 (bridgeContent p f) ++ flag b.low ++ flag b.high

/-- A contribution's active flag and value (R159). -/
def contributionFields (c : Contribution) : List Byte := flag c.active ++ w32 c.value

/-- Section 1, web. -/
def statusWeb (p : Part) : List Byte :=
  w64 (posB p) ++ w64 (posF p 0) ++ w64 (posF p 1) ++ w32 (lineSpeed p) ++ w32 (p.wt.feeders.get 0).speed
    ++ w32 (p.wt.feeders.get 1).speed ++ statusBridge p 0 ++ statusBridge p 1
    ++ contributionFields (p.sg.slots.get Slot.encoder.idx) ++ w32 p.wt.track.length ++ w32 (dbmCount p)

/-- The code of a run-out standing: its place in R81's table, UNKNOWN after it (R174). -/
def Standing.code : Standing → Nat
  | .far => 1
  | .near => 2
  | .due => 3
  | .unknown => 4

/-- An arm and its reel record (R73). -/
def armFields (r : ArmRecord) : List Byte :=
  w32 r.state.code ++ present32 r.reel ++ w32 r.grade ++ opt32 r.caliper ++ opt32 r.core

/-- A plan's fields: grade, tag, target, state (R90). -/
def planFields (pl : Option Plan) : List Byte :=
  opt32 (pl.map Plan.grade) ++ present32 (pl.map Plan.tag) ++ opt64 (pl.map Plan.target)
    ++ opt32 (pl.map (fun x => if x.reached then 2 else 1))

/-- A stand of section 2. -/
def statusStand (p : Part) (s : Fin 5) : List Byte :=
  let st := standOf p s
  opt32 (effective p s) ++ w32 (standing p s).code ++ w32 st.splice.code ++ opt32 (st.recent.map (fun g => g.seq.toNat))
    ++ planFields st.plan ++ armFields st.armA ++ armFields st.armB ++ w32 st.g0 ++ flag st.awaiting

/-- Section 2, stands: the stands in use, which alone a start index counts: the model's choice (log 8). -/
def statusStands (p : Part) : List (List Byte) :=
  ((List.finRange 5).filter (standInUse p)).map (statusStand p)

/-- A glue unit of section 3. -/
def statusGlue (p : Part) (g : Fin 3) : List Byte :=
  let u := p.bc.glue.get g
  opt32 u.acting ++ opt32 u.requested ++ opt32 u.last ++ flag u.deviation

/-- A wrap of section 3. -/
def statusWrap (p : Part) (w : Fin 3) : List Byte :=
  let u := p.bc.wraps.get w
  opt32 u.acting ++ opt32 u.requested ++ opt32 u.last

/-- The zone states' codes: their places in R118's table (R174). -/
def ZoneState.code : ZoneState → Nat
  | .stale => 1
  | .unset => 2
  | .settled => 3
  | .tracking => 4

/-- A zone of section 3 (R118 to R120). By the model's choice (log 31) the targets are the requested recipe's and then the acting one's, and the deficit
is that of the last average also while the ZONE_TEMP input is stale. -/
def statusZone (p : Part) (z : Fin 8) : List Byte :=
  let u := p.bc.zones.get z
  let target (r : Option Nat) : Option Nat := (recipeIn p r).map (fun x => x.zoneTarget.get z)
  opt32 u.acting ++ opt32 u.requested ++ opt32 u.last ++ w32 u.state.code ++ presentI32 (meanInt u.history)
    ++ opt32 (target u.requested) ++ opt32 (target u.acting) ++ presentI32 (deficit p z)
    ++ contributionFields (p.sg.slots.get (Slot.heat z).idx)

/-- Section 3, bond: the units in use, which alone a start index counts: the model's choice (log 8). -/
def statusBond (p : Part) : List (List Byte) :=
  ((List.finRange 3).filter (glueInUse p)).map (statusGlue p) ++ (List.finRange 3).map (statusWrap p)
    ++ ((List.finRange 8).filter (zoneInUse p)).map (statusZone p)

/-- The inactive station: its state's place in R122's table, and its profile. -/
def inactiveFields : Inactive → List Byte
  | .free => w32 1 ++ opt32 none
  | .presetting n => w32 2 ++ opt32 (some n)
  | .ready n => w32 3 ++ opt32 (some n)

/-- The swap states' codes: their places in R122's table (R174). -/
def SwapState.code : SwapState → Nat
  | .none => 1
  | .requested => 2
  | .done => 3

/-- Section 4, dry end (R143). -/
def statusDry (p : Part) : List Byte :=
  let d := p.dec
  opt32 d.active ++ inactiveFields d.inactive ++ w32 d.swap.code ++ opt64 (d.swapRec.map SwapRecord.start)
    ++ opt32 (d.swapRec.bind SwapRecord.entry) ++ opt32 (d.swapRec.map SwapRecord.extent)
    ++ opt32 (d.swapRec.map (fun r => codeBool r.late)) ++ present32 d.cLast ++ opt64 d.kLast
    ++ opt32 (d.cLast.map (fun n => n % 65536)) ++ w32 (changeList p).length ++ w32 (divertList p).length

/-- Section 5, stacker (R145, R157). -/
def statusStacker (p : Part) : List Byte :=
  let c := p.sc
  let h := c.cuts.head?
  w32 c.cuts.length ++ present32 (h.map CutEntry.cut) ++ present32 (h.map CutEntry.tag) ++ opt64 (h.map CutEntry.knifeTime)
    ++ opt32 (h.map (fun e => codeBool e.stackEnd)) ++ opt32 (h.map (fun e => codeBool e.orderEnd)) ++ flag c.backlog
    ++ opt32 (c.lastArrival.map BitVec.toNat) ++ w32 (stackerList p).length ++ w32 c.entered ++ w32 c.stacked ++ w32 c.missing
    ++ w32 c.phantom

/-- The binding slots, as a set in table order (R161). -/
def bindingSlots (p : Part) : List Bool :=
  p.sg.slots.toList.map (fun c => c.active && decide (p.sg.effective = some c.value))

/-- Section 6, ceiling, before the slots (R169). -/
def statusCeiling (p : Part) : List Byte := opt32 p.sg.effective ++ opt32 p.sg.lastPosted

/-- Section 6, ceiling, after the slots: the binding slots, whether the line max binds, and the settings (R169). That the line max is reported as not binding in
CONFIG, where there is no effective ceiling, is the model's choice (log 40). -/
def statusBinding (p : Part) : List Byte :=
  w32 (bitsOf (bindingSlots p))
    ++ flag (p.sg.effective.isSome && !(p.sg.slots.toList.any (fun c => c.active && decide (c.value < p.sg.lineMax))))
    ++ w32 p.sg.lineMax ++ w32 p.sg.crawl ++ w32 p.sg.refreshPeriod

/-- The OUT entries whose node is absent from the roster (R185). -/
def absentOutputs (p : Part) : List (List Byte) :=
  (p.si.outMap.filter (fun e => !(p.rif.roster.any (fun r => decide (r.node = e.node.toNat))))).map
    (fun e => w32 e.output.roleCode ++ w32 e.output.index)

/-- Section 7, ring, but for the absent OUT entries (R180, R184). -/
def statusRing (p : Part) : List Byte :=
  w32 p.rif.urgent.length ++ w32 p.rif.normal.length ++ w32 p.rif.forward.length ++ w32 (setpointHold p).length
    ++ w32 p.rif.forwardCount ++ w32 (if p.rif.port.isNone then 1 else 2) ++ w32 p.rif.roster.length

/-- The freshness states' codes: their places in R191's list (R174). -/
def Fresh.code : Fresh → Nat
  | .waiting => 1
  | .fresh => 2
  | .stale => 3

/-- An IN entry of section 9. -/
def statusInput (p : Part) (e : InEntry) : List Byte :=
  w32 e.input.role.code ++ w32 e.input.index ++ w32 e.state.code ++ opt64 (e.last.map (fun t => p.time - t))

/-- READ STATUS (R209). A start index means nothing in a section without a list. -/
def readStatusOf (fs : List Nat) (p : Part) : Answer :=
  match fs with
  | [0, _] => okWith (statusPart p) p
  | [1, _] => okWith (statusWeb p) p
  | [2, i] => listSection i [] (statusStands p) [] p
  | [3, i] => listSection i [] (statusBond p) [] p
  | [4, _] => okWith (statusDry p) p
  | [5, _] => okWith (statusStacker p) p
  | [6, i] => listSection i (statusCeiling p) (p.sg.slots.toList.map contributionFields) (statusBinding p) p
  | [7, i] => listSection i (statusRing p) (absentOutputs p) [] p
  | [8, i] => listSection i [] (p.rif.roster.map (fun e => w32 e.node)) [] p
  | [9, i] => listSection i [] (p.si.inMap.map (statusInput p)) [] p
  | _ => refuse .badArg p

/-! ## READ TRACK (R39; log 8) -/

/-- The binding of an entry: feeder, feeder start, and its state, bound or unbound, as its place in R21's list (R174); absent for a board-origin
entry. -/
def bindingFields : Option Binding → List Byte
  | none => opt32 none ++ (w32 0 ++ i64 0) ++ opt32 none
  | some b => w32 (b.feeder.val + 1) ++ (w32 1 ++ i64 b.start) ++ w32 (if b.bound then 1 else 2)

/-- The fields of an entry that depend on its kind: stand and grade, stand and region, mark number (R21). -/
def kindFields : EntryKind → List Byte
  | .spliceJoint s g => w32 (s.val + 1) ++ w32 g ++ opt32 none ++ present32 none ++ opt32 none
  | .offGrade s t => opt32 none ++ opt32 none ++ w32 (s.val + 1) ++ present32 (some t) ++ opt32 none
  | .mark n => opt32 none ++ opt32 none ++ opt32 none ++ present32 none ++ w32 n
  | .defect => opt32 none ++ opt32 none ++ opt32 none ++ present32 none ++ opt32 none
  | .bond => opt32 none ++ opt32 none ++ opt32 none ++ present32 none ++ opt32 none
  | .swapZone => opt32 none ++ opt32 none ++ opt32 none ++ present32 none ++ opt32 none

/-- An entry record of READ TRACK (R39). -/
def entryFields (e : TrackEntry) : List Byte :=
  w32 e.id ++ w32 e.kind.code ++ w64 e.start ++ present32 e.extent ++ flag e.cull ++ w32 e.origin.code ++ bindingFields e.binding
    ++ kindFields e.kind

/-- READ TRACK (R39). -/
def readTrackFrom (fs : List Nat) (p : Part) : Answer :=
  match fs with
  | [i] =>
    if 63 < i then refuse .badArg p
    else
      let head := w32 p.wt.track.length ++ w32 (dbmCount p) ++ w32 p.wt.credit
      match p.wt.track[i]? with
      | some e => okWith (head ++ entryFields e ++ opt32 (nextIndex i 1 p.wt.track.length)) p
      | none => okWith (head ++ opt32 none) p
  | _ => refuse .badArg p

/-! ## Alarms (R202 to R204) -/

/-- The set of latches as eight bytes (R202). -/
def latchSet (p : Part) : List Byte := bytesOf 8 (bitsOf (p.mu.alarms.toList.map AlarmRecord.latch))

/-- READ ALARMS (R202). -/
def readAlarmsAll (_ : List Nat) (p : Part) : Answer :=
  okWith (bytesOf 1 p.mu.generation ++ latchSet p ++ p.mu.alarms.toList.flatMap (fun r => bytesOf 1 r.count))
    { p with mu := { p.mu with readMade := true, generation := p.mu.generation + 1 } }

/-- The acknowledged generation: the greatest below the present one whose low 8 bits are the token (R203). -/
def acknowledged (generation token : Nat) : Option Nat :=
  if generation = 0 then none
  else
    let back := (generation - 1 + (256 - token)) % 256
    if back ≤ generation - 1 then some (generation - 1 - back) else none

/-- The alarm's latch is cleared by an acknowledgement of generation `g` (R203). -/
def AlarmRecord.covered (g : Nat) (r : AlarmRecord) : Bool := r.latch && decide (r.stamp ≤ g)

/-- The latches that generation `g` covers are cleared; counts and stamps stay (R203). -/
def clearLatches (g : Nat) (p : Part) : Part :=
  { p with mu := { p.mu with
      alarms := p.mu.alarms.map (fun r => if r.covered g then { r with latch := false } else r) } }

/-- ACK ALARMS (R203): after the reply has been posted, a cleared OFF_GRADE occurs again while a stand holds an open OFF_GRADE entry (R89). -/
def ackAlarmsBy (r : Request) (fs : List Nat) (p : Part) : Part :=
  match fs with
  | [token] =>
    if 255 < token then replyTo r (refuse .badArg p)
    else
      match (if p.mu.readMade then acknowledged p.mu.generation token else none) with
      | none => replyTo r (refuse .state p)
      | some g =>
        let cleared := (p.mu.alarms.toList.filter (AlarmRecord.covered g)).length
        let q := clearLatches g p
        let q1 := replyTo r (okWith (latchSet q ++ w32 cleared) q)
        if (alarmOf p .offGrade).covered g && anyOpenOff p then latch .offGrade q1 else q1
  | _ => replyTo r (refuse .badArg p)

/-- SET NOTICE MASK (R204). -/
def setMask (fs : List Nat) (p : Part) : Answer :=
  match fs with
  | [m] =>
    if 2 ^ 37 ≤ m then refuse .badArg p
    else okWith (bytesOf 8 p.mu.mask.toNat) { p with mu := { p.mu with mask := BitVec.ofNat 64 m } }
  | _ => refuse .badArg p

/-! ## Counters (R207, R208) -/

/-- The copy of SNAPSHOT (R207). -/
def copyCounters (p : Part) : Part :=
  { p with mu := { p.mu with
      snap := { counters := p.mu.counters, b := posB p, elapsed := p.time - p.mu.lastClear, taken := true } } }

/-- SNAPSHOT (R207). -/
def takeSnapshot (_ : List Nat) (p : Part) : Answer := okWith [] (copyCounters p)

/-- SNAPSHOT CLEAR (R207). -/
def takeSnapshotClear (_ : List Nat) (p : Part) : Answer :=
  let q := copyCounters p
  okWith [] { q with mu := { q.mu with counters := Mu.noCounters, lastClear := q.time } }

/-- A counter of the snapshot set. -/
def snapValue (p : Part) (c : Counter) : Nat := (p.mu.snap.counters.get c.idx).value

/-- Page 0 of READ COUNTERS: stacked cuts, good sheets, the culled cuts and the dropped defects stand in places 1 to 15 (R208). -/
def counterPage0 (p : Part) : List Byte :=
  w64 (snapValue p .boardLength) ++ w64 p.mu.snap.b ++ w64 p.mu.snap.elapsed
    ++ ((p.mu.snap.counters.toList.drop 1).take 15).flatMap (fun r => w32 r.value)

/-- Page 1 of READ COUNTERS: the other counters stand in places 16 to 29; then the saturation flags as one set (R208). -/
def counterPage1 (p : Part) : List Byte :=
  (p.mu.snap.counters.toList.drop 16).flatMap (fun r => w32 r.value)
    ++ w32 (bitsOf (p.mu.snap.counters.toList.map CounterRecord.saturated))

/-- READ COUNTERS (R208). -/
def readCountersPage (fs : List Nat) (p : Part) : Answer :=
  match fs with
  | [0] => okWith (flag p.mu.snap.taken ++ counterPage0 p) p
  | [1] => okWith (flag p.mu.snap.taken ++ counterPage1 p) p
  | _ => refuse .badArg p

/-! ## Unknown requests (R195) -/

/-- The request codes of the request table (section 10.1). -/
def knownCodes : List Nat :=
  [1, 2, 3, 16, 17, 18, 19, 20, 21, 22, 23, 24, 32, 33, 34, 35, 36, 37, 38, 39, 40, 41, 42, 43, 44, 45, 46, 47, 48, 49, 50, 51,
   64, 65, 66, 67, 68]

/-- The argument lengths that a request code admits (R193, R174, R200; log 7). -/
def lengthOk (code n : Nat) : Bool :=
  match code with
  | 16 => decide (n = 4)
  | 17 => decide (n = 16)
  | 18 => decide (n = 8)
  | 19 => decide (n = 32)
  | 20 => decide (n = 32)
  | 21 => decide (n % 6 = 0)
  | 22 => decide (n = 20)
  | 23 => decide (n = 12)
  | 32 => decide (n = 4 + 2 * recipeFields) || decide (n = 4 + 4 * recipeFields)
  | 33 => decide (n = 4)
  | 34 => decide (n = 4)
  | 35 => decide (n = 28)
  | 36 => decide (n = 31)
  | 37 => decide (n = 60)
  | 38 => decide (n = 4)
  | 39 => decide (n = 4)
  | 40 => decide (n = 4)
  | 41 => decide (n = 8)
  | 42 => decide (n = 8)
  | 44 => decide (n = 8)
  | 45 => decide (n = 4)
  | 47 => decide (n = 4)
  | 48 => decide (n = 8)
  | 51 => decide (n = 4)
  | 64 => decide (n = 12)
  | 65 => decide (n = 12)
  | 66 => decide (n = 4)
  | _ => decide (n = 0)

/-- The request fails MU's first check: its code is not in the table, or its length is wrong (R195). -/
def Request.malformed (r : Request) : Bool :=
  match r.code with
  | none => true
  | some c => !(decide (c ∈ knownCodes) && lengthOk c r.args.length)

/-- The head request, where it fails MU's first check, is refused with BAD_ARG (R195). -/
def refuseMalformed (p : Part) : Part :=
  match p.mu.queue with
  | r :: _ => if muFree p && r.malformed then postReply r .badArg [] (popRequest p) else p
  | [] => p

/-! ## The meanings of the commands -/

/-- READ_STATUS (R209). -/
def execReadStatus (s : State) : Host.Outcome State Fault Refusal := onPart (serve 44 .either [4, 4] readStatusOf) s

/-- READ_TRACK (R39). -/
def execReadTrack (s : State) : Host.Outcome State Fault Refusal := onPart (serve 45 .either [4] readTrackFrom) s

/-- READ_ALARMS (R202). -/
def execReadAlarms (s : State) : Host.Outcome State Fault Refusal := onPart (serve 46 .either [] readAlarmsAll) s

/-- ACK_ALARMS (R203). -/
def execAckAlarms (s : State) : Host.Outcome State Fault Refusal := onPart (serveWith 47 .either [4] ackAlarmsBy) s

/-- SET_NOTICE_MASK (R204). -/
def execSetNoticeMask (s : State) : Host.Outcome State Fault Refusal := onPart (serve 48 .either [8] setMask) s

/-- SNAPSHOT (R207). -/
def execSnapshot (s : State) : Host.Outcome State Fault Refusal := onPart (serve 49 .either [] takeSnapshot) s

/-- SNAPSHOT_CLEAR (R207). -/
def execSnapshotClear (s : State) : Host.Outcome State Fault Refusal := onPart (serve 50 .either [] takeSnapshotClear) s

/-- READ_COUNTERS (R208). -/
def execReadCounters (s : State) : Host.Outcome State Fault Refusal := onPart (serve 51 .either [4] readCountersPage) s

/-- MGMT_UNKNOWN_REQUEST (R195). -/
def execMgmtUnknownRequest (s : State) : Host.Outcome State Fault Refusal := onPart refuseMalformed s

end Sys2Proof.Machine
end

