-- ==== Sys2Proof/Machine/Events.lean ====
section
/-! DEFINITION. What the part does of its own accord while no command waits: the request or expiry that is due, and the passing of its time
(R171, R182, R195; log 2). -/

namespace Sys2Proof.Machine

/-- The command that executes a request with this code, of a payload of the right length (R195). -/
def commandOfCode (code : Nat) : Instr :=
  match code with
  | 1 => .enterRun
  | 2 => .enterConfig
  | 3 => .restart
  | 16 => .setLine
  | 17 => .setEncoder
  | 18 => .setStation
  | 19 => .setStand
  | 20 => .setBridge
  | 21 => .setLimits
  | 22 => .mapWrite
  | 23 => .mapClear
  | 24 => .rosterClear
  | 32 => .loadRecipe
  | 33 => .eraseRecipe
  | 34 => .readRecipe
  | 35 => .assignReel
  | 36 => .appendOrder
  | 37 => .amendOrder
  | 38 => .withdrawOrder
  | 39 => .holdOrder
  | 40 => .releaseOrder
  | 41 => .readOrder
  | 42 => .readQueue
  | 43 => .readCompletion
  | 44 => .readStatus
  | 45 => .readTrack
  | 46 => .readAlarms
  | 47 => .ackAlarms
  | 48 => .setNoticeMask
  | 49 => .snapshot
  | 50 => .snapshotClear
  | 51 => .readCounters
  | 64 => .alignBridge
  | 65 => .mark
  | 66 => .setCeiling
  | 67 => .clearCeiling
  | 68 => .clearBreak
  | _ => .mgmtUnknownRequest

/-- The command that executes a request (R195). -/
def commandOf (r : Request) : Instr :=
  if r.malformed then .mgmtUnknownRequest else match r.code with | some c => commandOfCode c | none => .mgmtUnknownRequest

/-- A waiting frame can enter its queue (R182). -/
def frameCanEnter (p : Part) : Bool :=
  (hasRoom p true && !p.rif.urgentWait.isEmpty) || (hasRoom p false && !p.rif.normalWait.isEmpty)

/-- The head request, where MU is free (R195). -/
def requestDue (p : Part) : Option Instr := if muFree p then p.mu.queue.head?.map commandOf else none

/-- A freshness limit that has run out, the first in map order (R191). -/
def freshnessCommand (p : Part) : Option Instr :=
  if inRun p then (p.si.inMap.find? (freshnessDue p)).map (fun e => .freshnessExpiry e.input.role e.input.index) else none

/-- The refresh timer has expired (R164). -/
def refreshDue (p : Part) : Bool := inRun p && p.sg.effective.isSome && due p.time p.sg.nextRefresh

/-- A stand whose ACCEPTED limit has expired (R96). -/
def acceptedDue (p : Part) (s : Fin 5) : Bool := decide ((standOf p s).splice = .sent) && due p.time (standOf p s).acceptBy

/-- A stand whose DONE limit has expired (R97). -/
def doneDue (p : Part) (s : Fin 5) : Bool := decide ((standOf p s).splice = .active) && due p.time (standOf p s).doneBy

/-- A glue unit whose settle deadline has come (R113). -/
def settleDue (p : Part) (g : Fin 3) : Bool := due p.time (p.bc.glue.get g).settleBy

/-- An expiry of a block timer that is due, one where several are (log 2). -/
def expiryDue (p : Part) : Option Instr :=
  if sweepDue p then some .rosterSweep
  else if (freshnessCommand p).isSome then freshnessCommand p
  else if refreshDue p then some .refreshExpiry
  else if inRun p && headOverdue p then some .transitDeadlineExpiry
  else
    match (List.finRange 5).find? (acceptedDue p), (List.finRange 5).find? (doneDue p), (List.finRange 3).find? (settleDue p) with
    | some s, _, _ => some (.acceptedTimeout (s.val + 1))
    | none, some s, _ => some (.doneTimeout (s.val + 1))
    | none, none, some g => some (.glueSettleExpiry (g.val + 1))
    | none, none, none => none

/-- The command that is due of the part's own accord: a waiting frame's entry, then the head request, then an expiry (log 2). -/
def ownCommand (p : Part) : Option Instr :=
  if frameCanEnter p then some .waitingFrameEntry
  else if (requestDue p).isSome then requestDue p
  else expiryDue p

/-- One millisecond passes (R171). -/
def tick (p : Part) : Part := { p with time := p.time + 1 }

end Sys2Proof.Machine
end

