-- ==== Sys2Proof/Machine/Dispatch.lean ====
section
/-! DEFINITION. The effect of each command on everything but the queue of waiting commands. -/

namespace Sys2Proof.Machine

def exec (i : Instr) (s : State) : Host.Outcome State Fault Refusal :=
  match i with
  | .powerOnReset straps => Sys2Proof.Machine.execPowerOnReset straps s
  | .frameReceive bytes => Sys2Proof.Machine.execFrameReceive bytes s
  | .transmissionEnd => Sys2Proof.Machine.execTransmissionEnd s
  | .waitingFrameEntry => Sys2Proof.Machine.execWaitingFrameEntry s
  | .rosterSweep => Sys2Proof.Machine.execRosterSweep s
  | .freshnessExpiry role index => Sys2Proof.Machine.execFreshnessExpiry role index s
  | .refreshExpiry => Sys2Proof.Machine.execRefreshExpiry s
  | .transitDeadlineExpiry => Sys2Proof.Machine.execTransitDeadlineExpiry s
  | .acceptedTimeout stand => Sys2Proof.Machine.execAcceptedTimeout stand s
  | .doneTimeout stand => Sys2Proof.Machine.execDoneTimeout stand s
  | .glueSettleExpiry unit => Sys2Proof.Machine.execGlueSettleExpiry unit s
  | .mgmtUnknownRequest => Sys2Proof.Machine.execMgmtUnknownRequest s
  | .enterRun => Sys2Proof.Machine.execEnterRun s
  | .enterConfig => Sys2Proof.Machine.execEnterConfig s
  | .restart => Sys2Proof.Machine.execRestart s
  | .setLine => Sys2Proof.Machine.execSetLine s
  | .setEncoder => Sys2Proof.Machine.execSetEncoder s
  | .setStation => Sys2Proof.Machine.execSetStation s
  | .setStand => Sys2Proof.Machine.execSetStand s
  | .setBridge => Sys2Proof.Machine.execSetBridge s
  | .setLimits => Sys2Proof.Machine.execSetLimits s
  | .mapWrite => Sys2Proof.Machine.execMapWrite s
  | .mapClear => Sys2Proof.Machine.execMapClear s
  | .rosterClear => Sys2Proof.Machine.execRosterClear s
  | .loadRecipe => Sys2Proof.Machine.execLoadRecipe s
  | .eraseRecipe => Sys2Proof.Machine.execEraseRecipe s
  | .readRecipe => Sys2Proof.Machine.execReadRecipe s
  | .assignReel => Sys2Proof.Machine.execAssignReel s
  | .appendOrder => Sys2Proof.Machine.execAppendOrder s
  | .amendOrder => Sys2Proof.Machine.execAmendOrder s
  | .withdrawOrder => Sys2Proof.Machine.execWithdrawOrder s
  | .holdOrder => Sys2Proof.Machine.execHoldOrder s
  | .releaseOrder => Sys2Proof.Machine.execReleaseOrder s
  | .readOrder => Sys2Proof.Machine.execReadOrder s
  | .readQueue => Sys2Proof.Machine.execReadQueue s
  | .readCompletion => Sys2Proof.Machine.execReadCompletion s
  | .readStatus => Sys2Proof.Machine.execReadStatus s
  | .readTrack => Sys2Proof.Machine.execReadTrack s
  | .readAlarms => Sys2Proof.Machine.execReadAlarms s
  | .ackAlarms => Sys2Proof.Machine.execAckAlarms s
  | .setNoticeMask => Sys2Proof.Machine.execSetNoticeMask s
  | .snapshot => Sys2Proof.Machine.execSnapshot s
  | .snapshotClear => Sys2Proof.Machine.execSnapshotClear s
  | .readCounters => Sys2Proof.Machine.execReadCounters s
  | .alignBridge => Sys2Proof.Machine.execAlignBridge s
  | .mark => Sys2Proof.Machine.execMark s
  | .setCeiling => Sys2Proof.Machine.execSetCeiling s
  | .clearCeiling => Sys2Proof.Machine.execClearCeiling s
  | .clearBreak => Sys2Proof.Machine.execClearBreak s

end Sys2Proof.Machine
end

