-- ==== Sys2Proof/Safety.lean ====
section
/-! DEFINITION. What holds of the part in every state a run reaches: capacities, the ceiling, the conservation of good cuts; and what a request
asks for. -/

namespace Sys2Proof.Machine

/-! ## Invariants -/

/-- How many setpoint commands for an output are pending: in an originate queue, or in the setpoint hold (R181, R182). -/
def pendingSetpoints (o : Output) (p : Part) : Nat :=
  ((p.rif.urgent ++ p.rif.normal ++ (p.rif.urgentWait ++ p.rif.normalWait).map Waiting.msg).filter (hasKey o)).length

/-- Every collection of the part is within its capacity: RIF's queues, forward buffer and roster (R180, R177, R184), the setpoint hold (R182), MU's
queue (R194), the orders, regions and records of OS (R43, R48, R67), the tracking list and its DEFECT, BOND and MARK entries (R27), the lists of DEC and
of SC (R130, R152), the cut queue (R145) and the channel map (R187). -/
structure Capacities (p : Part) : Prop where
  urgent : p.rif.urgent.length ≤ 16
  normal : p.rif.normal.length ≤ 32
  forward : p.rif.forward.length ≤ 8
  roster : p.rif.roster.length ≤ 64
  requests : p.mu.queue.length ≤ 8
  orders : p.os.queue.length ≤ 24
  regions : p.os.regions.length ≤ 6
  records : p.os.log.length ≤ 16
  track : p.wt.track.length ≤ 64
  cuts : p.sc.cuts.length ≤ 64
  channels : p.si.inMap.length + p.si.outMap.length ≤ 96
  dbm : dbmCount p ≤ 40
  changes : (changeList p).length ≤ 4
  diverts : (divertList p).length ≤ 16
  stackerCommands : (stackerList p).length ≤ 32
  setpoints : ∀ o, pendingSetpoints o p ≤ 1

/-- `a` may stand before `b` in the tracking list: a lower start, or the lower id among equal starts (R22). -/
def inOrder (a b : TrackEntry) : Prop := a.start < b.start ∨ (a.start = b.start ∧ a.id ≤ b.id)

/-- Each region ends where the next starts, with its last cut number one below the next one's first; the last region, and no other, is open (R48). -/
def Linked : List Region → Prop
  | [] => False
  | [r] => r.stop = none ∧ r.last = none ∧ r.ended = false
  | r :: s :: rest => r.stop = some s.start ∧ (∃ n, r.last = some n ∧ s.first = some (n + 1)) ∧ Linked (s :: rest)

/-- No two entries of a tracking list hold the same id (R21). -/
def IdsDiffer (l : List TrackEntry) : Prop := (l.map TrackEntry.id).Nodup

/-- The tracking list stands in its order (R22), no two of its entries hold the same id (R21), and in RUN the region list is linked (R48). -/
structure Ordered (p : Part) : Prop where
  track : p.wt.track.Pairwise inOrder
  ids : IdsDiffer p.wt.track
  regions : p.mu.mode = .run → Linked p.os.regions

/-- SG's state agrees with the mode: in RUN the effective ceiling is the least of the line max and every active contribution, and in CONFIG
there is none, every slot is inactive, and no stand has a GO that a splicer report could answer (R161, R170, R101). -/
def Governed (p : Part) : Prop :=
  match p.mu.mode with
  | .run => p.sg.effective = some (ceilingOf p.sg)
  | .config => p.sg.effective = none ∧ p.sg.slots = Sg.noSlots ∧ ∀ s : Fin 5, (standOf p s).recent = none

/-- In RUN, the cuts that entered the cut queue are those queued, stacked and missing, for as long as the 32-bit count of entered cuts has not
reached its maximum (R157). -/
def Conserved (p : Part) : Prop :=
  p.mu.mode = .run → p.sc.entered < 2 ^ 32 - 1 → p.sc.entered = p.sc.cuts.length + p.sc.stacked + p.sc.missing

/-- The node number is one of 1 to 239, or the part has none, and is a repeater in CONFIG (R171, R196). -/
def NodeLegal (p : Part) : Prop :=
  match p.node with
  | some n => 1 ≤ n ∧ n ≤ 239
  | none => p.mu.mode = .config ∧ p.mu.queue = []

/-- `v` is the least of the line max and every active contribution (R161). -/
def LeastCeiling (g : Sg) (v : Nat) : Prop :=
  v ≤ g.lineMax ∧ (∀ x : Slot, (g.slots.get x.idx).active = true → v ≤ (g.slots.get x.idx).value)
    ∧ (v = g.lineMax ∨ ∃ x : Slot, (g.slots.get x.idx).active = true ∧ v = (g.slots.get x.idx).value)

/-! ## Requests -/

/-- MU is free, and the head of its queue is the request `r`, with this code, whose arguments of these widths are the fields `fs` (R174, R193
to R195). -/
def Asks (p : Part) (code : Nat) (widths fs : List Nat) (r : Request) : Prop :=
  muFree p = true ∧ p.mu.queue.head? = some r ∧ r.code = some code ∧ fieldsOf widths r.args = some fs

/-- The request has been executed and answered: the next state, where `q` is the part with the request's effects made (R195). -/
def Answered (s : State) (r : Request) (st : Status) (results : List Byte) (q : Part) : Host.Outcome State Fault Refusal :=
  .next { s with part := postReply r st results q }

/-- A message is on its way: it is being sent, is in an originate queue, or waits for one (R178, R180, R182). -/
def OnItsWay (p : Part) (m : Message) : Prop :=
  m ∈ p.rif.urgent ∨ m ∈ p.rif.normal ∨ (∃ w ∈ p.rif.urgentWait ++ p.rif.normalWait, w.msg = m)
    ∨ ∃ seq, p.rif.port = some (m.frame (p.node.getD 0) seq)

end Sys2Proof.Machine
end

