-- ==== Sys2Proof/Certificates/Slice0/Obligations.lean ====
section
/-! DEFINITION. The statements for the provers. -/

open Sys2Proof Sys2Proof.Machine

/-! ## The machine -/

/-- A step with a command at the front of the queue is that command's effect on the state with the queue's rest. The queue is the model's own: the manual
has none (log 2). -/
def Obligations.StepTakesFrontCommand : Prop :=
  ∀ (c : Instr) (rest : List Instr) (s : State),
    step { s with pending := c :: rest } = exec c { s with pending := rest }

/-- With no command waiting, a step is the effect of the command that is due of the part's own accord, and where none is due one millisecond
passes (the model's choice, log 2). -/
def Obligations.IdleStepTakesDueCommandOrTicks : Prop :=
  ∀ s : State, s.pending = [] →
    (∀ c, ownCommand s.part = some c → step s = exec c s) ∧
    (ownCommand s.part = none → step s = .next { s with part := { s.part with time := s.part.time + 1 } })

/-- Every command answers a next state, and leaves the commands that wait behind it as they are. -/
def Obligations.EveryCommandAnswersNext : Prop :=
  ∀ (c : Instr) (s : State), ∃ q : Part, exec c s = .next { s with part := q }

/-- The state right after reset: CONFIG, no position, an empty tracking list, empty queues and lists, no recipe, every alarm clear and every
counter at 0, no contribution, and the defaults of the settings named. -/
def Obligations.ResetState : Prop :=
  let p := State.reset.part
  State.reset.pending = [] ∧ p.time = 0 ∧ p.mu.mode = .config ∧ p.mu.queue = [] ∧ p.mu.generation = 0 ∧ p.mu.mask = 0
    ∧ (∀ w : Alarm, alarmOf p w = { latch := false, count := 0, stamp := 0 })
    ∧ (∀ c : Counter, counterOf p c = { value := 0, saturated := false })
    ∧ posB p = 0 ∧ (∀ f, posF p f = 0 ∧ bridgeK p f = 0) ∧ p.wt.line = .single ∧ (∀ st : Station, offset p st = 0) ∧ p.wt.track = []
    ∧ p.wt.board.sigma = 65536 ∧ p.wt.board.gmax = 4096 ∧ p.wt.board.reverseLimit = 100000
    ∧ p.os.queue = [] ∧ p.os.regions = [] ∧ p.os.log = [] ∧ p.os.commitLead = 900000 ∧ p.os.wasteLength = 10000 ∧ p.os.swapTime = 1500
    ∧ (∀ s : Fin 5, (standOf p s).armA = ArmRecord.cleared ∧ (standOf p s).armB = ArmRecord.cleared ∧ (standOf p s).splice = .idle
        ∧ (standOf p s).nextSeq = 1 ∧ (standOf p s).plan = none)
    ∧ (∀ n, recipeIn p (some n) = none) ∧ p.dec.active = none ∧ p.dec.inactive = .free ∧ p.dec.cLast = none ∧ p.sc.cuts = []
    ∧ p.sg.effective = none ∧ (∀ x : Slot, slotActive p x = false) ∧ p.sg.lineMax = 100000 ∧ p.sg.crawl = 5000
    ∧ p.rif.urgent = [] ∧ p.rif.normal = [] ∧ p.rif.forward = [] ∧ p.rif.roster = [] ∧ p.rif.txSeq = 0
    ∧ p.si.inMap = [] ∧ p.si.outMap = []

/-- POWER_ON_RESET puts every block into its reset values and reads the node number from the straps: 1 to 239 is the node number, and 0 and 240
to 255 give none. -/
def Obligations.PowerOnResetReadsStraps : Prop :=
  ∀ (b : Byte) (s : State),
    exec (.powerOnReset b) s = .next { s with part := Part.reset b } ∧
    (1 ≤ b.toNat ∧ b.toNat ≤ 239 → (Part.reset b).node = some b.toNat) ∧
    (b.toNat = 0 ∨ 240 ≤ b.toNat → (Part.reset b).node = none) ∧
    Part.reset b = { State.reset.part with node := (Part.reset b).node }

/-! ## Invariants of every step (tier 3), and that they hold after reset -/

/-- Every step keeps every bounded collection within its capacity: RIF's two originate queues, its forward buffer, its roster and its setpoint hold with one
pending command for each output; MU's queue; the orders, the regions and the completion log; the tracking list, and in it the DEFECT, BOND and MARK entries; DEC's
change list and divert list and SC's command list; the cut queue; and the channel map. -/
def Obligations.StepKeepsCapacities : Prop :=
  ∀ s t : State, Capacities s.part → step s = .next t → Capacities t.part

/-- Every step keeps the effective ceiling at the least of the line max and every active contribution in RUN, and absent, with every slot
inactive, in CONFIG. That least value is at most the line max and every active slot's value, and it is one of them. -/
def Obligations.StepKeepsCeiling : Prop :=
  (∀ s t : State, Governed s.part → step s = .next t → Governed t.part) ∧ ∀ g : Sg, LeastCeiling g (ceilingOf g)

/-- Every step keeps the entered cuts equal to the queued, stacked and missing ones, until the 32-bit count saturates. -/
def Obligations.StepConservesGoodCuts : Prop :=
  ∀ s t : State, Conserved s.part → step s = .next t → Conserved t.part

/-- Every step keeps the node number legal, and a part without one in CONFIG with no request queued. -/
def Obligations.StepKeepsNodeLegal : Prop :=
  ∀ s t : State, NodeLegal s.part → step s = .next t → NodeLegal t.part

/-- After reset the five invariants hold: the capacities, the ceiling, the conservation of cuts, the node number, and the order of the lists. -/
def Obligations.ResetMeetsInvariants : Prop :=
  Capacities State.reset.part ∧ Governed State.reset.part ∧ Conserved State.reset.part ∧ NodeLegal State.reset.part
    ∧ Ordered State.reset.part

/-- Within a run the positions never decrease: a step from RUN to RUN lowers neither B nor a feeder position. -/
def Obligations.PositionsNeverDecrease : Prop :=
  ∀ s t : State, s.part.mu.mode = .run → t.part.mu.mode = .run → step s = .next t →
    posB s.part ≤ posB t.part ∧ ∀ f, posF s.part f ≤ posF t.part f

/-! ## The ring path -/

/-- A frame written out with its check is read back whole, when its payload is at most 120 bytes and its destination is none of 240 to 254. -/
def Obligations.FrameReadsBack : Prop :=
  ∀ f : Frame, f.payload.length ≤ 120 → f.dest.toNat < 240 ∨ f.dest.toNat = 255 → parseFrame f.checked.bytes = some f.checked

/-- A frame that fails the check is counted as received and as dropped for CHECK, RX_CHECK is latched, and it goes no further. That the latch follows the count is the
model's choice (log 33). Fewer than eight bytes fail the check (log 21); any others, read as six header bytes, a payload and a check, fail it when the check is not that of the header and the
payload, when the length field is above 120 or is not the payload's length, and when the destination is 240 to 254, and else are the frame they spell. -/
def Obligations.BadFrameIsDropped : Prop :=
  (∀ (bytes : List Byte) (s : State), parseFrame bytes = none →
    exec (.frameReceive bytes) s
      = .next { s with part := latch .rxCheck (raise (.framesDropped .check) 1 (raise .framesReceived 1 s.part)) }) ∧
  (∀ bytes : List Byte, bytes.length < 8 → parseFrame bytes = none) ∧
  (∀ (dest src kind hop seq len hi lo : Byte) (payload : List Byte),
    let header := [dest, src, kind, hop, seq, len]
    let fails := (crc16 (header ++ payload)).toNat ≠ 256 * hi.toNat + lo.toNat ∨ 120 < len.toNat ∨ len.toNat ≠ payload.length
      ∨ (240 ≤ dest.toNat ∧ dest.toNat ≤ 254)
    (fails → parseFrame (header ++ payload ++ [hi, lo]) = none) ∧
    (¬ fails → parseFrame (header ++ payload ++ [hi, lo])
      = some { dest := dest, src := src, kind := kind, hop := hop, seq := seq, payload := payload, check := crc16 (header ++ payload) }))

/-- A MGMT_REQUEST to the part's node, from another node or the head, joins the tail of the management queue while it holds fewer than 8 (its stamp is the model's own
field, log 6). At a full queue it is neither queued nor executed, the BUSY counter rises by 1, and MU posts a BUSY reply with the request's code and number, which enters the
normal queue, or is discarded where that queue is full or frames wait for it. The web, the orders, the recipes and the dry end stay as they are. -/
def Obligations.RequestFrameIsQueuedOrBusy : Prop :=
  ∀ (bytes : List Byte) (s : State) (f : Frame) (n : Nat),
    parseFrame bytes = some f → s.part.node = some n → f.dest.toNat = n → f.src.toNat ≠ n → f.kind = kindRequest →
    ∃ t : Part, exec (.frameReceive bytes) s = .next { s with part := t }
      ∧ (s.part.mu.queue.length < 8 →
          t.mu.queue = s.part.mu.queue ++ [{ src := f.src, payload := f.payload, stamp := s.part.free }])
      ∧ (s.part.mu.queue.length = 8 → t.mu.queue = s.part.mu.queue
          ∧ ((counterOf s.part .busyReplies).value < 2 ^ 32 - 1 →
              (counterOf t .busyReplies).value = (counterOf s.part .busyReplies).value + 1))
      ∧ t.mu.mode = s.part.mu.mode ∧ t.wt = s.part.wt ∧ t.os = s.part.os ∧ t.dec = s.part.dec ∧ t.sc = s.part.sc ∧ t.bc = s.part.bc
      ∧ ∃ q : Part, t = takeIn f.src f.payload q ∧ q.mu.queue = s.part.mu.queue ∧
          (q.mu.queue.length = 8 →
            let r : Request := { src := f.src, payload := f.payload, stamp := q.free }
            (q.rif.normal.length < 32 → q.rif.normalWait = [] → OnItsWay t (.reply f.src r.codeByte r.number .busy [])) ∧
            (32 ≤ q.rif.normal.length ∨ q.rif.normalWait ≠ [] → t = raise .busyReplies 1 { q with free := q.free + 1 }))

/-- A frame for another node that is no SAMPLE goes to the tail of the forward buffer with its hop one lower and a new check, while the buffer has room
and the port is sending; an IDLE port with nothing queued sends it at once, counted as forwarded. A frame whose hop is at most 1 is dropped, counted for HOP_EXPIRED, and HOP_EXPIRED latched; one that finds 8
frames in the buffer is dropped, counted for FORWARD_OVERRUN, and FORWARD_OVERRUN latched: each latch after its count, the model's choice (log 33). Of the frames that pass the check, a part without a node number
forwards every one; another part drops its own, counted for STRIPPED, drops what is for its node and is no request, counted for NOT_REQUEST, and forwards the others, a SAMPLE once SI has taken its
copy; the roster hears every source of 0 to 239 but the part's own first. -/
def Obligations.FrameIsForwarded : Prop :=
  (∀ (bytes : List Byte) (s : State) (f : Frame) (n : Nat),
    parseFrame bytes = some f → s.part.node = some n → f.dest.toNat ≠ n → f.src.toNat ≠ n → f.kind ≠ kindSample →
    2 ≤ f.hop.toNat → s.part.rif.forward.length < 8 → s.part.rif.port.isSome →
    ∃ t : Part, exec (.frameReceive bytes) s = .next { s with part := t }
      ∧ t.rif.forward = s.part.rif.forward ++ [({ f with hop := f.hop - 1 } : Frame).checked]
      ∧ t.rif.port = s.part.rif.port ∧ t.mu.queue = s.part.mu.queue) ∧
  (∀ (bytes : List Byte) (s : State) (f : Frame), parseFrame bytes = some f →
    let q := raise .framesReceived 1 s.part
    (s.part.node = none → exec (.frameReceive bytes) s = .next { s with part := forwardFrame f q }) ∧
    (∀ n, s.part.node = some n →
      let heard := if f.src.toNat ≤ 239 then learn f.src q else q
      (f.src.toNat = n → exec (.frameReceive bytes) s = .next { s with part := raise (.framesDropped .stripped) 1 q }) ∧
      (f.src.toNat ≠ n → f.dest.toNat = n → f.kind ≠ kindRequest →
        exec (.frameReceive bytes) s = .next { s with part := raise (.framesDropped .notRequest) 1 heard }) ∧
      (f.src.toNat ≠ n → f.dest.toNat = n → f.kind = kindRequest →
        exec (.frameReceive bytes) s = .next { s with part := takeIn f.src f.payload heard }) ∧
      (f.src.toNat ≠ n → f.dest.toNat ≠ n → f.kind ≠ kindSample →
        exec (.frameReceive bytes) s = .next { s with part := forwardFrame f heard }) ∧
      (f.src.toNat ≠ n → f.dest.toNat ≠ n → f.kind = kindSample →
        exec (.frameReceive bytes) s = .next { s with part := forwardFrame f (takeSample f.src f.payload heard) }))) ∧
  (∀ (f : Frame) (p : Part),
    let g := ({ f with hop := f.hop - 1 } : Frame).checked
    let t := forwardFrame f p
    (f.hop.toNat ≤ 1 → t = latch .hopExpired (raise (.framesDropped .hopExpired) 1 p)) ∧
    (2 ≤ f.hop.toNat → 8 ≤ p.rif.forward.length → t = latch .forwardOverrun (raise (.framesDropped .forwardOverrun) 1 p)) ∧
    (2 ≤ f.hop.toNat → p.rif.forward.length < 8 → p.rif.port.isSome →
      t = { p with rif := { p.rif with forward := p.rif.forward ++ [g] } }) ∧
    (2 ≤ f.hop.toNat → p.rif.port = none → p.rif.urgent = [] → p.rif.normal = [] → p.rif.forward = [] →
      t.rif.port = some g ∧ t.rif.forward = [] ∧ t.rif.forwardCount = min 4 (p.rif.forwardCount + 1)
        ∧ (counterOf t .framesForwarded).value = min Counter.framesForwarded.max ((counterOf p .framesForwarded).value + 1)))

/-- The end of a transmission: the urgent head is sent first, with the forward count as it was; without urgent frames the forward head is, unless a normal
frame waits and the forward count is 4; then the normal head is; and with all three empty the port becomes IDLE. -/
def Obligations.TransmissionEndChoosesNext : Prop :=
  ∀ (s : State) (g : Frame), s.part.rif.port = some g →
    ∃ t : Part, exec .transmissionEnd s = .next { s with part := t } ∧
      (∀ m rest, s.part.rif.urgent = m :: rest →
        t.rif.port = some (m.frame (s.part.node.getD 0) s.part.rif.txSeq) ∧ t.rif.txSeq = s.part.rif.txSeq + 1
          ∧ t.rif.forwardCount = s.part.rif.forwardCount) ∧
      (∀ f rest, s.part.rif.urgent = [] → s.part.rif.forward = f :: rest → s.part.rif.normal = [] ∨ s.part.rif.forwardCount ≠ 4 →
        t.rif.port = some f ∧ t.rif.forward = rest ∧ t.rif.txSeq = s.part.rif.txSeq
          ∧ t.rif.forwardCount = min 4 (s.part.rif.forwardCount + 1)) ∧
      (∀ m rest, s.part.rif.urgent = [] → s.part.rif.normal = m :: rest → s.part.rif.forward = [] ∨ s.part.rif.forwardCount = 4 →
        t.rif.port = some (m.frame (s.part.node.getD 0) s.part.rif.txSeq) ∧ t.rif.txSeq = s.part.rif.txSeq + 1
          ∧ t.rif.forwardCount = 0) ∧
      (s.part.rif.urgent = [] → s.part.rif.forward = [] → s.part.rif.normal = [] → t.rif.port = none)

/-- Frames that wait for a queue enter its tail, the oldest first and as many as there is room for, and leave the waiting order; the other queue and its waiting order stay, and the stand whose GO enters
in SENT starts its ACCEPTED limit. WAITING_FRAME_ENTRY does so for the urgent and then for the normal queue, and the port then takes a frame if it is IDLE. The place that the end of a transmission
frees in a queue is filled so at once. -/
def Obligations.WaitingFrameEntersAtTail : Prop :=
  (∀ (p : Part) (u : Bool),
    let room := (if u then 16 else 32) - (queueOf p u).length
    let entering := ((waitOf p u).take room).map Waiting.msg
    let t := refill u p
    queueOf t u = queueOf p u ++ entering ∧ waitOf t u = (waitOf p u).drop room
      ∧ queueOf t (!u) = queueOf p (!u) ∧ waitOf t (!u) = waitOf p (!u) ∧ t.rif.forward = p.rif.forward ∧ t.rif.port = p.rif.port
      ∧ t.wt = p.wt ∧ t.os = p.os ∧ t.mu = p.mu ∧
    ∀ i : Fin 5,
      let st := standOf p i
      let told := st.splice = .sent ∧ ∃ w seq n c, st.recent.map GoRecord.seq = some seq ∧ Message.command (.go i w seq) n c ∈ entering
      (told → standOf t i = { st with acceptBy := some (p.time + 200) }) ∧ (¬ told → standOf t i = st)) ∧
  (∀ s : State, exec .waitingFrameEntry s = .next { s with part := kick (refill false (refill true s.part)) }) ∧
  (∀ (s : State) (g : Frame) (m : Message) (rest : List Message), s.part.rif.port = some g →
    (s.part.rif.urgent = m :: rest →
      exec .transmissionEnd s = .next { s with part := refill true (transmit m (setQueue s.part true rest)) }) ∧
    (s.part.rif.urgent = [] → s.part.rif.normal = m :: rest → s.part.rif.forward = [] ∨ s.part.rif.forwardCount = 4 →
      let q : Part := { s.part with rif := { s.part.rif with normal := rest, forwardCount := 0 } }
      exec .transmissionEnd s = .next { s with part := refill false (transmit m q) }))

/-- Coalescing: where no output has two pending setpoint commands, none has after a post, and the command posted is then pending. One pending in the queue it belongs to, or waiting for
it, gives it its place; one pending in the other queue, or waiting for that, is removed, and the new one is placed as any other frame: at the tail of its queue while that has room and no
frame waits for it, else at the tail of the frames that wait. A command whose output has no OUT entry is discarded. The key is that of a setpoint command for the output. -/
def Obligations.OnePendingSetpointPerOutput : Prop :=
  let pending (p : Part) (o : Output) : Nat :=
    ((p.rif.urgent ++ p.rif.normal ++ (p.rif.urgentWait ++ p.rif.normalWait).map Waiting.msg).filter (hasKey o)).length
  (∀ (p : Part) (c : Command) (u : Bool) (n ch : Byte), c.setpoint = true → (∀ o, pending p o ≤ 1) →
    let m : Message := .command c n ch
    let t := placeSetpoint c.output u m p
    let placed (q : Part) : Part := (placeMessage u m q).1
    (∀ o, pending t o ≤ 1) ∧ m ∈ t.rif.urgent ++ t.rif.normal ++ (t.rif.urgentWait ++ t.rif.normalWait).map Waiting.msg ∧
    (∀ before x after, queueOf p u = before ++ x :: after → hasKey c.output x = true → t = setQueue p u (before ++ m :: after)) ∧
    (∀ before x after, queueOf p (!u) = before ++ x :: after → hasKey c.output x = true →
      t = placed (refill (!u) (setQueue p (!u) (before ++ after)))) ∧
    (∀ before x after, waitOf p u = before ++ x :: after → hasKey c.output x.msg = true →
      t = setWait p u (before ++ { msg := m, late := false } :: after)) ∧
    (∀ before x after, waitOf p (!u) = before ++ x :: after → hasKey c.output x.msg = true → t = placed (setWait p (!u) (before ++ after))) ∧
    (pending p c.output = 0 → t = placed p) ∧
    (∀ q : Part,
      ((queueOf q u).length < (if u then 16 else 32) → waitOf q u = [] → placed q = setQueue q u (queueOf q u ++ [m])) ∧
      ((if u then 16 else 32) ≤ (queueOf q u).length ∨ waitOf q u ≠ [] →
        placed q = setWait q u (waitOf q u ++ [{ msg := m, late := false }])))) ∧
  (∀ (p : Part) (c : Command),
    (∀ e, outEntry p c.output = some e → postSetpoint c p = kick (placeSetpoint c.output c.urgent (.command c e.node e.channel) p)) ∧
    (outEntry p c.output = none → postSetpoint c p = p)) ∧
  (∀ (o : Output) (m : Message), hasKey o m = true ↔ ∃ c n ch, m = .command c n ch ∧ c.setpoint = true ∧ c.output = o)

/-- A sweep that is due, as it is once the part time is at it (log 11), removes every roster entry last heard the aging period or more ago, and no other, and the next one is due at the next whole second; the web, the orders and
the cut queue stay. Where it removes an entry the lost flag is tested, once, on the roster that is left (log 43), and where it removes none nothing else changes. A frame that passes the check from
another node than the part's own has its source heard before all else: an entry of the source takes the present time, a source without one is learned at the roster's end (log 19) while it holds fewer than 64, with the
lost flag tested, and else ROSTER_FULL is latched. In RUN the test sets the flag where the node of an OUT entry is absent from the roster, with ACTUATOR_LOST latched and then (log 33) its contribution at the
crawl speed, and clears it, with the contribution inactive, where none is. In CONFIG it does nothing. -/
def Obligations.RosterSweepRemovesAged : Prop :=
  (∀ s : State, s.part.rif.nextSweep ≤ s.part.time →
    let p := s.part
    let left := p.rif.roster.filter (fun e => decide (p.time < e.lastHeard + 1000 * p.rif.agingSec))
    let q : Part := { p with rif := { p.rif with roster := left, nextSweep := (p.time / 1000 + 1) * 1000 } }
    let removes := ∃ e ∈ p.rif.roster, e.lastHeard + 1000 * p.rif.agingSec ≤ p.time
    ∃ t : Part, exec .rosterSweep s = .next { s with part := t } ∧ (removes → t = testLost q) ∧ (¬ removes → t = q)
      ∧ t.rif.roster = left ∧ s.part.time < t.rif.nextSweep ∧ t.wt = s.part.wt ∧ t.os = s.part.os ∧ t.sc = s.part.sc ∧ t.mu.mode = s.part.mu.mode) ∧
  (∀ (bytes : List Byte) (s : State) (f : Frame) (n : Nat),
    parseFrame bytes = some f → s.part.node = some n → f.src.toNat ≤ 239 → f.src.toNat ≠ n →
    let q := learn f.src (raise .framesReceived 1 s.part)
    let own := if f.kind = kindRequest then takeIn f.src f.payload q else raise (.framesDropped .notRequest) 1 q
    let other := forwardFrame f (if f.kind = kindSample then takeSample f.src f.payload q else q)
    exec (.frameReceive bytes) s = .next { s with part := if f.dest.toNat = n then own else other }) ∧
  (∀ (p : Part) (src : Byte),
    let r := p.rif.roster
    ((∃ e ∈ r, e.node = src.toNat) →
      learn src p = { p with rif := { p.rif with
        roster := r.map (fun e => if e.node = src.toNat then { e with lastHeard := p.time } else e) } }) ∧
    ((∀ e ∈ r, e.node ≠ src.toNat) → r.length < 64 →
      learn src p = testLost { p with rif := { p.rif with roster := r ++ [{ node := src.toNat, lastHeard := p.time }] } }) ∧
    ((∀ e ∈ r, e.node ≠ src.toNat) → 64 ≤ r.length → learn src p = latch .rosterFull p)) ∧
  (∀ p : Part,
    let absent := ∃ e ∈ p.si.outMap, ∀ r ∈ p.rif.roster, r.node ≠ e.node.toNat
    let t := testLost p
    (p.mu.mode = .config → t = p) ∧
    (p.mu.mode = .run → absent → p.rif.lost = false → t.rif.lost = true ∧ (alarmOf t .actuatorLost).latch = true
      ∧ t = activate .actuatorLost p.sg.crawl (latch .actuatorLost { p with rif := { p.rif with lost := true } })
      ∧ t.sg.slots = upd p.sg.slots Slot.actuatorLost.idx { active := true, value := min p.sg.crawl p.sg.lineMax }) ∧
    (p.mu.mode = .run → ¬ absent → p.rif.lost = true → t.rif.lost = false
      ∧ t = deactivate .actuatorLost { p with rif := { p.rif with lost := false } }
      ∧ t.sg.slots = upd p.sg.slots Slot.actuatorLost.idx { active := false, value := 0 }) ∧
    (p.mu.mode = .run → (absent ↔ p.rif.lost = true) → t = p))

/-- In RUN, a FRESH input whose limit has run out, as it has once the part time is at its end (log 11), becomes STALE, and INPUT_STALE is latched. A SAMPLE frame from another node is copied to SI and forwarded. A copy that matches no IN
entry is left alone; one whose value count or length is wrong is ignored with BAD_SAMPLE latched; any other is taken for freshness and then delivered. Taken in RUN, it makes its
record FRESH, and in CONFIG leaves it WAITING, with the time of the sample either way (what a sample in CONFIG does to its record is the model's reading, log 22); nothing else changes, but that the
owner of an input that was STALE in RUN is told before the delivery. Told STALE or FRESH, a stand's diameter input starts the stand's evaluation, and a zone's temperature input, of a zone in use in RUN, sets the
zone's state and writes HEAT; STALE also marks the history of either to be emptied; what an encoder input is told is O21's, and the owner of any other input does nothing. That INPUT_STALE is latched before the owner is told is the model's choice
(log 33). A sample goes to its input's owner with its values, each of 32 bits, most significant byte first: a diameter, a temperature and a measured gap signed, a defect's extent, a measured length and the codes unsigned, and the wrapping counters of 8 and 16 bits
modulo their range (log 10); what a gap changes in the list goes to OS. An encoder input has the encoder limit, any other the input limit; an input is stale while its
entry is STALE. -/
def Obligations.FreshnessExpiryMakesStale : Prop :=
  (∀ (p : Part) (i : Input),
    (i = .boardEnc ∨ (∃ f, i = .feederEnc f) → freshLimit p i = p.si.encoderLimit) ∧
    (i ≠ .boardEnc → (∀ f, i ≠ .feederEnc f) → freshLimit p i = p.si.inputLimit) ∧
    (inputStale p i = true ↔ ∃ e ∈ p.si.inMap, e.input = i ∧ e.state = .stale)) ∧
  (∀ (s : State) (i : Input) (e : InEntry) (last : Nat), s.part.mu.mode = .run → inEntry s.part i = some e → e.state = .fresh →
    e.last = some last → last + freshLimit s.part i ≤ s.part.time →
    ∃ t : Part, exec (.freshnessExpiry i.role i.index) s = .next { s with part := t }
      ∧ (inEntry t i).map InEntry.state = some .stale ∧ (alarmOf t .inputStale).latch = true
      ∧ t = toldStale i (latch .inputStale (setFreshness i .stale (some last) s.part))) ∧
  (∀ (bytes : List Byte) (s : State) (f : Frame) (n : Nat),
    parseFrame bytes = some f → s.part.node = some n → f.dest.toNat ≠ n → f.src.toNat ≠ n → f.kind = kindSample →
    let q := raise .framesReceived 1 s.part
    let heard := if f.src.toNat ≤ 239 then learn f.src q else q
    exec (.frameReceive bytes) s = .next { s with part := forwardFrame f (takeSample f.src f.payload heard) }) ∧
  (∀ (p : Part) (src ch : Byte) (rest : List Byte),
    let keyed (e : InEntry) : Prop := e.node = src ∧ e.channel = ch
    ((∀ e ∈ p.si.inMap, ¬ keyed e) → takeSample src (ch :: rest) p = p) ∧
    (∀ before e after, p.si.inMap = before ++ e :: after → (∀ x ∈ before, ¬ keyed x) → keyed e →
      let passes (n : Byte) (body : List Byte) : Prop :=
        1 ≤ n.toNat ∧ n.toNat ≤ 6 ∧ 1 + 1 + body.length = 2 + 4 * n.toNat ∧ n.toNat = e.input.role.values
      ((∀ n body, rest = n :: body → ¬ passes n body) → takeSample src (ch :: rest) p = latch .badSample p) ∧
      (∀ n body, rest = n :: body → passes n body →
        takeSample src (ch :: rest) p = deliver e.input (wordsOf n.toNat body) (refresh e p)))) ∧
  (∀ (p : Part) (e : InEntry), inEntry p e.input = some e →
    (p.mu.mode = .run → inEntry (refresh e p) e.input = some { e with state := .fresh, last := some p.time }) ∧
    (p.mu.mode = .config → inEntry (refresh e p) e.input = some { e with state := .waiting, last := some p.time })) ∧
  (∀ (p : Part) (e : InEntry),
    let fresh := setFreshness e.input .fresh (some p.time) p
    (p.mu.mode = .run → e.state = .stale → refresh e p = toldFresh e.input fresh) ∧ (p.mu.mode = .run → e.state ≠ .stale → refresh e p = fresh) ∧
    (p.mu.mode = .config → refresh e p = setFreshness e.input .waiting (some p.time) p)) ∧
  (∀ (p : Part) (i : Input) (st : Fresh) (last : Option Nat),
    setFreshness i st last p = { p with si := { p.si with
      inMap := p.si.inMap.map (fun e => if e.input = i then { e with state := st, last := last } else e) } }) ∧
  (∀ (p : Part) (s : Fin 5),
    toldStale (.standDia s) p = evalStand s (setStandRec p s { standOf p s with staleSince := true }) ∧ toldFresh (.standDia s) p = evalStand s p) ∧
  (∀ (p : Part) (z : Fin 8),
    let u := p.bc.zones.get z
    let stated (v : ZoneUnit) : Part := setZone p z { v with state := zoneState p z }
    (p.mu.mode = .config ∨ p.bc.zoneCount ≤ z.val → toldStale (.zoneTemp z) p = p ∧ toldFresh (.zoneTemp z) p = p) ∧
    (p.mu.mode = .run → z.val < p.bc.zoneCount →
      toldStale (.zoneTemp z) p = writeHeat z (stated { u with staleSince := true }) ∧ toldFresh (.zoneTemp z) p = writeHeat z (stated u))) ∧
  (∀ (p : Part) (i : Input), i ≠ .boardEnc → (∀ f, i ≠ .feederEnc f) → (∀ s, i ≠ .standDia s) → (∀ z, i ≠ .zoneTemp z) →
    toldStale i p = p ∧ toldFresh i p = p) ∧
  (∀ vs : List Word, wordsOf vs.length (vs.flatMap (fun v => w32 v.toNat)) = vs) ∧
  (∀ (p : Part) (a b c : Word),
    deliver .boardEnc [a, b] p = boardSample a b p ∧ (∀ f, deliver (.feederEnc f) [a, b] p = feederSample f a b p) ∧
    (∀ s, deliver (.standDia s) [a] p = diameterSample s a.toInt p) ∧
    (∀ s, deliver (.standArm s) [a, b, c] p = armSample s a.toNat b.toNat c.toNat p) ∧
    (∀ s, deliver (.splicer s) [a, b] p = splicerSample s a.toNat b.toNat p) ∧
    (∀ f, deliver (.jointSight f) [a] p = sightSample f (BitVec.ofNat 8 a.toNat) p) ∧
    (∀ z, deliver (.zoneTemp z) [a] p = zoneTempSample z a.toInt p) ∧
    (∀ g, let t := glueSample g a.toInt p
      (t.2 = [] → deliver (.glueFb g) [a] p = t.1) ∧ (t.2 ≠ [] → deliver (.glueFb g) [a] p = handOver t.2 t.1)) ∧
    (∀ d, deliver (.defect d) [a, b] p = defectSample d a.toNat (BitVec.ofNat 8 b.toNat) p) ∧
    deliver .knife [a, b] p = knifeSample (BitVec.ofNat 16 a.toNat) b.toNat p ∧
    deliver .slitter [a, b] p = slitterSample a.toNat b.toNat p ∧ deliver .stacker [a] p = stackerSample (BitVec.ofNat 16 a.toNat) p)

/-! ## Web coordinates -/

/-- The motion of a sample that passes the reference, duplicate and glitch tests: the residue stays in its range, whole units and residue account for the
pulses, and a motion moves the position less the debt by its whole units, but for backward motion beyond the reverse limit; forward motion repays the debt before it
advances. The sample's stages: the first sets the reference; one with the reference's time changes nothing; one whose pulse difference is above the glitch limit replaces the
reference alone; any other is a motion, whose speed, clamped to 0 to 100,000, takes the place of the oldest of the eight. When its input becomes stale, as it is once the part time is at the last sample's
time and the limit (log 11), the reference is lost, and the ENCODER contribution is active at the crawl speed. An advance of B starts, in the order of the rule's list (log 4) and the bridges by
number (log 32), the bridge checks, the look for missed joints, the refill of the credit, the binding of bonds, the commitment check, stand 5's evaluation, the lookups, the swap point, the test for a late
slitter and the board length's rise. A change of the average speed starts the computation of the gaps of the units in use and of the wraps, after all of these where B has advanced too, and else
after stand 5's evaluation (log 29). An advance of a feeder in use starts its bridge's check and the evaluation of its stands, and a change of its average speed alone that evaluation; the stands are taken by number
(log 32). WT, told that an encoder input is stale or fresh, in RUN holds the ENCODER contribution at the crawl speed while any encoder input in use is stale, and makes it inactive with the last; told that it is stale, it drops that encoder's
reference. A sample in CONFIG, and one of a feeder that is not in use, is discarded. An average speed is the sum of the eight entries divided by 8, and the line speed is the board encoder's. -/
def Obligations.EncoderMotionAccounts : Prop :=
  (∀ (e : Encoder) (dc : Int) (dt : Nat), e.debt ≤ e.reverseLimit →
    let m := e.move dc dt
    let dp := ((e.residue : Int) + dc * e.sigma) / 65536
    m.after.residue < 65536 ∧ (e.residue : Int) + dc * e.sigma = dp * 65536 + m.after.residue
      ∧ m.after.pos = e.pos + m.advance ∧ m.after.debt ≤ e.reverseLimit
      ∧ (0 ≤ dp → m.reverse = false ∧ (m.advance : Int) - m.after.debt = dp - e.debt ∧ (0 < m.advance → m.after.debt = 0))
      ∧ (dp < 0 → m.advance = 0 ∧ (m.reverse = true ↔ (e.reverseLimit : Int) < e.debt - dp)
          ∧ (m.reverse = false → (m.after.debt : Int) = e.debt - dp) ∧ (m.reverse = true → m.after.debt = e.reverseLimit))) ∧
  (∀ (e : Encoder) (c t : Word),
    let m := e.sample c t
    let referred : Encoder := { e with ref := some (c, t) }
    (e.ref = none → m = { after := referred, advance := 0, glitch := false, reverse := false }) ∧
    (∀ c₀ t₀, e.ref = some (c₀, t₀) →
      (t = t₀ → m = { after := e, advance := 0, glitch := false, reverse := false }) ∧
      (t ≠ t₀ → e.gmax < (c - c₀).toInt.natAbs → m = { after := referred, advance := 0, glitch := true, reverse := false }) ∧
      (t ≠ t₀ → (c - c₀).toInt.natAbs ≤ e.gmax → m = referred.move (c - c₀).toInt (t - t₀).toNat))) ∧
  (∀ (e : Encoder) (dc : Int) (dt : Nat), e.history.length = 8 → 0 < dt →
    ∃ v : Nat, (v : Int) = min 100000 (max 0 (dc * e.sigma * 1000000 / (65536 * dt)))
      ∧ (e.move dc dt).after.history = e.history.tail ++ [v]
      ∧ (e.move dc dt).after.speed = (e.history.tail.sum + v) / 8) ∧
  (∀ (e : Encoder) (p : Part), e.speed = e.history.sum / 8 ∧ lineSpeed p = p.wt.board.history.sum / 8) ∧
  (∀ (s : State) (e : InEntry) (last : Nat), s.part.mu.mode = .run → inEntry s.part .boardEnc = some e → e.state = .fresh →
    e.last = some last → last + s.part.si.encoderLimit ≤ s.part.time →
    ∃ t : Part, exec (.freshnessExpiry .boardEnc 0) s = .next { s with part := t } ∧ t.wt = { s.part.wt with board := { s.part.wt.board with ref := none } }
      ∧ t.sg.slots.get Slot.encoder.idx = { active := true, value := min s.part.sg.crawl s.part.sg.lineMax }) ∧
  (∀ (s : State) (f : Fin 2) (e : InEntry) (last : Nat), s.part.mu.mode = .run → inEntry s.part (.feederEnc f) = some e → e.state = .fresh →
    e.last = some last → last + s.part.si.encoderLimit ≤ s.part.time →
    ∃ t : Part, exec (.freshnessExpiry .feederEnc (f.val + 1)) s = .next { s with part := t } ∧ (t.wt.feeders.get f).ref = none
      ∧ t.wt.board = s.part.wt.board
      ∧ (feederInUse s.part f = true →
          t.sg.slots.get Slot.encoder.idx = { active := true, value := min s.part.sg.crawl s.part.sg.lineMax })) ∧
  (∀ (p : Part) (c t : Word), p.mu.mode = .run →
    let m := p.wt.board.sample c t
    let q := motionAlarms m (setBoard p m.after)
    let advanced := raise .boardLength m.advance (slitterLate (testSwapPoint (lookupAll (evalStand 4 (commitCheck (bindBonds (refillCredit m.advance
      (missJoints (checkBridge 1 (checkBridge 0 q))))))))))
    (m.after.speed = p.wt.board.speed → m.advance = 0 → boardSample c t p = q) ∧
    (m.after.speed = p.wt.board.speed → m.advance ≠ 0 → boardSample c t p = advanced) ∧
    (m.after.speed ≠ p.wt.board.speed → m.advance = 0 → boardSample c t p = speedChanged (evalStand 4 q)) ∧
    (m.after.speed ≠ p.wt.board.speed → m.advance ≠ 0 → boardSample c t p = speedChanged advanced)) ∧
  (∀ p : Part, p.mu.mode = .run →
    let second (q : Part) : Part := if q.wt.line = .double then computeGlue 1 q else q
    speedChanged p = computeWrap 2 (computeWrap 1 (computeWrap 0 (computeGlue 2 (second (computeGlue 0 p)))))) ∧
  (∀ (p : Part) (f : Fin 2) (c t : Word), p.mu.mode = .run → feederInUse p f = true →
    let e := p.wt.feeders.get f
    let m := e.sample c t
    let q := motionAlarms m (setFeeder p f m.after)
    (m.advance = 0 → m.after.speed = e.speed → feederSample f c t p = q) ∧
    (m.advance = 0 → m.after.speed ≠ e.speed → feederSample f c t p = evalFeeder f q) ∧
    (m.advance ≠ 0 → feederSample f c t p = evalFeeder f (checkBridge f q))) ∧
  (∀ p : Part, evalFeeder 0 p = evalStand 1 (evalStand 0 p) ∧ evalFeeder 1 p = evalStand 3 (evalStand 2 p)) ∧
  (∀ (m : Motion) (q : Part),
    (m.glitch = true → motionAlarms m q = latch .encoderGlitch q) ∧
    (m.glitch = false → m.reverse = true → motionAlarms m q = latch .reverseLimit q) ∧
    (m.glitch = false → m.reverse = false → motionAlarms m q = q)) ∧
  (∀ (p : Part) (c t : Word), (p.mu.mode = .config → boardSample c t p = p) ∧
    ∀ f, p.mu.mode = .config ∨ (f = 1 ∧ p.wt.line = .single) → feederSample f c t p = p) ∧
  (∀ p : Part,
    let stale (i : Input) : Prop := ∃ e ∈ p.si.inMap, e.input = i ∧ e.state = .stale
    let some_stale : Prop := stale .boardEnc ∨ stale (.feederEnc 0) ∨ (p.wt.line = .double ∧ stale (.feederEnc 1))
    (p.mu.mode = .config → holdEncoder p = p) ∧ (p.mu.mode = .run → some_stale → holdEncoder p = activate .encoder p.sg.crawl p) ∧
    (p.mu.mode = .run → ¬ some_stale → holdEncoder p = deactivate .encoder p) ∧
    toldStale .boardEnc p = holdEncoder (setBoard p { p.wt.board with ref := none }) ∧ toldFresh .boardEnc p = holdEncoder p ∧
    (∀ f, toldStale (.feederEnc f) p = holdEncoder (setFeeder p f { p.wt.feeders.get f with ref := none }) ∧ toldFresh (.feederEnc f) p = holdEncoder p))

/-- SET LINE, SET STATION, SET BRIDGE and SET ENCODER in CONFIG with arguments in range store the setting and answer OK, and change nothing else but the queue of
requests and what the reply does; an encoder's reverse limit is clamped to 1,000,000. A scale or glitch limit outside its range, or another encoder, is refused with BAD_ARG, and so are an unknown line form, an unknown station, one
fixed at 0 or an offset above 3,000,000, and another bridge, a setting of a bridge outside its range, or a maximum that is not above the minimum by more than 50,000, all with no other effect. That SET BRIDGE's contents, window and
maximum correction are fields of 32 bits is the model's choice (log 36). -/
def Obligations.WebSettingsAreStored : Prop :=
  ∀ (s : State) (r : Request), s.part.mu.mode = .config →
    (∀ v l, Asks s.part 16 [4] [v] r → lineFormOf v = some l →
      exec .setLine s = Answered s r .ok [] { popRequest s.part with wt := { s.part.wt with line := l } }) ∧
    (∀ v, Asks s.part 16 [4] [v] r → lineFormOf v = none → exec .setLine s = Answered s r .badArg [] (popRequest s.part)) ∧
    (∀ n off, Asks s.part 18 [4, 4] [n, off] r →
      stationOf n = none ∨ stationOf n = some (.glue 0) ∨ stationOf n = some (.glue 1) ∨ 3000000 < off →
      exec .setStation s = Answered s r .badArg [] (popRequest s.part)) ∧
    (∀ n off st, Asks s.part 18 [4, 4] [n, off] r → stationOf n = some st → st ≠ .glue 0 → st ≠ .glue 1 → off ≤ 3000000 →
      exec .setStation s
        = Answered s r .ok [] { popRequest s.part with wt := { s.part.wt with offsets := upd s.part.wt.offsets st.idx off } }) ∧
    (∀ n f lfix cap qnom lo hi w corr, Asks s.part 20 [4, 4, 4, 4, 4, 4, 4, 4] [n, lfix, cap, qnom, lo, hi, w, corr] r →
      place 2 n = some f → lfix ≤ 5000000 → 10000 ≤ cap → cap ≤ 5000000 → qnom ≤ cap → lo ≤ cap → hi ≤ cap → 1000 ≤ w → w ≤ 100000 →
      corr ≤ 50000 → lo + 50000 < hi →
      exec .setBridge s = Answered s r .ok []
        (setBridgeRec (popRequest s.part) f
          { s.part.wt.bridges.get f with
              lfix := lfix, capacity := cap, qnom := qnom, minimum := lo, maximum := hi, window := w, maxCorr := corr })) ∧
    (∀ n lfix cap qnom lo hi w corr, Asks s.part 20 [4, 4, 4, 4, 4, 4, 4, 4] [n, lfix, cap, qnom, lo, hi, w, corr] r →
      n < 1 ∨ 2 < n ∨ 5000000 < lfix ∨ cap < 10000 ∨ 5000000 < cap ∨ cap < qnom ∨ cap < lo ∨ cap < hi ∨ w < 1000 ∨ 100000 < w ∨ 50000 < corr
        ∨ hi ≤ lo + 50000 →
      exec .setBridge s = Answered s r .badArg [] (popRequest s.part)) ∧
    (∀ n sigma gmax limit, Asks s.part 17 [4, 4, 4, 4] [n, sigma, gmax, limit] r →
      (4096 ≤ sigma ∧ sigma ≤ 16777215 ∧ 1 ≤ gmax ∧ gmax ≤ 65535 →
        (n = 0 → exec .setEncoder s = Answered s r .ok [] (setBoard (popRequest s.part)
          { s.part.wt.board with sigma := sigma, gmax := gmax, reverseLimit := min limit 1000000 })) ∧
        (∀ f, place 2 n = some f → exec .setEncoder s = Answered s r .ok [] (setFeeder (popRequest s.part) f
          { s.part.wt.feeders.get f with sigma := sigma, gmax := gmax, reverseLimit := min limit 1000000 }))) ∧
      (2 < n ∨ sigma < 4096 ∨ 16777215 < sigma ∨ gmax < 1 ∨ 65535 < gmax →
        exec .setEncoder s = Answered s r .badArg [] (popRequest s.part)))

/-- ALIGN BRIDGE in RUN for a feeder in use answers with the content before and the new constant, and leaves the bridge's content equal to the measured
content clamped to 0 to the capacity; B and the feeder positions stay. A bridge number other than 1 and 2, and feeder 2 on a SINGLE line, is refused with BAD_ARG. A joint sighting's counter is stored, and only a change of it is a sighting: at the point now at the joint
detector it matches the nearest unbound joint of its feeder within the window, the lower id of two equally near; without one JOINT_UNEXPECTED is latched. A match binds the joint
where it was seen, and changes K by the error, clamped to the maximum correction. While no cut has been reported the joint then stands in the
list, bound there, its pre-cull length before the point, its zone cut only at 0. A joint that has passed its detector beyond the window is bound where it stands, with
JOINT_MISSED latched. A check of a bridge sets LOW below the minimum, with BRIDGE_LOW latched and the BRIDGE contribution at the crawl speed, clears it from 50,000 above the minimum on, with the
contribution inactive, and sets HIGH above the maximum, with BRIDGE_HIGH latched, and clears it else; a check that changes neither does nothing. K taking a value it has changes nothing (log 27). Any other
gives every unbound entry of the feeder its place anew: its feeder start plus K and its length of web, cut off below 0; the list stays in its order, and the zones that changed go to OS as one cause. Then, in the order
of the model's choice (log 29), come the binding of bonds, the commitment check, the bridge's check, the grade checks of the stands whose joints moved by number (log 32), the evaluation of the
feeder's stands, and the lookup of its glue unit. A sighting that corrects nothing has the joint's move handed to OS before its stand's grade check (log 29), and its test for retirement
comes first (log 34). A joint sighting in CONFIG, and one of a feeder that is not in use, is discarded. -/
def Obligations.AlignBridgeSetsContent : Prop :=
  (∀ (s : State) (r : Request) (n raw : Nat) (f : Fin 2), s.part.mu.mode = .run → Asks s.part 64 [4, 8] [n, raw] r → place 2 n = some f →
    feederInUse s.part f = true →
    let content (p : Part) : Int := (posF p f : Int) + bridgeK p f - posB p - (p.wt.bridges.get f).lfix
    let measured : Int := min ((s.part.wt.bridges.get f).capacity : Int) (max 0 (signedOf 8 raw))
    ∃ q : Part, exec .alignBridge s = Answered s r .ok (i64 (content s.part) ++ i64 (bridgeK q f)) q
      ∧ q = setK f (measured + posB s.part + (s.part.wt.bridges.get f).lfix - posF s.part f) (popRequest s.part)
      ∧ content q = measured
      ∧ posB q = posB s.part ∧ (∀ g, posF q g = posF s.part g) ∧ (∀ g, g ≠ f → bridgeK q g = bridgeK s.part g)) ∧
  (∀ (s : State) (r : Request) (n raw : Nat), s.part.mu.mode = .run → Asks s.part 64 [4, 8] [n, raw] r →
    n = 0 ∨ 2 < n ∨ (n = 2 ∧ s.part.wt.line = .single) → exec .alignBridge s = Answered s r .badArg [] (popRequest s.part)) ∧
  (∀ (p : Part) (f : Fin 2) (c : Byte), p.mu.mode = .run → feederInUse p f = true →
    let b := p.wt.bridges.get f
    let q := setBridgeRec p f { b with lastSight := some c }
    let k := posB p + offset p (.jointDet f)
    let joint (e : TrackEntry) (s : Fin 5) : Nat := e.start + (standOf p s).preCull
    let candidate (e : TrackEntry) (s : Fin 5) (d : Nat) : Prop :=
      (∃ g, e.kind = .spliceJoint s g) ∧ e.unboundOf f = true ∧ d = ((joint e s : Int) - k).natAbs ∧ d ≤ b.window
    (b.lastSight = none → sightSample f c p = q) ∧
    (b.lastSight = some c → sightSample f c p = p) ∧
    (∀ l, b.lastSight = some l → l ≠ c →
      ((∀ e ∈ p.wt.track, ∀ s d, ¬ candidate e s d) → sightSample f c p = latch .jointUnexpected q) ∧
      (∀ e ∈ p.wt.track, ∀ s d, candidate e s d →
        (∀ e' ∈ p.wt.track, e' ≠ e → ∀ s' d', candidate e' s' d' → d < d' ∨ (d = d' ∧ e.id < e'.id)) →
        let t := sightSample f c p
        t = matchJoint f k s e q ∧ (sighted q k s e).isBound = true
          ∧ (sighted q k s e).start = coord ((k : Int) - (standOf p s).preCull)
          ∧ bridgeK t f = bridgeK p f + min (b.maxCorr : Int) (max (-(b.maxCorr : Int)) ((k : Int) - joint e s))
          ∧ (∀ g, g ≠ f → bridgeK t g = bridgeK p g)
          ∧ (p.dec.kLast = none → IdsDiffer p.wt.track →
              ∃ x ∈ t.wt.track, x.id = e.id ∧ x.kind = e.kind ∧ x.isBound = true
                ∧ x.start = coord ((k : Int) - (standOf p s).preCull)
                ∧ ∀ w, e.binding.bind Binding.web = some w →
                    ∃ n, x.extent = some n ∧ w - (-((k : Int) - (standOf p s).preCull)).toNat ≤ n)))) ∧
  (∀ p : Part,
    let missed (e : TrackEntry) : Prop := ∃ b s g, e.binding = some b ∧ b.bound = false ∧ e.kind = .spliceJoint s g ∧ feederInUse p b.feeder = true
      ∧ e.start + (standOf p s).preCull + (p.wt.bridges.get b.feeder).window < posB p + offset p (.jointDet b.feeder)
    ((∀ e ∈ p.wt.track, ¬ missed e) → missJoints p = p) ∧
    (∀ e ∈ p.wt.track, missed e → (alarmOf (missJoints p) .jointMissed).latch = true ∧
      (p.dec.kLast = none → ∀ x, x ∈ (missJoints p).wt.track ↔
        ∃ y ∈ p.wt.track, (missed y ∧ x = y.bind) ∨ (¬ missed y ∧ x = y)))) ∧
  (∀ (p : Part) (f : Fin 2), p.mu.mode = .run → feederInUse p f = true →
    let b := p.wt.bridges.get f
    let content : Int := (posF p f : Int) + bridgeK p f - posB p - b.lfix
    let low : Bool := if content < b.minimum then true else if (b.minimum : Int) + 50000 ≤ content then false else b.low
    let high : Bool := decide ((b.maximum : Int) < content)
    let t := checkBridge f p
    t.wt = { p.wt with bridges := upd p.wt.bridges f { b with low := low, high := high } } ∧
    (b.low = false → low = true → (alarmOf t .bridgeLow).latch = true
      ∧ t.sg.slots = upd p.sg.slots (Slot.bridge f).idx { active := true, value := min p.sg.crawl p.sg.lineMax }) ∧
    (b.low = true → low = false → t.sg.slots = upd p.sg.slots (Slot.bridge f).idx { active := false, value := 0 }) ∧
    (b.low = low → t.sg = p.sg) ∧ (b.high = false → high = true → (alarmOf t .bridgeHigh).latch = true) ∧
    (b.low = low → b.high = high → t = p)) ∧
  (∀ (p : Part) (f : Fin 2) (k : Int),
    (bridgeK p f = k → setK f k p = p) ∧
    (bridgeK p f ≠ k → setK f k p = kChanged f [] none (setBridgeRec p f { p.wt.bridges.get f with k := k }))) ∧
  (∀ (k : Int) (f : Fin 2) (e : TrackEntry),
    (∀ b, e.binding = some b → b.bound = false → b.feeder = f →
      let x := b.start + k
      placedUnder k f e = { e with start := x.toNat, extent := b.web.map (fun n => n - (-x).toNat) }) ∧
    ((∀ b, e.binding = some b → b.bound = true ∨ b.feeder ≠ f) → placedUnder k f e = e)) ∧
  (∀ (p : Part) (f : Fin 2), IdsDiffer p.wt.track →
    let placed := placedUnder (bridgeK p f) f
    let t := (moveUnbound f p).1
    t = { p with wt := { p.wt with track := t.wt.track } } ∧ t.wt.track.Perm (p.wt.track.map placed) ∧ t.wt.track.Pairwise inOrder ∧
    (moveUnbound f p).2 = p.wt.track.filterMap (fun e =>
      if e.zone = (placed e).zone then none else some { before := some e.zone, after := some (placed e).zone, cull := e.cull })) ∧
  (∀ (p : Part) (f : Fin 2) (more : List Change) (also : Option (Fin 5)),
    let m := moveUnbound f p
    let moved (s : Fin 5) : Prop := ∃ e ∈ p.wt.track, ∃ g, e.kind = .spliceJoint s g ∧ e.zone ≠ (placedUnder (bridgeK p f) f e).zone
    ∃ stands : List (Fin 5), stands.Pairwise (· < ·) ∧ (∀ s, s ∈ stands ↔ moved s ∨ also = some s) ∧
      kChanged f more also p = lookupGlue (if f = 0 then 0 else 1) (evalFeeder f (stands.foldl (fun q s => checkGrades s q)
        (checkBridge f (commitCheck (bindBonds (handOver (more ++ m.2) m.1))))))) ∧
  (∀ (p : Part) (f : Fin 2) (k : Nat) (s : Fin 5) (e : TrackEntry),
    let b := p.wt.bridges.get f
    let e1 := sighted p k s e
    let corr := min (b.maxCorr : Int) (max (-(b.maxCorr : Int)) ((k : Int) - (e.start + (standOf p s).preCull : Nat)))
    let q := retire (replaceEntry e1 p)
    let own : List Change := [{ before := some e.zone, after := some e1.zone, cull := e.cull }]
    (corr = 0 → e.zone = e1.zone → matchJoint f k s e p = handOver [] q) ∧
    (corr = 0 → e.zone ≠ e1.zone → matchJoint f k s e p = checkGrades s (handOver own q)) ∧
    (corr ≠ 0 → e.zone = e1.zone → matchJoint f k s e p = kChanged f [] none (setBridgeRec q f { b with k := b.k + corr })) ∧
    (corr ≠ 0 → e.zone ≠ e1.zone → matchJoint f k s e p = kChanged f own (some s) (setBridgeRec q f { b with k := b.k + corr }))) ∧
  (∀ (p : Part) (f : Fin 2) (c : Byte), p.mu.mode = .config ∨ (f = 1 ∧ p.wt.line = .single) → sightSample f c p = p)

/-! ## The tracking list -/

/-- MARK in RUN at a board station inserts a bound, closed mark of extent 0 at the point now there, B plus the station's offset, raised to the end of the last cut where that is present and above it, and answers with
its id and coordinate; without a place, in a list of 64 entries or one that holds 40 DEFECT, BOND and MARK entries, it is refused with FULL and the list stays; an unknown station, a feeder station, a cull value that is neither yes nor no, or a number above 65,535 (log 16) is
refused with BAD_ARG. A DEFECT sample in RUN is a defect when its counter has changed, of 1 to 50,000 units from the point now
at the sensor. One that overlaps no DEFECT entry is inserted at the cost of one credit, where there is a credit and a place; without them, and with no DEFECT entry in the list, it is
dropped, counted, with DEFECT_DROP latched before the count (log 33). With DEFECT entries in the list it is merged into the latest of them, unless the union of the two and of every DEFECT entry they then overlap is
longer than 1,000,000 units: then it is dropped in the same way; a merge latches DEFECT_MERGE, once OS has the change (log 33). One that overlaps is merged into the first entry it overlaps, at no cost: a single entry covers it and every entry it overlaps. An advance of B
refills the credit by one for each refill length travelled, up to the bucket size, keeps the rest of the travel, and nothing else; a full bucket keeps none. A DEFECT sample in CONFIG is discarded. -/
def Obligations.MarkIsPlacedOrFull : Prop :=
  (∀ (s : State) (r : Request) (n c number : Nat) (st : Station), s.part.mu.mode = .run → Asks s.part 65 [4, 4, 4] [n, c, number] r →
    stationOf n = some st → st.onFeeder = false → c ≤ 1 → number ≤ 65535 →
    (s.part.wt.track.length < 64 → dbmCount s.part < 40 →
      ∃ (q : Part) (id : Nat), exec .mark s = Answered s r .ok (w32 id ++ w64 (markPoint s.part st)) (handOver
          [{ before := none, after := some { start := markPoint s.part st, extent := some 0 }, cull := decide (c = 1) }] q)
        ∧ (∀ e ∈ s.part.wt.track, e.id ≠ id)
        ∧ q.wt.track = insertEntry
            { id := id, kind := .mark number, start := markPoint s.part st, extent := some 0, cull := decide (c = 1), origin := st,
              binding := none } s.part.wt.track
        ∧ q.os = s.part.os ∧ q.rsc = s.part.rsc ∧ q.sc = s.part.sc ∧ posB q = posB s.part) ∧
    (s.part.wt.track.length = 64 ∨ dbmCount s.part = 40 →
      exec .mark s = Answered s r .full [] (popRequest s.part))) ∧
  (∀ (s : State) (r : Request) (n c number : Nat), s.part.mu.mode = .run → Asks s.part 65 [4, 4, 4] [n, c, number] r →
    stationOf n = none ∨ (∃ st, stationOf n = some st ∧ st.onFeeder = true) ∨ 1 < c ∨ 65535 < number →
    exec .mark s = Answered s r .badArg [] (popRequest s.part)) ∧
  (∀ p : Part, dbmCount p
    = p.wt.track.countP (fun e => match e.kind with | .defect => true | .bond => true | .mark _ => true | _ => false)) ∧
  (∀ (p : Part) (st : Station),
    (p.dec.kLast = none → markPoint p st = posB p + offset p st) ∧
    (∀ k, p.dec.kLast = some k → markPoint p st = max (posB p + offset p st) k)) ∧
  (∀ st : Station, st.onFeeder = true ↔ (∃ i : Fin 5, st = .stand i ∧ i.val < 4) ∨ st = .glue 0 ∨ st = .glue 1) ∧
  (∀ (p : Part) (d : Fin 4) (extent : Nat) (c : Byte), p.mu.mode = .run →
    let q : Part := { p with wt := { p.wt with defectLast := upd p.wt.defectLast d (some c) } }
    let s := posB p + offset p (.defect d)
    let t := s + min 50000 (max 1 extent)
    let overlaps (e : TrackEntry) : Prop := e.kind = .defect ∧ e.start < t ∧ s < e.start + e.extent.getD 0
    (p.wt.defectLast.get d = none → defectSample d extent c p = q) ∧
    (p.wt.defectLast.get d = some c → defectSample d extent c p = p) ∧
    (∀ l, p.wt.defectLast.get d = some l → l ≠ c →
      ((∀ e ∈ p.wt.track, ¬ overlaps e) → 0 < p.wt.credit → p.wt.track.length < 64 → dbmCount p < 40 →
        ∃ (r : Part) (id : Nat), (∀ e ∈ p.wt.track, e.id ≠ id)
          ∧ defectSample d extent c p
            = handOver [{ before := none, after := some { start := s, extent := some (t - s) }, cull := true }] r
          ∧ r.wt.track = insertEntry
              { id := id, kind := .defect, start := s, extent := some (t - s), cull := true, origin := .defect d, binding := none } p.wt.track
          ∧ r.wt.credit = p.wt.credit - 1 ∧ r.wt.defectLast = q.wt.defectLast ∧ r.os = p.os ∧ r.rif = p.rif) ∧
      ((∀ e ∈ p.wt.track, e.kind ≠ .defect) → p.wt.credit = 0 ∨ 64 ≤ p.wt.track.length ∨ 40 ≤ dbmCount p →
        defectSample d extent c p = raise .droppedDefects 1 (latch .defectDrop q)) ∧
      (∀ before e after, p.wt.track = before ++ e :: after → e.kind = .defect → (∀ x ∈ after, x.kind ≠ .defect) → IdsDiffer p.wt.track →
        (∀ x ∈ p.wt.track, ¬ overlaps x) → p.wt.credit = 0 ∨ 64 ≤ p.wt.track.length ∨ 40 ≤ dbmCount p →
        let a := min s e.start
        let b := max t (e.start + e.extent.getD 0)
        let joins (x : TrackEntry) : Prop := x.kind = .defect ∧ x.start < b ∧ a < x.start + x.extent.getD 0
        ∃ lo hi : Nat, lo ≤ a ∧ b ≤ hi
          ∧ (∀ x ∈ p.wt.track, joins x → lo ≤ x.start ∧ x.start + x.extent.getD 0 ≤ hi)
          ∧ (lo = a ∨ ∃ x ∈ p.wt.track, joins x ∧ lo = x.start)
          ∧ (hi = b ∨ ∃ x ∈ p.wt.track, joins x ∧ hi = x.start + x.extent.getD 0)
          ∧ (1000000 < hi - lo → defectSample d extent c p = raise .droppedDefects 1 (latch .defectDrop q))
          ∧ (hi - lo ≤ 1000000 →
              ∃ (r : Part) (changes : List Change), defectSample d extent c p = latch .defectMerge (handOn (r, changes))
                ∧ (∃ x ∈ r.wt.track, x = { e with start := lo, extent := some (hi - lo) })
                ∧ (∀ x ∈ p.wt.track, x.id ≠ e.id → (x ∈ r.wt.track ↔ ¬ joins x)) ∧ r.wt.credit = p.wt.credit ∧ r.os = p.os)) ∧
      (∀ before e after, p.wt.track = before ++ e :: after → (∀ x ∈ before, ¬ overlaps x) → overlaps e →
        ∃ (r : Part) (changes : List Change), defectSample d extent c p = handOn (r, changes) ∧ r.wt.credit = p.wt.credit
          ∧ (∃ x ∈ r.wt.track, x.kind = .defect ∧ x.id = e.id ∧ x.start ≤ s ∧ t ≤ x.start + x.extent.getD 0
              ∧ (∀ y ∈ p.wt.track, overlaps y → y = e ∨ y.id ≠ e.id → x.start ≤ y.start ∧ y.start + y.extent.getD 0 ≤ x.start + x.extent.getD 0))
          ∧ (∀ y ∈ r.wt.track, overlaps y → y.id = e.id)
          ∧ (∀ y ∈ p.wt.track, y.kind ≠ .defect → y.id ≠ e.id → y ∈ r.wt.track)))) ∧
  (∀ (p : Part) (adv : Nat), 0 < p.wt.refillLength →
    let travel := p.wt.remainder + adv
    let w := (refillCredit adv p).wt
    refillCredit adv p = { p with wt := { p.wt with credit := w.credit, remainder := w.remainder } } ∧
    (p.wt.bucketSize ≤ p.wt.credit → w.credit = p.wt.credit ∧ w.remainder = 0) ∧
    (p.wt.credit < p.wt.bucketSize →
      w.credit ≤ p.wt.bucketSize ∧ (w.credit = p.wt.bucketSize → w.remainder = 0 ∧ (p.wt.bucketSize - p.wt.credit) * p.wt.refillLength ≤ travel) ∧
      (w.credit < p.wt.bucketSize → w.remainder < p.wt.refillLength ∧ travel = (w.credit - p.wt.credit) * p.wt.refillLength + w.remainder
        ∧ p.wt.credit ≤ w.credit))) ∧
  (∀ (p : Part) (d : Fin 4) (extent : Nat) (c : Byte), p.mu.mode = .config → defectSample d extent c p = p)

/-- An insertion puts an entry at its place: a list in ascending order of start, and of id among equal starts, stays so. Every step keeps the tracking list in that order, with no two entries of one id; and in RUN it
keeps the region list linked: each region ends where the next starts, with its last cut number one below the next one's first, and the last region, and no other, is open. -/
def Obligations.InsertionKeepsOrder : Prop :=
  (∀ (e : TrackEntry) (l : List TrackEntry), (∀ x ∈ l, x.id ≠ e.id) → l.Pairwise (fun a b => entryBefore a b = true) →
    (insertEntry e l).Pairwise (fun a b => entryBefore a b = true) ∧ (insertEntry e l).Perm (e :: l)) ∧
  (∀ s t : State, Ordered s.part → step s = .next t → Ordered t.part)

/-- A zone and a cut meet as R26's table says. The test for retirement removes the bound, closed entries other than marks that end at or below the end of the last cut, and no other; a cut report
removes the marks below the end of its cut. A closed zone that finds no place latches TRACK_OVERFLOW, and is covered by the eligible entry that stands last at or below its start: an
end short of the zone's is raised to it, and a DEFECT whose end is raised absorbs every other DEFECT that its zone then overlaps; that TRACK_OVERFLOW comes first is the model's choice (log 33). The binding
of bonds binds, where it stands, every unbound BOND entry whose start the point at its web's joint detector has passed, and tests for retirement. A zone closed with a travel above 0 takes it as its extent
and web, an unbound one from its feeder start and K on and cut off below 0, and stays also where nothing is left of it, while one bound before takes the whole travel (log 28); with a travel of 0 it leaves the list; the change goes to OS after the test for retirement (log 34). The stretches of a region that the grade check finds are
those, from B on, where the web grade is not the one the region requires. The check removes the stand's OFF_GRADE entries from B on that are none of the stretches, ends at B its open ones from before B, with the
test for retirement, keeps those that are, and inserts the other stretches, in this order (log 34): closed ones with the fallback, open ones where there is a place. OFF_GRADE is latched where the stand then has an open
entry and had none, and the changes go to OS after it (log 33) as one cause. A check that finds nothing to do changes nothing. -/
def Obligations.ZoneMeetsCut : Prop :=
  (∀ (z : Zone) (x y : Nat),
    (∀ e, z.extent = some e → 0 < e → (z.meets x y = true ↔ z.start < y ∧ x < z.start + e)) ∧
    (z.extent = some 0 → (z.meets x y = true ↔ x ≤ z.start ∧ z.start < y)) ∧
    (z.extent = none → (z.meets x y = true ↔ z.start < y))) ∧
  (∀ p : Part, (p.dec.kLast = none → retire p = p) ∧
    ∀ k, p.dec.kLast = some k → ∀ e, e ∈ (retire p).wt.track ↔
      e ∈ p.wt.track ∧ ¬ ((∀ b, e.binding = some b → b.bound = true) ∧ (∀ n, e.kind ≠ .mark n) ∧ ∃ n, e.extent = some n ∧ e.start + n ≤ k)) ∧
  (∀ (p : Part) (y : Nat) (e : TrackEntry), e ∈ (passMarks y p).wt.track ↔ e ∈ p.wt.track ∧ ¬ ((∃ n, e.kind = .mark n) ∧ e.start < y)) ∧
  (∀ (f : Option (Fin 2)) (start stop : Nat) (p : Part), p.wt.track.Pairwise inOrder →
    let q := latch .trackOverflow p
    let eligible (e : TrackEntry) : Prop := e.cull = true ∧ e.extent.isSome ∧ (∀ n, e.kind ≠ .mark n) ∧ e.start ≤ start
      ∧ ∀ b, e.binding = some b → b.bound = true ∨ f = some b.feeder
    (alarmOf (coverZone f start stop p).1 .trackOverflow).latch = true ∧
    ((∀ e ∈ p.wt.track, ¬ eligible e) → coverZone f start stop p = (q, [])) ∧
    (∀ e ∈ p.wt.track, eligible e → (∀ x ∈ p.wt.track, eligible x → x ≠ e → x.start < e.start ∨ (x.start = e.start ∧ x.id < e.id)) →
      (stop ≤ e.start + e.extent.getD 0 → coverZone f start stop p = (q, [])) ∧
      (e.start + e.extent.getD 0 < stop → e.kind ≠ .defect →
        (∃ x ∈ (coverZone f start stop p).1.wt.track,
          x.id = e.id ∧ x.start = e.start ∧ x.extent = some (stop - e.start) ∧ x.kind = e.kind ∧ x.cull = e.cull)
        ∧ (∀ x ∈ p.wt.track, x.id ≠ e.id → x ∈ (coverZone f start stop p).1.wt.track)
        ∧ (coverZone f start stop p).2
          = [{ before := some e.zone, after := some { start := e.start, extent := some (stop - e.start) }, cull := e.cull }]) ∧
      (e.start + e.extent.getD 0 < stop → e.kind = .defect → IdsDiffer p.wt.track →
        let track := (coverZone f start stop p).1.wt.track
        let overlaps (y : TrackEntry) : Prop := y.kind = .defect ∧ y.start < stop ∧ e.start < y.start + y.extent.getD 0
        (∃ x ∈ track, x.id = e.id ∧ x.kind = .defect ∧ x.cull = e.cull ∧ x.start ≤ e.start ∧ stop ≤ x.start + x.extent.getD 0
          ∧ (∀ y ∈ p.wt.track, overlaps y → x.start ≤ y.start ∧ y.start + y.extent.getD 0 ≤ x.start + x.extent.getD 0)
          ∧ (x.start = e.start ∨ ∃ y ∈ p.wt.track, overlaps y ∧ x.start = y.start)
          ∧ (x.start + x.extent.getD 0 = stop ∨ ∃ y ∈ p.wt.track, overlaps y ∧ x.start + x.extent.getD 0 = y.start + y.extent.getD 0))
        ∧ (∀ y ∈ p.wt.track, y.id ≠ e.id → ((y ∈ track ↔ ¬ overlaps y)))))) ∧
  (∀ (p : Part) (s : Fin 5) (r : Region) (o : Order) (x : Nat), p.wt.track.Pairwise inOrder → r.order = some o → posB p ≤ x → r.start ≤ x →
    (∀ e, r.stop = some e → x < e) →
    ((∃ z ∈ regionOff p s r, z.1 ≤ x ∧ (∀ e, z.2.1 = some e → x < e)) ↔ o.grades.get s ≠ 0 ∧ webGrade p s x ≠ o.grades.get s)
      ∧ ∀ z ∈ regionOff p s r, z.2.2 = o.tag) ∧
  (∀ p : Part,
    let passed (e : TrackEntry) : Prop :=
      e.kind = .bond ∧ ∃ b, e.binding = some b ∧ b.bound = false ∧ e.start < posB p + offset p (.jointDet b.feeder)
    ((∀ e ∈ p.wt.track, ¬ passed e) → bindBonds p = p) ∧
    ((∃ e ∈ p.wt.track, passed e) → ∃ l, bindBonds p = retire { p with wt := { p.wt with track := l } } ∧
      List.Forall₂ (fun e x => (passed e → x = { e with binding := e.binding.map (fun b => { b with bound := true }) }) ∧ (¬ passed e → x = e))
        p.wt.track l)) ∧
  (∀ (p : Part) (id n : Nat),
    (entryById p id = none → closeZone id n p = (p, [])) ∧
    (∀ e, entryById p id = some e → n = 0 →
      closeZone id n p = ({ p with wt := { p.wt with track := p.wt.track.filter (fun x => !decide (x.id = id)) } },
        [{ before := some e.zone, after := none, cull := e.cull }])) ∧
    (∀ e, entryById p id = some e → 0 < n → IdsDiffer p.wt.track →
      let unbound := ∃ b, e.binding = some b ∧ b.bound = false
      ∃ (q : Part) (z : Zone),
        (closeZone id n p).1 = retire q ∧ q = { p with wt := { p.wt with track := q.wt.track } }
        ∧ (e.zone ≠ z → (closeZone id n p).2 = [{ before := some e.zone, after := some z, cull := e.cull }])
        ∧ (e.zone = z → (closeZone id n p).2 = [])
        ∧ (¬ unbound → z = { start := e.start, extent := some n })
        ∧ (∀ b, e.binding = some b → b.bound = false →
            let x := b.start + bridgeK p b.feeder
            z = { start := x.toNat, extent := some (n - (-x).toNat) })
        ∧ q.wt.track.Pairwise inOrder
        ∧ q.wt.track.Perm (p.wt.track.map (fun x => if x.id = id then
            { e with start := z.start, extent := z.extent, binding := e.binding.map (fun b => { b with web := some n }) } else x)))) ∧
  (∀ (p : Part) (s : Fin 5), (p.mu.mode = .config ∨ standInUse p s = false → gradeCheck s p = (p, [])) ∧
    checkGrades s p = handOver (gradeCheck s p).2 (gradeCheck s p).1 ∧
    (p.mu.mode = .run → standInUse p s = true →
      let computed := p.os.regions.flatMap (regionOff p s)
      let same (c : Nat × Option Nat × Nat) (e : TrackEntry) : Bool :=
        decide (e.kind = .offGrade s c.2.2) && decide (e.start = c.1) && decide (e.extent = c.2.1.map (fun t => t - c.1))
      let ofStand (e : TrackEntry) : Bool := match e.kind with | .offGrade t _ => decide (t = s) | _ => false
      let goes (e : TrackEntry) : Bool := ofStand e && decide (posB p ≤ e.start) && !(computed.any (fun c => same c e))
      let ends (e : TrackEntry) : Bool := ofStand e && decide (e.start < posB p) && e.extent.isNone
      let ended (e : TrackEntry) : TrackEntry := if ends e then { e with extent := some (posB p - e.start) } else e
      let isOpen (q : Part) : Bool := q.wt.track.any (fun e => ofStand e && e.extent.isNone)
      let missing := computed.filter (fun c => !(p.wt.track.any (fun e => decide (posB p ≤ e.start) && same c e)))
      let cut : Part := { p with wt := { p.wt with track := (p.wt.track.filter (fun e => !goes e)).map ended } }
      let changes : List Change :=
        (p.wt.track.filter goes).map (fun e => { before := some e.zone, after := none, cull := e.cull })
          ++ (p.wt.track.filter ends).map (fun e => { before := some e.zone, after := some (ended e).zone, cull := e.cull })
      let r := missing.foldl (fun acc c => ((insertOff s c acc.1).1, acc.2 ++ (insertOff s c acc.1).2))
        (if p.wt.track.any ends then retire cut else cut, changes)
      gradeCheck s p = (if isOpen r.1 && !isOpen p then latch .offGrade r.1 else r.1, r.2) ∧
      ((∀ e ∈ p.wt.track, goes e = false ∧ ends e = false) → missing = [] → gradeCheck s p = (p, [])) ∧
      (p.dec.kLast = none → p.wt.track.length + computed.length ≤ 64 →
        (∀ c ∈ computed, ∃ e ∈ (gradeCheck s p).1.wt.track, same c e = true) ∧
        (∀ e ∈ (gradeCheck s p).1.wt.track, ofStand e = true → posB p ≤ e.start → ∃ c ∈ computed, same c e = true) ∧
        (∀ e ∈ (gradeCheck s p).1.wt.track, ofStand e = true → e.start < posB p → e.extent.isSome) ∧
        (∀ e, ofStand e = false → (e ∈ (gradeCheck s p).1.wt.track ↔ e ∈ p.wt.track))))) ∧
  (∀ (p : Part) (s : Fin 5) (start tag : Nat) (stop : Option Nat),
    let z (id : Nat) : TrackEntry :=
      { id := id, kind := .offGrade s tag, start := start, extent := stop.map (fun t => t - start), cull := true, origin := .stand s, binding := none }
    let i := insertOff s (start, stop, tag) p
    (p.wt.track.length < 64 → ∃ id, (∀ e ∈ p.wt.track, e.id ≠ id) ∧ i.1.wt.track = insertEntry (z id) p.wt.track
      ∧ i.2 = [{ before := none, after := some (z id).zone, cull := true }] ∧ i.1.os = p.os ∧ i.1.rif = p.rif) ∧
    (64 ≤ p.wt.track.length → stop = none → i = (latch .trackOverflow p, [])) ∧
    (∀ t, 64 ≤ p.wt.track.length → stop = some t → i = coverZone none start (start + (t - start)) p))

/-! ## Orders -/

/-- APPEND ORDER, in either mode: a field out of range is refused with BAD_ARG, an EMPTY slot with NOT_FOUND, a tag held in the queue or the region list with CONFLICT, and a queue of 24 with FULL, in this order and
with no change. Else the order joins the tail of the queue with revision 0, its slot's reference count rises by 1, the reply gives its position, and NEXT selection runs, which in CONFIG does nothing. -/
def Obligations.AppendOrderJoinsQueue : Prop :=
  (∀ (s : State) (r : Request) (tag slot outs hold g1 g2 g3 g4 g5 len qty stack profile overrun : Nat),
    Asks s.part 36 [4, 1, 1, 1, 2, 2, 2, 2, 2, 4, 4, 2, 2, 2]
      [tag, slot, outs, hold, g1, g2, g3, g4, g5, len, qty, stack, profile, overrun] r →
    let o : Order :=
      { tag := tag, revision := 0, slot := slot, grades := #v[g1, g2, g3, g4, g5], outs := outs, length := len, quantity := qty,
        stackHeight := stack, profile := profile, overrun := overrun, hold := decide (hold = 1) }
    let legal := hold ≤ 1 ∧ o.inRange = true
    let held := (∃ x ∈ s.part.os.queue, x.tag = tag) ∨ ∃ x ∈ s.part.os.regions, x.order.map Order.tag = some tag
    (¬ legal → exec .appendOrder s = Answered s r .badArg [] (popRequest s.part)) ∧
    (∀ i : Fin 32, legal → place 32 slot = some i →
      ((s.part.bc.slots.get i).recipe = none → exec .appendOrder s = Answered s r .notFound [] (popRequest s.part)) ∧
      ((s.part.bc.slots.get i).recipe.isSome →
        (held → exec .appendOrder s = Answered s r .conflict [] (popRequest s.part)) ∧
        (¬ held → 24 ≤ s.part.os.queue.length → exec .appendOrder s = Answered s r .full [] (popRequest s.part)) ∧
        (¬ held → s.part.os.queue.length < 24 →
          let t := setSlot (setOrders (popRequest s.part) (s.part.os.queue ++ [o])) i
            { s.part.bc.slots.get i with refs := (s.part.bc.slots.get i).refs + 1 }
          exec .appendOrder s = Answered s r .ok (w32 s.part.os.queue.length) (nextSelection t))))) ∧
  (∀ o : Order, o.inRange = true ↔
    1 ≤ o.slot ∧ o.slot ≤ 32 ∧ (∀ i, o.grades.get i ≤ 65535) ∧ 1 ≤ o.outs ∧ o.outs ≤ 8 ∧ 2000 ≤ o.length ∧ o.length ≤ 60000 ∧ 1 ≤ o.quantity
      ∧ o.quantity ≤ 999999 ∧ 1 ≤ o.stackHeight ∧ o.stackHeight ≤ 500 ∧ 1 ≤ o.profile ∧ o.profile ≤ 999 ∧ o.overrun ≤ 200) ∧
  (∀ p : Part, p.mu.mode = .config → nextSelection p = p)

/-- AMEND ORDER, in either mode. A tag held nowhere is NOT_FOUND, an order whose region is committed STATE, another revision than the expected one CONFLICT, revision 255 STATE, a field out of range BAD_ARG, an EMPTY
slot NOT_FOUND, and for a RUNNING order any change but of quantity, overrun and stack height STATE: in this order, each with no change. Else the reply carries the revision raised by 1. An order in the queue takes
the fields in its place, and where its slot changes the old slot's reference count falls by 1 and the new one's rises by 1; a QUEUED order whose hold is set to no starts NEXT selection. In RUN a NEXT order
whose profile changes is compared again: with the active station's profile it is ready and the inactive station released; with another one it is not ready, the inactive station is presetting and PRESET is
posted; one commitment check follows (log 37). A RUNNING order takes the fields in its open region, whose stack countdown allows for the cuts already in the stack and is at least 1; C is computed anew and the
commitment check made. -/
def Obligations.AmendOrderChecksAndEffects : Prop :=
  (∀ (s : State) (r : Request) (tag expected slot g1 g2 g3 g4 g5 outs len qty stack profile overrun hold : Nat),
    Asks s.part 37 (List.replicate 15 4) [tag, expected, slot, g1, g2, g3, g4, g5, outs, len, qty, stack, profile, overrun, hold] r →
    let fields (o : Order) : Order :=
      { tag := o.tag, revision := o.revision + 1, slot := slot, grades := #v[g1, g2, g3, g4, g5], outs := outs, length := len,
        quantity := qty, stackHeight := stack, profile := profile, overrun := overrun, hold := decide (hold = 1) }
    let refused (x : Status) : Prop := exec .amendOrder s = Answered s r x [] (popRequest s.part)
    let checked (o : Order) (running : Bool) (accepted : Prop) : Prop :=
      let fixed := o.slot = slot ∧ o.grades = #v[g1, g2, g3, g4, g5] ∧ o.outs = outs ∧ o.length = len ∧ o.profile = profile ∧ o.hold = decide (hold = 1)
      (o.revision ≠ expected → refused .conflict) ∧
      (o.revision = expected → o.revision = 255 → refused .state) ∧
      (o.revision = expected → o.revision ≠ 255 →
        (1 < hold ∨ (fields o).inRange = false → refused .badArg) ∧
        (hold ≤ 1 → (fields o).inRange = true →
          (slotLoaded s.part slot = false → refused .notFound) ∧
          (slotLoaded s.part slot = true → running = true → ¬ fixed → refused .state) ∧
          (slotLoaded s.part slot = true → running = false ∨ fixed → accepted)))
    (tagHeld s.part tag = false → refused .notFound) ∧
    (∀ x, queuedAt s.part tag = none → regionOf s.part tag = some x → x.stop.isSome → refused .state) ∧
    (∀ i o, queuedAt s.part tag = some (i, o) →
      let a := fields o
      let moved := moveRef o.slot slot (setOrders (popRequest s.part) (s.part.os.queue.set i a))
      let becomes (q : Part) : Prop := exec .amendOrder s = Answered s r .ok (w32 (o.revision + 1)) q
      checked o false (
        (i ≠ 0 ∨ s.part.os.next = none →
          (o.hold = true → hold = 0 → becomes (nextSelection moved)) ∧ (o.hold = false ∨ hold = 1 → becomes moved)) ∧
        (s.part.mu.mode = .run → i = 0 → s.part.os.next.isSome →
          (o.profile = profile → becomes moved) ∧
          (o.profile ≠ profile → s.part.dec.active = some profile →
            becomes (commitCheck { moved with os := { moved.os with next := some { ready := true, needsSwap := false } },
                                              dec := { moved.dec with inactive := .free } })) ∧
          (o.profile ≠ profile → s.part.dec.active ≠ some profile →
            becomes (commitCheck (postSetpoint (.preset profile)
              { moved with os := { moved.os with next := some { ready := false, needsSwap := true } },
                           dec := { moved.dec with inactive := .presetting profile } })))))) ∧
    (∀ x o, queuedAt s.part tag = none → regionOf s.part tag = some x → x.order = some o → x.stop = none →
      let a := fields o
      let built (y : Region) : Region :=
        if y.order.map Order.tag = some tag then
          { y with order := some a, countdown := max 1 (stack - (o.stackHeight - y.countdown)) }
        else y
      checked o true (exec .amendOrder s = Answered s r .ok (w32 (o.revision + 1))
        (commitCheck (computeChange (setRegions (popRequest s.part) (s.part.os.regions.map built))))))) ∧
  (∀ (old new : Nat) (p : Part) (i j : Fin 32), place 32 old = some i → place 32 new = some j →
    let t := moveRef old new p
    (old = new → t = p) ∧
    (old ≠ new →
      t = setSlot (setSlot p i { p.bc.slots.get i with refs := (p.bc.slots.get i).refs - 1 }) j
        { p.bc.slots.get j with refs := (p.bc.slots.get j).refs + 1 }))

/-- WITHDRAW ORDER, HOLD ORDER and RELEASE ORDER, in either mode. Withdrawn, an order of the queue leaves it and its slot's reference count falls by 1; in RUN a NEXT order's preset is abandoned too, no order is NEXT and the
inactive station is FREE; NEXT selection runs, with one commitment check after it (log 37). The region of a RUNNING order becomes withdrawn and the commitment check is made; a committed one is refused with STATE.
Hold is set or cleared for a QUEUED order, and a release runs NEXT selection; a NEXT, RUNNING or ENDED order is refused with STATE. Each accepted request is answered OK. In CONFIG, NEXT selection does nothing. A tag held nowhere is NOT_FOUND
for all three. -/
def Obligations.QueuedOrderRequests : Prop :=
  (∀ (s : State) (r : Request) (tag : Nat),
    let p := popRequest s.part
    (∀ i o, queuedAt s.part tag = some (i, o) →
      let left := dropRef o.slot (setOrders p (s.part.os.queue.eraseIdx i))
      (i ≠ 0 ∨ s.part.os.next = none →
        (Asks s.part 38 [4] [tag] r → exec .withdrawOrder s = Answered s r .ok [] (nextSelection left)) ∧
        (Asks s.part 39 [4] [tag] r → exec .holdOrder s = Answered s r .ok [] (setOrders p (s.part.os.queue.set i { o with hold := true }))) ∧
        (Asks s.part 40 [4] [tag] r → exec .releaseOrder s = Answered s r .ok []
          (nextSelection (setOrders p (s.part.os.queue.set i { o with hold := false }))))) ∧
      (i = 0 → s.part.os.next.isSome →
        (s.part.mu.mode = .run → Asks s.part 38 [4] [tag] r → exec .withdrawOrder s = Answered s r .ok []
          (nextSelection { left with os := { left.os with next := none }, dec := { left.dec with inactive := .free } })) ∧
        (Asks s.part 39 [4] [tag] r → exec .holdOrder s = Answered s r .state [] p) ∧
        (Asks s.part 40 [4] [tag] r → exec .releaseOrder s = Answered s r .state [] p))) ∧
    (∀ x, queuedAt s.part tag = none → regionOf s.part tag = some x →
      (Asks s.part 38 [4] [tag] r →
        (x.stop.isSome → exec .withdrawOrder s = Answered s r .state [] p) ∧
        (x.stop = none → exec .withdrawOrder s = Answered s r .ok [] (commitCheck (setRegions p (s.part.os.regions.map
          (fun y => if y.order.map Order.tag = some tag then { y with withdrawn := true } else y)))))) ∧
      (Asks s.part 39 [4] [tag] r → exec .holdOrder s = Answered s r .state [] p) ∧
      (Asks s.part 40 [4] [tag] r → exec .releaseOrder s = Answered s r .state [] p)) ∧
    (tagHeld s.part tag = false →
      (Asks s.part 38 [4] [tag] r → exec .withdrawOrder s = Answered s r .notFound [] p) ∧
      (Asks s.part 39 [4] [tag] r → exec .holdOrder s = Answered s r .notFound [] p) ∧
      (Asks s.part 40 [4] [tag] r → exec .releaseOrder s = Answered s r .notFound [] p))) ∧
  (∀ (p : Part) (slot : Nat) (i : Fin 32), place 32 slot = some i →
    dropRef slot p = setSlot p i { p.bc.slots.get i with refs := (p.bc.slots.get i).refs - 1 }) ∧
  (∀ (p : Part) (tag : Nat),
    (∀ i o, queuedAt p tag = some (i, o) ↔
      p.os.queue[i]? = some o ∧ o.tag = tag ∧ ∀ j x, j < i → p.os.queue[j]? = some x → x.tag ≠ tag) ∧
    (∀ x, regionOf p tag = some x ↔ ∃ before after, p.os.regions = before ++ x :: after ∧ x.order.map Order.tag = some tag
      ∧ ∀ y ∈ before, y.order.map Order.tag ≠ some tag) ∧
    (tagHeld p tag = false ↔ queuedAt p tag = none ∧ regionOf p tag = none)) ∧
  (∀ p : Part, p.mu.mode = .config → nextSelection p = p)

/-- The target of good cuts of an order: the quantity over the outs and the overrun allowance on it, each rounded up; and the grid origin of its region: the
start and the number before the first while no cut is attributed, else the last cut handled. A future grid cut is foreseen culled when its span meets a closed zone. A committed end lies on the grid, at least one cut beyond its origin, at or beyond the target, and, of several cuts, less than one beyond it. A commitment is due for a
WASTE region with a ready NEXT order, and for an ORDER region that is withdrawn or whose change point is within the commit lead; the target is the change point where it is at least the minimum lead ahead, else the commit lead. The check defers without room, with ORDER_WAIT latched and its contribution at the crawl speed, ends a deferral that is no longer
due, and with room commits: the end and the last cut number are fixed, a deferral's ORDER_WAIT contribution is made inactive, and nothing else, and the region of the ready NEXT order, or a WASTE region, is appended from that end on. A
commitment then hands a changed sheet length to DEC with the ended region's last cut number, which has CHANGE LENGTH on its way, or discarded with KNIFE_COMMAND_LATE latched while 4 of them wait;
gives a needed swap a SWAP_ZONE entry from the new region's start on, of the swap time's travel, 2,000 to 200,000 units, and a swap record with its id, or none, with TRACK_OVERFLOW latched, in a
full list; has the grades checked and the recipes looked up, computes C, and selects the NEXT order; the places of the lookups and of ORDER_WAIT's end are the model's choices (logs 30, 33). C is computed for an open
ORDER region alone: the origin and as many sheet lengths as the change point needs. The changes of one cause have C computed anew where one of them has a closed zone, with cull yes, that meets the span from the origin to
C; a commitment check follows every hand-over (log 13). -/
def Obligations.TargetAndGridOrigin : Prop :=
  (∀ o : Order, 0 < o.outs →
    (o.outs * o.cutsWanted ≥ o.quantity ∧ o.outs * o.cutsWanted < o.quantity + o.outs)
      ∧ o.cutsWanted ≤ o.target ∧ 1000 * (o.target - o.cutsWanted) ≥ o.cutsWanted * o.overrun
      ∧ 1000 * (o.target - o.cutsWanted) < o.cutsWanted * o.overrun + 1000) ∧
  (∀ (p : Part) (r : Region) (first : Nat), r.first = some first →
    (r.attributed = 0 → gridOrigin p r = (r.start, first - 1)) ∧
    (∀ c k, 0 < r.attributed → p.dec.cLast = some c → p.dec.kLast = some k → gridOrigin p r = (k, c))) ∧
  (∀ (g0 len j : Nat) (zones : List Zone), 1 ≤ j →
    (foreseen g0 len zones j = true ↔
      ∃ z ∈ zones, z.extent.isSome ∧ z.meets (g0 + (j - 1) * len) (g0 + j * len) = true)) ∧
  (∀ g0 len target : Nat, 0 < len →
    1 ≤ commitCuts g0 len target ∧ target ≤ g0 + commitCuts g0 len target * len
      ∧ (1 < commitCuts g0 len target → g0 + (commitCuts g0 len target - 1) * len < target)) ∧
  (∀ (p : Part) (r : Region),
    let far := posB p + p.os.commitLead
    (commitDue p r = true ↔ r.first.isSome ∧
      ((r.order = none ∧ ∃ n, p.os.next = some n ∧ n.ready = true) ∨
       (r.order.isSome ∧ (r.withdrawn = true ∨ ∃ c, r.change = some c ∧ c ≤ far)))) ∧
    (r.order = none ∨ r.withdrawn = true → commitTarget p r = far) ∧
    (∀ c, r.order.isSome → r.withdrawn = false → r.change = some c →
      commitTarget p r = if posB p + (offset p .slitter + 200000) ≤ c then c else far)) ∧
  (∀ (p : Part) (r : Region) (before : List Region), p.mu.mode = .run → p.os.regions = before ++ [r] → r.stop = none →
    let room := p.os.regions.length < 6 ∧ p.wt.track.length ≤ 58
    (commitDue p r = false → r.deferred = false → commitCheck p = p) ∧
    (commitDue p r = false → r.deferred = true →
      commitCheck p = deactivate .orderWait (setRegions p (before ++ [{ r with deferred := false }]))) ∧
    (commitDue p r = true → ¬ room → r.deferred = true → commitCheck p = p) ∧
    (commitDue p r = true → ¬ room → r.deferred = false →
      commitCheck p = activate .orderWait p.sg.crawl (latch .orderWait (setRegions p (before ++ [{ r with deferred := true }])))) ∧
    (commitDue p r = true → room → commitCheck p = commitTimes 6 (commit r p)) ∧
    (let g := gridOrigin p r
     let m := commitCuts g.1 r.length (commitTarget p r)
     let ended : Region := { r with stop := some (g.1 + m * r.length), last := some (g.2 + m), change := none, deferred := false }
     let committed := setRegions p (before ++ [ended])
     (fixEnd r p).2 = (g.1 + m * r.length, g.2 + m) ∧ (fixEnd r p).1.os.regions = before ++ [ended] ∧ (fixEnd r p).1.os.queue = p.os.queue
       ∧ (fixEnd r p).1.os.next = p.os.next ∧ (r.deferred = true → (fixEnd r p).1 = deactivate .orderWait committed)
       ∧ (r.deferred = false → (fixEnd r p).1 = committed))) ∧
  (∀ (p : Part) (len stop last : Nat),
    (∀ o rest n, p.os.queue = o :: rest → p.os.next = some n → n.ready = true →
      appendRegion len stop last p
        = ({ p with os := { p.os with queue := rest, next := none,
                                      regions := p.os.regions ++ [newRegion (some o) stop o.length (last + 1) n.needsSwap] } },
           newRegion (some o) stop o.length (last + 1) n.needsSwap)) ∧
    (p.os.queue = [] ∨ (∀ n, p.os.next = some n → n.ready = false) →
      appendRegion len stop last p
        = (setRegions p (p.os.regions ++ [newRegion none stop len (last + 1) false]), newRegion none stop len (last + 1) false))) ∧
  (∀ p : Part, 2000 ≤ swapExtent p ∧ swapExtent p ≤ 200000
    ∧ (2000 < swapExtent p → 1000 * (swapExtent p - 1) < lineSpeed p * p.os.swapTime)
    ∧ (swapExtent p < 200000 → lineSpeed p * p.os.swapTime ≤ 1000 * swapExtent p)) ∧
  (∀ (p : Part) (r : Region) (before : List Region), p.os.regions = before ++ [r] → r.stop = none →
    let f := fixEnd r p
    let ended : Region := { r with stop := some f.2.1, last := some f.2.2, change := none, deferred := false }
    let a := appendRegion r.length f.2.1 f.2.2 f.1
    let q1 := if a.2.length = r.length then a.1 else postChange a.2.length (some f.2.2) a.1
    let q2 := if a.2.swap = true then insertSwap a.2.start q1 else q1
    let bare (x : Region) : Region := { x with change := none, gradeLate := false }
    commit r p = selectNext (computeChange (lookupAll (gradeChecks a.2 q2)))
      ∧ (commit r p).os.regions.map bare = (before ++ [ended, a.2]).map bare) ∧
  (∀ (p : Part) (len : Nat) (n : Option Nat),
    (∀ e, outEntry p .knife = some e →
      ((changeList p).length < 4 → OnItsWay (postChange len n p) (.command (.changeLength len n) e.node e.channel)) ∧
      (4 ≤ (changeList p).length → postChange len n p = latch .knifeCommandLate p)) ∧
    (outEntry p .knife = none → postChange len n p = p)) ∧
  (∀ (p : Part) (start : Nat),
    let q := insertSwap start p
    let z (id : Nat) : TrackEntry :=
      { id := id, kind := .swapZone, start := start, extent := some (swapExtent p), cull := true, origin := .slitter, binding := none }
    let given (id : Option Nat) : Dec :=
      { p.dec with swap := .none, swapRec := some { start := start, entry := id, extent := swapExtent p, late := false } }
    (p.wt.track.length < 64 → ∃ id, (∀ e ∈ p.wt.track, e.id ≠ id) ∧ q.wt.track = insertEntry (z id) p.wt.track ∧ q.dec = given (some id)
      ∧ q.os = p.os ∧ q.rif = p.rif) ∧
    (64 ≤ p.wt.track.length → q.dec = given none ∧ (alarmOf q .trackOverflow).latch = true ∧ q.os = p.os)) ∧
  (∀ (p : Part) (before : List Region) (r : Region), p.os.regions = before ++ [r] →
    (r.stop.isSome ∨ r.order = none → computeChange p = p) ∧
    (∀ o, r.stop = none → r.order = some o →
      let g0 := (gridOrigin p r).1
      let zones := (p.wt.track.filter (fun e => e.cull && e.extent.isSome)).map TrackEntry.zone
      let c := g0 + cutsToTarget g0 r.length (o.target - r.good) zones * r.length
      computeChange p = setRegions p (before ++ [{ r with change := some c }])) ∧
    (∀ changes : List Change,
      let meets (c : Nat) (z : Option Zone) : Prop := ∃ w, z = some w ∧ w.extent.isSome ∧ w.meets (gridOrigin p r).1 c = true
      let matters (c : Nat) : Prop := ∃ x ∈ changes, x.cull = true ∧ (meets c x.before ∨ meets c x.after)
      (∀ c, r.stop = none → r.change = some c → matters c → handOver changes p = commitCheck (computeChange p)) ∧
      (r.stop.isSome ∨ r.change = none ∨ (∃ c, r.change = some c ∧ ¬ matters c) → handOver changes p = commitCheck p)))

/-- N is the least number of future grid cuts after which the cuts not foreseen culled are as many as are needed, for zones in the list's order. -/
def Obligations.ChangePointIsLeast : Prop :=
  ∀ (g0 len need : Nat) (zones : List Zone), 0 < len → zones.Pairwise (fun a b => a.start ≤ b.start) →
    let n := cutsToTarget g0 len need zones
    need + foreseenCount g0 len zones n ≤ n ∧ ∀ m, m < n → m < need + foreseenCount g0 len zones m

/-- READ ORDER, READ QUEUE and READ COMPLETION, in the layouts that are the model's own (log 8): page 0 of an order of the queue and the three pages of an order in the region list, the queue's
record at an index, two region summaries from an index on, the oldest record, taken from the log; and NOT_FOUND from an empty log, and for a tag held nowhere. A page above 2 and an index outside the queue's 24 or the list's 6 places
are BAD_ARG (log 16), and pages 1 and 2 of an order of the queue STATE; an index beyond the queue's orders is answered with their number alone. The test for completion leaves a first region alone
that is not ENDED or has an entry in the cut queue; otherwise it removes it, and for an ORDER region drops its slot's reference and writes its record, of which the log keeps the latest 16, with
COMPLETION_LOST latched where it loses one, and posts ORDER DONE with the tag and the flags; it is made again for the next region, and then the commitment check. That the lookups of a removal follow its record, that the test for
the next region comes before the commitment check (log 30), and that each removal has its commitment check at once, also within a knife report (log 12), are the model's choices. -/
def Obligations.OrderReads : Prop :=
  (∀ (s : State) (r : Request),
    let p := s.part
    let orderRecord (o : Order) (state : Nat) : List Byte :=
      w32 o.tag ++ w32 o.revision ++ w32 o.slot ++ o.grades.toList.flatMap w32 ++ w32 o.outs ++ w32 o.length ++ w32 o.quantity
        ++ w32 o.stackHeight ++ w32 o.profile ++ w32 o.overrun ++ w32 (if o.hold then 1 else 0) ++ w32 state
    let ofNext (f : NextOrder → Bool) : List Byte := opt32 (p.os.next.map (fun n => if f n then 1 else 0))
    let more (i taken total : Nat) : List Byte := opt32 (if taken ≠ 0 ∧ i + taken < total then some (i + taken) else none)
    let summary (x : Region) : List Byte :=
      w32 (if x.order.isSome then 1 else 2) ++ present32 (x.order.map Order.tag) ++ w64 x.start ++ opt64 x.stop ++ present32 x.first
        ++ present32 x.last ++ w32 (if x.ended then 1 else 0)
    let flags (l : List Bool) : List Byte := w32 (l.zipIdx.map (fun b => if b.1 then 2 ^ b.2 else 0)).sum
    let page1 (x : Region) (o : Order) : List Byte :=
      w64 x.start ++ opt64 x.stop ++ present32 x.first ++ present32 x.last ++ w32 (if x.swap then 1 else 0) ++ w32 x.countdown
        ++ flags [x.short, x.withdrawn, x.gradeLate] ++ w32 x.attributed ++ w32 x.good ++ w32 x.stacked ++ w32 x.missing
        ++ opt32 (if x.stop = none then some o.target else none) ++ opt64 (if x.stop = none then x.change else none)
        ++ opt32 (if x.stop = none then some (if x.deferred then 1 else 0) else none)
    let completion (c : Completion) : List Byte :=
      w32 c.tag ++ w32 c.stacked ++ w32 c.goodSheets ++ w32 c.missing ++ c.culled.toList.flatMap w32 ++ w32 c.overrunCuts
        ++ w64 c.boardLength ++ flags [c.short, c.withdrawn, c.gradeLate, c.aborted]
    (∀ tag page, Asks p 41 [4, 4] [tag, page] r →
      (2 < page → exec .readOrder s = Answered s r .badArg [] (popRequest p)) ∧
      (page ≤ 2 → tagHeld p tag = false → exec .readOrder s = Answered s r .notFound [] (popRequest p)) ∧
      (∀ i o, queuedAt p tag = some (i, o) →
        (page = 0 → exec .readOrder s = Answered s r .ok
          (orderRecord o (if i = 0 ∧ p.os.next.isSome then 2 else 1)
            ++ (if i = 0 then ofNext NextOrder.ready ++ ofNext NextOrder.needsSwap else opt32 none ++ opt32 none)) (popRequest p)) ∧
        (page = 1 ∨ page = 2 → exec .readOrder s = Answered s r .state [] (popRequest p))) ∧
      (∀ x o, queuedAt p tag = none → regionOf p tag = some x → x.order = some o →
        (page = 0 → exec .readOrder s
          = Answered s r .ok (orderRecord o (if x.ended then 4 else 3) ++ opt32 none ++ opt32 none) (popRequest p)) ∧
        (page = 1 → exec .readOrder s = Answered s r .ok (page1 x o) (popRequest p)) ∧
        (page = 2 → exec .readOrder s = Answered s r .ok (x.culled.toList.flatMap w32) (popRequest p)))) ∧
    (∀ i, Asks p 42 [4, 4] [0, i] r →
      let total := p.os.queue.length
      (23 < i → exec .readQueue s = Answered s r .badArg [] (popRequest p)) ∧
      (i ≤ 23 → total ≤ i → exec .readQueue s = Answered s r .ok (w32 total ++ opt32 none) (popRequest p)) ∧
      (∀ o, i ≤ 23 → p.os.queue[i]? = some o → exec .readQueue s = Answered s r .ok
        (w32 total ++ orderRecord o (if i = 0 ∧ p.os.next.isSome then 2 else 1) ++ more i 1 total) (popRequest p))) ∧
    (∀ i, Asks p 42 [4, 4] [1, i] r →
      let items := (p.os.regions.drop i).take 2
      (5 < i → exec .readQueue s = Answered s r .badArg [] (popRequest p)) ∧
      (i ≤ 5 → exec .readQueue s = Answered s r .ok
        (w32 p.os.regions.length ++ items.flatMap summary ++ more i items.length p.os.regions.length) (popRequest p))) ∧
    (∀ n i, 1 < n → Asks p 42 [4, 4] [n, i] r → exec .readQueue s = Answered s r .badArg [] (popRequest p)) ∧
    (∀ c rest, Asks p 43 [] [] r → p.os.log = c :: rest →
      exec .readCompletion s = Answered s r .ok (completion c) { popRequest p with os := { p.os with log := rest } }) ∧
    (Asks p 43 [] [] r → p.os.log = [] → exec .readCompletion s = Answered s r .notFound [] (popRequest p))) ∧
  (∀ (p : Part) (x : Region) (rest : List Region), p.os.regions = x :: rest →
    (x.ended = false ∨ (∃ o, x.order = some o ∧ ∃ c ∈ p.sc.cuts, c.tag = o.tag) → completeRegions p = p) ∧
    (x.ended = true → (∀ o, x.order = some o → ∀ c ∈ p.sc.cuts, c.tag ≠ o.tag) →
      completeRegions p = commitCheck (completeRegions (lookupAll (completeFirst x rest p))))) ∧
  (∀ (p : Part) (x : Region) (rest : List Region),
    (x.order = none → completeFirst x rest p = setRegions p rest) ∧
    (∀ o stop, x.order = some o → x.stop = some stop →
      let t := completeFirst x rest p
      let record : Completion :=
        { tag := o.tag, stacked := x.stacked, goodSheets := x.stacked * o.outs, missing := x.missing, culled := x.culled,
          overrunCuts := x.stacked - o.cutsWanted, boardLength := stop - x.start, short := decide (x.stacked * o.outs < o.quantity),
          withdrawn := x.withdrawn, gradeLate := x.gradeLate, aborted := false }
      t.os.regions = rest
        ∧ t.os.log = (if p.os.log.length < 16 then p.os.log else p.os.log.tail) ++ [record]
        ∧ (16 ≤ p.os.log.length → (alarmOf t .completionLost).latch = true)
        ∧ (∀ i, place 32 o.slot = some i →
            let slot : RecipeSlot := { p.bc.slots.get i with refs := (p.bc.slots.get i).refs - 1 }
            t.bc = { p.bc with slots := upd p.bc.slots i slot })
        ∧ t.wt = p.wt ∧ t.sc = p.sc ∧ t.dec = p.dec ∧ t.os.queue = p.os.queue
        ∧ (let full := 16 ≤ p.os.log.length
           let q : Part := { dropRef o.slot (setRegions p rest) with
             os := { p.os with regions := rest, log := (if full then p.os.log.tail else p.os.log) ++ [record] } }
           t = postNotice (.orderDone o.tag record.short x.withdrawn x.gradeLate false) (if full then latch .completionLost q else q))))

/-! ## Reels and splices -/

/-- SET STAND in CONFIG clamps each setting to its range, stores all of them, and answers with the values stored; another stand is refused with BAD_ARG, with no other effect. -/
def Obligations.StandSettingsAreClamped : Prop :=
  ∀ (s : State) (r : Request) (n time speed reserve arming pre post margin : Nat), s.part.mu.mode = .config →
    Asks s.part 19 [4, 4, 4, 4, 4, 4, 4, 4] [n, time, speed, reserve, arming, pre, post, margin] r →
    (n < 1 ∨ 5 < n → exec .setStand s = Answered s r .badArg [] (popRequest s.part)) ∧
    ∀ i : Fin 5, place 5 n = some i → ∃ st : Stand,
      exec .setStand s = Answered s r .ok
        (w32 st.spliceTime ++ w32 st.maxSpeed ++ w32 st.reserve ++ w32 st.arming ++ w32 st.preCull ++ w32 st.postCull ++ w32 st.margin)
        (setStandRec (popRequest s.part) i st)
      ∧ st = { standOf s.part i with
                spliceTime := min 20000 (max 500 time), maxSpeed := min 100000 (max 5000 speed), reserve := min 5000000 reserve,
                arming := min 10000000 arming, preCull := min 50000 pre, postCull := min 50000 post, margin := min 1000000 margin }

/-- ASSIGN REEL of an arm that is not RUNNING, with values in range, a caliper and a core diameter that may be absent, replaces the arm's reel record and leaves its state; in RUN the stand's evaluation follows;
of a RUNNING arm it is refused with STATE, and with a stand, an arm, a presence field or a value out of range with BAD_ARG (the code is log 16), both with no change. A STAND_ARM report with a code outside its table, or arm states that do not fit the running arm named, latches BAD_SAMPLE; any other is taken, in either mode: the
arms take their states, EMPTY clearing a record that was not, the awaited report is in, and a change of the running arm empties the diameter history, the reckoning and the
exhausted flag, and gives the knife-side grade where the stand has no joint in the list. A diameter, clamped to 0 to 18,000, enters the history, which a change of the running arm or a stale input has
emptied, and R becomes the reckoning reference; R follows from the averaged diameter, the core and the caliper, and is reckoned down while the input is stale. A diameter in CONFIG, or of a stand that is not in use, is discarded.
A report tests each GO of the stand that still waits, in whatever splice state, and withdraws it when its own arm is no longer PREPARED; with that of the most recent number its transaction is closed, both limits are stopped and the
stand is IDLE (R95). That a GO of an earlier number is tested too, and that its withdrawal leaves the record and the state, are the model's choices (log 38); so is that the awaiting mark and the held GOs come before the grade check
(log 30), and that a reel id behind a presence field of 0 is left out of account (log 39). The reckoning goes by the position of the stand's own feeder, and by B for stand 5. -/
def Obligations.AssignReelAndReports : Prop :=
  (∀ (s : State) (r : Request) (n a present reel grade caliper core : Nat),
    Asks s.part 35 [4, 4, 4, 4, 4, 4, 4] [n, a, present, reel, grade, caliper, core] r →
    let absent := 4294967295
    let legal := (80 ≤ caliper ∧ caliper ≤ 800 ∨ caliper = absent) ∧ (800 ≤ core ∧ core ≤ 2500 ∨ core = absent) ∧ present ≤ 1 ∧ grade ≤ 65535
    (place 5 n = none ∨ armOf a = none ∨ ¬ legal → exec .assignReel s = Answered s r .badArg [] (popRequest s.part)) ∧
    (∀ (i : Fin 5) (w : Arm), place 5 n = some i → armOf a = some w → legal →
      let t := setStandRec (popRequest s.part) i ((standOf s.part i).setArm w
        { state := ((standOf s.part i).arm w).state, reel := if present = 1 then some reel else none, grade := grade,
          caliper := if caliper = absent then none else some caliper, core := if core = absent then none else some core })
      (((standOf s.part i).arm w).state ≠ .running →
        (s.part.mu.mode = .config → exec .assignReel s = Answered s r .ok [] t) ∧
        (s.part.mu.mode = .run → exec .assignReel s = Answered s r .ok [] (evalStand i t))) ∧
      (((standOf s.part i).arm w).state = .running → exec .assignReel s = Answered s r .state [] (popRequest s.part)))) ∧
  (∀ (p : Part) (s : Fin 5) (a b run : Nat),
    let fits (x y : ArmState) : Prop :=
      armStateOf a = some x ∧ armStateOf b = some y ∧
        ((run = 0 ∧ x ≠ .running ∧ y ≠ .running) ∨ (run = 1 ∧ x = .running ∧ y ≠ .running) ∨ (run = 2 ∧ y = .running ∧ x ≠ .running))
    (p.mu.mode = .run → standInUse p s = false → armSample s a b run p = p) ∧
    (p.mu.mode = .config ∨ standInUse p s = true →
      ((∀ x y, ¬ fits x y) → armSample s a b run p = latch .badSample p) ∧
      (∀ x y, fits x y →
        let st := standOf p s
        let told (z : ArmState) (r : ArmRecord) : ArmRecord := if z = .empty ∧ r.state ≠ .empty then ArmRecord.cleared else { r with state := z }
        let new : Stand := { st with armA := told x st.armA, armB := told y st.armB, awaiting := false }
        let rearmed : Stand :=
          { new with history := [], historyArm := none, reckon := none, exhausted := false,
                     g0 := if jointsOf p s = [] then new.runningGrade else st.g0 }
        (new.running = st.running → armSample s a b run p = evalStand s (testHeldGo s (setStandRec p s new))) ∧
        (new.running ≠ st.running → p.mu.mode = .run →
          armSample s a b run p = evalStand s (checkGrades s (testHeldGo s (setStandRec p s rearmed)))) ∧
        (new.running ≠ st.running → p.mu.mode = .config →
          armSample s a b run p = evalStand s (testHeldGo s (setStandRec p s rearmed)))))) ∧
  (∀ (p : Part) (s : Fin 5) (v : Int), p.mu.mode = .run → standInUse p s = true →
    let st := standOf p s
    let old := if st.staleSince = true ∨ st.historyArm ≠ st.running then [] else st.history
    let new : Stand :=
      { st with history := (if old.length < 8 then old else old.tail) ++ [(min 18000 (max 0 v)).toNat], historyArm := st.running, staleSince := false }
    diameterSample s v p = evalStand s (setStandRec p s
      { new with reckon := match new.remaining with | some x => some (x, standRef p s) | none => st.reckon })) ∧
  (∀ (st : Stand) (w : Arm) (core caliper : Nat), st.running = some w → (st.arm w).core = some core → (st.arm w).caliper = some caliper →
    (st.history = [] → st.remaining = none) ∧
    (st.history ≠ [] →
      let d := st.history.sum / st.history.length
      st.remaining = some (if d ≤ core then 0 else (d * d - core * core) * 7854 / (100 * caliper)))) ∧
  (∀ (p : Part) (s : Fin 5), (inputStale p (.standDia s) = false → effective p s = (standOf p s).remaining) ∧
    (inputStale p (.standDia s) = true → effective p s = (standOf p s).reckon.map (fun x => x.1 - (standRef p s - x.2)))) ∧
  (∀ (p : Part) (s : Fin 5),
    let st := standOf p s
    let lost (arm : Arm) : Bool := !decide ((st.arm arm).state = .prepared)
    let kept (w : Waiting) : Bool := match w.msg with | .command (.go x arm _) _ _ => !(decide (x = s) && lost arm) | _ => true
    let spoiled (g : GoRecord) : Prop :=
      st.recent = some g ∧ ∃ w ∈ p.rif.urgentWait, ∃ arm node ch, w.msg = .command (.go s arm g.seq) node ch ∧ (st.arm arm).state ≠ .prepared
    let q : Part := { p with rif := { p.rif with urgentWait := p.rif.urgentWait.filter kept } }
    ((∀ g, ¬ spoiled g) → testHeldGo s p = q) ∧
    (∀ g, spoiled g →
      testHeldGo s p = setStandRec q s { st with splice := .idle, recent := some { g with isOpen := false }, acceptBy := none, doneBy := none })) ∧
  (∀ (p : Part) (s : Fin 5) (v : Int), p.mu.mode = .config ∨ standInUse p s = false → diameterSample s v p = p) ∧
  (∀ (p : Part) (s : Fin 5), standInUse p s = true ↔ p.wt.line = .double ∨ s = 0 ∨ s = 1 ∨ s = 4) ∧
  (∀ (p : Part) (s : Fin 5), standRef p s = if s = 0 ∨ s = 1 then posF p 0 else if s = 2 ∨ s = 3 then posF p 1 else posB p)

/-- The run-out standing by the effective remaining length against reserve, lead and arming distance. -/
def Obligations.RunOutStanding : Prop :=
  ∀ (p : Part) (s : Fin 5),
    let st := standOf p s
    (1000 * lead p s ≥ standSpeed p s * st.spliceTime ∧ 1000 * lead p s < standSpeed p s * st.spliceTime + 1000) ∧
    (effective p s = none → standing p s = .unknown) ∧
    (∀ x, effective p s = some x →
      (standing p s = .far ↔ st.reserve + lead p s + st.arming < x) ∧
      (standing p s = .near ↔ st.reserve + lead p s < x ∧ x ≤ st.reserve + lead p s + st.arming) ∧
      (standing p s = .due ↔ x ≤ st.reserve + lead p s))

/-- A GO names an arm only while the stand is IDLE or ARMED and awaits no report: the ready arm, PREPARED, opposite to the running one. A stand evaluation that leaves the stand SENT where it
was not has posted a GO to that arm, and only while the run-out is DUE, or a plan that is not hopeless has reached its trigger and the arm holds its grade. A posted GO takes the next
sequence number and the arm's grade, and is on its way where the splicer has an OUT entry. The SPLICE contribution is the crawl speed while the run-out is DUE with nothing in flight, no
report awaited and no prepared ready arm; else the splice's greatest speed while the run-out is NEAR or DUE, a plan is near, a splice is in flight or a report awaited; else none. At a commitment for an order whose
grade the web of a stand in use does not have at the region's start, a plan is armed for that grade, its joint the stand's margin before the start, and the stand evaluated; where one is held, GRADE_NOT_READY is
latched and the region marked grade-late; else nothing happens. An evaluation, of a stand in use in RUN, latches REEL_EXHAUSTED the first time nothing remains; cancels a hopeless plan, one whose region has left the list or
is committed to an end the stand has reached, with GRADE_NOT_READY latched and the region grade-late, and then goes on without a plan (log 24); tests the trigger, reached once the stand's point and lead are at the plan's joint; decides on a GO, planned or for the
run-out, with SPLICE_NOT_READY latched where the trigger is first reached and no planned GO can be posted, before a run-out GO and before the contribution by the model's choice (log 33); makes the stand ARMED or IDLE while no GO is in flight; and writes the contribution. The stand's point is
its feeder's position with its offset and K, and its speed the feeder's; for stand 5 they are the board's. -/
def Obligations.GoOnlyToPreparedReadyArm : Prop :=
  (∀ (p : Part) (s : Fin 5),
    let on (f : Fin 2) : Prop := standPoint p s = ((posF p f : Int) + offset p (.stand s) + bridgeK p f).toNat ∧ standSpeed p s = (p.wt.feeders.get f).speed
    (s = 0 ∨ s = 1 → on 0) ∧ (s = 2 ∨ s = 3 → on 1) ∧
    (s = 4 → standPoint p s = posB p + offset p (.stand 4) ∧ standSpeed p s = lineSpeed p)) ∧
  (∀ (st : Stand) (w : Arm), goArm st = some w ↔
    (st.splice = .idle ∨ st.splice = .armed) ∧ st.awaiting = false ∧ (∃ v, st.running = some v ∧ w = v.other)
      ∧ (st.arm w).state = .prepared) ∧
  (∀ (p : Part) (s : Fin 5), (standOf p s).splice ≠ .sent → (standOf (evalStand s p) s).splice = .sent →
    let st := standOf p s
    ∃ w, goArm st = some w
      ∧ (standOf (evalStand s p) s).recent = some { seq := st.nextSeq, arm := w, grade := (st.arm w).grade, isOpen := true }
      ∧ (standing p s = .due ∨ ∃ pl, st.plan = some pl ∧ hopeless p s pl = false ∧ (st.arm w).grade = pl.grade
          ∧ (pl.reached = true ∨ pl.target ≤ standPoint p s + lead p s))) ∧
  (∀ (p : Part) (s : Fin 5) (w : Arm),
    let st := standOf p s
    let t := postGo s w p
    (∃ limit, standOf t s = { st with splice := .sent, nextSeq := st.nextSeq + 1, acceptBy := limit, doneBy := none,
                                      recent := some { seq := st.nextSeq, arm := w, grade := (st.arm w).grade, isOpen := true } }) ∧
    (∀ e, outEntry p (.splicer s) = some e → OnItsWay t (.command (.go s w st.nextSeq) e.node e.channel)) ∧
    (outEntry p (.splicer s) = none → (standOf t s).acceptBy = some (p.time + 200) ∧ t.rif = p.rif)) ∧
  (∀ (p : Part) (s : Fin 5),
    let st := standOf p s
    let inFlight := st.splice = .sent ∨ st.splice = .active
    let prepared := ∃ v, st.running = some v ∧ (st.arm v.other).state = .prepared
    let crawls := standing p s = .due ∧ ¬ inFlight ∧ st.awaiting = false ∧ ¬ prepared
    let planIsNear := ∃ pl, st.plan = some pl ∧ (pl.reached = true ∨ pl.target ≤ standPoint p s + lead p s + st.arming)
    let holds := standing p s = .near ∨ standing p s = .due ∨ planIsNear ∨ inFlight ∨ st.awaiting = true
    let slot := (writeSplice s p).sg.slots.get (Slot.splice s).idx
    (crawls → slot = { active := true, value := min p.sg.crawl p.sg.lineMax }
      ∧ (st.crawling = false → (alarmOf (writeSplice s p) .spliceNotReady).latch = true)) ∧
    (¬ crawls → holds → slot = { active := true, value := min st.maxSpeed p.sg.lineMax }) ∧
    (¬ crawls → ¬ holds → slot = { active := false, value := 0 })) ∧
  (∀ (p : Part) (s : Fin 5) (o : Order) (start : Nat),
    let st := standOf p s
    let need := o.grades.get s
    let off := need ≠ 0 ∧ webGrade p s start ≠ need ∧ standInUse p s = true
    let plan : Plan := { grade := need, tag := o.tag, target := start - st.margin, reached := false }
    (¬ off → armPlan s o start p = p) ∧
    (off → st.plan = none → armPlan s o start p = evalStand s (setStandRec p s { st with plan := some plan })) ∧
    (off → st.plan.isSome → armPlan s o start p = setGradeLate o.tag (latch .gradeNotReady p))) ∧
  (∀ (p : Part) (tag : Nat), setGradeLate tag p
    = setRegions p (p.os.regions.map (fun x => if x.order.map Order.tag = some tag then { x with gradeLate := true } else x))) ∧
  (∀ (p : Part) (s : Fin 5),
    let t := testTrigger s (testHopeless s (testExhausted s p))
    (p.mu.mode = .run → standInUse p s = true → evalStand s p = writeSplice s (settleSplice s (decideGo s t.2 t.1))) ∧
    (p.mu.mode = .config ∨ standInUse p s = false → evalStand s p = p)) ∧
  (∀ (p : Part) (s : Fin 5),
    let st := standOf p s
    let exhausted := effective p s = some 0 ∧ st.exhausted = false
    (exhausted → testExhausted s p = latch .reelExhausted (setStandRec p s { st with exhausted := true })) ∧
    (¬ exhausted → testExhausted s p = p)) ∧
  (∀ (p : Part) (s : Fin 5),
    let st := standOf p s
    let ofPlan (pl : Plan) (x : Region) : Prop := x.order.map Order.tag = some pl.tag
    let late (pl : Plan) : Prop := (∀ x ∈ p.os.regions, ¬ ofPlan pl x) ∨
      ∃ before x after e, p.os.regions = before ++ x :: after ∧ (∀ y ∈ before, ¬ ofPlan pl y) ∧ ofPlan pl x ∧ x.stop = some e ∧ e ≤ standPoint p s
    (st.plan = none → testHopeless s p = p ∧ testTrigger s p = (p, false)) ∧
    (∀ pl, st.plan = some pl →
      (hopeless p s pl = true ↔ late pl) ∧
      (late pl → testHopeless s p = latch .gradeNotReady (setGradeLate pl.tag (setStandRec p s { st with plan := none }))) ∧
      (¬ late pl → testHopeless s p = p) ∧
      (pl.reached = false → pl.target ≤ standPoint p s + lead p s →
        testTrigger s p = (setStandRec p s { st with plan := some { pl with reached := true } }, true)) ∧
      (pl.reached = true ∨ standPoint p s + lead p s < pl.target → testTrigger s p = (p, false)))) ∧
  (∀ (p : Part) (s : Fin 5) (first : Bool),
    let st := standOf p s
    let q := if first = true then latch .spliceNotReady p else p
    let planned (w : Arm) : Prop := ∃ pl, st.plan = some pl ∧ pl.reached = true ∧ (st.arm w).grade = pl.grade
    (goArm st = none → decideGo s first p = q) ∧
    (∀ w, goArm st = some w →
      (planned w → decideGo s first p = postGo s w p) ∧
      (¬ planned w → standing p s = .due → decideGo s first p = postGo s w q) ∧
      (¬ planned w → standing p s ≠ .due → decideGo s first p = q))) ∧
  (∀ (p : Part) (s : Fin 5),
    let st := standOf p s
    let close := standing p s = .near ∨ standing p s = .due ∨ st.plan.isSome
    (st.splice = .idle ∨ st.splice = .armed →
      (close → settleSplice s p = setStandRec p s { st with splice := .armed }) ∧
      (¬ close → settleSplice s p = setStandRec p s { st with splice := .idle })) ∧
    (st.splice = .sent ∨ st.splice = .active → settleSplice s p = p))

/-- The two splice limits: an ACCEPTED limit that is due in SENT, and a DONE limit that is due in ACTIVE, post ABORT for the GO's number, return the stand to IDLE with both
limits stopped and the transaction as it was, latch SPLICE_TIMEOUT, and the stand's evaluation follows. A splicer's report counts only for the open transaction of its sequence number.
ACCEPTED in SENT makes the splice ACTIVE with a DONE limit of twice the splice time; ABORTED and FAULT close the transaction, and end a splice in flight with SPLICE_FAULT latched, or, where
the web broke, with WEB_BREAK latched and its contribution at 0; DONE closes the transaction, enters the joint with its cull zone, counts the splice, awaits a report, tests the plan, and has the
grades checked and the stand evaluated; a plan of another grade stays, and one of the joint's grade is satisfied and leaves, its region grade-late where the joint lies at or beyond the region's start. That the splice
is counted once OS has the joint, and that WEB_BREAK is latched before its contribution, are the model's choices (log 33), and so is that a report leaves a GO of its number that still waits where it is (log 38). That a limit is due once the part time is at it (log 11), and that a code outside the table latches BAD_SAMPLE whatever its number and in either mode
(log 15), are the model's readings. In RUN a report of a stand that is not in use is discarded. -/
def Obligations.SpliceTimeoutsAbort : Prop :=
  (∀ (s : State) (n : Nat) (i : Fin 5) (g : GoRecord) (d : Nat), place 5 n = some i → (standOf s.part i).recent = some g → d ≤ s.part.time →
    let q := (postSequence (.abort i g.seq) s.part).1
    let t := evalStand i (latch .spliceTimeout
      (setStandRec q i { standOf q i with splice := .idle, acceptBy := none, doneBy := none }))
    ((standOf s.part i).splice = .sent → (standOf s.part i).acceptBy = some d →
      exec (.acceptedTimeout n) s = .next { s with part := t }) ∧
    ((standOf s.part i).splice = .active → (standOf s.part i).doneBy = some d →
      exec (.doneTimeout n) s = .next { s with part := t })) ∧
  (∀ (p : Part) (s : Fin 5) (code seq : Nat), p.mu.mode = .config ∨ standInUse p s = true →
    (code < 1 ∨ 6 < code → splicerSample s code seq p = latch .badSample p) ∧
    (1 ≤ code → code ≤ 6 →
      ((∀ g, (standOf p s).recent = some g → g.isOpen = true → seq ≠ g.seq.toNat) → splicerSample s code seq p = p) ∧
      (∀ g, (standOf p s).recent = some g → g.isOpen = true → seq = g.seq.toNat →
        let st := standOf p s
        let closed : Stand := { st with recent := some { g with isOpen := false }, acceptBy := none, doneBy := none }
        let dropped := setStandRec p s { closed with splice := .idle }
        let inFlight := st.splice = .sent ∨ st.splice = .active
        (code = 1 → st.splice = .sent → splicerSample s code seq p
          = setStandRec p s { st with splice := .active, acceptBy := none, doneBy := some (p.time + 2 * st.spliceTime) }) ∧
        (code = 1 → st.splice ≠ .sent → splicerSample s code seq p = p) ∧
        (code = 2 →
          let p1 := withdrawAbort s g.seq (setStandRec p s closed)
          let j := jointEntry p1 s g.grade
          let i := insertOrCover (standFeeder s) j.2 p1
          let p2 := raise (.splices s) 1 (handOver i.2.2 i.1)
          splicerSample s code seq p = evalStand s (checkGrades s (satisfyPlan s g.grade j.1
            (setStandRec p2 s { standOf p2 s with awaiting := true, splice := .idle })))) ∧
        (code = 3 → inFlight → splicerSample s code seq p = evalStand s (latch .spliceFault dropped)) ∧
        (code = 3 → ¬ inFlight → splicerSample s code seq p = withdrawAbort s g.seq (setStandRec p s closed)) ∧
        (code = 4 ∨ code = 6 → inFlight → splicerSample s code seq p = evalStand s (latch .spliceFault dropped)) ∧
        (code = 4 ∨ code = 6 → ¬ inFlight → splicerSample s code seq p = setStandRec p s closed) ∧
        (code = 5 → inFlight → splicerSample s code seq p = evalStand s (activate .webBreak 0 (latch .webBreak dropped))) ∧
        (code = 5 → ¬ inFlight →
          splicerSample s code seq p = activate .webBreak 0 (latch .webBreak (setStandRec p s closed)))))) ∧
  (∀ (p : Part) (s : Fin 5) (grade : Nat),
    let st := standOf p s
    let e := (jointEntry p s grade).2
    e.kind = .spliceJoint s grade ∧ e.cull = true ∧ e.origin = .stand s ∧
    (∀ f, standFeeder s = some f →
      let x : Int := (posF p f : Int) + offset p (.stand s)
      (jointEntry p s grade).1 = coord (x + bridgeK p f) ∧ e.start = coord (x - st.preCull + bridgeK p f)
        ∧ e.extent = some (st.preCull + st.postCull - (-(x - st.preCull + bridgeK p f)).toNat)
        ∧ e.binding = some { feeder := f, start := x - st.preCull, bound := false, web := some (st.preCull + st.postCull) }) ∧
    (standFeeder s = none →
      let x := posB p + offset p (.stand s)
      (jointEntry p s grade).1 = x ∧ e.start = x - st.preCull ∧ e.extent = some (st.preCull + st.postCull - (st.preCull - x))
        ∧ e.binding = none)) ∧
  (∀ (p : Part) (s : Fin 5) (grade j : Nat),
    let st := standOf p s
    let q := setStandRec p s { st with plan := none }
    ((∀ pl, st.plan = some pl → pl.grade ≠ grade) → satisfyPlan s grade j p = p) ∧
    (∀ pl, st.plan = some pl → pl.grade = grade →
      (∀ x, regionOf p pl.tag = some x → x.start ≤ j → satisfyPlan s grade j p = setGradeLate pl.tag q) ∧
      ((∀ x, regionOf p pl.tag = some x → j < x.start) → satisfyPlan s grade j p = q))) ∧
  (∀ (p : Part) (s : Fin 5) (code seq : Nat), p.mu.mode = .run → standInUse p s = false → splicerSample s code seq p = p)

/-! ## Glue and heat -/

/-- LOAD RECIPE into an EMPTY slot, with fields of 16 bits (the packed layout is the model's, log 7) or of 32, of a recipe in range whose breakpoint speeds rise: the slot is LOADED with reference
count 0; a recipe that is not is refused with BAD_ARG, and a LOADED slot with SLOT_LOADED. ERASE RECIPE of a LOADED slot without references: the slot is EMPTY, an acting or requested
recipe of a unit that is the slot becomes absent, and any other stays; each zone, by number (log 32), then sets its state where its requested recipe was the slot, and writes HEAT where its acting one was; a referenced slot is refused with IN_USE, an EMPTY one with NOT_FOUND. READ RECIPE answers a slot's state and reference count, a LOADED one's contents, and of either the set
of units whose acting and the set of those whose requested recipe is the slot (its layout is the model's, log 7). Each is refused with BAD_ARG for a slot outside 1 to 32. All three in either mode. The 42 fields are, in this order, the base gaps and slopes of the glue units, the
glue tolerance, the four speeds and wraps of each wrap, the zones' targets, the zone tolerance, the derate and the max speed; packed fields are read back as they were sent. -/
def Obligations.RecipeSlotRequests : Prop :=
  (∀ (s : State) (r : Request) (n : Nat) (i : Fin 32), place 32 n = some i →
    (∀ w fs, w = 2 ∨ w = 4 → Asks s.part 32 (4 :: List.replicate 42 w) (n :: fs) r →
      let x := recipeOf (decide (w = 2)) fs
      ((s.part.bc.slots.get i).recipe = none → x.inRange = true → x.rising = true →
        exec .loadRecipe s = Answered s r .ok [] (setSlot (popRequest s.part) i { recipe := some x, refs := 0 })) ∧
      ((s.part.bc.slots.get i).recipe = none → x.inRange = false ∨ x.rising = false →
        exec .loadRecipe s = Answered s r .badArg [] (popRequest s.part)) ∧
      ((s.part.bc.slots.get i).recipe.isSome → exec .loadRecipe s = Answered s r .slotLoaded [] (popRequest s.part))) ∧
    (Asks s.part 33 [4] [n] r →
      ((s.part.bc.slots.get i).recipe = none → exec .eraseRecipe s = Answered s r .notFound [] (popRequest s.part)) ∧
      ((s.part.bc.slots.get i).recipe.isSome → 0 < (s.part.bc.slots.get i).refs →
        exec .eraseRecipe s = Answered s r .inUse [] (popRequest s.part)) ∧
      ((s.part.bc.slots.get i).recipe.isSome → (s.part.bc.slots.get i).refs = 0 →
        ∃ q : Part, exec .eraseRecipe s = Answered s r .ok [] q ∧ (q.bc.slots.get i).recipe = none
          ∧ (∀ j, j ≠ i → q.bc.slots.get j = s.part.bc.slots.get j)
          ∧ (let gone (x : Option Nat) : Option Nat := if x = some n then none else x
             let erased : Bc :=
               { s.part.bc with
                   slots := upd s.part.bc.slots i { recipe := none, refs := 0 },
                   glue := s.part.bc.glue.map (fun u => { u with acting := gone u.acting, requested := gone u.requested }),
                   wraps := s.part.bc.wraps.map (fun u => { u with acting := gone u.acting, requested := gone u.requested }) }
             let told (z : Fin 8) (q : Part) : Part :=
               let u := q.bc.zones.get z
               let t := setZone q z { u with acting := gone u.acting, requested := gone u.requested }
               let t1 := if u.requested = some n then setZone t z { t.bc.zones.get z with state := zoneState t z } else t
               if u.acting = some n then writeHeat z t1 else t1
             (∀ g, q.bc.glue.get g = erased.glue.get g) ∧ (∀ w, q.bc.wraps.get w = erased.wraps.get w)
               ∧ (∀ z, (q.bc.zones.get z).acting = gone (s.part.bc.zones.get z).acting
                    ∧ (q.bc.zones.get z).requested = gone (s.part.bc.zones.get z).requested)
               ∧ q = (List.finRange 8).foldl (fun x z => told z x) { popRequest s.part with bc := erased })
          ∧ q.wt = s.part.wt ∧ q.os = s.part.os)) ∧
    (Asks s.part 34 [4] [n] r →
      let acting := w32 (bitsOf ((unitRecipes true s.part).map (fun u => decide (u = some n))))
      let requested := w32 (bitsOf ((unitRecipes false s.part).map (fun u => decide (u = some n))))
      ((s.part.bc.slots.get i).recipe = none →
        exec .readRecipe s = Answered s r .ok (w32 0 ++ w32 (s.part.bc.slots.get i).refs ++ acting ++ requested) (popRequest s.part)) ∧
      (∀ x, (s.part.bc.slots.get i).recipe = some x →
        exec .readRecipe s = Answered s r .ok
          (w32 1 ++ w32 (s.part.bc.slots.get i).refs ++ x.bytes ++ acting ++ requested) (popRequest s.part)))) ∧
  (∀ (s : State) (r : Request) (n : Nat), n < 1 ∨ 32 < n →
    (∀ w fs, w = 2 ∨ w = 4 → Asks s.part 32 (4 :: List.replicate 42 w) (n :: fs) r →
      exec .loadRecipe s = Answered s r .badArg [] (popRequest s.part)) ∧
    (Asks s.part 33 [4] [n] r → exec .eraseRecipe s = Answered s r .badArg [] (popRequest s.part)) ∧
    (Asks s.part 34 [4] [n] r → exec .readRecipe s = Answered s r .badArg [] (popRequest s.part))) ∧
  (∀ x : Recipe,
    (x.inRange = true ↔ (∀ g, 50 ≤ x.baseGap.get g ∧ x.baseGap.get g ≤ 1000) ∧ (∀ g, -500 ≤ x.slope.get g ∧ x.slope.get g ≤ 500)
      ∧ 1 ≤ x.glueTol ∧ x.glueTol ≤ 500 ∧ (∀ w k, ((x.wraps.get w).get k).1 ≤ 600 ∧ ((x.wraps.get w).get k).2 ≤ 1000)
      ∧ (∀ z, x.zoneTarget.get z ≤ 3000) ∧ 1 ≤ x.zoneTol ∧ x.zoneTol ≤ 500 ∧ x.derate ≤ 10000 ∧ 10 ≤ x.maxSpeed ∧ x.maxSpeed ≤ 600) ∧
    (x.rising = true ↔ ∀ (w : Fin 3) (k : Fin 3), ((x.wraps.get w).get k.castSucc).1 < ((x.wraps.get w).get k.succ).1)) ∧
  (∀ (packed : Bool) (fs : List Nat),
    let f (k : Nat) : Nat := fs.getD k 0
    let x := recipeOf packed fs
    (∀ g : Fin 3, x.baseGap.get g = f g ∧ x.slope.get g = signedOf (if packed then 2 else 4) (f (3 + g))) ∧ x.glueTol = f 6 ∧
    (∀ (w : Fin 3) (k : Fin 4), (x.wraps.get w).get k = (f (7 + 8 * w + 2 * k), f (8 + 8 * w + 2 * k))) ∧
    (∀ z : Fin 8, x.zoneTarget.get z = f (31 + z)) ∧ x.zoneTol = f 39 ∧ x.derate = f 40 ∧ x.maxSpeed = f 41) ∧
  (∀ fs : List Nat, fs.length = 42 → (recipeOf true fs).bytes = fs.flatMap (bytesOf 2))

/-- The gap BC computes for a glue unit with a requested recipe: base plus slope times the speed in m/min over 100, rounded down, raised to the unit's minimum and lowered to
its maximum; it is posted where it differs from the last posted one, and is then the last posted one and the test setpoint, with the recipe's tolerance, and the settle deadline starts; a settle
time of 0 has passed at once (log 11). -/
def Obligations.GlueGapIsClampedLine : Prop :=
  ∀ (p : Part) (g : Fin 3) (r : Recipe), recipeIn p (p.bc.glue.get g).requested = some r →
    let v : Nat := lineSpeed p * 6 / 1000
    let u := p.bc.glue.get g
    ∃ gap : Nat,
      (gap : Int) = min (p.bc.maxGap.get g : Int) (max (p.bc.minGap.get g : Int) ((r.baseGap.get g : Int) + r.slope.get g * (v : Int) / 100))
        ∧ (u.last = some gap → computeGlue g p = p)
        ∧ (u.last ≠ some gap → computeGlue g p = postSetpoint (.glueSet g gap) (setGlue p g
            { u with last := some gap, testSet := some gap, testTol := some r.glueTol,
                     settleBy := if p.bc.settleTime = 0 then none else some (p.time + p.bc.settleTime) }))

/-- The wrap BC computes from four breakpoints of rising speed: the first wrap below the first speed, the last from the last on, and between two the line between
them, rounded down; it is posted where it differs from the last posted one, and is the last posted one afterwards. -/
def Obligations.WrapFollowsBreakpoints : Prop :=
  ∀ (p : Part) (w : Fin 3) (r : Recipe), recipeIn p (p.bc.wraps.get w).requested = some r →
    let bp := r.wraps.get w
    let v : Nat := lineSpeed p * 6 / 1000
    let u := p.bc.wraps.get w
    (∀ i : Fin 3, (bp.get i.castSucc).1 < (bp.get i.succ).1) →
    ∃ x : Nat,
      (v < (bp.get 0).1 → x = (bp.get 0).2) ∧ ((bp.get 3).1 ≤ v → x = (bp.get 3).2) ∧
      (∀ i : Fin 3, (bp.get i.castSucc).1 ≤ v → v < (bp.get i.succ).1 →
        (x : Int) = (bp.get i.castSucc).2
          + (((bp.get i.succ).2 : Int) - (bp.get i.castSucc).2) * ((v : Int) - (bp.get i.castSucc).1)
            / (((bp.get i.succ).1 : Int) - (bp.get i.castSucc).1)) ∧
      (u.last = some x → computeWrap w p = p) ∧
      (u.last ≠ some x → computeWrap w p = postSetpoint (.wrapSet w x) (setWrap p w { u with last := some x }))

/-- The settle deadline of a glue unit passes once the part time is at it (log 11), and nothing else changes. In RUN a measured gap is tested once a setpoint has been posted and the deadline has passed: beyond the
tolerance a deviation begins, with GLUE_DEVIATION latched and an open BOND entry where there is a place; within it a deviation ends, and the unit's entry is let go, closed with the travel of the unit's
reference since the zone opened, F less the feeder start for glue units 1 and 2, and B less the position at the opening for unit 3. The entry that a deviation of glue unit 1 or 2 opens is unbound, with the
feeder position as its feeder start, and that of unit 3 is a board entry, with B kept as the opening position. A lookup finds the recipe slot of the ORDER region that
contains the point, and otherwise keeps what was. In RUN, a glue unit in use takes both recipes at its station point, and computes its gap where they change; a wrap, and a zone in use, take the acting recipe at the station
point and the requested one at the point ahead of it by the transition lead, and compute the wrap, or the target, where the requested one changes; a zone then sets its state, and writes HEAT where the acting one changes.
A lookup of every unit takes the glue units, the wraps and the zones, each by number; that order, and the target before HEAT, are the model's choices (log 30). The target is posted where it differs from the last posted one. A zone is STALE, SETTLED, TRACKING or UNSET by its input, its average and its requested recipe; its HEAT contribution is the crawl speed
while its input is stale, and by a deficit the derated greatest speed of the acting recipe, with ZONE_DEFICIENT latched as a deficit begins. A temperature of a zone in use in RUN enters its history of eight, of which the oldest gives way, emptied first where the input has been stale since; then state
and HEAT follow. A gap or temperature in CONFIG, or of a unit not in use, is discarded. -/
def Obligations.GlueSettlePasses : Prop :=
  (∀ (s : State) (n : Nat) (g : Fin 3) (d : Nat), place 3 n = some g → (s.part.bc.glue.get g).settleBy = some d → d ≤ s.part.time →
    exec (.glueSettleExpiry n) s
      = .next { s with part := setGlue s.part g { s.part.bc.glue.get g with settleBy := none } }) ∧
  (∀ (p : Part) (g : Fin 3) (gap : Int), p.mu.mode = .run → (g ≠ 1 ∨ p.wt.line = .double) →
    let u := p.bc.glue.get g
    let t := glueSample g gap p
    (u.settleBy.isSome ∨ u.testSet = none ∨ u.testTol = none → t = (p, [])) ∧
    (∀ x tol, u.settleBy = none → u.testSet = some x → u.testTol = some tol →
      (tol < (gap - x).natAbs → u.deviation = true → t = (p, [])) ∧
      ((gap - x).natAbs ≤ tol → u.deviation = false → t = (p, [])) ∧
      (tol < (gap - x).natAbs → u.deviation = false →
        (t.1.bc.glue.get g).deviation = true ∧ (alarmOf t.1 .glueDeviation).latch = true ∧
        (p.wt.track.length < 64 → dbmCount p < 40 → ∃ e ∈ t.1.wt.track, (t.1.bc.glue.get g).entry = some e.id ∧ e.kind = .bond
          ∧ e.extent = none ∧ e.cull = true ∧ e.origin = .glue g
          ∧ e.start = (if g = 0 then coord (posF p 0 + bridgeK p 0) else if g = 1 then coord (posF p 1 + bridgeK p 1) else posB p + offset p (.glue 2))
          ∧ (∀ f : Fin 2, g.val = f.val → e.binding = some { feeder := f, start := posF p f, bound := false, web := none })
          ∧ (g = 2 → e.binding = none ∧ (t.1.bc.glue.get g).openedAt = posB p)
          ∧ t.2 = [{ before := none, after := some { start := e.start, extent := none }, cull := true }]) ∧
        (p.wt.track.length = 64 ∨ dbmCount p = 40 →
          t.1.wt = p.wt ∧ (t.1.bc.glue.get g).entry = none ∧ (alarmOf t.1 .trackOverflow).latch = true)) ∧
      ((gap - x).natAbs ≤ tol → u.deviation = true →
        (t.1.bc.glue.get g).deviation = false ∧ (t.1.bc.glue.get g).entry = none ∧ (u.entry = none → t.1.wt = p.wt ∧ t.2 = []) ∧
        (∀ id, u.entry = some id → t = closeZone id (glueTravel p g) (setGlue p g { u with deviation := false, entry := none }))))) ∧
  (∀ p : Part,
    (∀ (g : Fin 3) (f : Fin 2) (id : Nat) (e : TrackEntry) (b : Binding), g.val = f.val → (p.bc.glue.get g).entry = some id →
      entryById p id = some e → e.binding = some b → glueTravel p g = ((posF p f : Int) - b.start).toNat) ∧
    glueTravel p 2 = posB p - (p.bc.glue.get 2).openedAt) ∧
  (∀ (p : Part) (x : Nat) (old : Option Nat),
    let holds (r : Region) : Prop := r.start ≤ x ∧ ∀ e, r.stop = some e → x < e
    ((∀ r ∈ p.os.regions, ¬ holds r) → lookupAt p x old = old) ∧
    (∀ before r after, p.os.regions = before ++ r :: after → (∀ q ∈ before, ¬ holds q) → holds r →
      (∀ o, r.order = some o → lookupAt p x old = some o.slot) ∧ (r.order = none → lookupAt p x old = old))) ∧
  (∀ (p : Part) (g : Fin 3),
    let u := p.bc.glue.get g
    let x : Nat := if g = 0 then (posF p 0 + bridgeK p 0).toNat else if g = 1 then (posF p 1 + bridgeK p 1).toNat else posB p + offset p (.glue 2)
    let found := lookupAt p x u.requested
    let q := setGlue p g { u with acting := found, requested := found }
    (p.mu.mode = .config ∨ (g = 1 ∧ p.wt.line = .single) → lookupGlue g p = p) ∧
    (p.mu.mode = .run → (g ≠ 1 ∨ p.wt.line = .double) → lookupGlue g p = if found = u.requested then q else computeGlue g q) ∧
    (recipeIn p u.requested = none → computeGlue g p = p)) ∧
  (∀ (p : Part) (w : Fin 3),
    let u := p.bc.wraps.get w
    let x := posB p + offset p (.wrap w)
    let ahead := lookupAt p (x + p.bc.wrapLead.get w) u.requested
    let q := setWrap p w { u with acting := lookupAt p x u.acting, requested := ahead }
    (p.mu.mode = .config → lookupWrap w p = p) ∧ (p.mu.mode = .run → lookupWrap w p = if ahead = u.requested then q else computeWrap w q) ∧
    (recipeIn p u.requested = none → computeWrap w p = p)) ∧
  (∀ (p : Part) (z : Fin 8),
    let u := p.bc.zones.get z
    let x := posB p + offset p (.zone z)
    let here := lookupAt p x u.acting
    let ahead := lookupAt p (x + p.bc.zoneLead.get z) u.requested
    let q := setZone p z { u with acting := here, requested := ahead }
    let stated (r : Part) : Part := setZone r z { r.bc.zones.get z with state := zoneState r z }
    let q1 := if ahead = u.requested then q else stated (computeZone z q)
    (p.mu.mode = .config ∨ p.bc.zoneCount ≤ z.val → lookupZone z p = p) ∧
    (p.mu.mode = .run → z.val < p.bc.zoneCount → lookupZone z p = if here = u.acting then q1 else writeHeat z q1) ∧
    (recipeIn p u.requested = none → computeZone z p = p) ∧
    (∀ r, recipeIn p u.requested = some r →
      let v := r.zoneTarget.get z
      computeZone z p = if u.last = some v then p else postSetpoint (.zoneSet z v) (setZone p z { u with last := some v }))) ∧
  (∀ p : Part, lookupAll p = (List.finRange 8).foldl (fun q z => lookupZone z q)
    ((List.finRange 3).foldl (fun q w => lookupWrap w q) ((List.finRange 3).foldl (fun q g => lookupGlue g q) p))) ∧
  (∀ (p : Part) (z : Fin 8),
    let u := p.bc.zones.get z
    let slot := (writeHeat z p).sg.slots.get (Slot.heat z).idx
    (inputStale p (.zoneTemp z) = true → zoneState p z = .stale) ∧
    (inputStale p (.zoneTemp z) = false → u.history = [] ∨ recipeIn p u.requested = none → zoneState p z = .unset) ∧
    (∀ r, inputStale p (.zoneTemp z) = false → u.history ≠ [] → recipeIn p u.requested = some r →
      zoneState p z
        = if (u.history.sum / u.history.length - r.zoneTarget.get z).natAbs ≤ r.zoneTol then .settled else .tracking) ∧
    (p.mu.mode = .run → z.val < p.bc.zoneCount →
      (inputStale p (.zoneTemp z) = true → slot = { active := true, value := min p.sg.crawl p.sg.lineMax }) ∧
      (inputStale p (.zoneTemp z) = false → u.history = [] ∨ recipeIn p u.acting = none → slot = { active := false, value := 0 }) ∧
      (∀ r, inputStale p (.zoneTemp z) = false → u.history ≠ [] → recipeIn p u.acting = some r →
        let short : Int := (r.zoneTarget.get z : Int) - r.zoneTol - u.history.sum / u.history.length
        (short ≤ 0 → slot = { active := false, value := 0 }) ∧
        (0 < short → slot.active = true
          ∧ (slot.value : Int)
              = min (p.sg.lineMax : Int) (max (p.sg.crawl : Int) ((r.maxSpeed * 10000 / 60 : Nat) - r.derate * short))
          ∧ (u.byDeficit = false → (alarmOf (writeHeat z p) .zoneDeficient).latch = true))))) ∧
  (∀ (p : Part) (z : Fin 8) (x : Int),
    let u := p.bc.zones.get z
    let old := if u.staleSince = true then [] else u.history
    let q := setZone p z { u with history := (if old.length < 8 then old else old.tail) ++ [x], staleSince := false }
    (p.mu.mode = .config ∨ p.bc.zoneCount ≤ z.val → zoneTempSample z x p = p) ∧
    (p.mu.mode = .run → z.val < p.bc.zoneCount →
      zoneTempSample z x p = writeHeat z (setZone q z { q.bc.zones.get z with state := zoneState q z }))) ∧
  (∀ (p : Part) (g : Fin 3) (gap : Int), p.mu.mode = .config ∨ (g = 1 ∧ p.wt.line = .single) → glueSample g gap p = (p, []))

/-! ## Slitter, knife, cull -/

/-- A cut is good when no cause of the table applies, and of the causes that apply the first culls it. A cut is attributed to the first region whose numbers contain its own; a culled one raises
the region's count and the live counter of its cause and has DIVERT on its way with its number, or discarded with DIVERT_LOST latched while 16 of them wait; a good one is handed to SC; and the
marks its span meets are noticed, with whether it was culled, in list order, and those below its end removed, with a commitment check where a place is freed and a cut has been reported before
(log 12). A waiting CHANGE LENGTH whose cut the report reaches latches KNIFE_COMMAND_LATE and is marked, once. The committed regions whose last cut a cut reaches and that are not ENDED become ENDED; then SC is told of each
of them that is an ORDER region, in list order; then OS tests for completion: an order among the three that is the model's choice (log 30), as is that a culled cut's counts rise before DIVERT is posted (log 33). -/
def Obligations.CullCauseIsFirstThatApplies : Prop :=
  (∀ (p : Part) (r : Region) (c : Cut),
    let noOrder := r.order = none
    let untracked := c.measured = none
    let registration := c.moved = true
    let length := ∃ m, c.measured = some m ∧ p.dec.lengthTol < ((m : Int) - r.length).natAbs
    let inside (b : Nat) := c.start + p.dec.straddleTol < b ∧ b + p.dec.straddleTol < c.stop
    let straddle := inside r.start ∨ ∃ e, r.stop = some e ∧ inside e
    let meets (k : EntryKind → Prop) := ∃ e ∈ p.wt.track, e.cull = true ∧ k e.kind ∧ e.zone.meets c.start c.stop = true
    let causes : List (Prop × Cause) :=
      [(noOrder, .noOrder), (untracked, .untracked), (registration, .registration), (length, .length), (straddle, .straddle),
       (meets (fun k => k = .swapZone), .swap), (meets (fun k => ∃ s g, k = .spliceJoint s g), .splice),
       (meets (fun k => ∃ s t, k = .offGrade s t), .offGrade), (meets (fun k => k = .bond), .bond),
       (meets (fun k => k = .defect), .defect), (meets (fun k => ∃ n, k = .mark n), .mark)]
    (cullCause p r c = none ↔ ∀ x ∈ causes, ¬ x.1) ∧
    (∀ w, cullCause p r c = some w →
      ∃ before x after, causes = before ++ x :: after ∧ x.2 = w ∧ x.1 ∧ ∀ y ∈ before, ¬ y.1)) ∧
  (∀ (p : Part) (c : Cut),
    let contains (r : Region) : Prop := ∃ a, r.first = some a ∧ a ≤ c.number ∧ ∀ l, r.last = some l → c.number ≤ l
    let up (n : Nat) : Nat := min (2 ^ 32 - 1) (n + 1)
    ((∀ r ∈ p.os.regions, ¬ contains r) → takeCut c p = endRegions c.number (handleMarks c false p)) ∧
    (∀ before r after, p.os.regions = before ++ r :: after → (∀ x ∈ before, ¬ contains x) → contains r →
      let counted : Region := { r with attributed := up r.attributed }
      (∀ w, cullCause p r c = some w →
        let culled : Region := { counted with culled := upd r.culled w.idx (up (r.culled.get w.idx)) }
        takeCut c p = endRegions c.number (handleMarks c true
          (postDivert c.number (raise (.culled w) 1 (setRegions p (before ++ culled :: after)))))) ∧
      (∀ o, cullCause p r c = none → r.order = some o →
        let t := takeGood c.number r o (setRegions p (before ++ counted :: after))
        takeCut c p = endRegions c.number (handleMarks c t.2 t.1)))) ∧
  (∀ (p : Part) (n : Nat),
    (∀ e, outEntry p .rejectGate = some e →
      ((divertList p).length < 16 → OnItsWay (postDivert n p) (.command (.divert n) e.node e.channel)) ∧
      (16 ≤ (divertList p).length → postDivert n p = latch .divertLost p)) ∧
    (outEntry p .rejectGate = none → postDivert n p = p)) ∧
  (∀ (p : Part) (c : Cut) (culled : Bool),
    let isMark (e : TrackEntry) : Prop := ∃ k, e.kind = .mark k
    ∃ notices : List Notice,
      List.Forall₂ (fun e n => ∃ k, e.kind = .mark k ∧ n = .mark k e.id c.number culled)
        (p.wt.track.filter (fun e => e.kind.isMark && e.zone.meets c.start c.stop)) notices ∧
      let q := passMarks c.stop (notices.foldl (fun q n => postNotice n q) p)
      ((∀ e ∈ p.wt.track, isMark e → c.stop ≤ e.start) ∨ p.dec.kLast = none → handleMarks c culled p = q) ∧
      ((∃ e ∈ p.wt.track, isMark e ∧ e.start < c.stop) → p.dec.kLast.isSome → handleMarks c culled p = commitCheck q)) ∧
  (∀ (p : Part) (n : Nat),
    let overdue (w : Waiting) : Prop := w.late = false ∧ ∃ len k node ch, w.msg = .command (.changeLength len (some k)) node ch ∧ k ≤ n
    let t := testChanges n p
    ((∀ w ∈ p.rif.urgentWait, ¬ overdue w) → t = p) ∧
    ((∃ w ∈ p.rif.urgentWait, overdue w) → (alarmOf t .knifeCommandLate).latch = true) ∧ (∀ w ∈ t.rif.urgentWait, ¬ overdue w)) ∧
  (∀ (p : Part) (n : Nat),
    let reached (r : Region) : Bool := !r.ended && (match r.last with | some l => decide (l ≤ n) | none => false)
    let told (q : Part) (r : Region) : Part := match r.order with | some o => orderEnded r o q | none => q
    ((∀ r ∈ p.os.regions, reached r = false) → endRegions n p = p) ∧
    ((∃ r ∈ p.os.regions, reached r = true) → endRegions n p
      = completeRegions ((p.os.regions.filter reached).foldl told
          (setRegions p (p.os.regions.map (fun r => if reached r then { r with ended := true } else r))))))

/-- A knife report that repeats the last cut's number is ignored. A later one moves the count by its gap, the difference of the numbers modulo 65,536: with a gap of 1 its cut follows the last one by
its measured length; with a gap of 2 to 64 the cuts between are synthesized first, end to end at their commanded lengths, with KNIFE_SEQUENCE latched before the first of them (log 30), and its
cut follows them; where that cut's end lies beyond the registration limit from B, it is set to B and KNIFE_REGISTRATION is latched; with a greater gap its cut ends at B, and nothing is synthesized. The
last cut of a report has its number and end kept, the waiting changes tested, zones retired and one commitment check made, also for the places freed (log 12). C is computed anew before it where a cut of the report was attributed to the open region, which is where that region's numbers hold
the last cut's, and not else. The first after RUN entry gives the first
region the knife's own number as its first cut number before its cut is taken, which has that number and ends at B. A report in CONFIG is discarded. -/
def Obligations.KnifeReportNumbersCuts : Prop :=
  (∀ (p : Part) (n : BitVec 16) (m c k : Nat), p.dec.cLast = some c → p.dec.kLast = some k → n = BitVec.ofNat 16 c → knifeSample n m p = p) ∧
  (∀ (p : Part) (n : BitVec 16) (m : Nat) (g : Nat) (c k : Nat), p.mu.mode = .run → p.dec.cLast = some c → p.dec.kLast = some k →
    g = (n - BitVec.ofNat 16 c).toNat → g ≠ 0 → (knifeSample n m p).dec.cLast = some (c + g) ∧
      let len := min m 120000
      let reported (x : Nat) (q : Part) : Part :=
        let off := q.dec.regLimit < (((x + len : Nat) : Int) - posB p).natAbs
        if off then
          lastCut { number := c + g, start := min x (posB p), stop := posB p, measured := some len, moved := true } (latch .knifeRegistration q)
        else lastCut { number := c + g, start := x, stop := x + len, measured := some len, moved := false } q
      (g = 1 → knifeSample n m p = reported k p) ∧
      (2 ≤ g → g ≤ 64 → ∃ (q : Nat → Part) (x : Nat → Nat), q 0 = latch .knifeSequence p ∧ x 0 = k
        ∧ (∀ i, i < g - 1 → x (i + 1) = x i + commandedLength (q i) (c + 1 + i)
            ∧ q (i + 1) = takeCut { number := c + 1 + i, start := x i, stop := x (i + 1), measured := none, moved := false } (q i))
        ∧ knifeSample n m p = reported (x (g - 1)) (q (g - 1))) ∧
      (64 < g → knifeSample n m p
        = lastCut { number := c + g, start := posB p - len, stop := posB p, measured := some len, moved := false } (latch .knifeSequence p))) ∧
  (∀ (p : Part) (n : Nat) (before after : List Region) (r : Region),
    let contains (r : Region) : Prop := ∃ a, r.first = some a ∧ a ≤ n ∧ ∀ l, r.last = some l → n ≤ l
    p.os.regions = before ++ r :: after → (∀ x ∈ before, ¬ contains x) → contains r → commandedLength p n = r.length) ∧
  (∀ (p : Part) (c : Cut),
    let t := takeCut c p
    let q := retire (testChanges c.number { t with dec := { t.dec with cLast := some c.number, kLast := some c.stop } })
    let openHolds := ∃ before r a, q.os.regions = before ++ [r] ∧ r.stop = none ∧ r.first = some a ∧ a ≤ c.number ∧ ∀ l, r.last = some l → c.number ≤ l
    (openHolds → lastCut c p = commitCheck (computeChange q)) ∧ (¬ openHolds → lastCut c p = commitCheck q)) ∧
  (∀ (p : Part) (n : BitVec 16) (m : Nat), p.mu.mode = .run → p.dec.cLast = none →
    (knifeSample n m p).dec.cLast = some n.toNat ∧ (knifeSample n m p).dec.kLast = some (posB p) ∧
    ∀ r rest, p.os.regions = r :: rest → knifeSample n m p
      = lastCut { number := n.toNat, start := posB p - min m 120000, stop := posB p, measured := some (min m 120000), moved := false }
          (setRegions p ({ r with first := some n.toNat } :: rest))) ∧
  (∀ (p : Part) (n : BitVec 16) (m : Nat), p.mu.mode = .config → knifeSample n m p = p)

/-- A PRESET DONE in RUN: the inactive station that is presetting the profile becomes READY with it; another profile, and a station not presetting, leave the part as it was. The SWAP of a swap record
is posted when the point at the slitter reaches its start. A SWAPPED that was requested makes its profile the active station's and the other station free, with the swap DONE, a late zone
closed and the NEXT order selected; another is ignored. A slitter whose swap zone has passed it is late: SLITTER_LATE is latched, the record marked, and its zone opened, or a new open one
inserted behind it. That a record whose entry has left the list has none (log 17), what SWAP carries from a FREE station (log 26) and its free-value count (log 6) are the model's choices. In RUN the
head of the queue becomes NEXT when it is not held, no order is NEXT and the inactive station is FREE with no swap pending: ready at once, where the active station has its profile, and else in need
of a swap, with the inactive station presetting the profile and PRESET posted; in every other case nothing is selected; NEXT selection is followed by a
commitment check, also where no readiness was gained (log 13). A released station is FREE, and nothing is posted. In RUN a report with a code other than PRESET DONE and SWAPPED, or a profile outside 1 to 999, latches BAD_SAMPLE and
changes nothing else; in CONFIG a report is discarded. -/
def Obligations.PresetDoneReadiesStation : Prop :=
  (∀ (p : Part) (profile : Nat), p.mu.mode = .run → 1 ≤ profile → profile ≤ 999 →
    (∀ o rest n, p.dec.inactive = .presetting profile → p.os.queue = o :: rest → p.os.next = some n → o.profile = profile →
      slitterSample 1 profile p
        = commitCheck { p with dec := { p.dec with inactive := Inactive.ready profile }, os := { p.os with next := some ({ n with ready := true } : NextOrder) } }) ∧
    (∀ x, p.dec.inactive = .presetting x → x ≠ profile → slitterSample 1 profile p = p) ∧
    (p.dec.inactive = .free → slitterSample 1 profile p = p) ∧ (∀ x, p.dec.inactive = .ready x → slitterSample 1 profile p = p) ∧
    (p.dec.swap ≠ .requested → slitterSample 2 profile p = p) ∧
    (p.dec.swap = .requested →
      let t : Part := { p with dec := { p.dec with active := some profile, inactive := .free, swap := .done } }
      ((p.dec.swapRec = none ∨ ∃ r, p.dec.swapRec = some r ∧ (r.late = false ∨ r.entry.bind (entryById p) = none)) →
        slitterSample 2 profile p = nextSelection t) ∧
      (∀ r id e, p.dec.swapRec = some r → r.late = true → r.entry = some id → entryById p id = some e →
        slitterSample 2 profile p = nextSelection (handOn (closeZone e.id (posB p + offset p .slitter - e.start) t))))) ∧
  (∀ (p : Part) (r : SwapRecord), p.dec.swapRec = some r →
    let x := posB p + offset p .slitter
    (p.dec.swap = .none → r.start ≤ x →
      testSwapPoint p = postSetpoint (.swap (heldProfile p)) { p with free := p.free + 1, dec := { p.dec with swap := .requested } }) ∧
    (p.dec.swap ≠ .none ∨ x < r.start → testSwapPoint p = p) ∧
    (∀ n, p.dec.inactive = .ready n ∨ p.dec.inactive = .presetting n → heldProfile p = n) ∧
    (p.dec.swap ≠ .requested ∨ r.late = true ∨ x < r.start + r.extent → testSlitterLate p = (p, [])) ∧
    (p.dec.swap = .requested → r.late = false → r.start + r.extent ≤ x →
      let q := latch .slitterLate { p with dec := { p.dec with swapRec := some { r with late := true } } }
      (∀ id e, r.entry = some id → entryById p id = some e → testSlitterLate p = openZone e.id q) ∧
      (r.entry.bind (entryById p) = none →
        let i := insertOpen { id := 0, kind := .swapZone, start := r.start + r.extent, extent := none, cull := true, origin := .slitter,
                              binding := none } q
        let t : SwapRecord := { r with late := true, entry := i.2.1 }
        testSlitterLate p = ({ i.1 with dec := { i.1.dec with swapRec := some t } }, i.2.2)))) ∧
  (∀ p : Part,
    let free := p.mu.mode = .run ∧ p.os.next = none ∧ p.dec.inactive = .free ∧ (p.dec.swapRec = none ∨ p.dec.swap = .done)
    let chosen (ready : Bool) : Os := { p.os with next := some { ready := ready, needsSwap := !ready } }
    nextSelection p = commitCheck (selectNext p) ∧
    (∀ o rest, p.os.queue = o :: rest → o.hold = false → free →
      (p.dec.active = some o.profile → selectNext p = { p with os := chosen true }) ∧
      (p.dec.active ≠ some o.profile →
        selectNext p = postSetpoint (.preset o.profile) { p with os := chosen false, dec := { p.dec with inactive := .presetting o.profile } })) ∧
    (p.os.queue = [] ∨ (∃ o rest, p.os.queue = o :: rest ∧ o.hold = true) ∨ ¬ free → selectNext p = p) ∧
    (p.mu.mode = .run → releaseStation p = { p with dec := { p.dec with inactive := .free } })) ∧
  (∀ (p : Part) (code profile : Nat),
    (p.mu.mode = .run → (code ≠ 1 ∧ code ≠ 2) ∨ profile < 1 ∨ 999 < profile → slitterSample code profile p = latch .badSample p) ∧
    (p.mu.mode = .config → slitterSample code profile p = p))

/-! ## Stacker -/

/-- The head entry whose transit deadline has passed, as it has once the part time is at it (log 11), leaves the queue as missing, with STACKER_MISSING latched; each entry that leaves with it is overdue and is counted missing too, and the head
that stays is not. A good cut enters a queue of fewer than 64 at the tail: its region's good count rises, its stack countdown goes on, and the backlog test is made. At a full queue it is culled for BACKLOG: its region's BACKLOG
count and the live counter rise by 1, DIVERT with its number is posted and so on its way, and BACKLOG is latched, in this order by the model's choice (log 33). The backlog flag is set at the watermark, with the BACKLOG contribution
at the crawl speed, and cleared 8 below it, with the contribution inactive. The first arrival count after RUN entry is a reference; arrivals that find the queue empty are phantom; an arrival removes the head as stacked: its
region's and the run's stacked counts and the live counter of stacked cuts rise by 1, and that of good sheets by the order's outs. A head removed as missing raises its region's and the run's missing counts. The flags of an entry that
leaves are acted on, stack-end by EJECT and then order-end by ORDER END, and OS tests for completion; the new head is tested against its deadline, and the backlog test is made. An order that ends marks its last entry
in the queue, or, without one, has EJECT posted for a part stack, and ORDER END: a part stack lies there where the countdown is not at the stack height, also after an amendment that leaves it at a height of 1 with cuts on the
stack (the model's choice, log 42). EJECT and ORDER END are on their way once posted, or are discarded with STACKER_COMMAND_LOST latched while 32 of them wait. An arrival count in CONFIG is
discarded. -/
def Obligations.OverdueHeadGoesMissing : Prop :=
  (∀ (s : State) (e : CutEntry) (rest : List CutEntry), s.part.mu.mode = .run → s.part.sc.cuts = e :: rest →
    e.knifeTime + s.part.sc.transit ≤ s.part.time →
    ∃ t : Part, exec .transitDeadlineExpiry s = .next { s with part := t } ∧ t = testHead s.part ∧ (alarmOf t .stackerMissing).latch = true
      ∧ (∃ k, t.sc.cuts = rest.drop k ∧ t.sc.missing = min (2 ^ 32 - 1) (s.part.sc.missing + 1 + min k rest.length)
          ∧ (∀ x ∈ rest.take k, x.knifeTime + s.part.sc.transit ≤ s.part.time)
          ∧ ∀ x, rest[k]? = some x → s.part.time < x.knifeTime + s.part.sc.transit)
      ∧ t.sc.stacked = s.part.sc.stacked ∧ t.sc.entered = s.part.sc.entered ∧ posB t = posB s.part) ∧
  (∀ (p : Part) (cut : Nat) (r : Region) (o : Order),
    let up (n : Nat) : Nat := min (2 ^ 32 - 1) (n + 1)
    let ofOrder (f : Region → Region) : List Region := p.os.regions.map (fun x => if x.order.map Order.tag = some o.tag then f x else x)
    (p.sc.cuts.length < 64 →
      let e : CutEntry := { cut := cut, tag := o.tag, knifeTime := p.time, stackEnd := decide (r.countdown ≤ 1), orderEnd := false }
      let q : Part := { p with sc := { p.sc with cuts := p.sc.cuts ++ [e], entered := up p.sc.entered } }
      takeGood cut r o p = (testBacklog (setRegions q (ofOrder (fun x =>
        { x with good := up x.good, countdown := if x.countdown ≤ 1 then o.stackHeight else x.countdown - 1 }))), false)) ∧
    (64 ≤ p.sc.cuts.length →
      let q := raise (.culled .backlog) 1 (setRegions p (ofOrder (fun x =>
        { x with culled := upd x.culled Cause.backlog.idx (up (x.culled.get Cause.backlog.idx)) })))
      let t := (takeGood cut r o p).1
      takeGood cut r o p = (latch .backlog (postDivert cut q), true) ∧ t.sc = p.sc ∧ (alarmOf t .backlog).latch = true
        ∧ ∀ e, outEntry p .rejectGate = some e → (divertList q).length < 16 → OnItsWay t (.command (.divert cut) e.node e.channel))) ∧
  (∀ (p : Part) (a : BitVec 16), p.mu.mode = .run →
    (p.sc.lastArrival = none → stackerSample a p = { p with sc := { p.sc with lastArrival := some a } }) ∧
    (∀ b, p.sc.lastArrival = some b →
      stackerSample a p = takeArrivals (a - b).toNat { p with sc := { p.sc with lastArrival := some a } })) ∧
  (∀ (p : Part) (n : Nat),
    takeArrivals 0 p = p ∧
    (p.sc.cuts = [] → takeArrivals (n + 1) p
      = latch .stackerPhantom { p with sc := { p.sc with phantom := min (2 ^ 32 - 1) (p.sc.phantom + (n + 1)) } }) ∧
    (∀ e rest, p.sc.cuts = e :: rest → takeArrivals (n + 1) p = takeArrivals n (testHead (removeStacked e rest p)))) ∧
  (∀ p : Part,
    (p.sc.cuts = [] → testHead p = testBacklog p) ∧
    (∀ e rest, p.sc.cuts = e :: rest →
      (p.time < e.knifeTime + p.sc.transit → testHead p = testBacklog p) ∧
      (e.knifeTime + p.sc.transit ≤ p.time → testHead p = testHead (removeMissing e rest p)))) ∧
  (∀ (p : Part) (e : CutEntry) (rest : List CutEntry),
    let up (n : Nat) : Nat := min (2 ^ 32 - 1) (n + 1)
    let left (f : Region → Region) : Part := setRegions (setCuts p rest) (p.os.regions.map (fun x => if x.order.map Order.tag = some e.tag then f x else x))
    let q := left (fun x => { x with missing := up x.missing })
    removeMissing e rest p = completeRegions (actFlags e (latch .stackerMissing { q with sc := { q.sc with missing := up p.sc.missing } })) ∧
    (∀ x o, regionOf p e.tag = some x → x.order = some o →
      let t := raise .goodSheets o.outs (raise .stackedCuts 1 (left (fun x => { x with stacked := up x.stacked })))
      removeStacked e rest p = completeRegions (actFlags e { t with sc := { t.sc with stacked := up p.sc.stacked } })) ∧
    actFlags e p
      = (let ejected := if e.stackEnd = true then postEject e.tag p else p
         if e.orderEnd = true then postOrderEnd e.tag ejected else ejected)) ∧
  (∀ (p : Part) (tag : Nat),
    (∀ e, outEntry p .stacker = some e →
      ((stackerList p).length < 32 → OnItsWay (postEject tag p) (.command (.eject tag) e.node e.channel)
        ∧ OnItsWay (postOrderEnd tag p) (.command (.orderEnd tag) e.node e.channel)) ∧
      (32 ≤ (stackerList p).length →
        postEject tag p = latch .stackerCommandLost p ∧ postOrderEnd tag p = latch .stackerCommandLost p)) ∧
    (outEntry p .stacker = none → postEject tag p = p ∧ postOrderEnd tag p = p)) ∧
  (∀ (p : Part) (r : Region) (o : Order),
    ((∀ c ∈ p.sc.cuts, c.tag ≠ o.tag) →
      orderEnded r o p = postOrderEnd o.tag (if r.countdown ≠ o.stackHeight then postEject o.tag p else p)) ∧
    (∀ before c after, p.sc.cuts = before ++ c :: after → c.tag = o.tag → (∀ x ∈ after, x.tag ≠ o.tag) →
      orderEnded r o p = setCuts p (before ++
        { c with orderEnd := true, stackEnd := c.stackEnd || decide (r.countdown ≠ o.stackHeight) } :: after))) ∧
  (∀ p : Part,
    let t := testBacklog p
    (p.sc.backlog = false → p.sc.watermark ≤ p.sc.cuts.length → t.sc = { p.sc with backlog := true }
      ∧ t.sg.slots = upd p.sg.slots Slot.backlog.idx { active := true, value := min p.sg.crawl p.sg.lineMax }) ∧
    (p.sc.backlog = true → p.sc.cuts.length ≤ p.sc.watermark - 8 → t.sc = { p.sc with backlog := false }
      ∧ t.sg.slots = upd p.sg.slots Slot.backlog.idx { active := false, value := 0 }) ∧
    ((p.sc.backlog = false ∧ p.sc.cuts.length < p.sc.watermark) ∨ (p.sc.backlog = true ∧ p.sc.watermark - 8 < p.sc.cuts.length) → t = p)) ∧
  (∀ (p : Part) (a : BitVec 16), p.mu.mode = .config → stackerSample a p = p)

/-! ## The line speed ceiling -/

/-- SET CEILING, CLEAR CEILING and CLEAR BREAK in RUN write the OPERATOR and WEB_BREAK slots and answer with what the slot took or was, and the effective ceiling after, which is the least of
the line max and every active slot's value. -/
def Obligations.CeilingRequests : Prop :=
  (∀ g : Sg, LeastCeiling g (ceilingOf g)) ∧
  ∀ (s : State) (r : Request), s.part.mu.mode = .run → Governed s.part →
    (∀ v, Asks s.part 66 [4] [v] r →
      ∃ q : Part, exec .setCeiling s = Answered s r .ok (w32 (min v s.part.sg.lineMax) ++ opt32 (some (ceilingOf q.sg))) q
        ∧ q.sg.slots = upd s.part.sg.slots Slot.operator.idx { active := true, value := min v s.part.sg.lineMax }
        ∧ q.wt = s.part.wt ∧ q.os = s.part.os ∧ q.bc = s.part.bc ∧ q.dec = s.part.dec ∧ q.sc = s.part.sc) ∧
    (Asks s.part 67 [] [] r →
      ∃ q : Part, exec .clearCeiling s
          = Answered s r .ok (flag (slotActive s.part .operator) ++ opt32 (some (ceilingOf q.sg))) q
        ∧ q.sg.slots = upd s.part.sg.slots Slot.operator.idx { active := false, value := 0 }
        ∧ q.wt = s.part.wt ∧ q.os = s.part.os ∧ q.bc = s.part.bc ∧ q.dec = s.part.dec ∧ q.sc = s.part.sc) ∧
    (Asks s.part 68 [] [] r →
      ∃ q : Part, exec .clearBreak s
          = Answered s r .ok (flag (slotActive s.part .webBreak) ++ opt32 (some (ceilingOf q.sg))) q
        ∧ q.sg.slots = upd s.part.sg.slots Slot.webBreak.idx { active := false, value := 0 }
        ∧ q.wt = s.part.wt ∧ q.os = s.part.os ∧ q.bc = s.part.bc ∧ q.dec = s.part.dec ∧ q.sc = s.part.sc)

/-- A write to a slot in RUN: an activation takes the value clamped to the line max, a deactivation makes the slot inactive with value 0, no other slot changes, and the effective
ceiling, the least of the line max and every active slot's value, is computed again; DRIVE_CEILING with it is posted where it differs from the one before, and recorded. A write of what the slot
holds changes nothing. -/
def Obligations.SlotWrites : Prop :=
  (∀ g : Sg, LeastCeiling g (ceilingOf g)) ∧
  ∀ (p : Part) (x : Slot), p.mu.mode = .run →
    let written (c : Contribution) (q : Part) : Prop :=
      (p.sg.slots.get x.idx = c → q = p) ∧
      (p.sg.slots.get x.idx ≠ c →
        let g : Sg := { p.sg with slots := upd p.sg.slots x.idx c }
        (p.sg.effective = some (ceilingOf g) → q = { p with sg := g }) ∧
        (p.sg.effective ≠ some (ceilingOf g) →
          q = postSetpoint (.driveCeiling (ceilingOf g))
            { p with sg := { g with effective := some (ceilingOf g), lastPosted := some (ceilingOf g) } }))
    (∀ v, written { active := true, value := min v p.sg.lineMax } (activate x v p)) ∧
    written { active := false, value := 0 } (deactivate x p)

/-- The refresh timer's expiry, due once the part time is at it (log 11), posts the effective ceiling and moves the next expiry one period on. -/
def Obligations.RefreshPostsCeiling : Prop :=
  ∀ (s : State) (d e : Nat), s.part.mu.mode = .run → s.part.sg.nextRefresh = some d → d ≤ s.part.time → s.part.sg.effective = some e →
    let g : Sg := { s.part.sg with nextRefresh := some (d + s.part.sg.refreshPeriod), lastPosted := some e }
    exec .refreshExpiry s = .next { s with part := postSetpoint (.driveCeiling e) { s.part with sg := g } }

/-! ## Management -/

/-- A request whose code is not in the table or whose length does not fit it is refused with BAD_ARG, and a request in the mode that does not take it with WRONG_MODE, with no other
effect. The table's codes have fixed lengths, but for SET LIMITS, of any number of pairs of 6 bytes, and LOAD RECIPE, of fields of 16 or of 32 bits (the packed layout is the model's, log 7).
That SET BRIDGE has 32 bytes, each of its eight settings a field of 32 bits, is the model's choice too (log 36). MU is free while no reply of an earlier request waits. -/
def Obligations.MuChecksComeFirst : Prop :=
  (∀ p : Part, muFree p = true ↔ ∀ w ∈ p.rif.normalWait, ∀ dest code number st results, w.msg ≠ .reply dest code number st results) ∧
  (∀ (s : State) (r : Request), muFree s.part = true → s.part.mu.queue.head? = some r → r.malformed = true →
    exec .mgmtUnknownRequest s = Answered s r .badArg [] (popRequest s.part)) ∧
  (∀ r : Request,
    let table : List (Nat × Nat) :=
      [(1, 0), (2, 0), (3, 0), (16, 4), (17, 16), (18, 8), (19, 32), (20, 32), (22, 20), (23, 12), (24, 0), (32, 88), (32, 172), (33, 4), (34, 4),
       (35, 28), (36, 31), (37, 60), (38, 4), (39, 4), (40, 4), (41, 8), (42, 8), (43, 0), (44, 8), (45, 4), (46, 0), (47, 4), (48, 8), (49, 0),
       (50, 0), (51, 4), (64, 12), (65, 12), (66, 4), (67, 0), (68, 0)]
    r.malformed = true ↔ ∀ c, r.code = some c → (c, r.args.length) ∉ table ∧ ¬ (c = 21 ∧ r.args.length % 6 = 0)) ∧
  (∀ (s : State) (r : Request) (fs : List Nat), s.part.mu.mode = .run → Asks s.part 21 (pairWidths r.args.length) fs r →
    exec .setLimits s = Answered s r .wrongMode [] (popRequest s.part)) ∧
  (∀ (s : State) (r : Request) (c : Instr) (code : Nat) (m : Mode) (ws fs : List Nat),
    (c, code, m, ws) ∈ ([(.enterRun, 1, .config, []), (.enterConfig, 2, .run, []), (.setLine, 16, .config, [4]),
      (.setEncoder, 17, .config, [4, 4, 4, 4]), (.setStation, 18, .config, [4, 4]),
      (.setStand, 19, .config, [4, 4, 4, 4, 4, 4, 4, 4]), (.setBridge, 20, .config, [4, 4, 4, 4, 4, 4, 4, 4]),
      (.mapWrite, 22, .config, [4, 4, 4, 4, 4]), (.mapClear, 23, .config, [4, 4, 4]), (.rosterClear, 24, .config, []),
      (.alignBridge, 64, .run, [4, 8]), (.mark, 65, .run, [4, 4, 4]), (.setCeiling, 66, .run, [4]), (.clearCeiling, 67, .run, []),
      (.clearBreak, 68, .run, [])] : List (Instr × Nat × Mode × List Nat)) →
    Asks s.part code ws fs r → s.part.mu.mode ≠ m → exec c s = Answered s r .wrongMode [] (popRequest s.part))

/-- ENTER RUN in CONFIG: with every role of R197's list bound and a commit lead above the SLITTER offset plus 200,000 the part is in RUN, with positions 0, each K at Lfix plus Qnom, an empty tracking list and one open WASTE
region of the waste length, and answers OK. The RUN-entry values: encoders without reference, residue, debt and speeds, no bridge condition and no last sight or defect count, the credit full; each stand IDLE without
run-state, with the grade of its running arm as knife-side grade; the units, wraps and zones without recipes, histories or deviations; the inactive station FREE, no swap and no cut; the cut queue empty and the run counts 0; every
freshness record WAITING, with the time of its last sample (log 22); every slot inactive, and the lost flag clear. On them SG posts DRIVE_CEILING with the line max, which is on its way, the bridges are checked, the lost flag is tested, DEC posts CHANGE LENGTH with
the waste length and no "after" cut, which is on its way unless the commands that wait fill its list, OS selects NEXT, the stands are evaluated, and BC makes its first lookups: an order the model takes (logs 18, 32). Otherwise the part
stays as it was and answers NOT_CONFIGURED with the first eight of the roles that are missing, each as direction, role and index, and whether the lead test failed. -/
def Obligations.EnterRunStartsOrRefuses : Prop :=
  ∀ (s : State) (r : Request), s.part.mu.mode = .config → Asks s.part 1 [] [] r →
    let p := s.part
    let inputs : List Input := [.boardEnc, .feederEnc 0] ++ (if p.wt.line = .double then [.feederEnc 1] else []) ++ [.knife, .slitter, .stacker]
    let outputs : List Output := [.driveCeiling, .knife, .slitter, .stacker, .rejectGate]
    let missing : List (List Byte) :=
      (inputs.filter (fun i => (inEntry p i).isNone)).map (fun i => w32 1 ++ w32 i.role.code ++ w32 i.index)
        ++ (outputs.filter (fun o => (outEntry p o).isNone)).map (fun o => w32 2 ++ w32 o.roleCode ++ w32 o.index)
    let least := offset p .slitter + 200000
    let waste := p.os.wasteLength
    (missing = [] → least < p.os.commitLead →
      ∃ q : Part, exec .enterRun s = Answered s r .ok [] q ∧ q.mu.mode = .run ∧ posB q = 0
        ∧ (∀ f, posF q f = 0 ∧ bridgeK q f = (p.wt.bridges.get f).lfix + (p.wt.bridges.get f).qnom) ∧ q.wt.track = []
        ∧ q.os.regions = [initialRegion waste] ∧ q.sc.cuts = [] ∧ q.dec.cLast = none
        ∧ q.wt.credit = p.wt.bucketSize ∧ q.os.log = p.os.log ∧ q.wt.offsets = p.wt.offsets ∧ q.si.outMap = p.si.outMap
        ∧ (let encoder (e : Encoder) : Encoder := { e with ref := none, residue := 0, debt := 0, pos := 0, history := List.replicate 8 0 }
           let bridge (b : Bridge) : Bridge := { b with k := (b.lfix : Int) + b.qnom, low := false, high := false, lastSight := none }
           let stand (st : Stand) : Stand :=
             { st with splice := .idle, recent := none, acceptBy := none, doneBy := none, plan := none, history := [], historyArm := none,
                       staleSince := false, reckon := none, exhausted := false, awaiting := false, crawling := false,
                       g0 := match st.running with | some w => (st.arm w).grade | none => 0 }
           let glue : GlueUnit :=
             { acting := none, requested := none, last := none, testSet := none, testTol := none, settleBy := none, deviation := false,
               entry := none, openedAt := 0 }
           let zone : ZoneUnit :=
             { acting := none, requested := none, last := none, history := [], staleSince := false, state := .unset, byDeficit := false }
           let v : Part :=
             { popRequest p with
                 mu := { (popRequest p).mu with mode := .run }
                 wt := { p.wt with board := encoder p.wt.board, feeders := p.wt.feeders.map encoder, bridges := p.wt.bridges.map bridge,
                                   track := [], nextId := 1, credit := p.wt.bucketSize, remainder := 0,
                                   defectLast := Vector.replicate 4 none }
                 os := { p.os with next := none, regions := [] }
                 rsc := { stands := p.rsc.stands.map stand }
                 bc := { p.bc with glue := Vector.replicate 3 glue, wraps := Vector.replicate 3 { acting := none, requested := none, last := none },
                                   zones := Vector.replicate 8 zone }
                 dec := { p.dec with inactive := .free, swap := .none, swapRec := none, cLast := none, kLast := none }
                 sc := { p.sc with cuts := [], lastArrival := none, backlog := false, entered := 0, stacked := 0, missing := 0, phantom := 0 }
                 sg := { p.sg with slots := Vector.replicate 21 { active := false, value := 0 }
                                   effective := some p.sg.lineMax
                                   lastPosted := some p.sg.lineMax
                                   nextRefresh := some (p.time + p.sg.refreshPeriod) }
                 si := { p.si with inMap := p.si.inMap.map (fun e => { e with state := .waiting }) }
                 rif := { p.rif with lost := false } }
           let driven := postSetpoint (.driveCeiling p.sg.lineMax) v
           let tested := testLost (checkBridge 1 (checkBridge 0 driven))
           let sent := postChange waste none (setRegions tested [initialRegion waste])
           q = lookupAll (evalStand 4 (evalStand 3 (evalStand 2 (evalStand 1 (evalStand 0 (nextSelection sent))))))
             ∧ (∀ e, outEntry p .driveCeiling = some e → OnItsWay driven (.command (.driveCeiling p.sg.lineMax) e.node e.channel))
             ∧ ∀ e, outEntry p .knife = some e → (changeList tested).length < 4 →
                 OnItsWay sent (.command (.changeLength waste none) e.node e.channel))) ∧
    (missing ≠ [] ∨ p.os.commitLead ≤ least →
      exec .enterRun s = Answered s r .notConfigured ((missing.take 8).flatten ++ w32 (if p.os.commitLead ≤ least then 1 else 0)) (popRequest p))

/-- ENTER CONFIG in RUN: above line speed 0 it answers MOVING with the speed and changes nothing; at 0 the run ends: CONFIG, B kept and answered, F and K kept, the encoders without
reference, residue, debt and speeds, no bridge condition and no last sight or defect count, the credit 0, an empty tracking list, cut queue and region list, no NEXT order, no effective ceiling, and every command gone from the originate queues. Each ORDER region leaves with an aborted record, in list order: its counts as they stood, its flags, and the length that had passed
the knife; the log keeps the latest 16, with COMPLETION_LOST latched where it loses one; and each slot's reference count falls by the number of such regions that name it. Each record posts its ORDER DONE notice before RIF
discards the commands (log 14). -/
def Obligations.EnterConfigEndsRun : Prop :=
  (∀ (s : State) (r : Request), s.part.mu.mode = .run → Asks s.part 2 [] [] r →
    (0 < lineSpeed s.part → exec .enterConfig s = Answered s r .moving (w32 (lineSpeed s.part)) (popRequest s.part)) ∧
    (lineSpeed s.part = 0 →
      let recordOf (x : Region) (o : Order) : Completion :=
        { tag := o.tag, stacked := x.stacked, goodSheets := x.stacked * o.outs, missing := x.missing, culled := x.culled,
          overrunCuts := x.stacked - o.cutsWanted, boardLength := (match x.stop with | none => posB s.part | some e => min (posB s.part) e) - x.start,
          short := decide (x.stacked * o.outs < o.quantity), withdrawn := x.withdrawn, gradeLate := x.gradeLate, aborted := true }
      let records := s.part.os.regions.filterMap (fun x => x.order.map (recordOf x))
      let naming (i : Fin 32) := s.part.os.regions.filter (fun x => decide ((x.order.bind (fun o => place 32 o.slot)) = some i))
      ∃ q : Part, exec .enterConfig s = Answered s r .ok (w64 (posB s.part)) q ∧ q.mu.mode = .config ∧ posB q = posB s.part
        ∧ q.wt.track = [] ∧ q.sc.cuts = [] ∧ q.os.regions = [] ∧ q.os.next = none ∧ q.os.queue = s.part.os.queue ∧ q.sg.effective = none
        ∧ (∀ m ∈ q.rif.urgent ++ q.rif.normal, m.isCommand = false) ∧ q.wt.offsets = s.part.wt.offsets ∧ q.si.outMap = s.part.si.outMap
        ∧ q.wt = (let encoder (e : Encoder) : Encoder := { e with ref := none, residue := 0, debt := 0, history := List.replicate 8 0 }
            let bridge (b : Bridge) : Bridge := { b with low := false, high := false, lastSight := none }
            { s.part.wt with board := encoder s.part.wt.board, feeders := s.part.wt.feeders.map encoder,
                             bridges := s.part.wt.bridges.map bridge, track := [], credit := 0, remainder := 0,
                             defectLast := Vector.replicate 4 none })
        ∧ (s.part.os.log.length ≤ 16 → q.os.log = (s.part.os.log ++ records).drop (s.part.os.log.length + records.length - 16))
        ∧ (16 < s.part.os.log.length + records.length → records ≠ [] → (alarmOf q .completionLost).latch = true)
        ∧ (∀ i, q.bc.slots.get i = { s.part.bc.slots.get i with refs := (s.part.bc.slots.get i).refs - (naming i).length })
        ∧ (let t := s.part.os.regions.foldl (dropRegion true) (popRequest s.part)
           q = refill false (endValues { t with os := { t.os with next := none, regions := [] } })))) ∧
  (∀ (p : Part) (x : Region),
    (x.order = none → dropRegion true p x = p) ∧
    (∀ o, x.order = some o → ∃ c : Completion, c.tag = o.tag ∧ c.aborted = true ∧
      let full := 16 ≤ p.os.log.length
      let q : Part := { dropRef o.slot p with os := { p.os with log := (if full then p.os.log.tail else p.os.log) ++ [c] } }
      dropRegion true p x = postNotice (.orderDone o.tag (decide (x.stacked * o.outs < o.quantity)) x.withdrawn x.gradeLate true)
        (if full then latch .completionLost q else q)))

/-- RESTART in either mode: CONFIG, every alarm clear, every counter and the snapshot set 0, the roster and the completion log empty, the orders and the channel map kept, and each stand's run-state empty with G0 at 0 (R101's
values hold in either mode, log 35). In CONFIG that is all it does. In RUN the run-state goes too, without a completion record, and the part that is left is given whole: the encoders without reference, residue, debt and
speeds, no bridge condition and no last sight or defect count, the credit 0, the tracking list and the regions empty, each slot's reference count fallen by the number of regions that name it, no NEXT order, the cut queue,
BC's units, DEC's swap and cut, the contributions and the ceiling empty, every freshness record WAITING with the time of its last sample (log 22), and the commands gone from the queues; B, F, K and the next id stay. What then waits
for the normal queue enters it. -/
def Obligations.RestartClears : Prop :=
  ∀ (s : State) (r : Request), Asks s.part 3 [] [] r →
    let p := s.part
    let emptied (st : Stand) : Stand :=
      { st with splice := .idle, recent := none, acceptBy := none, doneBy := none, plan := none, history := [], historyArm := none,
                staleSince := false, reckon := none, exhausted := false, awaiting := false, crawling := false, g0 := 0 }
    let encoder (e : Encoder) : Encoder := { e with ref := none, residue := 0, debt := 0, history := List.replicate 8 0 }
    let bridge (b : Bridge) : Bridge := { b with low := false, high := false, lastSight := none }
    let counters : Vector CounterRecord 30 := Vector.replicate 30 { value := 0, saturated := false }
    let cleared (x : Part) : Part :=
      { x with mu := { x.mu with alarms := Vector.replicate 37 { latch := false, count := 0, stamp := 0 }, generation := 0, readMade := false,
                                 counters := counters, snap := { counters := counters, b := 0, elapsed := 0, taken := false },
                                 lastClear := p.time }
               rif := { x.rif with roster := [] }
               os := { x.os with log := [] } }
    let naming (i : Fin 32) := p.os.regions.filter (fun x => decide ((x.order.bind (fun o => place 32 o.slot)) = some i))
    let ended (slots : Vector RecipeSlot 32) : Part :=
      { popRequest p with
          mu := { (popRequest p).mu with mode := .config }
          wt := { p.wt with board := encoder p.wt.board, feeders := p.wt.feeders.map encoder, bridges := p.wt.bridges.map bridge,
                            track := [], credit := 0, remainder := 0, defectLast := Vector.replicate 4 none }
          os := { p.os with next := none, regions := [] }
          rsc := { p.rsc with stands := p.rsc.stands.map emptied }
          bc := { p.bc with slots := slots, glue := Vector.replicate 3 GlueUnit.reset, wraps := Vector.replicate 3 WrapUnit.reset,
                            zones := Vector.replicate 8 ZoneUnit.reset }
          dec := { p.dec with inactive := .free, swap := .none, swapRec := none, cLast := none, kLast := none,
                              active := if p.dec.swap = .requested then none else p.dec.active }
          sc := { p.sc with cuts := [], lastArrival := none, backlog := false }
          sg := { p.sg with slots := Vector.replicate 21 { active := false, value := 0 }, effective := none, lastPosted := none, nextRefresh := none }
          si := { p.si with inMap := p.si.inMap.map (fun e => { e with state := .waiting }) }
          rif := { p.rif with urgent := p.rif.urgent.filter (fun m => !m.isCommand), normal := p.rif.normal.filter (fun m => !m.isCommand),
                              urgentWait := p.rif.urgentWait.filter (fun w => !w.msg.isCommand),
                              normalWait := p.rif.normalWait.filter (fun w => !w.msg.isCommand), lost := false } }
    (∃ q : Part, exec .restart s = Answered s r .ok [] q ∧ q.mu.mode = .config
      ∧ (∀ w : Alarm, alarmOf q w = { latch := false, count := 0, stamp := 0 })
      ∧ (∀ c : Counter, counterOf q c = { value := 0, saturated := false }) ∧ q.mu.generation = 0 ∧ q.mu.readMade = false
      ∧ q.mu.lastClear = p.time ∧ q.rif.roster = [] ∧ q.os.log = [] ∧ q.os.queue = p.os.queue ∧ q.mu.mask = p.mu.mask
      ∧ q.si.outMap = p.si.outMap
      ∧ q.si.inMap.map (fun e => (e.node, e.channel, e.input)) = p.si.inMap.map (fun e => (e.node, e.channel, e.input))
      ∧ (∀ i, standOf q i = emptied (standOf p i)) ∧ posB q = posB p ∧ (∀ f, posF q f = posF p f ∧ bridgeK q f = bridgeK p f)
      ∧ (p.mu.mode = .run →
        (∀ m ∈ q.rif.urgent ++ q.rif.normal, m.isCommand = false) ∧ (∀ w ∈ q.rif.urgentWait ++ q.rif.normalWait, w.msg.isCommand = false) ∧
        ∃ slots : Vector RecipeSlot 32,
          (∀ i, slots.get i = { p.bc.slots.get i with refs := (p.bc.slots.get i).refs - (naming i).length })
            ∧ q = cleared (refill false (ended slots)))) ∧
    (p.mu.mode = .config → exec .restart s
      = Answered s r .ok [] (cleared { popRequest p with rsc := { p.rsc with stands := p.rsc.stands.map emptied } }))

/-- SET LIMITS in CONFIG: the identities and the ranges are those of R200's table and its owning rules. The pairs are stored clamped, a later pair of one setting over an earlier: a stored setting is read back, and nothing else
changes. Then a maximum gap below the minimum gap of its unit is raised to it, and a crawl speed above the line max is lowered to it. The reply carries each setting as stored. A list with no pair, and an identity not in the table,
refuse the whole request with BAD_ARG and no change. -/
def Obligations.LimitsAreStoredClamped : Prop :=
  (let table : List (Nat × Setting × Nat × Nat) :=
     [(1, .bucketSize, 1, 64), (2, .refillLength, 1000, 10000000), (3, .commitLead, 200000, 5000000), (4, .wasteLength, 2000, 60000),
      (5, .swapTime, 100, 20000), (24, .settleTime, 0, 5000), (40, .zoneCount, 1, 8), (48, .regLimit, 100, 50000), (49, .lengthTol, 0, 5000),
      (50, .straddleTol, 0, 30000), (56, .transit, 100, 60000), (57, .watermark, 8, 64), (64, .lineMax, 10000, 100000), (65, .crawl, 1000, 20000),
      (66, .refreshPeriod, 50, 5000), (72, .aging, 1, 300), (73, .encoderLimit, 5, 1000), (74, .inputLimit, 50, 10000)]
       ++ (List.finRange 3).flatMap (fun u =>
            [(17 + u.val, .minGap u, 50, 1000), (21 + u.val, .maxGap u, 50, 1000), (25 + u.val, .wrapLead u, 0, 3000000)])
       ++ (List.finRange 8).map (fun z => (32 + z.val, .zoneLead z, 0, 3000000))
   ∀ n x lo hi, (n, x, lo, hi) ∈ table ↔ settingOf n = some x ∧ x.range = (lo, hi)) ∧
  (∀ (x : Setting) (v : Nat) (p : Part),
    let q := storeSetting x v p
    readSetting x q = v ∧ (∀ y, y ≠ x → readSetting y q = readSetting y p) ∧ storeSetting x (readSetting x p) q = p) ∧
  ∀ (s : State) (r : Request) (fs : List Nat), s.part.mu.mode = .config → Asks s.part 21 (pairWidths r.args.length) fs r →
    (∀ xs : List (Setting × Nat), fs ≠ [] → List.Forall₂ (fun a x => settingOf a.1 = some x.1 ∧ a.2 = x.2) (pairUp fs) xs →
      let t : Part := xs.foldl (fun p x => storeSetting x.1 (clamp x.1.range.1 x.1.range.2 x.2) p) (popRequest s.part)
      ∃ q : Part, exec .setLimits s = Answered s r .ok (xs.flatMap (fun x => w32 (readSetting x.1 q))) q
        ∧ (∀ g, readSetting (.maxGap g) q = max (readSetting (.minGap g) t) (readSetting (.maxGap g) t))
        ∧ readSetting .crawl q = min (readSetting .crawl t) (readSetting .lineMax t)
        ∧ q = { t with bc := { t.bc with maxGap := q.bc.maxGap }, sg := { t.sg with crawl := q.sg.crawl } }) ∧
    (fs = [] ∨ (∃ a ∈ pairUp fs, settingOf a.1 = none) → exec .setLimits s = Answered s r .badArg [] (popRequest s.part))

/-- MAP WRITE and MAP CLEAR in CONFIG: a new key below the capacity adds an entry, and at the capacity is refused with FULL; the key of an entry has that entry replaced, an IN entry's freshness
record beginning anew (log 22); an IN entry for an input that another key is bound to is refused with CONFLICT; a direction, a node, a channel, a role or an index out of range, and the part's own node, are refused with BAD_ARG. A new entry stands at the map's end, and a replaced one keeps
its place (log 19). A key's entry is removed; ALL empties the map; a key without an entry is NOT_FOUND, also one that names the part's own node, the model's choice (log 41). The
replies carry the number of entries then in the map. ROSTER CLEAR empties the roster and answers with the number removed. -/
def Obligations.MapAndRosterRequests : Prop :=
  ∀ (s : State) (r : Request), s.part.mu.mode = .config →
    (∀ dir node channel role index, Asks s.part 22 [4, 4, 4, 4, 4] [dir, node, channel, role, index] r →
      node < 1 ∨ 239 < node ∨ s.part.node = some node ∨ 255 < channel ∨ (dir ≠ 1 ∧ dir ≠ 2) ∨ (dir = 1 ∧ inputOfCodes role index = none)
        ∨ (dir = 2 ∧ outputOfCodes role index = none) →
      exec .mapWrite s = Answered s r .badArg [] (popRequest s.part)) ∧
    (∀ dir a b, Asks s.part 23 [4, 4, 4] [dir, a, b] r →
      2 < dir ∨ (dir = 0 ∧ (a ≠ 0 ∨ b ≠ 0)) ∨ (dir = 1 ∧ (a < 1 ∨ 239 < a ∨ 255 < b)) ∨ (dir = 2 ∧ outputOfCodes a b = none) →
      exec .mapClear s = Answered s r .badArg [] (popRequest s.part)) ∧
    (∀ node channel role index o, Asks s.part 22 [4, 4, 4, 4, 4] [2, node, channel, role, index] r → outputOfCodes role index = some o →
      1 ≤ node → node ≤ 239 → s.part.node ≠ some node → channel ≤ 255 → outEntry s.part o = none →
      mapCount s.part < 96 →
      exec .mapWrite s = Answered s r .ok (w32 (mapCount s.part + 1))
        { popRequest s.part with si := { s.part.si with
            outMap := s.part.si.outMap ++ [{ output := o, node := BitVec.ofNat 8 node, channel := BitVec.ofNat 8 channel }] } }) ∧
    (∀ node channel role index o, Asks s.part 22 [4, 4, 4, 4, 4] [2, node, channel, role, index] r → outputOfCodes role index = some o →
      1 ≤ node → node ≤ 239 → s.part.node ≠ some node → channel ≤ 255 →
      let e : OutEntry := { output := o, node := BitVec.ofNat 8 node, channel := BitVec.ofNat 8 channel }
      ((outEntry s.part o).isSome →
        exec .mapWrite s = Answered s r .ok (w32 (mapCount s.part))
          { popRequest s.part with si := { s.part.si with outMap := s.part.si.outMap.map (fun x => if x.output = o then e else x) } }) ∧
      (outEntry s.part o = none → 96 ≤ mapCount s.part → exec .mapWrite s = Answered s r .full [] (popRequest s.part))) ∧
    (∀ node channel role index i, Asks s.part 22 [4, 4, 4, 4, 4] [1, node, channel, role, index] r → inputOfCodes role index = some i →
      1 ≤ node → node ≤ 239 → s.part.node ≠ some node → channel ≤ 255 →
      let e : InEntry := { node := BitVec.ofNat 8 node, channel := BitVec.ofNat 8 channel, input := i, state := .waiting, last := none }
      let keyed (x : InEntry) : Prop := x.node = e.node ∧ x.channel = e.channel
      ((∃ x ∈ s.part.si.inMap, x.input = i ∧ ¬ keyed x) → exec .mapWrite s = Answered s r .conflict [] (popRequest s.part)) ∧
      ((∀ x ∈ s.part.si.inMap, x.input = i → keyed x) →
        ((∃ x ∈ s.part.si.inMap, keyed x) →
          ∃ l, exec .mapWrite s = Answered s r .ok (w32 (mapCount s.part)) { popRequest s.part with si := { s.part.si with inMap := l } }
            ∧ l.length = s.part.si.inMap.length
            ∧ ∀ (k : Nat) (x : InEntry), s.part.si.inMap[k]? = some x → (keyed x → l[k]? = some e) ∧ (¬ keyed x → l[k]? = some x)) ∧
        ((∀ x ∈ s.part.si.inMap, ¬ keyed x) →
          (mapCount s.part < 96 → exec .mapWrite s = Answered s r .ok (w32 (mapCount s.part + 1))
            { popRequest s.part with si := { s.part.si with inMap := s.part.si.inMap ++ [e] } }) ∧
          (96 ≤ mapCount s.part → exec .mapWrite s = Answered s r .full [] (popRequest s.part))))) ∧
    (∀ node channel, Asks s.part 23 [4, 4, 4] [1, node, channel] r → 1 ≤ node → node ≤ 239 → channel ≤ 255 →
      let keyed (x : InEntry) : Prop := x.node.toNat = node ∧ x.channel.toNat = channel
      ((∃ x ∈ s.part.si.inMap, keyed x) →
        ∃ l, exec .mapClear s = Answered s r .ok (w32 (l.length + s.part.si.outMap.length))
            { popRequest s.part with si := { s.part.si with inMap := l } }
          ∧ l.Sublist s.part.si.inMap ∧ ∀ x, x ∈ l ↔ x ∈ s.part.si.inMap ∧ ¬ keyed x) ∧
      ((∀ x ∈ s.part.si.inMap, ¬ keyed x) → exec .mapClear s = Answered s r .notFound [] (popRequest s.part))) ∧
    (∀ role index o, Asks s.part 23 [4, 4, 4] [2, role, index] r → outputOfCodes role index = some o → (outEntry s.part o).isSome →
      ∃ l, exec .mapClear s = Answered s r .ok (w32 (s.part.si.inMap.length + l.length))
          { popRequest s.part with si := { s.part.si with outMap := l } }
        ∧ l.Sublist s.part.si.outMap ∧ ∀ x, x ∈ l ↔ x ∈ s.part.si.outMap ∧ x.output ≠ o) ∧
    (Asks s.part 23 [4, 4, 4] [0, 0, 0] r →
      exec .mapClear s = Answered s r .ok (w32 0) { popRequest s.part with si := { s.part.si with inMap := [], outMap := [] } }) ∧
    (∀ role index o, Asks s.part 23 [4, 4, 4] [2, role, index] r → outputOfCodes role index = some o → outEntry s.part o = none →
      exec .mapClear s = Answered s r .notFound [] (popRequest s.part)) ∧
    (Asks s.part 24 [] [] r →
      exec .rosterClear s = Answered s r .ok (w32 s.part.rif.roster.length)
        { popRequest s.part with rif := { s.part.rif with roster := [] } })

/-- READ ALARMS answers the generation's low byte, the set of latches with bit i for alarm i, and the 37 counts in alarm-number order, records the read and raises the
generation by 1, in either mode. -/
def Obligations.ReadAlarmsAnswersLatches : Prop :=
  ∀ (s : State) (r : Request), Asks s.part 46 [] [] r →
    ∃ set : Nat, (∀ w : Alarm, set.testBit w.idx.val = (alarmOf s.part w).latch) ∧ set < 2 ^ 37 ∧
      exec .readAlarms s = Answered s r .ok
        ([BitVec.ofNat 8 s.part.mu.generation] ++ bytesOf 8 set
          ++ s.part.mu.alarms.toList.map (fun x => BitVec.ofNat 8 x.count))
        { popRequest s.part with mu := { (popRequest s.part).mu with readMade := true, generation := s.part.mu.generation + 1 } }

/-- SET NOTICE MASK stores the mask and answers the old one, and refuses a mask with a bit above 36. -/
def Obligations.NoticeMaskIsStored : Prop :=
  ∀ (s : State) (r : Request) (m : Nat), Asks s.part 48 [8] [m] r →
    (m < 2 ^ 37 → exec .setNoticeMask s = Answered s r .ok (bytesOf 8 s.part.mu.mask.toNat)
      { popRequest s.part with mu := { (popRequest s.part).mu with mask := BitVec.ofNat 64 m } }) ∧
    (2 ^ 37 ≤ m → exec .setNoticeMask s = Answered s r .badArg [] (popRequest s.part))

/-- ACK ALARMS: the acknowledged generation is the greatest below the present one whose low 8 bits are the token; the latches with a stamp at or below it are cleared, the others and all
counts and stamps stay; without such a generation, or before any read, the request is refused with STATE, and with a token above 255 with BAD_ARG. The reply carries the latches after the clearing and how many were cleared. Where OFF_GRADE was
among them while a stand holds an open OFF_GRADE entry, it occurs again once the reply has been posted, and is latched with the present generation. -/
def Obligations.AckClearsSeenLatches : Prop :=
  ∀ (s : State) (r : Request) (token : Nat), Asks s.part 47 [4] [token] r →
    (255 < token → exec .ackAlarms s = Answered s r .badArg [] (popRequest s.part)) ∧
    (token ≤ 255 →
      (∀ g, acknowledged s.part.mu.generation token = some g ↔
        g < s.part.mu.generation ∧ g % 256 = token ∧ ∀ h, h < s.part.mu.generation → h % 256 = token → h ≤ g) ∧
      (s.part.mu.readMade = false ∨ acknowledged s.part.mu.generation token = none →
        exec .ackAlarms s = Answered s r .state [] (popRequest s.part)) ∧
      (∀ g, s.part.mu.readMade = true → acknowledged s.part.mu.generation token = some g →
        let seen (w : AlarmRecord) : Bool := w.latch && decide (w.stamp ≤ g)
        let again := seen (alarmOf s.part .offGrade) = true ∧ ∃ e ∈ s.part.wt.track, (∃ i tag, e.kind = .offGrade i tag) ∧ e.extent = none
        ∃ q : Part,
          let results := latchSet q ++ w32 (s.part.mu.alarms.toList.filter seen).length
          (¬ again → exec .ackAlarms s = Answered s r .ok results q)
          ∧ (again →
              let t := latch .offGrade (postReply r .ok results q)
              exec .ackAlarms s = .next { s with part := t } ∧ alarmOf t .offGrade
                = { latch := true, count := min 255 ((alarmOf s.part .offGrade).count + 1), stamp := s.part.mu.generation })
          ∧ (∀ w : Alarm, alarmOf q w = { alarmOf s.part w with
                latch := (alarmOf s.part w).latch && decide (g < (alarmOf s.part w).stamp) })
          ∧ q.wt = s.part.wt ∧ q.rif = s.part.rif ∧ q.mu.generation = s.part.mu.generation))

/-- An occurrence of an alarm sets its latch, raises its count to at most 255, stamps it with the present generation, leaves the other alarms, and gives a notice exactly when the
latch was clear and the alarm is enabled; a latch is such an occurrence, with its notice posted. A live counter rises by the amount up to its maximum, sets its saturation flag beyond it, never falls, and leaves the other counters; where the
flag was clear before, COUNTER_SATURATED is latched. A notice posted in a part with a node number enters the normal queue at its tail while that holds fewer than 32 frames and none waits for it, and a port that is IDLE sends it; else it is lost:
the count of lost notices rises by 1, and where that sets its flag COUNTER_SATURATED occurs, whose own notice is lost too. -/
def Obligations.OccurrencesAndRises : Prop :=
  (∀ (p : Part) (w : Alarm),
    alarmOf (occur w p).1 w = { latch := true, count := min 255 ((alarmOf p w).count + 1), stamp := p.mu.generation } ∧
    (∀ v, v ≠ w → alarmOf (occur w p).1 v = alarmOf p v) ∧
    ((occur w p).2.isSome ↔ (alarmOf p w).latch = false ∧ enabled p w = true) ∧ (occur w p).1.wt = p.wt ∧ (occur w p).1.rif = p.rif) ∧
  (∀ (p : Part) (c : Counter) (n : Nat), (counterOf p c).value ≤ c.max →
    let r := bump c n p
    (counterOf r.1 c).value = min c.max ((counterOf p c).value + n) ∧
    ((counterOf r.1 c).saturated = true ↔ (counterOf p c).saturated = true ∨ c.max < (counterOf p c).value + n) ∧
    (r.2 = true ↔ (counterOf p c).saturated = false ∧ c.max < (counterOf p c).value + n) ∧
    (∀ d, d ≠ c → counterOf r.1 d = counterOf p d) ∧ r.1.rif = p.rif ∧ r.1.wt = p.wt) ∧
  (∀ (p : Part) (w : Alarm),
    let r := alarmOf p w
    let q := (occur w p).1
    (r.latch = false → enabled p w = true → latch w p = postNotice (.alarm w (min 255 (r.count + 1)) p.mu.generation) q) ∧
    (r.latch = true ∨ enabled p w = false → latch w p = kick q)) ∧
  (∀ (p : Part) (c : Counter) (n : Nat),
    let r := bump c n p
    (r.2 = false → raise c n p = kick r.1) ∧ (r.2 = true → raise c n p = latch .counterSaturated r.1)) ∧
  (∀ (p : Part) (n : Notice), p.node.isSome →
    let t := postNotice n p
    let full := 32 ≤ p.rif.normal.length ∨ p.rif.normalWait ≠ []
    let lost := bump .noticesLost 1 p
    (¬ full → OnItsWay t (.notice n) ∧ (p.rif.port.isSome → t = { p with rif := { p.rif with normal := p.rif.normal ++ [.notice n] } })) ∧
    (full → lost.2 = false → t = kick lost.1) ∧
    (full → lost.2 = true → t = kick (occur .counterSaturated lost.1).1)) ∧
  (∀ (p : Part) (n : Notice), p.node = none → postNotice n p = kick p) ∧
  (∀ p : Part, p.rif.port.isSome ∨ (p.rif.urgent = [] ∧ p.rif.normal = [] ∧ p.rif.forward = []) → kick p = p)

/-- SNAPSHOT copies every live counter with its flag, B and the time since the last clear, and marks the copy taken; SNAPSHOT CLEAR makes the same copy and then clears the live
counters and flags at the present time; both in either mode. After reset the snapshot set is 0 with no copy taken, and the time of the last clear is 0; RESTART restores these
values but for the time of the last clear, which becomes the part time. -/
def Obligations.SnapshotCopiesCounters : Prop :=
  (∀ (s : State) (r : Request),
    let copy : Snapshot :=
      { counters := s.part.mu.counters, b := posB s.part, elapsed := s.part.time - s.part.mu.lastClear, taken := true }
    (Asks s.part 49 [] [] r →
      exec .snapshot s = Answered s r .ok [] { popRequest s.part with mu := { (popRequest s.part).mu with snap := copy } }) ∧
    (Asks s.part 50 [] [] r →
      exec .snapshotClear s = Answered s r .ok []
        { popRequest s.part with mu := { (popRequest s.part).mu with
            snap := copy, counters := Vector.replicate 30 { value := 0, saturated := false }, lastClear := s.part.time } })) ∧
  (let zero : Snapshot := { counters := Vector.replicate 30 { value := 0, saturated := false }, b := 0, elapsed := 0, taken := false }
   (∀ (b : Byte) (s : State), ∃ q : Part, exec (.powerOnReset b) s = .next { s with part := q } ∧ q.mu.snap = zero ∧ q.mu.lastClear = 0) ∧
   (∀ (s : State) (r : Request), Asks s.part 3 [] [] r →
      ∃ q : Part, exec .restart s = Answered s r .ok [] q ∧ q.mu.snap = zero ∧ q.mu.lastClear = s.part.time))

/-- READ STATUS in the layouts that are the model's own (log 8): section 0 answers the mode, the node number, the part time, the line form, the queued requests, whether a reply waits, the
generation's low byte and the number of latches; section 1 the positions, the speeds, the bridges, the ENCODER contribution and the list's occupancy; section 4 the slitter's and the knife's record;
section 5 the cut queue and the run's counts. The other sections carry a list, of which the reply takes the items from the start index on, as many as fit in its 116 bytes, with the next index after them, positions counted among those in use: section 2 the stands in use;
section 3 the glue units in use, the wraps and the zones in use, where a zone carries the requested recipe's target before the acting one's (log 31); section 6 the 21 contributions between the effective ceiling and the binding
slots, with the line max not binding in CONFIG, the model's choice (log 40); section 7 the queues and the OUT entries whose node is absent from the roster; section 8 the roster; section 9 the IN entries. A start index beyond the list is refused with BAD_ARG, but for 0 of an empty list, and a
section above 9 too. READ TRACK answers the list's occupancy, its DEFECT, BOND and
MARK count, the credit and the entry at the index, and an index at or beyond the occupancy without an entry; READ COUNTERS whether a copy has been taken and a page of the snapshot set, and refuses a page above 1. None of them changes the part. -/
def Obligations.StatusTrackAndCounterReads : Prop :=
  ∀ (s : State) (r : Request),
    let p := s.part
    (∀ n i, Asks p 44 [4, 4] [n, i] r →
      (n = 0 → exec .readStatus s = Answered s r .ok
        (w32 (if p.mu.mode = .config then 0 else 1) ++ w32 (p.node.getD 0) ++ w64 p.time ++ w32 (if p.wt.line = .single then 1 else 2)
          ++ w32 p.mu.queue.tail.length ++ w32 0 ++ w32 (p.mu.generation % 256)
          ++ w32 (p.mu.alarms.toList.filter (fun x => x.latch)).length) (popRequest p)) ∧
      (n = 1 →
        let bridge (f : Fin 2) : List Byte :=
          i64 (bridgeK p f) ++ i64 ((posF p f : Int) + bridgeK p f - posB p - (p.wt.bridges.get f).lfix) ++ flag (p.wt.bridges.get f).low
            ++ flag (p.wt.bridges.get f).high
        exec .readStatus s = Answered s r .ok
          (w64 (posB p) ++ w64 (posF p 0) ++ w64 (posF p 1) ++ w32 (p.wt.board.history.sum / 8) ++ w32 ((p.wt.feeders.get 0).history.sum / 8)
            ++ w32 ((p.wt.feeders.get 1).history.sum / 8) ++ bridge 0 ++ bridge 1 ++ flag (slotActive p .encoder)
            ++ w32 (p.sg.slots.get Slot.encoder.idx).value ++ w32 p.wt.track.length ++ w32 (dbmCount p)) (popRequest p)) ∧
      (n = 4 →
        let d := p.dec
        let station : List Byte :=
          match d.inactive with
          | .free => w32 1 ++ opt32 none
          | .presetting x => w32 2 ++ opt32 (some x)
          | .ready x => w32 3 ++ opt32 (some x)
        let swap : Nat := match d.swap with | .none => 1 | .requested => 2 | .done => 3
        let record : List Byte :=
          match d.swapRec with
          | none => opt64 none ++ opt32 none ++ opt32 none ++ opt32 none
          | some x => w64 x.start ++ opt32 x.entry ++ w32 x.extent ++ w32 (if x.late then 1 else 0)
        exec .readStatus s = Answered s r .ok
          (opt32 d.active ++ station ++ w32 swap ++ record ++ present32 d.cLast ++ opt64 d.kLast
            ++ opt32 (d.cLast.map (fun n => n % 65536)) ++ w32 (changeList p).length ++ w32 (divertList p).length) (popRequest p)) ∧
      (n = 5 →
        let c := p.sc
        let head : List Byte :=
          match c.cuts with
          | [] => present32 none ++ present32 none ++ opt64 none ++ opt32 none ++ opt32 none
          | e :: _ => present32 (some e.cut) ++ present32 (some e.tag) ++ w64 e.knifeTime ++ w32 (if e.stackEnd then 1 else 0)
              ++ w32 (if e.orderEnd then 1 else 0)
        exec .readStatus s = Answered s r .ok
          (w32 c.cuts.length ++ head ++ w32 (if c.backlog then 1 else 0) ++ opt32 (c.lastArrival.map BitVec.toNat)
            ++ w32 (stackerList p).length ++ w32 c.entered ++ w32 c.stacked ++ w32 c.missing ++ w32 c.phantom) (popRequest p)) ∧
      (let listed (fields : List Byte) (items : List (List Byte)) (after : List Byte) : Prop :=
         let size (l : List (List Byte)) : Nat := fields.length + l.flatten.length + after.length + 4
         (items.length ≤ i ∧ ¬ (items = [] ∧ i = 0) → exec .readStatus s = Answered s r .badArg [] (popRequest p)) ∧
         (i < items.length ∨ (items = [] ∧ i = 0) →
           ∃ k : Nat, i + k ≤ items.length ∧ size ((items.drop i).take k) ≤ 116
             ∧ (i + k < items.length → 116 < size ((items.drop i).take (k + 1)))
             ∧ exec .readStatus s = Answered s r .ok
                 (fields ++ ((items.drop i).take k).flatten ++ after ++ opt32 (if k ≠ 0 ∧ i + k < items.length then some (i + k) else none)) (popRequest p))
       let contribution (c : Contribution) : List Byte := flag c.active ++ w32 c.value
       (n = 2 →
         let arm (a : ArmRecord) : List Byte :=
           w32 (match a.state with | .empty => 0 | .loaded => 1 | .prepared => 2 | .running => 3) ++ present32 a.reel ++ w32 a.grade ++ opt32 a.caliper
             ++ opt32 a.core
         let plan (x : Option Plan) : List Byte :=
           match x with
           | none => opt32 none ++ present32 none ++ opt64 none ++ opt32 none
           | some y => opt32 (some y.grade) ++ present32 (some y.tag) ++ opt64 (some y.target) ++ opt32 (some (if y.reached then 2 else 1))
         let stand (x : Fin 5) : List Byte :=
           let st := standOf p x
           opt32 (effective p x) ++ w32 (match standing p x with | .far => 1 | .near => 2 | .due => 3 | .unknown => 4)
             ++ w32 (match st.splice with | .idle => 0 | .armed => 1 | .sent => 2 | .active => 3) ++ opt32 (st.recent.map (fun g => g.seq.toNat))
             ++ plan st.plan ++ arm st.armA ++ arm st.armB ++ w32 st.g0 ++ flag st.awaiting
         listed [] ((List.finRange 5).filter (standInUse p) |>.map stand) []) ∧
       (n = 3 →
         let glue (g : Fin 3) : List Byte :=
           let u := p.bc.glue.get g
           opt32 u.acting ++ opt32 u.requested ++ opt32 u.last ++ flag u.deviation
         let wrap (w : Fin 3) : List Byte := opt32 (p.bc.wraps.get w).acting ++ opt32 (p.bc.wraps.get w).requested ++ opt32 (p.bc.wraps.get w).last
         let zone (z : Fin 8) : List Byte :=
           let u := p.bc.zones.get z
           let target (x : Option Nat) : Option Nat := (recipeIn p x).map (fun y => y.zoneTarget.get z)
           opt32 u.acting ++ opt32 u.requested ++ opt32 u.last ++ w32 (match u.state with | .stale => 1 | .unset => 2 | .settled => 3 | .tracking => 4)
             ++ presentI32 (if u.history = [] then none else some (u.history.sum / u.history.length)) ++ opt32 (target u.requested)
             ++ opt32 (target u.acting) ++ presentI32 (deficit p z) ++ contribution (p.sg.slots.get (Slot.heat z).idx)
         listed [] ((List.finRange 3).filter (glueInUse p) |>.map glue |>.append ((List.finRange 3).map wrap)
           |>.append ((List.finRange 8).filter (zoneInUse p) |>.map zone)) []) ∧
       (n = 6 → ∃ set : Nat, set < 2 ^ 21 ∧
         (∀ x : Slot, set.testBit x.idx.val = ((p.sg.slots.get x.idx).active && decide (p.sg.effective = some (p.sg.slots.get x.idx).value))) ∧
         let lineBinds := p.sg.effective.isSome && p.sg.slots.toList.all (fun c => !(c.active && decide (c.value < p.sg.lineMax)))
         listed (opt32 p.sg.effective ++ opt32 p.sg.lastPosted) (p.sg.slots.toList.map contribution)
           (w32 set ++ flag lineBinds ++ w32 p.sg.lineMax ++ w32 p.sg.crawl ++ w32 p.sg.refreshPeriod)) ∧
       (n = 7 →
         let absent := p.si.outMap.filter (fun e => p.rif.roster.all (fun x => !decide (x.node = e.node.toNat)))
         listed (w32 p.rif.urgent.length ++ w32 p.rif.normal.length ++ w32 p.rif.forward.length ++ w32 ((p.rif.urgentWait ++ p.rif.normalWait).countP (fun w => match w.msg with | .command c _ _ => c.setpoint | _ => false))
             ++ w32 p.rif.forwardCount ++ w32 (match p.rif.port with | none => 1 | some _ => 2) ++ w32 p.rif.roster.length)
           (absent.map (fun e => w32 e.output.roleCode ++ w32 e.output.index)) []) ∧
       (n = 8 → listed [] (p.rif.roster.map (fun e => w32 e.node)) []) ∧
       (n = 9 → listed [] (p.si.inMap.map (fun e => w32 e.input.role.code ++ w32 e.input.index
         ++ w32 (match e.state with | .waiting => 1 | .fresh => 2 | .stale => 3) ++ opt64 (e.last.map (fun t => p.time - t)))) [])) ∧
      (9 < n → exec .readStatus s = Answered s r .badArg [] (popRequest p))) ∧
    (∀ i, Asks p 45 [4] [i] r →
      (∀ e, i ≤ 63 → p.wt.track[i]? = some e →
        exec .readTrack s = Answered s r .ok
          (w32 p.wt.track.length ++ w32 (dbmCount p) ++ w32 p.wt.credit ++ entryFields e
            ++ opt32 (nextIndex i 1 p.wt.track.length)) (popRequest p)) ∧
      (i ≤ 63 → p.wt.track.length ≤ i →
        exec .readTrack s = Answered s r .ok
          (w32 p.wt.track.length ++ w32 (dbmCount p) ++ w32 p.wt.credit ++ opt32 none) (popRequest p)) ∧
      (63 < i → exec .readTrack s = Answered s r .badArg [] (popRequest p))) ∧
    (let value (c : Counter) : List Byte := w32 (p.mu.snap.counters.get c.idx).value
     (Asks p 51 [4] [0] r →
      exec .readCounters s = Answered s r .ok
        (w32 (if p.mu.snap.taken then 1 else 0) ++ (w64 (p.mu.snap.counters.get Counter.boardLength.idx).value ++ w64 p.mu.snap.b
          ++ w64 p.mu.snap.elapsed ++ (value .stackedCuts ++ value .goodSheets
          ++ ([.noOrder, .untracked, .registration, .length, .straddle, .swap, .splice, .offGrade, .bond, .defect, .mark, .backlog]
                : List Cause).flatMap (fun c => value (.culled c))
          ++ value .droppedDefects))) (popRequest p)) ∧
     (Asks p 51 [4] [1] r →
      ∃ set : Nat, set < 2 ^ 30 ∧ (∀ c : Counter, set.testBit c.idx.val = (p.mu.snap.counters.get c.idx).saturated) ∧
        exec .readCounters s = Answered s r .ok
          (w32 (if p.mu.snap.taken then 1 else 0) ++ (value (.splices 0) ++ value (.splices 1) ++ value (.splices 2) ++ value (.splices 3)
            ++ value (.splices 4) ++ value .framesReceived ++ value .framesForwarded
            ++ ([.check, .stripped, .notRequest, .hopExpired, .forwardOverrun] : List DropReason).flatMap (fun x => value (.framesDropped x))
            ++ value .busyReplies ++ value .noticesLost ++ w32 set)) (popRequest p))) ∧
    (∀ n, 1 < n → Asks p 51 [4] [n] r → exec .readCounters s = Answered s r .badArg [] (popRequest p))
end

