-- ==== Sys2Proof/Laws/State.lean ====
section
/-! SUPPORT. What each named update of the part changes and leaves, field by field, and the one-place update of a table. -/

namespace Sys2Proof

/-! ## One place of a table -/

@[simp] theorem get_upd_same {α : Type} {n : Nat} (v : Vector α n) (i : Fin n) (x : α) : (upd v i x).get i = x := by
  simp [upd, Vector.get_eq_getElem]

theorem get_upd {α : Type} {n : Nat} (v : Vector α n) (i j : Fin n) (x : α) :
    (upd v i x).get j = if j = i then x else v.get j := by
  simp only [upd, Vector.get_eq_getElem, Vector.getElem_set, Fin.ext_iff, eq_comm]

@[simp] theorem get_upd_ne {α : Type} {n : Nat} (v : Vector α n) {i j : Fin n} (x : α) (h : j ≠ i) :
    (upd v i x).get j = v.get j := by
  rw [get_upd, if_neg h]

@[simp] theorem upd_upd {α : Type} {n : Nat} (v : Vector α n) (i : Fin n) (x y : α) : upd (upd v i x) i y = upd v i y := by
  refine Vector.ext fun k _ => ?_
  simp [upd, Vector.getElem_set]

@[simp] theorem upd_get_self {α : Type} {n : Nat} (v : Vector α n) (i : Fin n) : upd v i (v.get i) = v := by
  simp [upd, Vector.get_eq_getElem]

end Sys2Proof

namespace Sys2Proof.Machine

/-! ## The fields that an update leaves -/

@[simp] theorem setStandRec_time (p : Part) (s : Fin 5) (x : Stand) : (setStandRec p s x).time = p.time := rfl
@[simp] theorem setStandRec_node (p : Part) (s : Fin 5) (x : Stand) : (setStandRec p s x).node = p.node := rfl
@[simp] theorem setStandRec_free (p : Part) (s : Fin 5) (x : Stand) : (setStandRec p s x).free = p.free := rfl
@[simp] theorem setStandRec_rif (p : Part) (s : Fin 5) (x : Stand) : (setStandRec p s x).rif = p.rif := rfl
@[simp] theorem setStandRec_si (p : Part) (s : Fin 5) (x : Stand) : (setStandRec p s x).si = p.si := rfl
@[simp] theorem setStandRec_wt (p : Part) (s : Fin 5) (x : Stand) : (setStandRec p s x).wt = p.wt := rfl
@[simp] theorem setStandRec_os (p : Part) (s : Fin 5) (x : Stand) : (setStandRec p s x).os = p.os := rfl
@[simp] theorem setStandRec_bc (p : Part) (s : Fin 5) (x : Stand) : (setStandRec p s x).bc = p.bc := rfl
@[simp] theorem setStandRec_dec (p : Part) (s : Fin 5) (x : Stand) : (setStandRec p s x).dec = p.dec := rfl
@[simp] theorem setStandRec_sc (p : Part) (s : Fin 5) (x : Stand) : (setStandRec p s x).sc = p.sc := rfl
@[simp] theorem setStandRec_sg (p : Part) (s : Fin 5) (x : Stand) : (setStandRec p s x).sg = p.sg := rfl
@[simp] theorem setStandRec_mu (p : Part) (s : Fin 5) (x : Stand) : (setStandRec p s x).mu = p.mu := rfl

@[simp] theorem setTrack_time (p : Part) (l : List TrackEntry) : (setTrack p l).time = p.time := rfl
@[simp] theorem setTrack_node (p : Part) (l : List TrackEntry) : (setTrack p l).node = p.node := rfl
@[simp] theorem setTrack_free (p : Part) (l : List TrackEntry) : (setTrack p l).free = p.free := rfl
@[simp] theorem setTrack_rif (p : Part) (l : List TrackEntry) : (setTrack p l).rif = p.rif := rfl
@[simp] theorem setTrack_si (p : Part) (l : List TrackEntry) : (setTrack p l).si = p.si := rfl
@[simp] theorem setTrack_os (p : Part) (l : List TrackEntry) : (setTrack p l).os = p.os := rfl
@[simp] theorem setTrack_rsc (p : Part) (l : List TrackEntry) : (setTrack p l).rsc = p.rsc := rfl
@[simp] theorem setTrack_bc (p : Part) (l : List TrackEntry) : (setTrack p l).bc = p.bc := rfl
@[simp] theorem setTrack_dec (p : Part) (l : List TrackEntry) : (setTrack p l).dec = p.dec := rfl
@[simp] theorem setTrack_sc (p : Part) (l : List TrackEntry) : (setTrack p l).sc = p.sc := rfl
@[simp] theorem setTrack_sg (p : Part) (l : List TrackEntry) : (setTrack p l).sg = p.sg := rfl
@[simp] theorem setTrack_mu (p : Part) (l : List TrackEntry) : (setTrack p l).mu = p.mu := rfl

@[simp] theorem keepEntries_time (c : TrackEntry → Bool) (p : Part) : (keepEntries c p).time = p.time := rfl
@[simp] theorem keepEntries_node (c : TrackEntry → Bool) (p : Part) : (keepEntries c p).node = p.node := rfl
@[simp] theorem keepEntries_free (c : TrackEntry → Bool) (p : Part) : (keepEntries c p).free = p.free := rfl
@[simp] theorem keepEntries_rif (c : TrackEntry → Bool) (p : Part) : (keepEntries c p).rif = p.rif := rfl
@[simp] theorem keepEntries_si (c : TrackEntry → Bool) (p : Part) : (keepEntries c p).si = p.si := rfl
@[simp] theorem keepEntries_os (c : TrackEntry → Bool) (p : Part) : (keepEntries c p).os = p.os := rfl
@[simp] theorem keepEntries_rsc (c : TrackEntry → Bool) (p : Part) : (keepEntries c p).rsc = p.rsc := rfl
@[simp] theorem keepEntries_bc (c : TrackEntry → Bool) (p : Part) : (keepEntries c p).bc = p.bc := rfl
@[simp] theorem keepEntries_dec (c : TrackEntry → Bool) (p : Part) : (keepEntries c p).dec = p.dec := rfl
@[simp] theorem keepEntries_sc (c : TrackEntry → Bool) (p : Part) : (keepEntries c p).sc = p.sc := rfl
@[simp] theorem keepEntries_sg (c : TrackEntry → Bool) (p : Part) : (keepEntries c p).sg = p.sg := rfl
@[simp] theorem keepEntries_mu (c : TrackEntry → Bool) (p : Part) : (keepEntries c p).mu = p.mu := rfl

@[simp] theorem replaceEntry_time (e : TrackEntry) (p : Part) : (replaceEntry e p).time = p.time := rfl
@[simp] theorem replaceEntry_node (e : TrackEntry) (p : Part) : (replaceEntry e p).node = p.node := rfl
@[simp] theorem replaceEntry_free (e : TrackEntry) (p : Part) : (replaceEntry e p).free = p.free := rfl
@[simp] theorem replaceEntry_rif (e : TrackEntry) (p : Part) : (replaceEntry e p).rif = p.rif := rfl
@[simp] theorem replaceEntry_si (e : TrackEntry) (p : Part) : (replaceEntry e p).si = p.si := rfl
@[simp] theorem replaceEntry_os (e : TrackEntry) (p : Part) : (replaceEntry e p).os = p.os := rfl
@[simp] theorem replaceEntry_rsc (e : TrackEntry) (p : Part) : (replaceEntry e p).rsc = p.rsc := rfl
@[simp] theorem replaceEntry_bc (e : TrackEntry) (p : Part) : (replaceEntry e p).bc = p.bc := rfl
@[simp] theorem replaceEntry_dec (e : TrackEntry) (p : Part) : (replaceEntry e p).dec = p.dec := rfl
@[simp] theorem replaceEntry_sc (e : TrackEntry) (p : Part) : (replaceEntry e p).sc = p.sc := rfl
@[simp] theorem replaceEntry_sg (e : TrackEntry) (p : Part) : (replaceEntry e p).sg = p.sg := rfl
@[simp] theorem replaceEntry_mu (e : TrackEntry) (p : Part) : (replaceEntry e p).mu = p.mu := rfl

@[simp] theorem setBoard_time (p : Part) (e : Encoder) : (setBoard p e).time = p.time := rfl
@[simp] theorem setBoard_node (p : Part) (e : Encoder) : (setBoard p e).node = p.node := rfl
@[simp] theorem setBoard_free (p : Part) (e : Encoder) : (setBoard p e).free = p.free := rfl
@[simp] theorem setBoard_rif (p : Part) (e : Encoder) : (setBoard p e).rif = p.rif := rfl
@[simp] theorem setBoard_si (p : Part) (e : Encoder) : (setBoard p e).si = p.si := rfl
@[simp] theorem setBoard_os (p : Part) (e : Encoder) : (setBoard p e).os = p.os := rfl
@[simp] theorem setBoard_rsc (p : Part) (e : Encoder) : (setBoard p e).rsc = p.rsc := rfl
@[simp] theorem setBoard_bc (p : Part) (e : Encoder) : (setBoard p e).bc = p.bc := rfl
@[simp] theorem setBoard_dec (p : Part) (e : Encoder) : (setBoard p e).dec = p.dec := rfl
@[simp] theorem setBoard_sc (p : Part) (e : Encoder) : (setBoard p e).sc = p.sc := rfl
@[simp] theorem setBoard_sg (p : Part) (e : Encoder) : (setBoard p e).sg = p.sg := rfl
@[simp] theorem setBoard_mu (p : Part) (e : Encoder) : (setBoard p e).mu = p.mu := rfl

@[simp] theorem setFeeder_time (p : Part) (f : Fin 2) (e : Encoder) : (setFeeder p f e).time = p.time := rfl
@[simp] theorem setFeeder_node (p : Part) (f : Fin 2) (e : Encoder) : (setFeeder p f e).node = p.node := rfl
@[simp] theorem setFeeder_free (p : Part) (f : Fin 2) (e : Encoder) : (setFeeder p f e).free = p.free := rfl
@[simp] theorem setFeeder_rif (p : Part) (f : Fin 2) (e : Encoder) : (setFeeder p f e).rif = p.rif := rfl
@[simp] theorem setFeeder_si (p : Part) (f : Fin 2) (e : Encoder) : (setFeeder p f e).si = p.si := rfl
@[simp] theorem setFeeder_os (p : Part) (f : Fin 2) (e : Encoder) : (setFeeder p f e).os = p.os := rfl
@[simp] theorem setFeeder_rsc (p : Part) (f : Fin 2) (e : Encoder) : (setFeeder p f e).rsc = p.rsc := rfl
@[simp] theorem setFeeder_bc (p : Part) (f : Fin 2) (e : Encoder) : (setFeeder p f e).bc = p.bc := rfl
@[simp] theorem setFeeder_dec (p : Part) (f : Fin 2) (e : Encoder) : (setFeeder p f e).dec = p.dec := rfl
@[simp] theorem setFeeder_sc (p : Part) (f : Fin 2) (e : Encoder) : (setFeeder p f e).sc = p.sc := rfl
@[simp] theorem setFeeder_sg (p : Part) (f : Fin 2) (e : Encoder) : (setFeeder p f e).sg = p.sg := rfl
@[simp] theorem setFeeder_mu (p : Part) (f : Fin 2) (e : Encoder) : (setFeeder p f e).mu = p.mu := rfl

@[simp] theorem setBridgeRec_time (p : Part) (f : Fin 2) (b : Bridge) : (setBridgeRec p f b).time = p.time := rfl
@[simp] theorem setBridgeRec_node (p : Part) (f : Fin 2) (b : Bridge) : (setBridgeRec p f b).node = p.node := rfl
@[simp] theorem setBridgeRec_free (p : Part) (f : Fin 2) (b : Bridge) : (setBridgeRec p f b).free = p.free := rfl
@[simp] theorem setBridgeRec_rif (p : Part) (f : Fin 2) (b : Bridge) : (setBridgeRec p f b).rif = p.rif := rfl
@[simp] theorem setBridgeRec_si (p : Part) (f : Fin 2) (b : Bridge) : (setBridgeRec p f b).si = p.si := rfl
@[simp] theorem setBridgeRec_os (p : Part) (f : Fin 2) (b : Bridge) : (setBridgeRec p f b).os = p.os := rfl
@[simp] theorem setBridgeRec_rsc (p : Part) (f : Fin 2) (b : Bridge) : (setBridgeRec p f b).rsc = p.rsc := rfl
@[simp] theorem setBridgeRec_bc (p : Part) (f : Fin 2) (b : Bridge) : (setBridgeRec p f b).bc = p.bc := rfl
@[simp] theorem setBridgeRec_dec (p : Part) (f : Fin 2) (b : Bridge) : (setBridgeRec p f b).dec = p.dec := rfl
@[simp] theorem setBridgeRec_sc (p : Part) (f : Fin 2) (b : Bridge) : (setBridgeRec p f b).sc = p.sc := rfl
@[simp] theorem setBridgeRec_sg (p : Part) (f : Fin 2) (b : Bridge) : (setBridgeRec p f b).sg = p.sg := rfl
@[simp] theorem setBridgeRec_mu (p : Part) (f : Fin 2) (b : Bridge) : (setBridgeRec p f b).mu = p.mu := rfl

@[simp] theorem modifyRegion_time (tag : Nat) (f : Region → Region) (p : Part) : (modifyRegion tag f p).time = p.time := rfl
@[simp] theorem modifyRegion_node (tag : Nat) (f : Region → Region) (p : Part) : (modifyRegion tag f p).node = p.node := rfl
@[simp] theorem modifyRegion_free (tag : Nat) (f : Region → Region) (p : Part) : (modifyRegion tag f p).free = p.free := rfl
@[simp] theorem modifyRegion_rif (tag : Nat) (f : Region → Region) (p : Part) : (modifyRegion tag f p).rif = p.rif := rfl
@[simp] theorem modifyRegion_si (tag : Nat) (f : Region → Region) (p : Part) : (modifyRegion tag f p).si = p.si := rfl
@[simp] theorem modifyRegion_wt (tag : Nat) (f : Region → Region) (p : Part) : (modifyRegion tag f p).wt = p.wt := rfl
@[simp] theorem modifyRegion_rsc (tag : Nat) (f : Region → Region) (p : Part) : (modifyRegion tag f p).rsc = p.rsc := rfl
@[simp] theorem modifyRegion_bc (tag : Nat) (f : Region → Region) (p : Part) : (modifyRegion tag f p).bc = p.bc := rfl
@[simp] theorem modifyRegion_dec (tag : Nat) (f : Region → Region) (p : Part) : (modifyRegion tag f p).dec = p.dec := rfl
@[simp] theorem modifyRegion_sc (tag : Nat) (f : Region → Region) (p : Part) : (modifyRegion tag f p).sc = p.sc := rfl
@[simp] theorem modifyRegion_sg (tag : Nat) (f : Region → Region) (p : Part) : (modifyRegion tag f p).sg = p.sg := rfl
@[simp] theorem modifyRegion_mu (tag : Nat) (f : Region → Region) (p : Part) : (modifyRegion tag f p).mu = p.mu := rfl

@[simp] theorem setRegions_time (p : Part) (l : List Region) : (setRegions p l).time = p.time := rfl
@[simp] theorem setRegions_node (p : Part) (l : List Region) : (setRegions p l).node = p.node := rfl
@[simp] theorem setRegions_free (p : Part) (l : List Region) : (setRegions p l).free = p.free := rfl
@[simp] theorem setRegions_rif (p : Part) (l : List Region) : (setRegions p l).rif = p.rif := rfl
@[simp] theorem setRegions_si (p : Part) (l : List Region) : (setRegions p l).si = p.si := rfl
@[simp] theorem setRegions_wt (p : Part) (l : List Region) : (setRegions p l).wt = p.wt := rfl
@[simp] theorem setRegions_rsc (p : Part) (l : List Region) : (setRegions p l).rsc = p.rsc := rfl
@[simp] theorem setRegions_bc (p : Part) (l : List Region) : (setRegions p l).bc = p.bc := rfl
@[simp] theorem setRegions_dec (p : Part) (l : List Region) : (setRegions p l).dec = p.dec := rfl
@[simp] theorem setRegions_sc (p : Part) (l : List Region) : (setRegions p l).sc = p.sc := rfl
@[simp] theorem setRegions_sg (p : Part) (l : List Region) : (setRegions p l).sg = p.sg := rfl
@[simp] theorem setRegions_mu (p : Part) (l : List Region) : (setRegions p l).mu = p.mu := rfl

@[simp] theorem modifyOpen_time (f : Region → Region) (p : Part) : (modifyOpen f p).time = p.time := rfl
@[simp] theorem modifyOpen_node (f : Region → Region) (p : Part) : (modifyOpen f p).node = p.node := rfl
@[simp] theorem modifyOpen_free (f : Region → Region) (p : Part) : (modifyOpen f p).free = p.free := rfl
@[simp] theorem modifyOpen_rif (f : Region → Region) (p : Part) : (modifyOpen f p).rif = p.rif := rfl
@[simp] theorem modifyOpen_si (f : Region → Region) (p : Part) : (modifyOpen f p).si = p.si := rfl
@[simp] theorem modifyOpen_wt (f : Region → Region) (p : Part) : (modifyOpen f p).wt = p.wt := rfl
@[simp] theorem modifyOpen_rsc (f : Region → Region) (p : Part) : (modifyOpen f p).rsc = p.rsc := rfl
@[simp] theorem modifyOpen_bc (f : Region → Region) (p : Part) : (modifyOpen f p).bc = p.bc := rfl
@[simp] theorem modifyOpen_dec (f : Region → Region) (p : Part) : (modifyOpen f p).dec = p.dec := rfl
@[simp] theorem modifyOpen_sc (f : Region → Region) (p : Part) : (modifyOpen f p).sc = p.sc := rfl
@[simp] theorem modifyOpen_sg (f : Region → Region) (p : Part) : (modifyOpen f p).sg = p.sg := rfl
@[simp] theorem modifyOpen_mu (f : Region → Region) (p : Part) : (modifyOpen f p).mu = p.mu := rfl

@[simp] theorem setOrders_time (p : Part) (l : List Order) : (setOrders p l).time = p.time := rfl
@[simp] theorem setOrders_node (p : Part) (l : List Order) : (setOrders p l).node = p.node := rfl
@[simp] theorem setOrders_free (p : Part) (l : List Order) : (setOrders p l).free = p.free := rfl
@[simp] theorem setOrders_rif (p : Part) (l : List Order) : (setOrders p l).rif = p.rif := rfl
@[simp] theorem setOrders_si (p : Part) (l : List Order) : (setOrders p l).si = p.si := rfl
@[simp] theorem setOrders_wt (p : Part) (l : List Order) : (setOrders p l).wt = p.wt := rfl
@[simp] theorem setOrders_rsc (p : Part) (l : List Order) : (setOrders p l).rsc = p.rsc := rfl
@[simp] theorem setOrders_bc (p : Part) (l : List Order) : (setOrders p l).bc = p.bc := rfl
@[simp] theorem setOrders_dec (p : Part) (l : List Order) : (setOrders p l).dec = p.dec := rfl
@[simp] theorem setOrders_sc (p : Part) (l : List Order) : (setOrders p l).sc = p.sc := rfl
@[simp] theorem setOrders_sg (p : Part) (l : List Order) : (setOrders p l).sg = p.sg := rfl
@[simp] theorem setOrders_mu (p : Part) (l : List Order) : (setOrders p l).mu = p.mu := rfl

@[simp] theorem setGlue_time (p : Part) (g : Fin 3) (x : GlueUnit) : (setGlue p g x).time = p.time := rfl
@[simp] theorem setGlue_node (p : Part) (g : Fin 3) (x : GlueUnit) : (setGlue p g x).node = p.node := rfl
@[simp] theorem setGlue_free (p : Part) (g : Fin 3) (x : GlueUnit) : (setGlue p g x).free = p.free := rfl
@[simp] theorem setGlue_rif (p : Part) (g : Fin 3) (x : GlueUnit) : (setGlue p g x).rif = p.rif := rfl
@[simp] theorem setGlue_si (p : Part) (g : Fin 3) (x : GlueUnit) : (setGlue p g x).si = p.si := rfl
@[simp] theorem setGlue_wt (p : Part) (g : Fin 3) (x : GlueUnit) : (setGlue p g x).wt = p.wt := rfl
@[simp] theorem setGlue_os (p : Part) (g : Fin 3) (x : GlueUnit) : (setGlue p g x).os = p.os := rfl
@[simp] theorem setGlue_rsc (p : Part) (g : Fin 3) (x : GlueUnit) : (setGlue p g x).rsc = p.rsc := rfl
@[simp] theorem setGlue_dec (p : Part) (g : Fin 3) (x : GlueUnit) : (setGlue p g x).dec = p.dec := rfl
@[simp] theorem setGlue_sc (p : Part) (g : Fin 3) (x : GlueUnit) : (setGlue p g x).sc = p.sc := rfl
@[simp] theorem setGlue_sg (p : Part) (g : Fin 3) (x : GlueUnit) : (setGlue p g x).sg = p.sg := rfl
@[simp] theorem setGlue_mu (p : Part) (g : Fin 3) (x : GlueUnit) : (setGlue p g x).mu = p.mu := rfl

@[simp] theorem setWrap_time (p : Part) (w : Fin 3) (x : WrapUnit) : (setWrap p w x).time = p.time := rfl
@[simp] theorem setWrap_node (p : Part) (w : Fin 3) (x : WrapUnit) : (setWrap p w x).node = p.node := rfl
@[simp] theorem setWrap_free (p : Part) (w : Fin 3) (x : WrapUnit) : (setWrap p w x).free = p.free := rfl
@[simp] theorem setWrap_rif (p : Part) (w : Fin 3) (x : WrapUnit) : (setWrap p w x).rif = p.rif := rfl
@[simp] theorem setWrap_si (p : Part) (w : Fin 3) (x : WrapUnit) : (setWrap p w x).si = p.si := rfl
@[simp] theorem setWrap_wt (p : Part) (w : Fin 3) (x : WrapUnit) : (setWrap p w x).wt = p.wt := rfl
@[simp] theorem setWrap_os (p : Part) (w : Fin 3) (x : WrapUnit) : (setWrap p w x).os = p.os := rfl
@[simp] theorem setWrap_rsc (p : Part) (w : Fin 3) (x : WrapUnit) : (setWrap p w x).rsc = p.rsc := rfl
@[simp] theorem setWrap_dec (p : Part) (w : Fin 3) (x : WrapUnit) : (setWrap p w x).dec = p.dec := rfl
@[simp] theorem setWrap_sc (p : Part) (w : Fin 3) (x : WrapUnit) : (setWrap p w x).sc = p.sc := rfl
@[simp] theorem setWrap_sg (p : Part) (w : Fin 3) (x : WrapUnit) : (setWrap p w x).sg = p.sg := rfl
@[simp] theorem setWrap_mu (p : Part) (w : Fin 3) (x : WrapUnit) : (setWrap p w x).mu = p.mu := rfl

@[simp] theorem setZone_time (p : Part) (z : Fin 8) (x : ZoneUnit) : (setZone p z x).time = p.time := rfl
@[simp] theorem setZone_node (p : Part) (z : Fin 8) (x : ZoneUnit) : (setZone p z x).node = p.node := rfl
@[simp] theorem setZone_free (p : Part) (z : Fin 8) (x : ZoneUnit) : (setZone p z x).free = p.free := rfl
@[simp] theorem setZone_rif (p : Part) (z : Fin 8) (x : ZoneUnit) : (setZone p z x).rif = p.rif := rfl
@[simp] theorem setZone_si (p : Part) (z : Fin 8) (x : ZoneUnit) : (setZone p z x).si = p.si := rfl
@[simp] theorem setZone_wt (p : Part) (z : Fin 8) (x : ZoneUnit) : (setZone p z x).wt = p.wt := rfl
@[simp] theorem setZone_os (p : Part) (z : Fin 8) (x : ZoneUnit) : (setZone p z x).os = p.os := rfl
@[simp] theorem setZone_rsc (p : Part) (z : Fin 8) (x : ZoneUnit) : (setZone p z x).rsc = p.rsc := rfl
@[simp] theorem setZone_dec (p : Part) (z : Fin 8) (x : ZoneUnit) : (setZone p z x).dec = p.dec := rfl
@[simp] theorem setZone_sc (p : Part) (z : Fin 8) (x : ZoneUnit) : (setZone p z x).sc = p.sc := rfl
@[simp] theorem setZone_sg (p : Part) (z : Fin 8) (x : ZoneUnit) : (setZone p z x).sg = p.sg := rfl
@[simp] theorem setZone_mu (p : Part) (z : Fin 8) (x : ZoneUnit) : (setZone p z x).mu = p.mu := rfl

@[simp] theorem setSlot_time (p : Part) (i : Fin 32) (x : RecipeSlot) : (setSlot p i x).time = p.time := rfl
@[simp] theorem setSlot_node (p : Part) (i : Fin 32) (x : RecipeSlot) : (setSlot p i x).node = p.node := rfl
@[simp] theorem setSlot_free (p : Part) (i : Fin 32) (x : RecipeSlot) : (setSlot p i x).free = p.free := rfl
@[simp] theorem setSlot_rif (p : Part) (i : Fin 32) (x : RecipeSlot) : (setSlot p i x).rif = p.rif := rfl
@[simp] theorem setSlot_si (p : Part) (i : Fin 32) (x : RecipeSlot) : (setSlot p i x).si = p.si := rfl
@[simp] theorem setSlot_wt (p : Part) (i : Fin 32) (x : RecipeSlot) : (setSlot p i x).wt = p.wt := rfl
@[simp] theorem setSlot_os (p : Part) (i : Fin 32) (x : RecipeSlot) : (setSlot p i x).os = p.os := rfl
@[simp] theorem setSlot_rsc (p : Part) (i : Fin 32) (x : RecipeSlot) : (setSlot p i x).rsc = p.rsc := rfl
@[simp] theorem setSlot_dec (p : Part) (i : Fin 32) (x : RecipeSlot) : (setSlot p i x).dec = p.dec := rfl
@[simp] theorem setSlot_sc (p : Part) (i : Fin 32) (x : RecipeSlot) : (setSlot p i x).sc = p.sc := rfl
@[simp] theorem setSlot_sg (p : Part) (i : Fin 32) (x : RecipeSlot) : (setSlot p i x).sg = p.sg := rfl
@[simp] theorem setSlot_mu (p : Part) (i : Fin 32) (x : RecipeSlot) : (setSlot p i x).mu = p.mu := rfl

@[simp] theorem setCuts_time (p : Part) (l : List CutEntry) : (setCuts p l).time = p.time := rfl
@[simp] theorem setCuts_node (p : Part) (l : List CutEntry) : (setCuts p l).node = p.node := rfl
@[simp] theorem setCuts_free (p : Part) (l : List CutEntry) : (setCuts p l).free = p.free := rfl
@[simp] theorem setCuts_rif (p : Part) (l : List CutEntry) : (setCuts p l).rif = p.rif := rfl
@[simp] theorem setCuts_si (p : Part) (l : List CutEntry) : (setCuts p l).si = p.si := rfl
@[simp] theorem setCuts_wt (p : Part) (l : List CutEntry) : (setCuts p l).wt = p.wt := rfl
@[simp] theorem setCuts_os (p : Part) (l : List CutEntry) : (setCuts p l).os = p.os := rfl
@[simp] theorem setCuts_rsc (p : Part) (l : List CutEntry) : (setCuts p l).rsc = p.rsc := rfl
@[simp] theorem setCuts_bc (p : Part) (l : List CutEntry) : (setCuts p l).bc = p.bc := rfl
@[simp] theorem setCuts_dec (p : Part) (l : List CutEntry) : (setCuts p l).dec = p.dec := rfl
@[simp] theorem setCuts_sg (p : Part) (l : List CutEntry) : (setCuts p l).sg = p.sg := rfl
@[simp] theorem setCuts_mu (p : Part) (l : List CutEntry) : (setCuts p l).mu = p.mu := rfl

@[simp] theorem setFreshness_time (i : Input) (st : Fresh) (last : Option Nat) (p : Part) : (setFreshness i st last p).time = p.time := rfl
@[simp] theorem setFreshness_node (i : Input) (st : Fresh) (last : Option Nat) (p : Part) : (setFreshness i st last p).node = p.node := rfl
@[simp] theorem setFreshness_free (i : Input) (st : Fresh) (last : Option Nat) (p : Part) : (setFreshness i st last p).free = p.free := rfl
@[simp] theorem setFreshness_rif (i : Input) (st : Fresh) (last : Option Nat) (p : Part) : (setFreshness i st last p).rif = p.rif := rfl
@[simp] theorem setFreshness_wt (i : Input) (st : Fresh) (last : Option Nat) (p : Part) : (setFreshness i st last p).wt = p.wt := rfl
@[simp] theorem setFreshness_os (i : Input) (st : Fresh) (last : Option Nat) (p : Part) : (setFreshness i st last p).os = p.os := rfl
@[simp] theorem setFreshness_rsc (i : Input) (st : Fresh) (last : Option Nat) (p : Part) : (setFreshness i st last p).rsc = p.rsc := rfl
@[simp] theorem setFreshness_bc (i : Input) (st : Fresh) (last : Option Nat) (p : Part) : (setFreshness i st last p).bc = p.bc := rfl
@[simp] theorem setFreshness_dec (i : Input) (st : Fresh) (last : Option Nat) (p : Part) : (setFreshness i st last p).dec = p.dec := rfl
@[simp] theorem setFreshness_sc (i : Input) (st : Fresh) (last : Option Nat) (p : Part) : (setFreshness i st last p).sc = p.sc := rfl
@[simp] theorem setFreshness_sg (i : Input) (st : Fresh) (last : Option Nat) (p : Part) : (setFreshness i st last p).sg = p.sg := rfl
@[simp] theorem setFreshness_mu (i : Input) (st : Fresh) (last : Option Nat) (p : Part) : (setFreshness i st last p).mu = p.mu := rfl

@[simp] theorem popRequest_time (p : Part) : (popRequest p).time = p.time := rfl
@[simp] theorem popRequest_node (p : Part) : (popRequest p).node = p.node := rfl
@[simp] theorem popRequest_free (p : Part) : (popRequest p).free = p.free := rfl
@[simp] theorem popRequest_rif (p : Part) : (popRequest p).rif = p.rif := rfl
@[simp] theorem popRequest_si (p : Part) : (popRequest p).si = p.si := rfl
@[simp] theorem popRequest_wt (p : Part) : (popRequest p).wt = p.wt := rfl
@[simp] theorem popRequest_os (p : Part) : (popRequest p).os = p.os := rfl
@[simp] theorem popRequest_rsc (p : Part) : (popRequest p).rsc = p.rsc := rfl
@[simp] theorem popRequest_bc (p : Part) : (popRequest p).bc = p.bc := rfl
@[simp] theorem popRequest_dec (p : Part) : (popRequest p).dec = p.dec := rfl
@[simp] theorem popRequest_sc (p : Part) : (popRequest p).sc = p.sc := rfl
@[simp] theorem popRequest_sg (p : Part) : (popRequest p).sg = p.sg := rfl

/-! ## The field that an update writes -/

@[simp] theorem setStandRec_stands (p : Part) (s : Fin 5) (x : Stand) : (setStandRec p s x).rsc.stands = upd p.rsc.stands s x := rfl
@[simp] theorem setGlue_glue (p : Part) (g : Fin 3) (x : GlueUnit) : (setGlue p g x).bc.glue = upd p.bc.glue g x := rfl
@[simp] theorem setGlue_wraps (p : Part) (g : Fin 3) (x : GlueUnit) : (setGlue p g x).bc.wraps = p.bc.wraps := rfl
@[simp] theorem setGlue_zones (p : Part) (g : Fin 3) (x : GlueUnit) : (setGlue p g x).bc.zones = p.bc.zones := rfl
@[simp] theorem setGlue_slots (p : Part) (g : Fin 3) (x : GlueUnit) : (setGlue p g x).bc.slots = p.bc.slots := rfl
@[simp] theorem setWrap_wraps (p : Part) (w : Fin 3) (x : WrapUnit) : (setWrap p w x).bc.wraps = upd p.bc.wraps w x := rfl
@[simp] theorem setWrap_glue (p : Part) (w : Fin 3) (x : WrapUnit) : (setWrap p w x).bc.glue = p.bc.glue := rfl
@[simp] theorem setWrap_zones (p : Part) (w : Fin 3) (x : WrapUnit) : (setWrap p w x).bc.zones = p.bc.zones := rfl
@[simp] theorem setWrap_slots (p : Part) (w : Fin 3) (x : WrapUnit) : (setWrap p w x).bc.slots = p.bc.slots := rfl
@[simp] theorem setZone_zones (p : Part) (z : Fin 8) (x : ZoneUnit) : (setZone p z x).bc.zones = upd p.bc.zones z x := rfl
@[simp] theorem setZone_glue (p : Part) (z : Fin 8) (x : ZoneUnit) : (setZone p z x).bc.glue = p.bc.glue := rfl
@[simp] theorem setZone_wraps (p : Part) (z : Fin 8) (x : ZoneUnit) : (setZone p z x).bc.wraps = p.bc.wraps := rfl
@[simp] theorem setZone_slots (p : Part) (z : Fin 8) (x : ZoneUnit) : (setZone p z x).bc.slots = p.bc.slots := rfl
@[simp] theorem setSlot_slots (p : Part) (i : Fin 32) (x : RecipeSlot) : (setSlot p i x).bc.slots = upd p.bc.slots i x := rfl
@[simp] theorem setCuts_cuts (p : Part) (l : List CutEntry) : (setCuts p l).sc.cuts = l := rfl
@[simp] theorem setRegions_regions (p : Part) (l : List Region) : (setRegions p l).os.regions = l := rfl
@[simp] theorem setRegions_queue (p : Part) (l : List Region) : (setRegions p l).os.queue = p.os.queue := rfl
@[simp] theorem setOrders_queue (p : Part) (l : List Order) : (setOrders p l).os.queue = l := rfl
@[simp] theorem setOrders_regions (p : Part) (l : List Order) : (setOrders p l).os.regions = p.os.regions := rfl
@[simp] theorem popRequest_queue (p : Part) : (popRequest p).mu.queue = p.mu.queue.tail := rfl
@[simp] theorem popRequest_mode (p : Part) : (popRequest p).mu.mode = p.mu.mode := rfl
@[simp] theorem popRequest_alarms (p : Part) : (popRequest p).mu.alarms = p.mu.alarms := rfl
@[simp] theorem popRequest_counters (p : Part) : (popRequest p).mu.counters = p.mu.counters := rfl

/-- A stand's record after an update of a stand's record. -/
theorem standOf_setStandRec (p : Part) (s t : Fin 5) (x : Stand) :
    standOf (setStandRec p s x) t = if t = s then x else standOf p t := get_upd p.rsc.stands s t x

@[simp] theorem standOf_setStandRec_same (p : Part) (s : Fin 5) (x : Stand) : standOf (setStandRec p s x) s = x := by
  simp [standOf_setStandRec]

end Sys2Proof.Machine
end

