-- ==== Sys2Proof/Laws/Ring.lean ====
section
/-! SUPPORT. What posting does: a latch, a counter's rise, a frame posted or transmitted changes RIF's queues and port, the alarms, the counters
and the ACCEPTED limits of GOs that enter their queue, and nothing else (R178 to R183, R201, R205, R206). -/

namespace Sys2Proof.Machine

/-- `q` is `p` after posts: only queues, port, alarms, counters and ACCEPTED limits have changed, the queues stay within their capacities, and no
latch has been cleared. -/
structure Posted (p q : Part) : Prop where
  time : q.time = p.time
  node : q.node = p.node
  free : q.free = p.free
  si : q.si = p.si
  wt : q.wt = p.wt
  os : q.os = p.os
  bc : q.bc = p.bc
  dec : q.dec = p.dec
  sc : q.sc = p.sc
  sg : q.sg = p.sg
  mode : q.mu.mode = p.mu.mode
  requests : q.mu.queue = p.mu.queue
  generation : q.mu.generation = p.mu.generation
  readMade : q.mu.readMade = p.mu.readMade
  mask : q.mu.mask = p.mu.mask
  snap : q.mu.snap = p.mu.snap
  lastClear : q.mu.lastClear = p.mu.lastClear
  roster : q.rif.roster = p.rif.roster
  agingSec : q.rif.agingSec = p.rif.agingSec
  nextSweep : q.rif.nextSweep = p.rif.nextSweep
  lost : q.rif.lost = p.rif.lost
  urgentCap : p.rif.urgent.length ≤ 16 → q.rif.urgent.length ≤ 16
  normalCap : p.rif.normal.length ≤ 32 → q.rif.normal.length ≤ 32
  forwardCap : q.rif.forward.length ≤ p.rif.forward.length
  stands : ∀ s, standOf q s = { standOf p s with acceptBy := (standOf q s).acceptBy }
  latches : ∀ w, (alarmOf p w).latch = true → (alarmOf q w).latch = true

theorem Posted.refl (p : Part) : Posted p p := by
  constructor <;> first | rfl | exact id | exact Nat.le_refl _ | exact fun _ => rfl | exact fun _ => id

theorem Posted.trans {p q r : Part} (a : Posted p q) (b : Posted q r) : Posted p r where
  time := b.time.trans a.time
  node := b.node.trans a.node
  free := b.free.trans a.free
  si := b.si.trans a.si
  wt := b.wt.trans a.wt
  os := b.os.trans a.os
  bc := b.bc.trans a.bc
  dec := b.dec.trans a.dec
  sc := b.sc.trans a.sc
  sg := b.sg.trans a.sg
  mode := b.mode.trans a.mode
  requests := b.requests.trans a.requests
  generation := b.generation.trans a.generation
  readMade := b.readMade.trans a.readMade
  mask := b.mask.trans a.mask
  snap := b.snap.trans a.snap
  lastClear := b.lastClear.trans a.lastClear
  roster := b.roster.trans a.roster
  agingSec := b.agingSec.trans a.agingSec
  nextSweep := b.nextSweep.trans a.nextSweep
  lost := b.lost.trans a.lost
  urgentCap := b.urgentCap ∘ a.urgentCap
  normalCap := b.normalCap ∘ a.normalCap
  forwardCap := b.forwardCap.trans a.forwardCap
  stands := fun s => by rw [b.stands s, a.stands s]
  latches := fun w h => b.latches w (a.latches w h)

/-- Posting leaves what a stand's record says of arms, plan, GO and splice. -/
theorem Posted.recent {p q : Part} (a : Posted p q) (s : Fin 5) : (standOf q s).recent = (standOf p s).recent := by rw [a.stands s]

theorem Posted.splice {p q : Part} (a : Posted p q) (s : Fin 5) : (standOf q s).splice = (standOf p s).splice := by rw [a.stands s]

/-- An update of RIF's queues and port alone, within the capacities, is a post. -/
theorem Posted.ofRif {p : Part} {x : Rif} (u : p.rif.urgent.length ≤ 16 → x.urgent.length ≤ 16)
    (n : p.rif.normal.length ≤ 32 → x.normal.length ≤ 32) (f : x.forward.length ≤ p.rif.forward.length)
    (r : x.roster = p.rif.roster) (a : x.agingSec = p.rif.agingSec) (w : x.nextSweep = p.rif.nextSweep) (l : x.lost = p.rif.lost) :
    Posted p { p with rif := x } := by
  constructor <;> first | assumption | rfl | exact fun _ => rfl | exact fun _ => id

/-! ## Queues and waiting orders -/

theorem posted_setQueue (p : Part) (u : Bool) (l : List Message) (h : (queueOf p u).length ≤ queueCap u → l.length ≤ queueCap u) :
    Posted p (setQueue p u l) := by
  cases u
  · exact Posted.ofRif id h (Nat.le_refl _) rfl rfl rfl rfl
  · exact Posted.ofRif h id (Nat.le_refl _) rfl rfl rfl rfl

theorem posted_setWait (p : Part) (u : Bool) (w : List Waiting) : Posted p (setWait p u w) := by
  cases u <;> exact Posted.ofRif id id (Nat.le_refl _) rfl rfl rfl rfl

theorem posted_tellOwner (m : Message) (p : Part) : Posted p (tellOwner m p) := by
  unfold tellOwner
  split
  · rename_i s _ _ _ _
    dsimp only
    split
    · refine { (Posted.refl p) with stands := fun t => ?_ }
      simp only [standOf_setStandRec]
      split
      · subst t; rfl
      · rfl
    · exact .refl p
  · exact .refl p

@[simp] theorem queueOf_setWait (p : Part) (u v : Bool) (w : List Waiting) : queueOf (setWait p u w) v = queueOf p v := by
  cases u <;> cases v <;> rfl

@[simp] theorem waitOf_setQueue (p : Part) (u v : Bool) (l : List Message) : waitOf (setQueue p u l) v = waitOf p v := by
  cases u <;> cases v <;> rfl

@[simp] theorem queueOf_setQueue_same (p : Part) (u : Bool) (l : List Message) : queueOf (setQueue p u l) u = l := by cases u <;> rfl

@[simp] theorem queueOf_setQueue_other (p : Part) (u : Bool) (l : List Message) : queueOf (setQueue p u l) (!u) = queueOf p (!u) := by
  cases u <;> rfl

@[simp] theorem waitOf_setWait_same (p : Part) (u : Bool) (w : List Waiting) : waitOf (setWait p u w) u = w := by cases u <;> rfl

@[simp] theorem waitOf_setWait_other (p : Part) (u : Bool) (w : List Waiting) : waitOf (setWait p u w) (!u) = waitOf p (!u) := by
  cases u <;> rfl

theorem hasRoom_iff (p : Part) (u : Bool) : hasRoom p u = true ↔ (queueOf p u).length < queueCap u := by simp [hasRoom]

theorem posted_enterOldest (u : Bool) (p : Part) : Posted p (enterOldest u p) := by
  unfold enterOldest
  split
  · exact .refl p
  · split
    · rename_i h
      rw [hasRoom_iff] at h
      refine ((posted_setQueue p u _ fun _ => ?_).trans (posted_setWait _ u _)).trans (posted_tellOwner _ _)
      simp only [List.length_append, List.length_singleton]
      omega
    · exact .refl p

theorem posted_enterTimes (u : Bool) (n : Nat) (p : Part) : Posted p (enterTimes u n p) := by
  induction n generalizing p with
  | zero => exact .refl p
  | succ n ih => exact (posted_enterOldest u p).trans (ih _)

theorem posted_refill (u : Bool) (p : Part) : Posted p (refill u p) := posted_enterTimes u _ p

theorem posted_placeMessage (u : Bool) (m : Message) (p : Part) : Posted p (placeMessage u m p).1 := by
  unfold placeMessage
  split
  · rename_i h
    simp only [canEnter, Bool.and_eq_true, hasRoom_iff] at h
    refine posted_setQueue p u _ fun _ => ?_
    simp only [List.length_append, List.length_singleton]
    omega
  · exact posted_setWait p u _

@[simp] theorem length_replaceFirst {α : Type} (c : α → Bool) (x : α) (l : List α) : (replaceFirst c x l).length = l.length := by
  induction l with
  | nil => rfl
  | cons y l ih => simp only [replaceFirst]; split <;> simp [ih]

theorem posted_placeSetpoint (o : Output) (u : Bool) (m : Message) (p : Part) : Posted p (placeSetpoint o u m p) := by
  unfold placeSetpoint
  split
  · exact posted_setQueue p u _ fun h => by simpa using h
  · split
    · refine ((posted_setQueue p (!u) _ fun h => ?_).trans (posted_refill _ _)).trans (posted_placeMessage u m _)
      exact (List.length_eraseP_le).trans h
    · split
      · exact posted_setWait p u _
      · split
        · exact (posted_setWait p (!u) _).trans (posted_placeMessage u m _)
        · exact posted_placeMessage u m p

/-! ## The transmit port -/

theorem posted_transmit (m : Message) (p : Part) : Posted p (transmit m p) :=
  Posted.ofRif id id (Nat.le_refl _) rfl rfl rfl rfl

theorem posted_arbitrate (p : Part) : Posted p (arbitrate p).1 := by
  unfold arbitrate
  split
  · rename_i m rest h
    refine ((posted_setQueue p true rest fun k => ?_).trans (posted_transmit _ _)).trans (posted_refill _ _)
    simp only [queueOf, h, if_true, List.length_cons] at k
    omega
  · split
    · rename_i h _
      exact Posted.ofRif id id (by simp [h]) rfl rfl rfl rfl
    · rename_i hf hn
      split
      · rename_i rest _
        refine ((Posted.ofRif (x := { p.rif with normal := rest, forwardCount := 0 }) id ?_ (Nat.le_refl _) rfl rfl rfl rfl).trans
          (posted_transmit _ _)).trans (posted_refill _ _)
        simp only [hn, List.length_cons]
        omega
      · exact Posted.ofRif id id (by simp [hf]) rfl rfl rfl rfl
    · rename_i hf hn
      rename_i rest
      refine ((Posted.ofRif (x := { p.rif with normal := rest, forwardCount := 0 }) id ?_ (Nat.le_refl _) rfl rfl rfl rfl).trans
        (posted_transmit _ _)).trans (posted_refill _ _)
      simp only [hn, List.length_cons]
      omega
    · exact Posted.ofRif id id (Nat.le_refl _) rfl rfl rfl rfl

/-! ## Alarms and counters -/

theorem Alarm.idx_injective : Function.Injective Alarm.idx := by
  intro v w h
  cases v <;> cases w <;> first | rfl | (exact absurd h (by decide))

theorem alarmOf_occur (w v : Alarm) (p : Part) :
    alarmOf (occur w p).1 v
      = if v = w then { latch := true, count := min 255 ((alarmOf p w).count + 1), stamp := p.mu.generation } else alarmOf p v := by
  simp only [occur, alarmOf, get_upd, Alarm.idx_injective.eq_iff]

theorem posted_occur (w : Alarm) (p : Part) : Posted p (occur w p).1 := by
  refine { (Posted.refl p) with latches := fun v h => ?_ }
  rw [alarmOf_occur]
  split
  · rfl
  · exact h

theorem posted_bump (c : Counter) (n : Nat) (p : Part) : Posted p (bump c n p).1 := by
  unfold bump
  dsimp only
  split <;> (constructor <;> first | rfl | exact id | exact Nat.le_refl _ | exact fun _ => rfl | exact fun _ => id)

theorem posted_loseNotice (p : Part) : Posted p (loseNotice p) := by
  unfold loseNotice
  dsimp only
  split
  · exact (posted_bump _ _ p).trans (posted_occur _ _)
  · exact posted_bump _ _ p

theorem posted_queueNotice (n : Notice) (p : Part) : Posted p (queueNotice n p) := by
  unfold queueNotice
  split
  · exact .refl p
  · split
    · rename_i h
      simp only [canEnter, Bool.and_eq_true, hasRoom_iff] at h
      refine posted_setQueue p false _ fun _ => ?_
      simp only [List.length_append, List.length_singleton]
      omega
    · exact posted_loseNotice p

theorem posted_latchQueued (w : Alarm) (p : Part) : Posted p (latchQueued w p) := by
  unfold latchQueued
  have h := posted_occur w p
  split <;> rename_i e <;> rw [e] at h
  · exact h
  · exact h.trans (posted_queueNotice _ _)

theorem posted_raiseQueued (c : Counter) (n : Nat) (p : Part) : Posted p (raiseQueued c n p) := by
  unfold raiseQueued
  have h := posted_bump c n p
  split <;> rename_i e <;> rw [e] at h
  · exact h.trans (posted_latchQueued _ _)
  · exact h

theorem posted_nextFrame (p : Part) : Posted p (nextFrame p) := by
  unfold nextFrame
  have h := posted_arbitrate p
  split <;> rename_i e <;> rw [e] at h
  · exact h.trans (posted_raiseQueued _ _ _)
  · exact h

theorem posted_kick (p : Part) : Posted p (kick p) := by
  unfold kick
  split
  · exact posted_nextFrame p
  · exact .refl p

theorem posted_latch (w : Alarm) (p : Part) : Posted p (latch w p) := (posted_latchQueued w p).trans (posted_kick _)

theorem posted_raise (c : Counter) (n : Nat) (p : Part) : Posted p (raise c n p) := (posted_raiseQueued c n p).trans (posted_kick _)

/-- A latched alarm's latch is set. -/
theorem latch_sets (w : Alarm) (p : Part) : (alarmOf (latch w p) w).latch = true := by
  unfold latch latchQueued
  have h : (alarmOf (occur w p).1 w).latch = true := by rw [alarmOf_occur, if_pos rfl]
  split <;> rename_i e <;> rw [e] at h
  · exact (posted_kick _).latches w h
  · exact (posted_kick _).latches w ((posted_queueNotice _ _).latches w h)

/-! ## Posts -/

theorem posted_postNotice (n : Notice) (p : Part) : Posted p (postNotice n p) := (posted_queueNotice n p).trans (posted_kick _)

theorem posted_postSetpoint (c : Command) (p : Part) : Posted p (postSetpoint c p) := by
  unfold postSetpoint
  split
  · exact .refl p
  · exact (posted_placeSetpoint _ _ _ p).trans (posted_kick _)

theorem posted_postSequence (c : Command) (p : Part) : Posted p (postSequence c p).1 := by
  unfold postSequence
  split
  · exact .refl p
  · exact (posted_placeMessage _ _ p).trans (posted_kick _)

theorem posted_postReply (r : Request) (st : Status) (results : List Byte) (p : Part) : Posted p (postReply r st results p) :=
  (posted_placeMessage false _ p).trans (posted_kick _)

theorem posted_postBusy (r : Request) (p : Part) : Posted p (postBusy r p) := by
  unfold postBusy
  split
  · rename_i h
    simp only [canEnter, Bool.and_eq_true, hasRoom_iff] at h
    refine (posted_setQueue p false _ fun _ => ?_).trans (posted_kick _)
    simp only [List.length_append, List.length_singleton]
    omega
  · exact .refl p

/-- What waits as a spoiled GO of a stand: a GO of that stand whose own arm is not PREPARED. -/
theorem spoiledGo_eq_some {p : Part} {s : Fin 5} {w : Waiting} {n : Byte} :
    spoiledGo p s w = some n ↔ ∃ arm node ch, w.msg = .command (.go s arm n) node ch ∧ ((standOf p s).arm arm).state ≠ .prepared := by
  unfold spoiledGo
  split
  · rename_i t arm seq node ch e
    constructor
    · intro h
      split at h
      · rename_i c
        cases h
        exact ⟨arm, node, ch, c.1 ▸ e, c.2⟩
      · cases h
    · rintro ⟨arm', node', ch', e', c⟩
      rw [e] at e'
      cases e'
      exact if_pos ⟨rfl, c⟩
  · rename_i h
    constructor
    · intro c; cases c
    · rintro ⟨arm, node, ch, e, _⟩
      exact absurd e (h _ _ _ _ _)

theorem posted_withdrawGo (s : Fin 5) (p : Part) : Posted p (withdrawGo s p) := posted_setWait p true _

theorem posted_withdrawAbort (s : Fin 5) (seq : Byte) (p : Part) : Posted p (withdrawAbort s seq p) := posted_setWait p true _

theorem posted_postLimited (c : Command) (held : Part → List Waiting) (cap : Nat) (lost : Alarm) (p : Part) :
    Posted p (postLimited c held cap lost p) := by
  unfold postLimited
  split
  · exact posted_latch _ p
  · exact posted_postSequence c p

/-! ## What a post leaves, field by field -/

@[simp] theorem latch_time (w : Alarm) (p : Part) : (latch w p).time = p.time := (posted_latch w p).time
@[simp] theorem latch_node (w : Alarm) (p : Part) : (latch w p).node = p.node := (posted_latch w p).node
@[simp] theorem latch_free (w : Alarm) (p : Part) : (latch w p).free = p.free := (posted_latch w p).free
@[simp] theorem latch_si (w : Alarm) (p : Part) : (latch w p).si = p.si := (posted_latch w p).si
@[simp] theorem latch_wt (w : Alarm) (p : Part) : (latch w p).wt = p.wt := (posted_latch w p).wt
@[simp] theorem latch_os (w : Alarm) (p : Part) : (latch w p).os = p.os := (posted_latch w p).os
@[simp] theorem latch_bc (w : Alarm) (p : Part) : (latch w p).bc = p.bc := (posted_latch w p).bc
@[simp] theorem latch_dec (w : Alarm) (p : Part) : (latch w p).dec = p.dec := (posted_latch w p).dec
@[simp] theorem latch_sc (w : Alarm) (p : Part) : (latch w p).sc = p.sc := (posted_latch w p).sc
@[simp] theorem latch_sg (w : Alarm) (p : Part) : (latch w p).sg = p.sg := (posted_latch w p).sg
@[simp] theorem latch_mode (w : Alarm) (p : Part) : (latch w p).mu.mode = p.mu.mode := (posted_latch w p).mode
@[simp] theorem latch_requests (w : Alarm) (p : Part) : (latch w p).mu.queue = p.mu.queue := (posted_latch w p).requests

@[simp] theorem raise_time (c : Counter) (n : Nat) (p : Part) : (raise c n p).time = p.time := (posted_raise c n p).time
@[simp] theorem raise_node (c : Counter) (n : Nat) (p : Part) : (raise c n p).node = p.node := (posted_raise c n p).node
@[simp] theorem raise_free (c : Counter) (n : Nat) (p : Part) : (raise c n p).free = p.free := (posted_raise c n p).free
@[simp] theorem raise_si (c : Counter) (n : Nat) (p : Part) : (raise c n p).si = p.si := (posted_raise c n p).si
@[simp] theorem raise_wt (c : Counter) (n : Nat) (p : Part) : (raise c n p).wt = p.wt := (posted_raise c n p).wt
@[simp] theorem raise_os (c : Counter) (n : Nat) (p : Part) : (raise c n p).os = p.os := (posted_raise c n p).os
@[simp] theorem raise_bc (c : Counter) (n : Nat) (p : Part) : (raise c n p).bc = p.bc := (posted_raise c n p).bc
@[simp] theorem raise_dec (c : Counter) (n : Nat) (p : Part) : (raise c n p).dec = p.dec := (posted_raise c n p).dec
@[simp] theorem raise_sc (c : Counter) (n : Nat) (p : Part) : (raise c n p).sc = p.sc := (posted_raise c n p).sc
@[simp] theorem raise_sg (c : Counter) (n : Nat) (p : Part) : (raise c n p).sg = p.sg := (posted_raise c n p).sg
@[simp] theorem raise_mode (c : Counter) (n : Nat) (p : Part) : (raise c n p).mu.mode = p.mu.mode := (posted_raise c n p).mode
@[simp] theorem raise_requests (c : Counter) (n : Nat) (p : Part) : (raise c n p).mu.queue = p.mu.queue := (posted_raise c n p).requests

@[simp] theorem kick_time (p : Part) : (kick p).time = p.time := (posted_kick p).time
@[simp] theorem kick_node (p : Part) : (kick p).node = p.node := (posted_kick p).node
@[simp] theorem kick_free (p : Part) : (kick p).free = p.free := (posted_kick p).free
@[simp] theorem kick_si (p : Part) : (kick p).si = p.si := (posted_kick p).si
@[simp] theorem kick_wt (p : Part) : (kick p).wt = p.wt := (posted_kick p).wt
@[simp] theorem kick_os (p : Part) : (kick p).os = p.os := (posted_kick p).os
@[simp] theorem kick_bc (p : Part) : (kick p).bc = p.bc := (posted_kick p).bc
@[simp] theorem kick_dec (p : Part) : (kick p).dec = p.dec := (posted_kick p).dec
@[simp] theorem kick_sc (p : Part) : (kick p).sc = p.sc := (posted_kick p).sc
@[simp] theorem kick_sg (p : Part) : (kick p).sg = p.sg := (posted_kick p).sg
@[simp] theorem kick_mode (p : Part) : (kick p).mu.mode = p.mu.mode := (posted_kick p).mode
@[simp] theorem kick_requests (p : Part) : (kick p).mu.queue = p.mu.queue := (posted_kick p).requests

@[simp] theorem postNotice_time (n : Notice) (p : Part) : (postNotice n p).time = p.time := (posted_postNotice n p).time
@[simp] theorem postNotice_node (n : Notice) (p : Part) : (postNotice n p).node = p.node := (posted_postNotice n p).node
@[simp] theorem postNotice_free (n : Notice) (p : Part) : (postNotice n p).free = p.free := (posted_postNotice n p).free
@[simp] theorem postNotice_si (n : Notice) (p : Part) : (postNotice n p).si = p.si := (posted_postNotice n p).si
@[simp] theorem postNotice_wt (n : Notice) (p : Part) : (postNotice n p).wt = p.wt := (posted_postNotice n p).wt
@[simp] theorem postNotice_os (n : Notice) (p : Part) : (postNotice n p).os = p.os := (posted_postNotice n p).os
@[simp] theorem postNotice_bc (n : Notice) (p : Part) : (postNotice n p).bc = p.bc := (posted_postNotice n p).bc
@[simp] theorem postNotice_dec (n : Notice) (p : Part) : (postNotice n p).dec = p.dec := (posted_postNotice n p).dec
@[simp] theorem postNotice_sc (n : Notice) (p : Part) : (postNotice n p).sc = p.sc := (posted_postNotice n p).sc
@[simp] theorem postNotice_sg (n : Notice) (p : Part) : (postNotice n p).sg = p.sg := (posted_postNotice n p).sg
@[simp] theorem postNotice_mode (n : Notice) (p : Part) : (postNotice n p).mu.mode = p.mu.mode := (posted_postNotice n p).mode
@[simp] theorem postNotice_requests (n : Notice) (p : Part) : (postNotice n p).mu.queue = p.mu.queue := (posted_postNotice n p).requests

@[simp] theorem postSetpoint_time (c : Command) (p : Part) : (postSetpoint c p).time = p.time := (posted_postSetpoint c p).time
@[simp] theorem postSetpoint_node (c : Command) (p : Part) : (postSetpoint c p).node = p.node := (posted_postSetpoint c p).node
@[simp] theorem postSetpoint_free (c : Command) (p : Part) : (postSetpoint c p).free = p.free := (posted_postSetpoint c p).free
@[simp] theorem postSetpoint_si (c : Command) (p : Part) : (postSetpoint c p).si = p.si := (posted_postSetpoint c p).si
@[simp] theorem postSetpoint_wt (c : Command) (p : Part) : (postSetpoint c p).wt = p.wt := (posted_postSetpoint c p).wt
@[simp] theorem postSetpoint_os (c : Command) (p : Part) : (postSetpoint c p).os = p.os := (posted_postSetpoint c p).os
@[simp] theorem postSetpoint_bc (c : Command) (p : Part) : (postSetpoint c p).bc = p.bc := (posted_postSetpoint c p).bc
@[simp] theorem postSetpoint_dec (c : Command) (p : Part) : (postSetpoint c p).dec = p.dec := (posted_postSetpoint c p).dec
@[simp] theorem postSetpoint_sc (c : Command) (p : Part) : (postSetpoint c p).sc = p.sc := (posted_postSetpoint c p).sc
@[simp] theorem postSetpoint_sg (c : Command) (p : Part) : (postSetpoint c p).sg = p.sg := (posted_postSetpoint c p).sg
@[simp] theorem postSetpoint_mode (c : Command) (p : Part) : (postSetpoint c p).mu.mode = p.mu.mode := (posted_postSetpoint c p).mode
@[simp] theorem postSetpoint_requests (c : Command) (p : Part) : (postSetpoint c p).mu.queue = p.mu.queue := (posted_postSetpoint c p).requests

@[simp] theorem postSequence_time (c : Command) (p : Part) : (postSequence c p).1.time = p.time := (posted_postSequence c p).time
@[simp] theorem postSequence_node (c : Command) (p : Part) : (postSequence c p).1.node = p.node := (posted_postSequence c p).node
@[simp] theorem postSequence_free (c : Command) (p : Part) : (postSequence c p).1.free = p.free := (posted_postSequence c p).free
@[simp] theorem postSequence_si (c : Command) (p : Part) : (postSequence c p).1.si = p.si := (posted_postSequence c p).si
@[simp] theorem postSequence_wt (c : Command) (p : Part) : (postSequence c p).1.wt = p.wt := (posted_postSequence c p).wt
@[simp] theorem postSequence_os (c : Command) (p : Part) : (postSequence c p).1.os = p.os := (posted_postSequence c p).os
@[simp] theorem postSequence_bc (c : Command) (p : Part) : (postSequence c p).1.bc = p.bc := (posted_postSequence c p).bc
@[simp] theorem postSequence_dec (c : Command) (p : Part) : (postSequence c p).1.dec = p.dec := (posted_postSequence c p).dec
@[simp] theorem postSequence_sc (c : Command) (p : Part) : (postSequence c p).1.sc = p.sc := (posted_postSequence c p).sc
@[simp] theorem postSequence_sg (c : Command) (p : Part) : (postSequence c p).1.sg = p.sg := (posted_postSequence c p).sg
@[simp] theorem postSequence_mode (c : Command) (p : Part) : (postSequence c p).1.mu.mode = p.mu.mode := (posted_postSequence c p).mode
@[simp] theorem postSequence_requests (c : Command) (p : Part) : (postSequence c p).1.mu.queue = p.mu.queue := (posted_postSequence c p).requests

@[simp] theorem postReply_time (r : Request) (st : Status) (l : List Byte) (p : Part) : (postReply r st l p).time = p.time := (posted_postReply r st l p).time
@[simp] theorem postReply_node (r : Request) (st : Status) (l : List Byte) (p : Part) : (postReply r st l p).node = p.node := (posted_postReply r st l p).node
@[simp] theorem postReply_free (r : Request) (st : Status) (l : List Byte) (p : Part) : (postReply r st l p).free = p.free := (posted_postReply r st l p).free
@[simp] theorem postReply_si (r : Request) (st : Status) (l : List Byte) (p : Part) : (postReply r st l p).si = p.si := (posted_postReply r st l p).si
@[simp] theorem postReply_wt (r : Request) (st : Status) (l : List Byte) (p : Part) : (postReply r st l p).wt = p.wt := (posted_postReply r st l p).wt
@[simp] theorem postReply_os (r : Request) (st : Status) (l : List Byte) (p : Part) : (postReply r st l p).os = p.os := (posted_postReply r st l p).os
@[simp] theorem postReply_bc (r : Request) (st : Status) (l : List Byte) (p : Part) : (postReply r st l p).bc = p.bc := (posted_postReply r st l p).bc
@[simp] theorem postReply_dec (r : Request) (st : Status) (l : List Byte) (p : Part) : (postReply r st l p).dec = p.dec := (posted_postReply r st l p).dec
@[simp] theorem postReply_sc (r : Request) (st : Status) (l : List Byte) (p : Part) : (postReply r st l p).sc = p.sc := (posted_postReply r st l p).sc
@[simp] theorem postReply_sg (r : Request) (st : Status) (l : List Byte) (p : Part) : (postReply r st l p).sg = p.sg := (posted_postReply r st l p).sg
@[simp] theorem postReply_mode (r : Request) (st : Status) (l : List Byte) (p : Part) : (postReply r st l p).mu.mode = p.mu.mode := (posted_postReply r st l p).mode
@[simp] theorem postReply_requests (r : Request) (st : Status) (l : List Byte) (p : Part) : (postReply r st l p).mu.queue = p.mu.queue := (posted_postReply r st l p).requests

@[simp] theorem refill_time (u : Bool) (p : Part) : (refill u p).time = p.time := (posted_refill u p).time
@[simp] theorem refill_node (u : Bool) (p : Part) : (refill u p).node = p.node := (posted_refill u p).node
@[simp] theorem refill_free (u : Bool) (p : Part) : (refill u p).free = p.free := (posted_refill u p).free
@[simp] theorem refill_si (u : Bool) (p : Part) : (refill u p).si = p.si := (posted_refill u p).si
@[simp] theorem refill_wt (u : Bool) (p : Part) : (refill u p).wt = p.wt := (posted_refill u p).wt
@[simp] theorem refill_os (u : Bool) (p : Part) : (refill u p).os = p.os := (posted_refill u p).os
@[simp] theorem refill_bc (u : Bool) (p : Part) : (refill u p).bc = p.bc := (posted_refill u p).bc
@[simp] theorem refill_dec (u : Bool) (p : Part) : (refill u p).dec = p.dec := (posted_refill u p).dec
@[simp] theorem refill_sc (u : Bool) (p : Part) : (refill u p).sc = p.sc := (posted_refill u p).sc
@[simp] theorem refill_sg (u : Bool) (p : Part) : (refill u p).sg = p.sg := (posted_refill u p).sg
@[simp] theorem refill_mode (u : Bool) (p : Part) : (refill u p).mu.mode = p.mu.mode := (posted_refill u p).mode
@[simp] theorem refill_requests (u : Bool) (p : Part) : (refill u p).mu.queue = p.mu.queue := (posted_refill u p).requests

end Sys2Proof.Machine
end

