-- ==== Sys2Proof/Laws/Held.lean ====
section
/-! SUPPORT. What posting does to the commands that wait or are pending: no output gets a second pending setpoint (R181), and the lists of DEC and SC
stay within their capacities (R130, R152). -/

namespace Sys2Proof.Machine

/-! ## Counting messages -/

/-- How many messages in the queues and the waiting orders meet `c`. -/
def tally (c : Message → Bool) (p : Part) : Nat :=
  p.rif.urgent.countP c + p.rif.normal.countP c + (p.rif.urgentWait.countP (fun w => c w.msg) + p.rif.normalWait.countP (fun w => c w.msg))

/-- How many messages that wait for the urgent queue meet `c`. -/
def waitTally (c : Message → Bool) (p : Part) : Nat := p.rif.urgentWait.countP (fun w => c w.msg)

theorem pendingSetpoints_eq (o : Output) (p : Part) : pendingSetpoints o p = tally (hasKey o) p := by
  simp only [pendingSetpoints, tally, ← List.countP_eq_length_filter, List.countP_append, List.countP_map]
  rfl

theorem tally_setQueue (c : Message → Bool) (p : Part) (u : Bool) (l : List Message) :
    tally c (setQueue p u l) + (queueOf p u).countP c = tally c p + l.countP c := by
  cases u <;> simp only [tally, setQueue, queueOf, if_true, Bool.false_eq_true, if_false] <;> omega

theorem tally_setWait (c : Message → Bool) (p : Part) (u : Bool) (w : List Waiting) :
    tally c (setWait p u w) + (waitOf p u).countP (fun w => c w.msg) = tally c p + w.countP (fun w => c w.msg) := by
  cases u <;> simp only [tally, setWait, waitOf, if_true, Bool.false_eq_true, if_false] <;> omega

@[simp] theorem waitTally_setQueue (c : Message → Bool) (p : Part) (u : Bool) (l : List Message) :
    waitTally c (setQueue p u l) = waitTally c p := by cases u <;> rfl

@[simp] theorem waitTally_setWait_false (c : Message → Bool) (p : Part) (w : List Waiting) :
    waitTally c (setWait p false w) = waitTally c p := rfl

@[simp] theorem waitTally_setWait_true (c : Message → Bool) (p : Part) (w : List Waiting) :
    waitTally c (setWait p true w) = w.countP (fun w => c w.msg) := rfl

@[simp] theorem rif_tellOwner (m : Message) (p : Part) : (tellOwner m p).rif = p.rif := by
  unfold tellOwner
  split
  · dsimp only
    split <;> rfl
  · rfl

theorem tally_enterOldest (c : Message → Bool) (u : Bool) (p : Part) : tally c (enterOldest u p) = tally c p := by
  unfold enterOldest
  split
  · rfl
  · rename_i w ws h
    split
    · have a := tally_setWait c (setQueue p u (queueOf p u ++ [w.msg])) u ws
      have b := tally_setQueue c p u (queueOf p u ++ [w.msg])
      rw [waitOf_setQueue, h, List.countP_cons] at a
      rw [List.countP_append, List.countP_cons, List.countP_nil] at b
      rw [tally, rif_tellOwner, ← tally]
      omega
    · rfl

theorem waitTally_enterOldest (c : Message → Bool) (u : Bool) (p : Part) : waitTally c (enterOldest u p) ≤ waitTally c p := by
  unfold enterOldest
  split
  · exact Nat.le_refl _
  · rename_i w ws h
    split
    · rw [waitTally, rif_tellOwner, ← waitTally]
      cases u
      · simp
      · rw [waitTally_setWait_true, waitTally, show p.rif.urgentWait = w :: ws from h, List.countP_cons]
        omega
    · exact Nat.le_refl _

theorem tally_refill (c : Message → Bool) (u : Bool) (p : Part) : tally c (refill u p) = tally c p := by
  have h : ∀ n q, tally c (enterTimes u n q) = tally c q := by
    intro n
    induction n with
    | zero => intro q; rfl
    | succ n ih => intro q; rw [enterTimes, ih, tally_enterOldest]
  exact h _ _

theorem waitTally_refill (c : Message → Bool) (u : Bool) (p : Part) : waitTally c (refill u p) ≤ waitTally c p := by
  have h : ∀ n q, waitTally c (enterTimes u n q) ≤ waitTally c q := by
    intro n
    induction n with
    | zero => intro q; exact Nat.le_refl _
    | succ n ih => intro q; rw [enterTimes]; exact (ih _).trans (waitTally_enterOldest c u q)
  exact h _ _

theorem tally_placeMessage (c : Message → Bool) (u : Bool) (m : Message) (p : Part) :
    tally c (placeMessage u m p).1 = tally c p + (if c m then 1 else 0) := by
  unfold placeMessage
  split
  · have a := tally_setQueue c p u (queueOf p u ++ [m])
    rw [List.countP_append, List.countP_cons, List.countP_nil] at a
    dsimp only
    omega
  · have a := tally_setWait c p u (waitOf p u ++ [{ msg := m, late := false }])
    rw [List.countP_append, List.countP_cons, List.countP_nil] at a
    dsimp only at a ⊢
    omega

theorem waitTally_placeMessage (c : Message → Bool) (u : Bool) (m : Message) (p : Part) :
    waitTally c (placeMessage u m p).1 ≤ waitTally c p + (if c m && u && !canEnter p u then 1 else 0) := by
  unfold placeMessage
  split
  · simp
  · rename_i h
    cases u
    · simp
    · rw [waitTally_setWait_true, List.countP_append, List.countP_cons, List.countP_nil, Bool.eq_false_iff.2 h]
      simp [waitTally, waitOf]

/-! ## Commands that DEC and SC may have to hold -/

/-- A CHANGE LENGTH (R129). -/
def Message.isChange : Message → Bool
  | .command (.changeLength _ _) _ _ => true
  | _ => false

/-- A DIVERT (R138). -/
def Message.isDivert : Message → Bool
  | .command (.divert _) _ _ => true
  | _ => false

/-- An EJECT or an ORDER END (R152). -/
def Message.isStacker : Message → Bool
  | .command (.eject _) _ _ => true
  | .command (.orderEnd _) _ _ => true
  | _ => false

theorem changeList_length (p : Part) : (changeList p).length = waitTally Message.isChange p := by
  rw [changeList, ← List.countP_eq_length_filter, waitTally]
  rfl

theorem divertList_length (p : Part) : (divertList p).length = waitTally Message.isDivert p := by
  rw [divertList, ← List.countP_eq_length_filter, waitTally]
  rfl

theorem stackerList_length (p : Part) : (stackerList p).length = waitTally Message.isStacker p := by
  rw [stackerList, ← List.countP_eq_length_filter, waitTally]
  rfl

/-- `q` is `p` after posts: no output gets a second pending setpoint, and the lists of DEC and SC stay within their capacities. -/
structure Held (p q : Part) : Prop where
  setpoints : ∀ o, pendingSetpoints o q ≤ max 1 (pendingSetpoints o p)
  changes : (changeList p).length ≤ 4 → (changeList q).length ≤ 4
  diverts : (divertList p).length ≤ 16 → (divertList q).length ≤ 16
  stackerCommands : (stackerList p).length ≤ 32 → (stackerList q).length ≤ 32

theorem Held.refl (p : Part) : Held p p := ⟨fun _ => Nat.le_max_right _ _, id, id, id⟩

theorem Held.trans {p q r : Part} (a : Held p q) (b : Held q r) : Held p r :=
  ⟨fun o => (b.setpoints o).trans (by have := a.setpoints o; omega), b.changes ∘ a.changes, b.diverts ∘ a.diverts,
   b.stackerCommands ∘ a.stackerCommands⟩

/-- The commands of one of the lists of DEC and SC. -/
def Listed (c : Message → Bool) : Prop := c = Message.isChange ∨ c = Message.isDivert ∨ c = Message.isStacker

/-- A setpoint command is of none of the lists. -/
theorem Listed.setpoint {c : Message → Bool} (l : Listed c) {m : Message} {o : Output} (h : hasKey o m = true) : c m = false := by
  cases m with
  | command d n ch =>
    have s : d.setpoint = true := (Bool.and_eq_true_iff.1 h).1
    rcases l with rfl | rfl | rfl <;> cases d <;> first | rfl | cases s
  | _ => cases h

/-- An update that adds no second pending setpoint and no command to a list. -/
theorem Held.ofLe {p q : Part} (s : ∀ o, tally (hasKey o) q ≤ max 1 (tally (hasKey o) p))
    (w : ∀ c, Listed c → waitTally c q ≤ waitTally c p) : Held p q where
  setpoints := fun o => by rw [pendingSetpoints_eq, pendingSetpoints_eq]; exact s o
  changes := fun h => by rw [changeList_length] at *; exact (w _ (.inl rfl)).trans h
  diverts := fun h => by rw [divertList_length] at *; exact (w _ (.inr (.inl rfl))).trans h
  stackerCommands := fun h => by rw [stackerList_length] at *; exact (w _ (.inr (.inr rfl))).trans h

/-- An update that leaves the queues and the waiting orders. -/
theorem Held.same {p q : Part} (u : q.rif.urgent = p.rif.urgent) (n : q.rif.normal = p.rif.normal) (uw : q.rif.urgentWait = p.rif.urgentWait)
    (nw : q.rif.normalWait = p.rif.normalWait) : Held p q :=
  .ofLe (fun o => by rw [tally, tally, u, n, uw, nw]; exact Nat.le_max_right _ _)
    fun c _ => by rw [waitTally, waitTally, uw]

theorem held_refill (u : Bool) (p : Part) : Held p (refill u p) :=
  .ofLe (fun o => by rw [tally_refill]; exact Nat.le_max_right _ _) fun c _ => waitTally_refill c u p

/-- A queue replaced by one with no more messages of any kind. -/
theorem held_setQueue (p : Part) (u : Bool) (l : List Message) (h : ∀ o, l.countP (hasKey o) ≤ (queueOf p u).countP (hasKey o)) :
    Held p (setQueue p u l) :=
  .ofLe (fun o => by have := tally_setQueue (hasKey o) p u l; have := h o; omega) fun c _ => by simp

/-- A waiting order replaced by one with no more messages of any kind. -/
theorem held_setWait (p : Part) (u : Bool) (w : List Waiting)
    (h : ∀ c : Message → Bool, w.countP (fun x => c x.msg) ≤ (waitOf p u).countP (fun x => c x.msg)) : Held p (setWait p u w) :=
  .ofLe (fun o => by have := tally_setWait (hasKey o) p u w; have := h (hasKey o); omega) fun c _ => by
    cases u
    · simp
    · exact h c

/-- A message with no key of a setpoint, which waits in no list that is full. -/
theorem held_placeMessage (u : Bool) (m : Message) (p : Part) (k : ∀ o, hasKey o m = false)
    (c : m.isChange = true → u = true → canEnter p u = false → (changeList p).length < 4)
    (d : m.isDivert = true → u = true → canEnter p u = false → (divertList p).length < 16)
    (s : m.isStacker = true → u = true → canEnter p u = false → (stackerList p).length < 32) : Held p (placeMessage u m p).1 := by
  have w : ∀ (c : Message → Bool) (n : Nat), (c m = true → u = true → canEnter p u = false → waitTally c p < n) → waitTally c p ≤ n →
      waitTally c (placeMessage u m p).1 ≤ n := by
    intro c n h l
    have := waitTally_placeMessage c u m p
    split at this
    · rename_i e
      simp only [Bool.and_eq_true, Bool.not_eq_true'] at e
      have := h e.1.1 e.1.2 e.2
      omega
    · omega
  refine ⟨fun o => ?_, fun h => ?_, fun h => ?_, fun h => ?_⟩
  · rw [pendingSetpoints_eq, pendingSetpoints_eq, tally_placeMessage, k o]
    exact Nat.le_max_right _ _
  · rw [changeList_length] at *; exact w _ _ c h
  · rw [divertList_length] at *; exact w _ _ d h
  · rw [stackerList_length] at *; exact w _ _ s h

theorem countP_replaceFirst {α : Type} (c d : α → Bool) (x : α) (l : List α) (e : ∀ y, d y = true → c x = true → c y = true) :
    (replaceFirst d x l).countP c ≤ l.countP c := by
  induction l with
  | nil => exact Nat.le_refl _
  | cons y l ih =>
    simp only [replaceFirst]
    split
    · rename_i hy
      have := e y hy
      simp only [List.countP_cons]
      by_cases hx : c x = true
      · simp [hx, this hx]
      · simp [hx]
    · simp only [List.countP_cons]
      omega

theorem countP_eraseP {α : Type} (d : α → Bool) (l : List α) (h : l.any d = true) : (l.eraseP d).countP d + 1 = l.countP d := by
  induction l with
  | nil => cases h
  | cons y l ih =>
    by_cases hy : d y = true
    · simp [hy]
    · have := ih (by simpa [hy] using h)
      simp only [List.eraseP_cons, List.countP_cons, hy, Bool.false_eq_true, if_false, cond_false]
      omega

theorem countP_eraseP_le {α : Type} (c d : α → Bool) (l : List α) : (l.eraseP d).countP c ≤ l.countP c := (List.eraseP_sublist).countP_le

theorem hasKey_unique {o o' : Output} {m : Message} (a : hasKey o m = true) (b : hasKey o' m = true) : o = o' := by
  cases m with
  | command d n ch =>
    simp only [hasKey, Bool.and_eq_true, decide_eq_true_eq] at a b
    exact a.2.symm.trans b.2
  | _ => cases a

/-- A setpoint command takes the place of the pending one with its key (R181). -/
theorem held_placeSetpoint (o : Output) (u : Bool) (m : Message) (p : Part) (k : hasKey o m = true) : Held p (placeSetpoint o u m p) := by
  have e : ∀ (o' : Output) (y : Message), hasKey o y = true → hasKey o' m = true → hasKey o' y = true := by
    intro o' y hy hm
    rw [← hasKey_unique k hm]
    exact hy
  have one : ∀ o', (if hasKey o' m = true then 1 else 0) = if o' = o then 1 else 0 := by
    intro o'
    by_cases h : o' = o
    · rw [h, k, if_pos rfl, if_pos rfl]
    · rw [if_neg h, if_neg fun x => h (hasKey_unique x k)]
  have place : ∀ q : Part, (∀ c, Listed c → waitTally c q ≤ waitTally c p) → (∀ o', tally (hasKey o') q + (if o' = o then 1 else 0) ≤ max 1 (tally (hasKey o') p)) →
      Held p (placeMessage u m q).1 := by
    intro q w t
    refine .ofLe (fun o' => ?_) fun c l => ?_
    · have := t o'
      rw [tally_placeMessage, one]
      exact this
    · have := waitTally_placeMessage c u m q
      rw [l.setpoint k] at this
      exact Nat.le_trans this (w c l)
  unfold placeSetpoint
  split
  · exact held_setQueue p u _ fun o' => countP_replaceFirst _ _ _ _ (e o')
  · split
    · rename_i h
      refine place _ (fun c _ => (waitTally_refill c _ _).trans (by simp)) fun o' => ?_
      have a := tally_setQueue (hasKey o') p (!u) ((queueOf p (!u)).eraseP (hasKey o))
      have b := countP_eraseP_le (hasKey o') (hasKey o) (queueOf p (!u))
      rw [tally_refill]
      split
      · rename_i eq
        have := countP_eraseP _ _ h
        subst eq
        omega
      · omega
    · split
      · refine .ofLe (fun o' => ?_) fun c l => ?_
        · have a := tally_setWait (hasKey o') p u (replaceFirst (fun w => hasKey o w.msg) { msg := m, late := false } (waitOf p u))
          have b := countP_replaceFirst (fun w : Waiting => hasKey o' w.msg) (fun w => hasKey o w.msg) { msg := m, late := false } (waitOf p u)
            fun y => e o' y.msg
          omega
        · cases u
          · simp
          · exact countP_replaceFirst (fun w : Waiting => c w.msg) (fun w => hasKey o w.msg) { msg := m, late := false } _
              fun y _ h => by rw [l.setpoint k] at h; cases h
      · split
        · rename_i h
          refine place _ (fun c _ => ?_) fun o' => ?_
          · cases u
            · exact countP_eraseP_le (fun w : Waiting => c w.msg) _ _
            · exact Nat.le_refl _
          · have a := tally_setWait (hasKey o') p (!u) ((waitOf p (!u)).eraseP (fun w => hasKey o w.msg))
            have b := countP_eraseP_le (fun w : Waiting => hasKey o' w.msg) (fun w => hasKey o w.msg) (waitOf p (!u))
            split
            · rename_i eq
              have := countP_eraseP (fun w : Waiting => hasKey o w.msg) _ h
              subst eq
              omega
            · omega
        · rename_i h1 h2 h3 h4
          refine place p (fun _ _ => Nat.le_refl _) fun o' => ?_
          split
          · rename_i eq
            subst eq
            have z : tally (hasKey o') p = 0 := by
              have q : ∀ v, (queueOf p v).any (hasKey o') = false → (queueOf p v).countP (hasKey o') = 0 := fun v h => by
                rw [List.countP_eq_zero]; simpa using h
              have w : ∀ v, (waitOf p v).any (fun w => hasKey o' w.msg) = false → (waitOf p v).countP (fun w => hasKey o' w.msg) = 0 :=
                fun v h => by rw [List.countP_eq_zero]; simpa using h
              have a := q u (Bool.eq_false_iff.2 h1)
              have b := q (!u) (Bool.eq_false_iff.2 h2)
              have c := w u (Bool.eq_false_iff.2 h3)
              have d := w (!u) (Bool.eq_false_iff.2 h4)
              cases u <;> simp only [queueOf, waitOf, if_true, Bool.false_eq_true, if_false, Bool.not_true, Bool.not_false] at a b c d <;>
                simp only [tally] <;> omega
            omega
          · omega

/-! ## The transmit port, alarms and counters -/

theorem held_arbitrate (p : Part) : Held p (arbitrate p).1 := by
  have tail : ∀ (u : Bool) (m : Message) (rest : List Message), queueOf p u = m :: rest → Held p (setQueue p u rest) := fun u m rest h =>
    held_setQueue p u rest fun o => by rw [h, List.countP_cons]; omega
  unfold arbitrate
  split
  · rename_i m rest h
    exact (tail true m rest h).trans (Held.trans (q := transmit m (setQueue p true rest)) (.same rfl rfl rfl rfl) (held_refill true _))
  · split
    · exact .same rfl rfl rfl rfl
    · rename_i m rest _ h
      split
      · exact (tail false m rest h).trans (Held.trans (q := transmit m { p with rif := { p.rif with normal := rest, forwardCount := 0 } }) (.same rfl rfl rfl rfl) (held_refill false _))
      · exact .same rfl rfl rfl rfl
    · rename_i m rest _ h
      exact (tail false m rest h).trans (Held.trans (q := transmit m { p with rif := { p.rif with normal := rest, forwardCount := 0 } }) (.same rfl rfl rfl rfl) (held_refill false _))
    · exact .same rfl rfl rfl rfl

theorem held_occur (w : Alarm) (p : Part) : Held p (occur w p).1 := .same rfl rfl rfl rfl

theorem held_bump (c : Counter) (n : Nat) (p : Part) : Held p (bump c n p).1 := by
  unfold bump
  dsimp only
  split <;> exact .same rfl rfl rfl rfl

theorem held_queueNotice (n : Notice) (p : Part) : Held p (queueNotice n p) := by
  unfold queueNotice
  split
  · exact .refl p
  · split
    · refine held_setQueue p false _ fun o => ?_
      rw [List.countP_append, List.countP_cons, List.countP_nil]
      exact Nat.le_refl _
    · unfold loseNotice
      dsimp only
      split
      · exact (held_bump _ _ p).trans (held_occur _ _)
      · exact held_bump _ _ p

theorem held_latchQueued (w : Alarm) (p : Part) : Held p (latchQueued w p) := by
  unfold latchQueued
  have h := held_occur w p
  split <;> rename_i e <;> rw [e] at h
  · exact h
  · exact h.trans (held_queueNotice _ _)

theorem held_raiseQueued (c : Counter) (n : Nat) (p : Part) : Held p (raiseQueued c n p) := by
  unfold raiseQueued
  have h := held_bump c n p
  split <;> rename_i e <;> rw [e] at h
  · exact h.trans (held_latchQueued _ _)
  · exact h

theorem held_nextFrame (p : Part) : Held p (nextFrame p) := by
  unfold nextFrame
  have h := held_arbitrate p
  split <;> rename_i e <;> rw [e] at h
  · exact h.trans (held_raiseQueued _ _ _)
  · exact h

theorem held_kick (p : Part) : Held p (kick p) := by
  unfold kick
  split
  · exact held_nextFrame p
  · exact .refl p

theorem held_latch (w : Alarm) (p : Part) : Held p (latch w p) := (held_latchQueued w p).trans (held_kick _)

theorem held_raise (c : Counter) (n : Nat) (p : Part) : Held p (raise c n p) := (held_raiseQueued c n p).trans (held_kick _)

theorem held_postNotice (n : Notice) (p : Part) : Held p (postNotice n p) := (held_queueNotice n p).trans (held_kick _)

/-! ## Posts -/

theorem held_postSetpoint (c : Command) (p : Part) (h : c.setpoint = true) : Held p (postSetpoint c p) := by
  unfold postSetpoint
  split
  · exact .refl p
  · exact (held_placeSetpoint _ _ _ p (by simp [hasKey, h])).trans (held_kick _)

/-- A sequence command of RSC, which no list of DEC or SC takes. -/
theorem held_postSequence (c : Command) (p : Part) (h : c.setpoint = false)
    (n : ∀ a b, (Message.command c a b).isChange = false ∧ (Message.command c a b).isDivert = false ∧ (Message.command c a b).isStacker = false) :
    Held p (postSequence c p).1 := by
  unfold postSequence
  split
  · exact .refl p
  · refine (held_placeMessage _ _ p (fun o => by simp [hasKey, h]) ?_ ?_ ?_).trans (held_kick _)
    all_goals intro x; simp [n] at x

/-- A sequence command of a list that has room where the command has to wait. -/
theorem held_postLimited (c : Command) (list : Part → List Waiting) (cap : Nat) (lost : Alarm) (p : Part) (h : c.setpoint = false)
    (x : ∀ a b, (Message.command c a b).isChange = true → list = changeList ∧ cap = 4)
    (y : ∀ a b, (Message.command c a b).isDivert = true → list = divertList ∧ cap = 16)
    (z : ∀ a b, (Message.command c a b).isStacker = true → list = stackerList ∧ cap = 32) : Held p (postLimited c list cap lost p) := by
  unfold postLimited
  split
  · exact held_latch _ p
  · rename_i e
    unfold postSequence
    split
    · exact .refl p
    · rename_i en he
      rw [he] at e
      have room : canEnter p c.urgent = false → (list p).length < cap := fun f => by simpa [f] using e
      refine (held_placeMessage _ _ p (fun o => by simp [hasKey, h]) ?_ ?_ ?_).trans (held_kick _)
      · intro i _ f
        obtain ⟨rfl, rfl⟩ := x _ _ i
        exact room f
      · intro i _ f
        obtain ⟨rfl, rfl⟩ := y _ _ i
        exact room f
      · intro i _ f
        obtain ⟨rfl, rfl⟩ := z _ _ i
        exact room f

theorem held_postChange (n : Nat) (c : Option Nat) (p : Part) : Held p (postChange n c p) :=
  held_postLimited _ _ _ _ p rfl (fun _ _ _ => ⟨rfl, rfl⟩) (fun _ _ e => by cases e) (fun _ _ e => by cases e)

theorem held_postDivert (n : Nat) (p : Part) : Held p (postDivert n p) :=
  held_postLimited _ _ _ _ p rfl (fun _ _ e => by cases e) (fun _ _ _ => ⟨rfl, rfl⟩) (fun _ _ e => by cases e)

theorem held_postEject (n : Nat) (p : Part) : Held p (postEject n p) :=
  held_postLimited _ _ _ _ p rfl (fun _ _ e => by cases e) (fun _ _ e => by cases e) (fun _ _ _ => ⟨rfl, rfl⟩)

theorem held_postOrderEnd (n : Nat) (p : Part) : Held p (postOrderEnd n p) :=
  held_postLimited _ _ _ _ p rfl (fun _ _ e => by cases e) (fun _ _ e => by cases e) (fun _ _ _ => ⟨rfl, rfl⟩)

theorem held_postReply (r : Request) (st : Status) (results : List Byte) (p : Part) : Held p (postReply r st results p) :=
  (held_placeMessage false _ p (fun _ => rfl) (fun e => by cases e) (fun e => by cases e) (fun e => by cases e)).trans (held_kick _)

theorem held_postBusy (r : Request) (p : Part) : Held p (postBusy r p) := by
  unfold postBusy
  split
  · refine (held_setQueue p false _ fun o => ?_).trans (held_kick _)
    rw [List.countP_append, List.countP_cons, List.countP_nil]
    exact Nat.le_refl _
  · exact .refl p

theorem held_withdrawGo (s : Fin 5) (p : Part) : Held p (withdrawGo s p) :=
  held_setWait p true _ fun _ => (List.filter_sublist).countP_le

theorem held_withdrawAbort (s : Fin 5) (seq : Byte) (p : Part) : Held p (withdrawAbort s seq p) :=
  held_setWait p true _ fun _ => (List.filter_sublist).countP_le

end Sys2Proof.Machine
end

