-- ==== Sys2Proof/Laws/Lists.lean ====
section
/-! SUPPORT. The lists that the reactions change: the tracking list's length, order and DEFECT, BOND and MARK count under each kind of update (R22, R27), and
the links of the region list (R48). -/

namespace Sys2Proof.Machine

@[simp] theorem length_insertEntry (e : TrackEntry) (l : List TrackEntry) : (insertEntry e l).length = l.length + 1 := by
  induction l with
  | nil => rfl
  | cons x l ih => simp only [insertEntry]; split <;> simp [ih]

@[simp] theorem length_sortEntries (l : List TrackEntry) : (sortEntries l).length = l.length := by
  induction l with
  | nil => rfl
  | cons x l ih => simp [sortEntries, ih]

@[simp] theorem length_modifyWhere {α : Type} (c : α → Bool) (f : α → α) (l : List α) : (modifyWhere c f l).length = l.length := by
  simp [modifyWhere]

@[simp] theorem length_modifyLast {α : Type} (f : α → α) (l : List α) : (modifyLast f l).length = l.length := by
  induction l with
  | nil => rfl
  | cons x l ih => cases l <;> simp_all [modifyLast]

@[simp] theorem length_modifyFirst {α : Type} (c : α → Bool) (f : α → α) (l : List α) : (modifyFirst c f l).length = l.length := by
  induction l with
  | nil => rfl
  | cons x l ih => simp only [modifyFirst]; split <;> simp [ih]

@[simp] theorem length_modifyFinal {α : Type} (c : α → Bool) (f : α → α) (l : List α) : (modifyFinal c f l).length = l.length := by
  simp [modifyFinal]

/-! ## The tracking list -/

/-- How many entries are DEFECT, BOND or MARK entries (R27). -/
def dbmOf (l : List TrackEntry) : Nat := (l.filter (fun e => e.kind.isDbm)).length

/-- An update of the tracking list keeps its capacities, its order and that its ids differ. -/
structure TrackKept (l m : List TrackEntry) : Prop where
  length : l.length ≤ 64 → m.length ≤ 64
  dbm : dbmOf l ≤ 40 → dbmOf m ≤ 40
  ordered : l.Pairwise inOrder → m.Pairwise inOrder
  ids : IdsDiffer l → IdsDiffer m

theorem TrackKept.refl (l : List TrackEntry) : TrackKept l l := ⟨id, id, id, id⟩

theorem TrackKept.trans {l m n : List TrackEntry} (a : TrackKept l m) (b : TrackKept m n) : TrackKept l n :=
  ⟨b.length ∘ a.length, b.dbm ∘ a.dbm, b.ordered ∘ a.ordered, b.ids ∘ a.ids⟩

/-- `m` has no more entries than `l`, and no more of the kinds that share a bound; its ids differ where those of `l` do. -/
structure Fewer (l m : List TrackEntry) : Prop where
  length : m.length ≤ l.length
  dbm : dbmOf m ≤ dbmOf l
  ids : IdsDiffer l → IdsDiffer m

theorem Fewer.trans {l m n : List TrackEntry} (a : Fewer l m) (b : Fewer m n) : Fewer l n :=
  ⟨b.length.trans a.length, b.dbm.trans a.dbm, b.ids ∘ a.ids⟩

theorem Fewer.filter (c : TrackEntry → Bool) (l : List TrackEntry) : Fewer l (l.filter c) :=
  ⟨List.length_filter_le _ _, ((List.filter_sublist (p := c)).filter _).length_le,
    fun h => List.Nodup.sublist (List.Sublist.map _ List.filter_sublist) h⟩

theorem Fewer.map (f : TrackEntry → TrackEntry) (l : List TrackEntry) (h : ∀ e, (f e).kind = e.kind ∧ (f e).id = e.id) : Fewer l (l.map f) := by
  refine ⟨by simp, Nat.le_of_eq ?_, fun d => ?_⟩
  · simp only [dbmOf, List.filter_map, List.length_map, Function.comp_def, fun e => (h e).1]
  · simpa only [IdsDiffer, List.map_map, Function.comp_def, fun e => (h e).2] using d

theorem Fewer.modifyWhere (c : TrackEntry → Bool) {f : TrackEntry → TrackEntry} (l : List TrackEntry)
    (h : ∀ e, (f e).kind = e.kind ∧ (f e).id = e.id) : Fewer l (modifyWhere c f l) :=
  .map _ l fun e => by split <;> simp [h]

theorem inOrder_of_entryBefore {a b : TrackEntry} (h : entryBefore a b = true) : inOrder a b := by
  simp only [entryBefore, Bool.or_eq_true, decide_eq_true_eq, Bool.and_eq_true] at h
  unfold inOrder
  omega

theorem inOrder_of_not_entryBefore {a b : TrackEntry} (h : ¬entryBefore a b = true) : inOrder b a := by
  simp only [entryBefore, Bool.or_eq_true, decide_eq_true_eq, Bool.and_eq_true] at h
  unfold inOrder
  omega

theorem inOrder.trans {a b c : TrackEntry} (x : inOrder a b) (y : inOrder b c) : inOrder a c := by
  unfold inOrder at *
  omega

theorem mem_insertEntry {x e : TrackEntry} {l : List TrackEntry} : x ∈ insertEntry e l ↔ x = e ∨ x ∈ l := by
  induction l with
  | nil => simp [insertEntry]
  | cons y l ih =>
    simp only [insertEntry]
    split
    · simp
    · simp only [List.mem_cons, ih]
      tauto

/-- An insertion leaves the list in its order (R22). -/
theorem pairwise_insertEntry (e : TrackEntry) (l : List TrackEntry) (h : l.Pairwise inOrder) : (insertEntry e l).Pairwise inOrder := by
  induction l with
  | nil => simp [insertEntry]
  | cons y l ih =>
    rw [List.pairwise_cons] at h
    simp only [insertEntry]
    split
    · rename_i b
      have eb := inOrder_of_entryBefore b
      refine List.pairwise_cons.2 ⟨fun z hz => ?_, List.pairwise_cons.2 h⟩
      rcases List.mem_cons.1 hz with rfl | hz
      · exact eb
      · exact eb.trans (h.1 z hz)
    · rename_i b
      refine List.pairwise_cons.2 ⟨fun z hz => ?_, ih h.2⟩
      rcases mem_insertEntry.1 hz with rfl | hz
      · exact inOrder_of_not_entryBefore b
      · exact h.1 z hz

theorem pairwise_sortEntries (l : List TrackEntry) : (sortEntries l).Pairwise inOrder := by
  induction l with
  | nil => exact List.Pairwise.nil
  | cons e l ih => exact pairwise_insertEntry e _ ih

theorem dbmOf_insertEntry (e : TrackEntry) (l : List TrackEntry) : dbmOf (insertEntry e l) = dbmOf l + (if e.kind.isDbm then 1 else 0) := by
  induction l with
  | nil => simp only [insertEntry, dbmOf, List.filter_cons, List.filter_nil]; split <;> rfl
  | cons y l ih =>
    simp only [insertEntry]
    split
    · simp only [dbmOf, List.filter_cons]
      split <;> split <;> simp
    · simp only [dbmOf, List.filter_cons] at ih ⊢
      split <;> simp [ih]
      omega

/-- The ids of a list with an entry put at its place. -/
theorem map_id_insertEntry (e : TrackEntry) (l : List TrackEntry) :
    ((insertEntry e l).map TrackEntry.id).Perm (e.id :: l.map TrackEntry.id) := by
  induction l with
  | nil => exact .refl _
  | cons y l ih =>
    simp only [insertEntry]
    split
    · exact .refl _
    · exact (List.Perm.cons _ ih).trans (.swap _ _ _)

theorem map_id_sortEntries (l : List TrackEntry) : ((sortEntries l).map TrackEntry.id).Perm (l.map TrackEntry.id) := by
  induction l with
  | nil => exact .refl _
  | cons e l ih => exact (map_id_insertEntry e _).trans (.cons _ ih)

/-- The `j`-th value from `n` on, over fewer values than the ids have (R21). -/
def idFrom (n j : Nat) : Nat := if n ≤ 65535 ∧ 65535 < n + j then n + j - 65535 else n + j

theorem idAfter_idFrom {n j : Nat} (h : j ≤ 64) : idAfter (idFrom n j) = idFrom n (j + 1) := by
  unfold idAfter idFrom
  split <;> split <;> split <;> omega

/-- An id that `freeId` answers though an entry holds it: every value it stepped over is held, and the answer too. -/
theorem held_of_freeId (l : List TrackEntry) (n k j : Nat) (b : j + k ≤ 64) (h : freeId l k (idFrom n j) ∈ l.map TrackEntry.id) :
    ∀ i, j ≤ i → i ≤ j + k → idFrom n i ∈ l.map TrackEntry.id := by
  induction k generalizing j with
  | zero =>
    intro i a c
    rw [show i = j by omega]
    exact h
  | succ k ih =>
    rw [freeId] at h
    split at h
    · rename_i x
      rw [idAfter_idFrom (by omega)] at h
      intro i a c
      rcases Nat.eq_or_lt_of_le a with rfl | a
      · obtain ⟨e, m, y⟩ := List.any_eq_true.1 x
        exact List.mem_map.2 ⟨e, m, of_decide_eq_true y⟩
      · exact ih (j + 1) (by omega) h i (by omega) (by omega)
    · rename_i x
      obtain ⟨e, m, y⟩ := List.mem_map.1 h
      exact absurd (List.any_eq_true.2 ⟨e, m, decide_eq_true y⟩) x

/-- The id of the next entry is held by none of a list within its capacity (R21). -/
theorem newId_fresh {p : Part} (h : p.wt.track.length ≤ 64) : newId p ∉ p.wt.track.map TrackEntry.id := by
  intro m
  have z : idFrom p.wt.nextId 0 = p.wt.nextId := by unfold idFrom; split <;> omega
  have all := held_of_freeId p.wt.track p.wt.nextId p.wt.track.length 0 (by omega) (by rw [z]; exact m)
  have nodup : ((List.range (p.wt.track.length + 1)).map (idFrom p.wt.nextId)).Nodup := by
    refine List.Nodup.map_on (fun a ha b hb e => ?_) List.nodup_range
    rw [List.mem_range] at ha hb
    unfold idFrom at e
    split at e <;> split at e <;> omega
  have sub : (List.range (p.wt.track.length + 1)).map (idFrom p.wt.nextId) ⊆ p.wt.track.map TrackEntry.id := by
    intro x hx
    obtain ⟨i, hi, rfl⟩ := List.mem_map.1 hx
    rw [List.mem_range] at hi
    exact all i (by omega) (by omega)
  have := (List.subperm_of_subset nodup sub).length_le
  simp at this

theorem dbmOf_sortEntries (l : List TrackEntry) : dbmOf (sortEntries l) = dbmOf l := by
  induction l with
  | nil => rfl
  | cons e l ih =>
    rw [sortEntries, dbmOf_insertEntry, ih]
    simp only [dbmOf, List.filter_cons]
    split <;> simp

theorem Fewer.sort {l m : List TrackEntry} (h : Fewer l m) : TrackKept l (sortEntries m) where
  length := fun c => by rw [length_sortEntries]; exact h.length.trans c
  dbm := fun c => by rw [dbmOf_sortEntries]; exact h.dbm.trans c
  ordered := fun _ => pairwise_sortEntries m
  ids := fun c => ((map_id_sortEntries m).nodup_iff).2 (h.ids c)

theorem TrackKept.filter (c : TrackEntry → Bool) (l : List TrackEntry) : TrackKept l (l.filter c) where
  length := fun h => (Fewer.filter c l).length.trans h
  dbm := fun h => (Fewer.filter c l).dbm.trans h
  ordered := fun h => h.filter c
  ids := (Fewer.filter c l).ids

/-- A change of entries that leaves their starts, ids and kinds. -/
theorem TrackKept.map (f : TrackEntry → TrackEntry) (l : List TrackEntry) (h : ∀ e, (f e).start = e.start ∧ (f e).id = e.id ∧ (f e).kind = e.kind) :
    TrackKept l (l.map f) where
  length := fun c => by simpa using c
  dbm := fun c => (Fewer.map f l fun e => ⟨(h e).2.2, (h e).2.1⟩).dbm.trans c
  ordered := fun c => by
    rw [List.pairwise_map]
    refine c.imp fun {a b} x => ?_
    unfold inOrder at *
    rw [(h a).1, (h b).1, (h a).2.1, (h b).2.1]
    exact x
  ids := (Fewer.map f l fun e => ⟨(h e).2.2, (h e).2.1⟩).ids

theorem TrackKept.modifyWhere (c : TrackEntry → Bool) {f : TrackEntry → TrackEntry} (l : List TrackEntry)
    (h : ∀ e, (f e).start = e.start ∧ (f e).id = e.id ∧ (f e).kind = e.kind) : TrackKept l (modifyWhere c f l) :=
  .map _ l fun e => by
    split
    · exact h e
    · exact ⟨rfl, rfl, rfl⟩

/-- An insertion that has its place (R27). -/
theorem TrackKept.insert (e : TrackEntry) (l : List TrackEntry) (n : l.length < 64) (d : e.kind.isDbm = true → dbmOf l < 40)
    (i : e.id ∉ l.map TrackEntry.id) : TrackKept l (insertEntry e l) where
  length := fun _ => by rw [length_insertEntry]; omega
  dbm := fun c => by
    rw [dbmOf_insertEntry]
    split
    · rename_i h
      have := d h
      omega
    · exact c
  ordered := pairwise_insertEntry e l
  ids := fun c => ((map_id_insertEntry e l).nodup_iff).2 (List.nodup_cons.2 ⟨i, c⟩)

/-! ## The region list -/

/-- Two regions agree in what links them to their neighbours. -/
structure SameLinks (a b : Region) : Prop where
  start : b.start = a.start
  stop : b.stop = a.stop
  first : b.first = a.first
  last : b.last = a.last
  ended : b.ended = a.ended

theorem SameLinks.refl (a : Region) : SameLinks a a := ⟨rfl, rfl, rfl, rfl, rfl⟩

theorem linked_forall₂ {l m : List Region} (h : List.Forall₂ SameLinks l m) (x : Linked l) : Linked m := by
  induction h with
  | nil => exact x
  | @cons a b as bs ab t ih =>
    cases t with
    | nil => exact ⟨ab.stop.trans x.1, ab.last.trans x.2.1, ab.ended.trans x.2.2⟩
    | @cons c d cs ds cd t =>
      obtain ⟨s, ⟨n, y, z⟩, r⟩ := x
      exact ⟨by rw [ab.stop, s, cd.start], ⟨n, ab.last.trans y, cd.first.trans z⟩, ih r⟩

/-- An update of the region list keeps its capacity and its links. -/
structure RegionsKept (l m : List Region) : Prop where
  length : l.length ≤ 6 → m.length ≤ 6
  linked : Linked l → Linked m

theorem RegionsKept.refl (l : List Region) : RegionsKept l l := ⟨id, id⟩

theorem RegionsKept.trans {l m n : List Region} (a : RegionsKept l m) (b : RegionsKept m n) : RegionsKept l n :=
  ⟨b.length ∘ a.length, b.linked ∘ a.linked⟩

theorem RegionsKept.forall₂ {l m : List Region} (h : List.Forall₂ SameLinks l m) : RegionsKept l m :=
  ⟨fun c => by rw [← h.length_eq]; exact c, linked_forall₂ h⟩

theorem RegionsKept.modifyWhere (c : Region → Bool) {f : Region → Region} (l : List Region) (h : ∀ r, SameLinks r (f r)) :
    RegionsKept l (modifyWhere c f l) :=
  .forall₂ (by
    induction l with
    | nil => exact .nil
    | cons r l ih =>
      refine .cons ?_ ih
      dsimp only
      split
      · exact h r
      · exact .refl r)

theorem RegionsKept.modifyLast {f : Region → Region} (l : List Region) (h : ∀ r, SameLinks r (f r)) : RegionsKept l (modifyLast f l) :=
  .forall₂ (by
    induction l with
    | nil => exact .nil
    | cons r l ih =>
      cases l with
      | nil => exact .cons (h r) .nil
      | cons s l => exact .cons (.refl r) ih)

theorem RegionsKept.modifyFirst (c : Region → Bool) {f : Region → Region} (l : List Region) (h : ∀ r, SameLinks r (f r)) :
    RegionsKept l (modifyFirst c f l) :=
  .forall₂ (by
    induction l with
    | nil => exact .nil
    | cons r l ih =>
      simp only [Machine.modifyFirst]
      split
      · exact .cons (h r) (List.forall₂_same.2 fun x _ => .refl x)
      · exact .cons (.refl r) ih)

/-- Regions that have a last cut number become ENDED. -/
theorem RegionsKept.endReached (n : Nat) (l : List Region) :
    RegionsKept l (Machine.modifyWhere (Region.reachedBy n) (fun r => { r with ended := true }) l) where
  length := fun c => by simpa using c
  linked := fun x => by
    induction l with
    | nil => exact x
    | cons r l ih =>
      cases l with
      | nil =>
        obtain ⟨a, b, c⟩ := x
        have : Region.reachedBy n r = false := by simp [Region.reachedBy, b]
        simp [Machine.modifyWhere, this, Linked, a, b, c]
      | cons s l =>
        obtain ⟨a, ⟨k, b, c⟩, d⟩ := x
        have i := ih d
        simp only [Machine.modifyWhere, List.map_cons] at i ⊢
        refine ⟨?_, ⟨k, ?_, ?_⟩, i⟩
        · split <;> split <;> exact a
        · split <;> exact b
        · split <;> exact c

/-- The first region, ENDED, leaves the list: it is not the open one. -/
theorem RegionsKept.removeEnded (r : Region) (l : List Region) (h : r.ended = true) : RegionsKept (r :: l) l where
  length := fun c => by rw [List.length_cons] at c; omega
  linked := fun x => by
    cases l with
    | nil => rw [x.2.2] at h; cases h
    | cons s l => exact x.2.2

/-- The open region takes an end and a last cut number, and the region that follows it is appended (R56, R57). -/
theorem linked_append (f : Region → Region) (l : List Region) (n : Region) (h : ∀ r, (f r).start = r.start ∧ (f r).first = r.first)
    (a : ∀ r, (f r).stop = some n.start) (b : ∀ r, ∃ k, (f r).last = some k ∧ n.first = some (k + 1)) (o : n.stop = none ∧ n.last = none ∧ n.ended = false)
    (x : Linked l) : Linked (Machine.modifyLast f l ++ [n]) := by
  induction l with
  | nil => exact o
  | cons r l ih =>
    cases l with
    | nil => exact ⟨a r, b r, o⟩
    | cons s l =>
      obtain ⟨c, ⟨k, d, e⟩, g⟩ := x
      have i := ih g
      cases l with
      | nil => exact ⟨by rw [(h s).1]; exact c, ⟨k, d, by rw [(h s).2]; exact e⟩, i⟩
      | cons t l => exact ⟨c, ⟨k, d, e⟩, i⟩

/-- The first region takes its first cut number (R131). -/
theorem RegionsKept.first (n : Nat) (l : List Region) :
    RegionsKept l (match l with | [] => [] | r :: rest => { r with first := some n } :: rest) where
  length := fun c => by cases l <;> exact c
  linked := fun x => by
    cases l with
    | nil => exact x
    | cons r l => cases l <;> exact x

end Sys2Proof.Machine
end

