-- ==== Sys2Proof/Laws/Kept.lean ====
section
/-! SUPPORT. What every reaction of the blocks keeps: the time, the mode, the requests, the positions, the channel map and the roster as they are;
every collection within its capacity; the effective ceiling of RUN at the least contribution; the conservation of cuts (R157, R161). One lemma for each
shared operation, in the order of the definitions. -/

namespace Sys2Proof.Machine

/-- A reaction takes `p` to `q`: what is true of the two. -/
structure Kept (p q : Part) : Prop where
  time : q.time = p.time
  node : q.node = p.node
  si : q.si = p.si
  mode : q.mu.mode = p.mu.mode
  requests : q.mu.queue = p.mu.queue
  board : posB q = posB p
  feeders : ∀ f, posF q f = posF p f
  roster : q.rif.roster = p.rif.roster
  lineMax : q.sg.lineMax = p.sg.lineMax
  urgentCap : p.rif.urgent.length ≤ 16 → q.rif.urgent.length ≤ 16
  normalCap : p.rif.normal.length ≤ 32 → q.rif.normal.length ≤ 32
  forwardCap : q.rif.forward.length ≤ p.rif.forward.length
  orders : q.os.queue.length ≤ p.os.queue.length
  regions : RegionsKept p.os.regions q.os.regions
  records : p.os.log.length ≤ 16 → q.os.log.length ≤ 16
  track : TrackKept p.wt.track q.wt.track
  cuts : p.sc.cuts.length ≤ 64 → q.sc.cuts.length ≤ 64
  ceiling : p.mu.mode = .run → p.sg.effective = some (ceilingOf p.sg) → q.sg.effective = some (ceilingOf q.sg)
  conserved : Conserved p → Conserved q
  setpoints : ∀ o, pendingSetpoints o q ≤ max 1 (pendingSetpoints o p)
  changes : (changeList p).length ≤ 4 → (changeList q).length ≤ 4
  diverts : (divertList p).length ≤ 16 → (divertList q).length ≤ 16
  stackerCommands : (stackerList p).length ≤ 32 → (stackerList q).length ≤ 32

theorem Kept.refl (p : Part) : Kept p p := by
  constructor <;> first | rfl | exact id | exact Nat.le_refl _ | exact fun _ => rfl | exact fun _ => id | exact fun _ => Nat.le_max_right _ _ | exact .refl _

theorem Kept.trans {p q r : Part} (a : Kept p q) (b : Kept q r) : Kept p r where
  time := b.time.trans a.time
  node := b.node.trans a.node
  si := b.si.trans a.si
  mode := b.mode.trans a.mode
  requests := b.requests.trans a.requests
  board := b.board.trans a.board
  feeders := fun f => (b.feeders f).trans (a.feeders f)
  roster := b.roster.trans a.roster
  lineMax := b.lineMax.trans a.lineMax
  urgentCap := b.urgentCap ∘ a.urgentCap
  normalCap := b.normalCap ∘ a.normalCap
  forwardCap := b.forwardCap.trans a.forwardCap
  orders := b.orders.trans a.orders
  regions := a.regions.trans b.regions
  records := b.records ∘ a.records
  track := a.track.trans b.track
  cuts := b.cuts ∘ a.cuts
  ceiling := fun m => b.ceiling (a.mode.trans m) ∘ a.ceiling m
  conserved := b.conserved ∘ a.conserved
  setpoints := fun o => (b.setpoints o).trans (by have := a.setpoints o; omega)
  changes := b.changes ∘ a.changes
  diverts := b.diverts ∘ a.diverts
  stackerCommands := b.stackerCommands ∘ a.stackerCommands

/-! ## What it gives for the invariants -/

theorem Kept.capacities {p q : Part} (k : Kept p q) (c : Capacities p) : Capacities q where
  urgent := k.urgentCap c.urgent
  normal := k.normalCap c.normal
  forward := k.forwardCap.trans c.forward
  roster := k.roster ▸ c.roster
  requests := k.requests ▸ c.requests
  orders := k.orders.trans c.orders
  regions := k.regions.length c.regions
  records := k.records c.records
  track := k.track.length c.track
  cuts := k.cuts c.cuts
  channels := k.si ▸ c.channels
  dbm := k.track.dbm c.dbm
  changes := k.changes c.changes
  diverts := k.diverts c.diverts
  stackerCommands := k.stackerCommands c.stackerCommands
  setpoints := fun o => (k.setpoints o).trans (by have := c.setpoints o; omega)

theorem Kept.ordered {p q : Part} (k : Kept p q) (o : Ordered p) : Ordered q where
  track := k.track.ordered o.track
  ids := k.track.ids o.ids
  regions := fun m => k.regions.linked (o.regions (k.mode.symm.trans m))

theorem governed_run {p : Part} (h : p.mu.mode = .run) : Governed p ↔ p.sg.effective = some (ceilingOf p.sg) := by
  unfold Governed
  rw [h]

theorem Kept.governed {p q : Part} (k : Kept p q) (h : p.mu.mode = .run) (g : Governed p) : Governed q :=
  (governed_run (k.mode.trans h)).2 (k.ceiling h ((governed_run h).1 g))

theorem Kept.nodeLegal {p q : Part} (k : Kept p q) (g : NodeLegal p) : NodeLegal q := by
  unfold NodeLegal at *
  rw [k.node, k.mode, k.requests]
  exact g

/-! ## Updates of one block -/

/-- A post keeps everything. -/
theorem Posted.kept {p q : Part} (a : Posted p q) (h : Held p q) : Kept p q :=
  { time := a.time, node := a.node, si := a.si, mode := a.mode, requests := a.requests, board := by rw [posB, a.wt, posB],
    feeders := fun f => by rw [posF, a.wt, posF], roster := a.roster, lineMax := by rw [a.sg], urgentCap := a.urgentCap,
    normalCap := a.normalCap, forwardCap := a.forwardCap, orders := by rw [a.os], regions := by rw [a.os]; exact .refl _,
    records := by rw [a.os]; exact id, track := by rw [a.wt]; exact .refl _, cuts := by rw [a.sc]; exact id,
    ceiling := by rw [a.sg]; exact fun _ => id, conserved := by unfold Conserved; rw [a.mode, a.sc]; exact id,
    setpoints := h.setpoints, changes := h.changes, diverts := h.diverts, stackerCommands := h.stackerCommands }

section Updates

variable {p q : Part}

theorem Kept.thenPosted {r : Part} (k : Kept p q) (a : Posted q r) (h : Held q r) : Kept p r := k.trans (a.kept h)

theorem Kept.thenRsc {x : Rsc} (k : Kept p q) : Kept p { q with rsc := x } := k.trans { Kept.refl q with }

theorem Kept.thenBc {x : Bc} (k : Kept p q) : Kept p { q with bc := x } := k.trans { Kept.refl q with }

theorem Kept.thenDec {x : Dec} (k : Kept p q) : Kept p { q with dec := x } := k.trans { Kept.refl q with }

theorem Kept.thenFree {n : Nat} (k : Kept p q) : Kept p { q with free := n } := k.trans { Kept.refl q with }

/-- An update of WT that leaves the positions. -/
theorem Kept.thenWt {x : Wt} (k : Kept p q) (b : x.board.pos = q.wt.board.pos) (f : ∀ f, (x.feeders.get f).pos = (q.wt.feeders.get f).pos)
    (t : TrackKept q.wt.track x.track) : Kept p { q with wt := x } :=
  k.trans { Kept.refl q with board := b, feeders := f, track := t }

/-- An update of OS. -/
theorem Kept.thenOs {x : Os} (k : Kept p q) (o : x.queue.length ≤ q.os.queue.length)
    (r : RegionsKept q.os.regions x.regions) (l : q.os.log.length ≤ 16 → x.log.length ≤ 16) : Kept p { q with os := x } :=
  k.trans { Kept.refl q with orders := o, regions := r, records := l }

/-- An update of SC. -/
theorem Kept.thenSc {x : Sc} (k : Kept p q) (c : q.sc.cuts.length ≤ 64 → x.cuts.length ≤ 64)
    (n : Conserved q → Conserved { q with sc := x }) : Kept p { q with sc := x } :=
  k.trans { Kept.refl q with cuts := c, conserved := n }

/-- A choice between two parts. -/
theorem Kept.ite {c : Prop} [Decidable c] {x y : Part} (a : Kept p x) (b : Kept p y) : Kept p (if c then x else y) := by
  split
  · exact a
  · exact b

/-! ## Folds -/

theorem Kept.thenFold {α : Type} {f : Part → α → Part} (s : ∀ r a, Kept r (f r a)) (l : List α) (k : Kept p q) :
    Kept p (l.foldl f q) := by
  induction l generalizing q with
  | nil => exact k
  | cons a l ih => exact ih (k.trans (s q a))

theorem Kept.thenForEach {n : Nat} {f : Fin n → Part → Part} (s : ∀ i r, Kept r (f i r)) (k : Kept p q) : Kept p (forEach f q) :=
  Kept.thenFold (fun r i => s i r) _ k

/-! ## Posts -/

theorem Kept.thenLatch {w : Alarm} (k : Kept p q) : Kept p (Machine.latch w q) := k.thenPosted (posted_latch w q) (held_latch w q)

theorem Kept.thenRaise {c : Counter} {n : Nat} (k : Kept p q) : Kept p (Machine.raise c n q) := k.thenPosted (posted_raise c n q) (held_raise c n q)

theorem Kept.thenPostNotice {n : Notice} (k : Kept p q) : Kept p (Machine.postNotice n q) := k.thenPosted (posted_postNotice n q) (held_postNotice n q)

theorem Kept.thenPostSetpoint {c : Command} (k : Kept p q) (h : c.setpoint = true := by rfl) : Kept p (Machine.postSetpoint c q) :=
  k.thenPosted (posted_postSetpoint c q) (held_postSetpoint c q h)

theorem Kept.thenPostGo' {s : Fin 5} {w : Arm} {n : Byte} (k : Kept p q) : Kept p (Machine.postSequence (.go s w n) q).1 :=
  k.thenPosted (posted_postSequence _ q) (held_postSequence _ q rfl fun _ _ => ⟨rfl, rfl, rfl⟩)

theorem Kept.thenPostAbort {s : Fin 5} {n : Byte} (k : Kept p q) : Kept p (Machine.postSequence (.abort s n) q).1 :=
  k.thenPosted (posted_postSequence _ q) (held_postSequence _ q rfl fun _ _ => ⟨rfl, rfl, rfl⟩)

/-- A waiting order replaced by one with no more messages of any kind. -/
theorem Kept.thenSetWait {u : Bool} {w : List Waiting} (k : Kept p q)
    (h : ∀ c : Message → Bool, w.countP (fun x => c x.msg) ≤ (waitOf q u).countP (fun x => c x.msg)) : Kept p (Machine.setWait q u w) :=
  k.thenPosted (posted_setWait q u w) (held_setWait q u w h)

theorem Kept.thenPostChange {n : Nat} {c : Option Nat} (k : Kept p q) : Kept p (Machine.postChange n c q) :=
  k.thenPosted (posted_postLimited _ _ _ _ q) (held_postChange n c q)

theorem Kept.thenPostDivert {n : Nat} (k : Kept p q) : Kept p (Machine.postDivert n q) :=
  k.thenPosted (posted_postLimited _ _ _ _ q) (held_postDivert n q)

theorem Kept.thenPostEject {n : Nat} (k : Kept p q) : Kept p (Machine.postEject n q) :=
  k.thenPosted (posted_postLimited _ _ _ _ q) (held_postEject n q)

theorem Kept.thenPostOrderEnd {n : Nat} (k : Kept p q) : Kept p (Machine.postOrderEnd n q) :=
  k.thenPosted (posted_postLimited _ _ _ _ q) (held_postOrderEnd n q)

/-! ## The ceiling -/

/-- A write to a slot computes the effective ceiling again (R160, R161). -/
theorem Kept.thenWriteSlot {x : Slot} {c : Contribution} (k : Kept p q) : Kept p (Machine.writeSlot x c q) := by
  refine k.trans ?_
  unfold writeSlot
  split
  · exact .refl q
  · dsimp only
    split
    · refine Kept.trans ?_ ((posted_postSetpoint _ _).kept (held_postSetpoint _ _ rfl))
      exact { Kept.refl q with ceiling := fun _ _ => rfl }
    · rename_i e
      refine { Kept.refl q with ceiling := fun h _ => ?_ }
      simp only [inRun, h, decide_true, Bool.true_and] at e
      simpa using e

theorem Kept.thenActivate {x : Slot} {v : Nat} (k : Kept p q) : Kept p (Machine.activate x v q) := k.thenWriteSlot

theorem Kept.thenDeactivate {x : Slot} (k : Kept p q) : Kept p (Machine.deactivate x q) := k.thenWriteSlot

theorem Kept.thenHoldAtCrawl {x : Slot} {c : Bool} (k : Kept p q) : Kept p (Machine.holdAtCrawl x c q) := by
  unfold holdAtCrawl
  split
  · exact k.thenActivate
  · exact k.thenDeactivate

/-! ## The tracking list -/

end Updates

/-- An insertion that has its place finds fewer than 64 entries (R27). -/
theorem track_lt_of_hasPlace {k : EntryKind} {p : Part} (h : hasPlace k p = true) : p.wt.track.length < 64 := by
  have h1 := (Bool.and_eq_true_iff.1 h).1
  rw [decide_eq_true_eq, freePlaces, Config.trackCap] at h1
  omega

theorem dbm_lt_of_hasPlace {k : EntryKind} {p : Part} (h : hasPlace k p = true) (d : k.isDbm = true) : dbmOf p.wt.track < 40 := by
  have h2 := (Bool.and_eq_true_iff.1 h).2
  simpa [d, dbmCount, dbmOf, Config.dbmCap] using of_decide_eq_true (by simpa [d] using h2 : decide (dbmCount p < Config.dbmCap) = true)

@[simp] theorem placedUnder_kind (k : Int) (f : Fin 2) (e : TrackEntry) : (placedUnder k f e).kind = e.kind := by
  unfold placedUnder
  split
  · split <;> rfl
  · rfl

@[simp] theorem placedUnder_id (k : Int) (f : Fin 2) (e : TrackEntry) : (placedUnder k f e).id = e.id := by
  unfold placedUnder
  split
  · split <;> rfl
  · rfl

section Track

variable {p q : Part}

/-- The tracking list replaced by one no longer. -/
theorem Kept.thenTrack {l : List TrackEntry} (k : Kept p q) (h : TrackKept q.wt.track l) :
    Kept p { q with wt := { q.wt with track := l } } :=
  k.thenWt rfl (fun _ => rfl) h

theorem Kept.thenSetTrack {l : List TrackEntry} (k : Kept p q) (h : Fewer q.wt.track l) : Kept p (Machine.setTrack q l) :=
  k.thenTrack h.sort

theorem Kept.thenKeepEntries {c : TrackEntry → Bool} (k : Kept p q) : Kept p (Machine.keepEntries c q) := k.thenTrack (.filter c _)

theorem Kept.thenReplaceEntry {e : TrackEntry} (k : Kept p q) : Kept p (Machine.replaceEntry e q) :=
  k.thenSetTrack (.modifyWhere _ _ fun _ => ⟨rfl, rfl⟩)

theorem Kept.thenAddEntry {e : TrackEntry} (k : Kept p q) (h : hasPlace e.kind q = true) : Kept p (Machine.addEntry e q).1 :=
  k.thenWt rfl (fun _ => rfl) (.insert _ _ (track_lt_of_hasPlace h) (dbm_lt_of_hasPlace h) (newId_fresh (track_lt_of_hasPlace h).le))

theorem Kept.thenAbsorbInto {d : TrackEntry} {s t : Nat} (k : Kept p q) : Kept p (Machine.absorbInto d s t q).1 :=
  k.thenSetTrack ((Fewer.filter _ _).trans (.modifyWhere _ _ fun _ => ⟨rfl, rfl⟩))

theorem Kept.thenCoverZone {f : Option (Fin 2)} {s t : Nat} (k : Kept p q) : Kept p (Machine.coverZone f s t q).1 := by
  unfold coverZone
  dsimp only
  split
  · exact k.thenLatch
  · split
    · exact k.thenLatch
    · split
      · exact k.thenLatch.thenAbsorbInto
      · exact k.thenLatch.thenReplaceEntry

theorem Kept.thenInsertOrCover {f : Option (Fin 2)} {e : TrackEntry} (k : Kept p q) : Kept p (Machine.insertOrCover f e q).1 := by
  unfold insertOrCover
  split
  · exact k.thenAddEntry (by assumption)
  · exact k.thenCoverZone

theorem Kept.thenInsertOpen {e : TrackEntry} (k : Kept p q) : Kept p (Machine.insertOpen e q).1 := by
  unfold insertOpen
  split
  · exact k.thenAddEntry (by assumption)
  · exact k.thenLatch

theorem Kept.thenSetStand {s : Fin 5} {x : Stand} (k : Kept p q) : Kept p (Machine.setStandRec q s x) := k.thenRsc

theorem Kept.thenPassJoint {e : TrackEntry} (k : Kept p q) : Kept p (Machine.passJoint q e) := by
  unfold passJoint
  split
  · exact k.thenSetStand
  · exact k

theorem Kept.thenRetire (k : Kept p q) : Kept p (Machine.retire q) := by
  unfold retire
  split
  · exact k
  · exact (k.thenFold (fun r _ => (Kept.refl r).thenPassJoint) _).thenKeepEntries

theorem Kept.thenPassMarks {y : Nat} (k : Kept p q) : Kept p (Machine.passMarks y q) := k.thenKeepEntries

theorem Kept.thenCloseZone {i e : Nat} (k : Kept p q) : Kept p (Machine.closeZone i e q).1 := by
  unfold closeZone
  split
  · exact k
  · dsimp only
    split
    · exact k.thenKeepEntries
    · exact k.thenReplaceEntry.thenRetire

theorem Kept.thenOpenZone {i : Nat} (k : Kept p q) : Kept p (Machine.openZone i q).1 := by
  unfold openZone
  split
  · exact k
  · exact k.thenReplaceEntry

theorem Kept.thenMoveUnbound {f : Fin 2} (k : Kept p q) : Kept p (Machine.moveUnbound f q).1 :=
  k.thenSetTrack (.map (placedUnder (bridgeK q f) f) _ fun e => ⟨placedUnder_kind _ f e, placedUnder_id _ f e⟩)

theorem Kept.thenBindBonds (k : Kept p q) : Kept p (Machine.bindBonds q) := by
  unfold bindBonds
  split
  · exact (k.thenTrack (.modifyWhere (f := TrackEntry.bind) _ _ fun _ => ⟨rfl, rfl, rfl⟩)).thenRetire
  · exact k

theorem Kept.thenMissJoints (k : Kept p q) : Kept p (Machine.missJoints q) := by
  unfold missJoints
  dsimp only
  split
  · exact k
  · exact ((k.thenTrack (.modifyWhere (f := TrackEntry.bind) _ _ fun _ => ⟨rfl, rfl, rfl⟩)).thenFold (fun r _ => (Kept.refl r).thenLatch) _).thenRetire

end Track

end Sys2Proof.Machine
end

