-- ==== Sys2Proof/Laws/Reactions.lean ====
section
/-! SUPPORT. The blocks' reactions keep what `Kept` names: the stand evaluation, the grade check, lookups, commitment, completion, the cut queue, cut
reports, slitter reports, bridges, sightings, defects and the splicer's reports. -/

namespace Sys2Proof.Machine

/-! ## RSC (04) -/

section Reels

variable {p q : Part}

theorem Kept.thenPostGo {s : Fin 5} {w : Arm} (k : Kept p q) : Kept p (Machine.postGo s w q) := by
  unfold postGo
  dsimp only
  split
  · exact k.thenSetStand.thenPostGo'
  · exact k.thenSetStand.thenPostGo'.thenSetStand

theorem Kept.thenTestExhausted {s : Fin 5} (k : Kept p q) : Kept p (Machine.testExhausted s q) := by
  unfold testExhausted
  split
  · exact k.thenSetStand.thenLatch
  · exact k

theorem Kept.thenModifyRegion {t : Nat} {f : Region → Region} (k : Kept p q)
    (h : ∀ r, SameLinks r (f r) := by exact fun _ => ⟨rfl, rfl, rfl, rfl, rfl⟩) : Kept p (Machine.modifyRegion t f q) :=
  k.thenOs (Nat.le_refl _) (.modifyWhere _ _ h) id

theorem Kept.thenSetGradeLate {t : Nat} (k : Kept p q) : Kept p (Machine.setGradeLate t q) := k.thenModifyRegion

theorem Kept.thenTestHopeless {s : Fin 5} (k : Kept p q) : Kept p (Machine.testHopeless s q) := by
  unfold testHopeless
  split
  · exact k
  · split
    · exact k.thenSetStand.thenSetGradeLate.thenLatch
    · exact k

theorem Kept.thenTestTrigger {s : Fin 5} (k : Kept p q) : Kept p (Machine.testTrigger s q).1 := by
  unfold testTrigger
  split
  · exact k
  · split
    · exact k.thenSetStand
    · exact k

theorem Kept.thenDecideGo {s : Fin 5} {b : Bool} (k : Kept p q) : Kept p (Machine.decideGo s b q) := by
  unfold decideGo
  split
  · split
    · exact k.thenPostGo
    · cases b
      · exact .ite k.thenPostGo k
      · exact .ite k.thenLatch.thenPostGo k.thenLatch
  · exact .ite k.thenLatch k

theorem Kept.thenSettleSplice {s : Fin 5} (k : Kept p q) : Kept p (Machine.settleSplice s q) := by
  unfold settleSplice
  dsimp only
  split
  · exact k.thenSetStand
  · exact k

theorem Kept.thenWriteSplice {s : Fin 5} (k : Kept p q) : Kept p (Machine.writeSplice s q) := by
  unfold writeSplice
  dsimp only
  split
  · split
    · exact k.thenSetStand.thenActivate
    · exact k.thenSetStand.thenLatch.thenActivate
  · split
    · exact k.thenSetStand.thenActivate
    · exact k.thenSetStand.thenDeactivate

theorem Kept.thenEvalStand {s : Fin 5} (k : Kept p q) : Kept p (Machine.evalStand s q) := by
  unfold evalStand
  split
  · exact k.thenTestExhausted.thenTestHopeless.thenTestTrigger.thenDecideGo.thenSettleSplice.thenWriteSplice
  · exact k

theorem Kept.thenEvalFeeder {f : Fin 2} (k : Kept p q) : Kept p (Machine.evalFeeder f q) := by
  refine k.thenForEach fun i r => ?_
  split
  · exact (Kept.refl r).thenEvalStand
  · exact .refl r

theorem Kept.thenInsertOff {s : Fin 5} {c : Nat × Option Nat × Nat} (k : Kept p q) : Kept p (Machine.insertOff s c q).1 := by
  unfold insertOff
  dsimp only
  split
  · exact k.thenInsertOrCover
  · exact k.thenInsertOpen

/-- A fold that answers a part and a list keeps what each of its steps keeps. -/
theorem Kept.thenFoldPair {α β : Type} {f : Part → α → Part × List β} (s : ∀ r a, Kept r (f r a).1) (l : List α) (b : List β)
    (k : Kept p q) : Kept p (l.foldl (fun acc c => let i := f acc.1 c; (i.1, acc.2 ++ i.2)) (q, b)).1 := by
  induction l generalizing q b with
  | nil => exact k
  | cons a l ih => exact ih _ (k.trans (s q a))

theorem Kept.thenGradeCheck {s : Fin 5} (k : Kept p q) : Kept p (Machine.gradeCheck s q).1 := by
  unfold gradeCheck
  split
  · refine Kept.ite (Kept.thenLatch ?_) ?_ <;>
      (refine Kept.thenFoldPair (f := fun r c => Machine.insertOff s c r) (fun r _ => (Kept.refl r).thenInsertOff) _ _ ?_
       split
       · exact k.thenTrack ((TrackKept.filter _ _).trans (.modifyWhere _ _ fun _ => ⟨rfl, rfl, rfl⟩))
       · exact (k.thenTrack ((TrackKept.filter _ _).trans (.modifyWhere (f := fun e : TrackEntry => { e with extent := some (posB q - e.start) }) _ _ fun _ => ⟨rfl, rfl, rfl⟩))).thenRetire)
  · exact k

theorem Kept.thenArmPlan {s : Fin 5} {o : Order} {n : Nat} (k : Kept p q) : Kept p (Machine.armPlan s o n q) := by
  unfold armPlan
  dsimp only
  split
  · split
    · exact k.thenSetStand.thenEvalStand
    · exact k.thenLatch.thenSetGradeLate
  · exact k

end Reels

/-! ## BC (05) -/

section Bond

variable {p q : Part}

theorem Kept.thenSetGlue {g : Fin 3} {x : GlueUnit} (k : Kept p q) : Kept p (Machine.setGlue q g x) := k.thenBc

theorem Kept.thenSetWrap {g : Fin 3} {x : WrapUnit} (k : Kept p q) : Kept p (Machine.setWrap q g x) := k.thenBc

theorem Kept.thenSetZone {z : Fin 8} {x : ZoneUnit} (k : Kept p q) : Kept p (Machine.setZone q z x) := k.thenBc

theorem Kept.thenComputeGlue {g : Fin 3} (k : Kept p q) : Kept p (Machine.computeGlue g q) := by
  unfold computeGlue
  dsimp only
  split
  · exact k
  · split
    · exact k
    · exact k.thenSetGlue.thenPostSetpoint

theorem Kept.thenLookupGlue {g : Fin 3} (k : Kept p q) : Kept p (Machine.lookupGlue g q) := by
  unfold lookupGlue
  split
  · dsimp only
    split
    · exact k.thenSetGlue
    · exact k.thenSetGlue.thenComputeGlue
  · exact k

theorem Kept.thenComputeWrap {w : Fin 3} (k : Kept p q) : Kept p (Machine.computeWrap w q) := by
  unfold computeWrap
  dsimp only
  split
  · exact k
  · split
    · exact k
    · exact k.thenSetWrap.thenPostSetpoint

theorem Kept.thenLookupWrap {w : Fin 3} (k : Kept p q) : Kept p (Machine.lookupWrap w q) := by
  unfold lookupWrap
  split
  · dsimp only
    split
    · exact k.thenSetWrap
    · exact k.thenSetWrap.thenComputeWrap
  · exact k

theorem Kept.thenSetZoneState {z : Fin 8} (k : Kept p q) : Kept p (Machine.setZoneState z q) := k.thenSetZone

theorem Kept.thenComputeZone {z : Fin 8} (k : Kept p q) : Kept p (Machine.computeZone z q) := by
  unfold computeZone
  dsimp only
  split
  · exact k
  · split
    · exact k
    · exact k.thenSetZone.thenPostSetpoint

theorem Kept.thenWriteHeat {z : Fin 8} (k : Kept p q) : Kept p (Machine.writeHeat z q) := by
  unfold writeHeat
  split
  · dsimp only
    split
    · exact k.thenSetZone.thenActivate
    · split
      · split
        · split
          · exact k.thenSetZone.thenActivate
          · exact k.thenSetZone.thenLatch.thenActivate
        · exact k.thenSetZone.thenDeactivate
      · exact k.thenSetZone.thenDeactivate
  · exact k

theorem Kept.thenZoneChanged {z : Fin 8} {r a : Bool} (k : Kept p q) : Kept p (Machine.zoneChanged z r a q) := by
  unfold zoneChanged
  have l : Kept p (if r then setZoneState z (computeZone z q) else q) := by
    split
    · exact k.thenComputeZone.thenSetZoneState
    · exact k
  dsimp only
  split
  · exact l.thenWriteHeat
  · exact l

theorem Kept.thenLookupZone {z : Fin 8} (k : Kept p q) : Kept p (Machine.lookupZone z q) := by
  unfold lookupZone
  split
  · exact k.thenSetZone.thenZoneChanged
  · exact k

theorem Kept.thenLookupAll (k : Kept p q) : Kept p (Machine.lookupAll q) :=
  ((k.thenForEach fun _ r => (Kept.refl r).thenLookupGlue).thenForEach fun _ r => (Kept.refl r).thenLookupWrap).thenForEach
    fun _ r => (Kept.refl r).thenLookupZone

theorem Kept.thenSpeedChanged (k : Kept p q) : Kept p (Machine.speedChanged q) := by
  unfold speedChanged
  split
  · refine Kept.thenForEach (fun _ r => (Kept.refl r).thenComputeWrap) (k.thenForEach fun _ r => ?_)
    split
    · exact (Kept.refl r).thenComputeGlue
    · exact .refl r
  · exact k

theorem Kept.thenZoneTempSample {z : Fin 8} {t : Int} (k : Kept p q) : Kept p (Machine.zoneTempSample z t q) := by
  unfold zoneTempSample
  split
  · exact k.thenSetZone.thenSetZoneState.thenWriteHeat
  · exact k

theorem Kept.thenZoneFreshness {z : Fin 8} {b : Bool} (k : Kept p q) : Kept p (Machine.zoneFreshness z b q) := by
  unfold zoneFreshness
  split
  · exact k.thenSetZone.thenSetZoneState.thenWriteHeat
  · exact k

theorem Kept.thenBeginDeviation {g : Fin 3} (k : Kept p q) : Kept p (Machine.beginDeviation g q).1 :=
  k.thenSetGlue.thenLatch.thenInsertOpen.thenSetGlue

theorem Kept.thenEndDeviation {g : Fin 3} (k : Kept p q) : Kept p (Machine.endDeviation g q).1 := by
  unfold endDeviation
  dsimp only
  split
  · exact k.thenSetGlue
  · exact k.thenSetGlue.thenCloseZone

theorem Kept.thenGlueSample {g : Fin 3} {x : Int} (k : Kept p q) : Kept p (Machine.glueSample g x q).1 := by
  unfold glueSample
  dsimp only
  split
  · split
    · split
      · split
        · exact k
        · exact k.thenBeginDeviation
      · split
        · exact k.thenEndDeviation
        · exact k
    · exact k
  · exact k

end Bond

/-! ## DEC's commands, OS (06, 03) -/

section Orders

variable {p q : Part}

theorem Kept.thenPresetStation {n : Nat} (k : Kept p q) : Kept p (Machine.presetStation n q) := by
  unfold presetStation
  split
  · exact k.thenDec.thenPostSetpoint
  · exact k

theorem Kept.thenReleaseStation (k : Kept p q) : Kept p (Machine.releaseStation q) := by
  unfold releaseStation
  split
  · exact k.thenDec
  · exact k

theorem Kept.thenTestSwapPoint (k : Kept p q) : Kept p (Machine.testSwapPoint q) := by
  unfold testSwapPoint
  split
  · exact k
  · split
    · exact Kept.thenPostSetpoint (k.trans { Kept.refl q with })
    · exact k

theorem Kept.thenTestSlitterLate (k : Kept p q) : Kept p (Machine.testSlitterLate q).1 := by
  unfold testSlitterLate
  split
  · exact k
  · split
    · dsimp only
      split
      · exact k.thenDec.thenLatch.thenOpenZone
      · exact k.thenDec.thenLatch.thenInsertOpen.thenDec
    · exact k

theorem Kept.thenChangeRefs {f : Nat → Nat} {n : Nat} (k : Kept p q) : Kept p (Machine.changeRefs f n q) := by
  unfold changeRefs
  split
  · exact k
  · exact k.thenBc

theorem Kept.thenAddRef {n : Nat} (k : Kept p q) : Kept p (Machine.addRef n q) := k.thenChangeRefs

theorem Kept.thenDropRef {n : Nat} (k : Kept p q) : Kept p (Machine.dropRef n q) := k.thenChangeRefs

theorem Kept.thenCompareProfile {o : Order} (k : Kept p q) : Kept p (Machine.compareProfile o q) := by
  unfold compareProfile
  split
  · exact k.thenOs (Nat.le_refl _) (.refl _) id
  · exact Kept.thenPresetStation (Kept.thenOs k (Nat.le_refl _) (.refl _) id)

theorem Kept.thenSelectNext (k : Kept p q) : Kept p (Machine.selectNext q) := by
  unfold selectNext
  split
  · exact k
  · split
    · exact k.thenCompareProfile
    · exact k

theorem Kept.thenSetRegions {l : List Region} (k : Kept p q) (h : RegionsKept q.os.regions l) :
    Kept p (Machine.setRegions q l) :=
  k.thenOs (Nat.le_refl _) h id

theorem Kept.thenModifyOpen {f : Region → Region} (k : Kept p q)
    (h : ∀ r, SameLinks r (f r) := by exact fun _ => ⟨rfl, rfl, rfl, rfl, rfl⟩) : Kept p (Machine.modifyOpen f q) :=
  k.thenSetRegions (.modifyLast _ h)

theorem Kept.thenComputeChange (k : Kept p q) : Kept p (Machine.computeChange q) := by
  unfold computeChange
  split
  · exact k
  · split
    · exact k
    · exact k.thenModifyOpen

theorem Kept.thenInsertSwap {n : Nat} (k : Kept p q) : Kept p (Machine.insertSwap n q) := k.thenInsertOrCover.thenDec

/-- Reactions between two updates of OS, which keeps its collections over both. -/
theorem Kept.aroundOs {x y : Os} (a : Kept { p with os := x } q) (o : y.queue.length ≤ p.os.queue.length)
    (r : RegionsKept p.os.regions y.regions) (l : p.os.log.length ≤ 16 → y.log.length ≤ 16) : Kept p { q with os := y } :=
  { a with orders := o, regions := r, records := l }

/-- The open region with its end fixed (R56). -/
def fixedOpen (r : Region) (p : Part) : Region → Region :=
  fun x => { x with stop := some (fixEnd r p).2.1, last := some (fixEnd r p).2.2, change := none, deferred := false }

/-- The end is fixed in the region list, and what else follows is SG's (R55, R56). -/
theorem fixEnd_kept (r : Region) (p : Part) : Kept (modifyOpen (fixedOpen r p) p) (fixEnd r p).1 := by
  unfold fixEnd fixedOpen
  dsimp only
  split
  · exact (Kept.refl _).thenDeactivate
  · exact .refl _

theorem fixEnd_os (r : Region) (p : Part) : (fixEnd r p).1.os = (modifyOpen (fixedOpen r p) p).os := by
  unfold fixEnd fixedOpen
  dsimp only
  split
  · rw [deactivate, writeSlot]
    split
    · rfl
    · dsimp only
      split
      · exact (posted_postSetpoint _ _).os
      · rfl
  · rfl

/-- A region is appended at a committed end where fewer than 6 stand (R55 to R57). -/
theorem Kept.thenAppendRegion {r : Region} {len : Nat} (k : Kept p q) (h : q.os.regions.length < 6) :
    Kept p (Machine.appendRegion len (fixEnd r q).2.1 (fixEnd r q).2.2 (fixEnd r q).1).1 := by
  have f := fixEnd_os r q
  have c : ∀ n : Region, n.start = (fixEnd r q).2.1 → n.first = some ((fixEnd r q).2.2 + 1) → n.stop = none ∧ n.last = none ∧ n.ended = false →
      RegionsKept q.os.regions ((fixEnd r q).1.os.regions ++ [n]) := by
    intro n a b o
    rw [f]
    refine ⟨fun _ => ?_, fun x => linked_append _ _ n (fun _ => ⟨rfl, rfl⟩) (fun _ => by rw [a]; rfl) (fun _ => ⟨_, rfl, b⟩) o x⟩
    simp only [modifyOpen, setRegions, List.length_append, length_modifyLast, List.length_singleton]
    omega
  have g : (fixEnd r q).1.os.queue = q.os.queue := by rw [f]; rfl
  have l : (fixEnd r q).1.os.log = q.os.log := by rw [f]; rfl
  have around : ∀ y : Os, y.queue.length ≤ q.os.queue.length → RegionsKept q.os.regions y.regions → y.log = q.os.log →
      Kept p { (fixEnd r q).1 with os := y } := fun y o r l =>
    k.trans (Kept.aroundOs (x := (modifyOpen (fixedOpen _ q) q).os) (fixEnd_kept _ q) o r fun c => by rw [l]; exact c)
  unfold appendRegion
  split
  · rename_i hq _
    dsimp only
    split
    · exact around _ (by rw [← g, hq]; simp) (c _ rfl rfl ⟨rfl, rfl, rfl⟩) l
    · exact around _ (by simp [g]) (c _ rfl rfl ⟨rfl, rfl, rfl⟩) l
  · exact around _ (by simp [g]) (c _ rfl rfl ⟨rfl, rfl, rfl⟩) l

theorem Kept.thenGradeChecks {r : Region} (k : Kept p q) : Kept p (Machine.gradeChecks r q) := by
  refine k.thenForEach fun s t => ?_
  dsimp only
  split
  · exact (Kept.refl t).thenGradeCheck.thenArmPlan
  · exact (Kept.refl t).thenGradeCheck

theorem Kept.thenCommit {r : Region} (k : Kept p q) (h : q.os.regions.length < 6) : Kept p (Machine.commit r q) := by
  have a := k.thenAppendRegion (r := r) (len := r.length) h
  unfold commit
  refine Kept.thenSelectNext (Kept.thenComputeChange (Kept.thenLookupAll (Kept.thenGradeChecks ?_)))
  generalize appendRegion r.length (fixEnd r q).2.1 (fixEnd r q).2.2 (fixEnd r q).1 = x at a ⊢
  exact Kept.ite (Kept.thenInsertSwap (Kept.ite a a.thenPostChange)) (Kept.ite a a.thenPostChange)

theorem Kept.thenDeferCommit {r : Region} (k : Kept p q) : Kept p (Machine.deferCommit r q) := by
  unfold deferCommit
  split
  · exact k
  · exact k.thenModifyOpen.thenLatch.thenActivate

theorem Kept.thenEndDeferral {r : Region} (k : Kept p q) : Kept p (Machine.endDeferral r q) := by
  unfold endDeferral
  split
  · exact k.thenModifyOpen.thenDeactivate
  · exact k

theorem Kept.thenCommitTimes {n : Nat} (k : Kept p q) : Kept p (Machine.commitTimes n q) := by
  induction n generalizing q with
  | zero => exact k
  | succ n ih =>
    rw [commitTimes]
    split
    · exact k
    · split
      · split
        · rename_i h
          refine ih (k.thenCommit ?_)
          exact of_decide_eq_true (Bool.and_eq_true_iff.1 h).1
        · exact k.thenDeferCommit
      · exact k.thenEndDeferral

theorem Kept.thenCommitCheck (k : Kept p q) : Kept p (Machine.commitCheck q) := by
  unfold commitCheck
  split
  · exact k.thenCommitTimes
  · exact k

theorem Kept.thenNextSelection (k : Kept p q) : Kept p (Machine.nextSelection q) := k.thenSelectNext.thenCommitCheck

theorem Kept.thenTakeChanges {l : List Change} (k : Kept p q) : Kept p (Machine.takeChanges l q) := by
  unfold takeChanges
  split
  · exact k
  · split
    · exact k
    · split
      · exact k.thenComputeChange
      · exact k

theorem Kept.thenHandOver {l : List Change} (k : Kept p q) : Kept p (Machine.handOver l q) := k.thenTakeChanges.thenCommitCheck

theorem Kept.thenHandOn {r : Part × List Change} (k : Kept p r.1) : Kept p (Machine.handOn r) := .ite k k.thenHandOver

theorem Kept.thenCheckGrades {s : Fin 5} (k : Kept p q) : Kept p (Machine.checkGrades s q) := k.thenGradeCheck.thenHandOver

theorem Kept.thenWriteRecord {c : Completion} (k : Kept p q) : Kept p (Machine.writeRecord c q) := by
  have l : ∀ b : Bool, (b = false → q.os.log.length < 16) →
      Kept p { q with os := { q.os with log := (if b then q.os.log.tail else q.os.log) ++ [c] } } := by
    intro b h
    refine Kept.thenOs k (Nat.le_refl _) (.refl _) fun f => ?_
    cases b
    · have := h rfl
      simp only [Bool.false_eq_true, if_false, List.length_append, List.length_singleton]
      omega
    · simp only [if_true, List.length_append, List.length_tail, List.length_singleton]
      omega
  have f := l (decide (Config.completionCap ≤ q.os.log.length)) fun e => by
    have := of_decide_eq_false e
    simpa [Config.completionCap] using this
  exact Kept.thenPostNotice (Kept.ite f.thenLatch f)

theorem Kept.thenCompleteFirst {r : Region} {rest : List Region} (k : Kept p q) (h : q.os.regions = r :: rest) (e : r.ended = true) :
    Kept p (Machine.completeFirst r rest q) := by
  have x : RegionsKept q.os.regions rest := h ▸ .removeEnded r rest e
  unfold completeFirst
  split
  · exact k.thenSetRegions x
  · exact (k.thenSetRegions x).thenDropRef.thenWriteRecord

theorem Kept.thenCompleteTimes {n : Nat} (k : Kept p q) : Kept p (Machine.completeTimes n q) := by
  induction n generalizing q with
  | zero => exact k
  | succ n ih =>
    rw [completeTimes]
    split
    · exact k
    · split
      · rename_i e c
        have h := (Bool.and_eq_true_iff.1 c).1
        exact (ih (k.thenCompleteFirst e h).thenLookupAll).thenCommitCheck
      · exact k

theorem Kept.thenCompleteRegions (k : Kept p q) : Kept p (Machine.completeRegions q) := k.thenCompleteTimes

end Orders

/-! ## SC (07) -/

section Stacker

variable {p q : Part}

theorem Kept.thenTestBacklog (k : Kept p q) : Kept p (Machine.testBacklog q) := by
  unfold testBacklog
  split
  · exact Kept.thenActivate (k.thenSc id id)
  · split
    · exact Kept.thenDeactivate (k.thenSc id id)
    · exact k

theorem Kept.thenModifyFinal {c : CutEntry → Bool} {f : CutEntry → CutEntry} (k : Kept p q) :
    Kept p (setCuts q (modifyFinal c f q.sc.cuts)) :=
  k.thenSc (by simp) (by unfold Conserved; simp)

theorem Kept.thenTakeGood {n : Nat} {r : Region} {o : Order} (k : Kept p q) : Kept p (Machine.takeGood n r o q).1 := by
  unfold takeGood
  split
  · rename_i h
    refine Kept.thenTestBacklog (Kept.thenModifyRegion (k.thenSc (fun _ => ?_) fun c m e => ?_))
    · simp only [List.length_append, List.length_singleton]
      exact h
    · simp only [sat32] at e ⊢
      have := c m (by omega)
      simp only [List.length_append, List.length_singleton]
      omega
  · exact k.thenModifyRegion.thenRaise.thenPostDivert.thenLatch

theorem Kept.thenOrderEnded {r : Region} {o : Order} (k : Kept p q) : Kept p (Machine.orderEnded r o q) := by
  unfold orderEnded
  dsimp only
  split
  · exact k.thenModifyFinal
  · exact Kept.thenPostOrderEnd (Kept.ite k.thenPostEject k)

theorem Kept.thenActFlags {e : CutEntry} (k : Kept p q) : Kept p (Machine.actFlags e q) := by
  have f := Kept.ite (c := e.stackEnd = true) (k.thenPostEject (n := e.tag)) k
  exact Kept.ite f.thenPostOrderEnd f

/-- Reactions between two updates of SC, which keeps its counts over both. -/
theorem Kept.aroundSc {x y : Sc} (a : Kept { p with sc := x } q) (c : p.sc.cuts.length ≤ 64 → y.cuts.length ≤ 64)
    (n : p.mu.mode = .run → Conserved p → Conserved { q with sc := y }) : Kept p { q with sc := y } :=
  { a with cuts := c, conserved := fun c m => n (a.mode.symm.trans m) c m }

/-- The head entry leaves the queue and is counted stacked (R154). -/
theorem Kept.thenRemoveStacked {e : CutEntry} {rest : List CutEntry} (k : Kept p q) (h : q.sc.cuts = e :: rest) :
    Kept p (Machine.removeStacked e rest q) := by
  unfold removeStacked
  refine Kept.thenCompleteRegions (Kept.thenActFlags (k.trans ?_))
  refine Kept.aroundSc (((Kept.refl (setCuts q rest)).thenModifyRegion.thenRaise.thenRaise)) (fun c => ?_) fun m c _ n => ?_
  · rw [h, List.length_cons] at c
    simp only [raise_sc, modifyRegion, setCuts]
    omega
  · have s := c m
    rw [h] at s
    simp only [raise_sc, modifyRegion, setCuts, List.length_cons, sat32] at s n ⊢
    have := s n
    omega

/-- The head entry leaves the queue and is counted missing (R156). -/
theorem Kept.thenRemoveMissing {e : CutEntry} {rest : List CutEntry} (k : Kept p q) (h : q.sc.cuts = e :: rest) :
    Kept p (Machine.removeMissing e rest q) := by
  unfold removeMissing
  refine Kept.thenCompleteRegions (Kept.thenActFlags (Kept.thenLatch (k.trans ?_)))
  refine Kept.aroundSc ((Kept.refl (setCuts q rest)).thenModifyRegion) (fun c => ?_) fun m c _ n => ?_
  · rw [h] at c
    exact (Nat.le_succ _).trans c
  · have s := c m
    rw [h] at s
    simp only [modifyRegion, setCuts, List.length_cons, sat32] at s n ⊢
    have := s n
    omega

theorem Kept.thenMissingTimes {n : Nat} (k : Kept p q) : Kept p (Machine.missingTimes n q) := by
  induction n generalizing q with
  | zero => exact k
  | succ n ih =>
    rw [missingTimes]
    split
    · exact k
    · split
      · exact ih (k.thenRemoveMissing (by assumption))
      · exact k

theorem Kept.thenTestHead (k : Kept p q) : Kept p (Machine.testHead q) := k.thenMissingTimes.thenTestBacklog

theorem Kept.thenTakeArrivals {n : Nat} (k : Kept p q) : Kept p (Machine.takeArrivals n q) := by
  induction n generalizing q with
  | zero => exact k
  | succ n ih =>
    rw [takeArrivals]
    split
    · exact Kept.thenLatch (k.thenSc id id)
    · exact ih (k.thenRemoveStacked (by assumption)).thenTestHead

theorem Kept.thenStackerSample {a : BitVec 16} (k : Kept p q) : Kept p (Machine.stackerSample a q) := by
  unfold stackerSample
  split
  · split
    · exact k.thenSc id id
    · exact Kept.thenTakeArrivals (k.thenSc id id)
  · exact k

end Stacker

/-! ## DEC: cut and slitter reports (06) -/

section Knife

variable {p q : Part}

theorem Kept.thenModifyFor {n : Nat} {f : Region → Region} (k : Kept p q)
    (h : ∀ r, SameLinks r (f r) := by exact fun _ => ⟨rfl, rfl, rfl, rfl, rfl⟩) : Kept p (Machine.modifyFor n f q) :=
  k.thenSetRegions (.modifyFirst _ _ h)

theorem Kept.thenAttributeCut {n : Nat} (k : Kept p q) : Kept p (Machine.attributeCut n q) := k.thenModifyFor

theorem Kept.thenCullCut {n : Nat} {w : Cause} (k : Kept p q) : Kept p (Machine.cullCut n w q) :=
  k.thenModifyFor.thenRaise.thenPostDivert

theorem Kept.thenDisposeCut {r : Region} {c : Cut} (k : Kept p q) : Kept p (Machine.disposeCut r c q).1 := by
  unfold disposeCut
  split
  · exact k.thenCullCut
  · exact k.thenTakeGood
  · exact k

theorem Kept.thenPlacesFreed {n : Nat} (k : Kept p q) : Kept p (Machine.placesFreed n q) := .ite k.thenCommitCheck k

theorem Kept.thenHandleMarks {c : Cut} {b : Bool} (k : Kept p q) : Kept p (Machine.handleMarks c b q) :=
  (k.thenFold (fun r _ => (Kept.refl r).thenPostNotice) _).thenPassMarks.thenPlacesFreed

theorem Kept.thenTellEnded {r : Region} (k : Kept p q) : Kept p (Machine.tellEnded q r) := by
  unfold tellEnded
  split
  · exact k.thenOrderEnded
  · exact k

theorem Kept.thenEndRegions {n : Nat} (k : Kept p q) : Kept p (Machine.endRegions n q) := by
  unfold endRegions
  dsimp only
  split
  · exact k
  · exact ((k.thenSetRegions (.endReached _ _)).thenFold (fun r _ => (Kept.refl r).thenTellEnded) _).thenCompleteRegions

theorem Kept.thenTakeCut {c : Cut} (k : Kept p q) : Kept p (Machine.takeCut c q) := by
  unfold takeCut
  split
  · exact k.thenHandleMarks.thenEndRegions
  · exact k.thenAttributeCut.thenDisposeCut.thenHandleMarks.thenEndRegions

theorem Kept.thenSynthesize {m n x : Nat} (k : Kept p q) : Kept p (Machine.synthesize m n x q).1 := by
  induction m generalizing n x q with
  | zero => exact k
  | succ m ih => exact ih k.thenTakeCut

theorem countP_modifyWhere_msg (c : Message → Bool) (d : Waiting → Bool) (l : List Waiting) :
    (modifyWhere d (fun w => { w with late := true }) l).countP (fun x => c x.msg) = l.countP (fun x => c x.msg) := by
  unfold modifyWhere
  rw [List.countP_map]
  refine List.countP_congr fun x _ => ?_
  simp only [Function.comp_apply]
  split <;> exact Iff.rfl

theorem Kept.thenTestChanges {n : Nat} (k : Kept p q) : Kept p (Machine.testChanges n q) :=
  (k.thenSetWait fun c => Nat.le_of_eq (countP_modifyWhere_msg c _ _)).thenFold (fun r _ => (Kept.refl r).thenLatch) _

theorem Kept.thenFinishReport {n y : Nat} (k : Kept p q) : Kept p (Machine.finishReport n y q) := by
  have f := Kept.thenRetire (Kept.thenTestChanges (n := n) (k.thenDec (x := { q.dec with cLast := some n, kLast := some y })))
  exact Kept.thenCommitCheck (Kept.ite f.thenComputeChange f)

theorem Kept.thenLastCut {c : Cut} (k : Kept p q) : Kept p (Machine.lastCut c q) := k.thenTakeCut.thenFinishReport

theorem Kept.thenLatchMoved {c : Cut} (k : Kept p q) : Kept p (Machine.latchMoved c q) := .ite k.thenLatch k

theorem Kept.thenFirstReport {n m : Nat} (k : Kept p q) : Kept p (Machine.firstReport n m q) :=
  Kept.thenLastCut (k.thenSetRegions (.first _ _))

theorem Kept.thenLaterReport {g c x m : Nat} (k : Kept p q) : Kept p (Machine.laterReport g c x m q) := by
  unfold laterReport
  split
  · exact k.thenLatchMoved.thenLastCut
  · split
    · exact k.thenLatch.thenSynthesize.thenLatchMoved.thenLastCut
    · exact k.thenLatch.thenLastCut

theorem Kept.thenKnifeSample {n : BitVec 16} {m : Nat} (k : Kept p q) : Kept p (Machine.knifeSample n m q) := by
  unfold knifeSample
  split
  · dsimp only
    split
    · exact .ite k k.thenLaterReport
    · exact k.thenFirstReport
  · exact k

theorem Kept.thenPresetHandedOn {n : Nat} (k : Kept p q) : Kept p (Machine.presetHandedOn n q) := by
  unfold presetHandedOn
  split
  · exact .ite (Kept.thenCommitCheck (k.thenOs (Nat.le_refl _) (.refl _) id)) k
  · exact k

theorem Kept.thenPresetDone {n : Nat} (k : Kept p q) : Kept p (Machine.presetDone n q) := by
  unfold presetDone
  split
  · exact .ite k.thenDec.thenPresetHandedOn k
  · exact k
  · exact k

theorem Kept.thenCloseLateZone (k : Kept p q) : Kept p (Machine.closeLateZone q) := by
  unfold closeLateZone
  split
  · exact k
  · split
    · split
      · exact k.thenCloseZone.thenHandOn
      · exact k
    · exact k

theorem Kept.thenSwapped {n : Nat} (k : Kept p q) : Kept p (Machine.swapped n q) :=
  .ite k.thenDec.thenCloseLateZone.thenNextSelection k

theorem Kept.thenSlitterSample {c n : Nat} (k : Kept p q) : Kept p (Machine.slitterSample c n q) := by
  unfold slitterSample
  exact .ite (.ite k.thenLatch (.ite k.thenPresetDone (.ite k.thenSwapped k.thenLatch))) k

end Knife

/-! ## WT: bridges, sightings, defects, advances (01, 02) -/

section Web

variable {p q : Part}

theorem Kept.thenSetBridge {f : Fin 2} {b : Bridge} (k : Kept p q) : Kept p (Machine.setBridgeRec q f b) :=
  k.thenWt rfl (fun _ => rfl) (.refl _)

theorem Kept.thenCheckLow {f : Fin 2} (k : Kept p q) : Kept p (Machine.checkLow f q) := by
  unfold checkLow
  exact .ite k.thenSetBridge.thenLatch.thenActivate (.ite k.thenSetBridge.thenDeactivate k)

theorem Kept.thenCheckHigh {f : Fin 2} (k : Kept p q) : Kept p (Machine.checkHigh f q) := by
  unfold checkHigh
  exact .ite k.thenSetBridge.thenLatch (.ite k.thenSetBridge k)

theorem Kept.thenCheckBridge {f : Fin 2} (k : Kept p q) : Kept p (Machine.checkBridge f q) := .ite k.thenCheckLow.thenCheckHigh k

theorem Kept.thenKChanged {f : Fin 2} {m : List Change} {a : Option (Fin 5)} (k : Kept p q) : Kept p (Machine.kChanged f m a q) := by
  unfold kChanged
  refine Kept.thenLookupGlue (Kept.thenEvalFeeder (Kept.thenForEach (fun _ r => ?_)
    k.thenMoveUnbound.thenHandOver.thenBindBonds.thenCommitCheck.thenCheckBridge))
  exact .ite (Kept.refl r).thenCheckGrades (.refl r)

theorem Kept.thenSetK {f : Fin 2} {x : Int} (k : Kept p q) : Kept p (Machine.setK f x q) := .ite k k.thenSetBridge.thenKChanged

theorem Kept.thenMatchJoint {f : Fin 2} {n : Nat} {s : Fin 5} {e : TrackEntry} (k : Kept p q) :
    Kept p (Machine.matchJoint f n s e q) := by
  unfold matchJoint
  dsimp only
  split
  · exact .ite k.thenReplaceEntry.thenRetire.thenHandOver.thenCheckGrades k.thenReplaceEntry.thenRetire.thenHandOver
  · exact k.thenReplaceEntry.thenRetire.thenSetBridge.thenKChanged

theorem Kept.thenSighting {f : Fin 2} {n : Nat} (k : Kept p q) : Kept p (Machine.sighting f n q) := by
  unfold sighting
  split
  · exact k.thenLatch
  · split
    · exact k.thenMatchJoint
    · exact k

theorem Kept.thenSightSample {f : Fin 2} {c : Byte} (k : Kept p q) : Kept p (Machine.sightSample f c q) := by
  unfold sightSample
  split
  · dsimp only
    split
    · exact k.thenSetBridge
    · exact .ite k k.thenSetBridge.thenSighting
  · exact k

theorem Kept.thenRefillCredit {n : Nat} (k : Kept p q) : Kept p (Machine.refillCredit n q) := by
  unfold refillCredit
  exact .ite (k.thenWt rfl (fun _ => rfl) (.refl _)) (.ite (k.thenWt rfl (fun _ => rfl) (.refl _)) (k.thenWt rfl (fun _ => rfl) (.refl _)))

theorem Kept.thenDropDefect (k : Kept p q) : Kept p (Machine.dropDefect q) := k.thenLatch.thenRaise

theorem Kept.thenMergeLatest {s t : Nat} (k : Kept p q) : Kept p (Machine.mergeLatest s t q) := by
  unfold mergeLatest
  split
  · exact k.thenDropDefect
  · exact .ite k.thenDropDefect k.thenAbsorbInto.thenHandOn.thenLatch

theorem Kept.thenTakeDefect {d : Fin 4} {n : Nat} (k : Kept p q) : Kept p (Machine.takeDefect d n q) := by
  unfold takeDefect
  dsimp only
  split
  · exact k.thenAbsorbInto.thenHandOn
  · split
    · rename_i h
      exact Kept.thenHandOver (Kept.thenWt (k.thenAddEntry h.2) rfl (fun _ => rfl) (.refl _))
    · exact k.thenMergeLatest

theorem Kept.thenDefectSample {d : Fin 4} {n : Nat} {c : Byte} (k : Kept p q) : Kept p (Machine.defectSample d n c q) := by
  unfold defectSample
  split
  · dsimp only
    split
    · exact k.thenWt rfl (fun _ => rfl) (.refl _)
    · exact .ite k (Kept.thenTakeDefect (k.thenWt rfl (fun _ => rfl) (.refl _)))
  · exact k

theorem Kept.thenMotionAlarms {m : Motion} (k : Kept p q) : Kept p (Machine.motionAlarms m q) := .ite k.thenLatch (.ite k.thenLatch k)

theorem Kept.thenSlitterLate (k : Kept p q) : Kept p (Machine.slitterLate q) := k.thenTestSlitterLate.thenHandOn

theorem Kept.thenBoardAdvanced {n : Nat} (k : Kept p q) : Kept p (Machine.boardAdvanced n q) :=
  (k.thenForEach fun _ r => (Kept.refl r).thenCheckBridge).thenMissJoints.thenRefillCredit.thenBindBonds.thenCommitCheck.thenEvalStand.thenLookupAll.thenTestSwapPoint.thenSlitterLate.thenRaise

theorem Kept.thenFeederAdvanced {f : Fin 2} (k : Kept p q) : Kept p (Machine.feederAdvanced f q) := k.thenCheckBridge.thenEvalFeeder

end Web

/-! ## RSC's reports (04) -/

section Splicer

variable {p q : Part}

theorem Kept.thenDiameterSample {s : Fin 5} {v : Int} (k : Kept p q) : Kept p (Machine.diameterSample s v q) := by
  unfold diameterSample
  exact .ite k.thenSetStand.thenEvalStand k

theorem Kept.thenTestHeldGo {s : Fin 5} (k : Kept p q) : Kept p (Machine.testHeldGo s q) := by
  have w := k.thenPosted (posted_withdrawGo s q) (held_withdrawGo s q)
  unfold testHeldGo
  exact .ite w.thenSetStand w

theorem Kept.thenTakeArms {s : Fin 5} {a b : ArmState} (k : Kept p q) : Kept p (Machine.takeArms s a b q) := by
  unfold takeArms
  exact Kept.thenEvalStand (.ite k.thenSetStand.thenTestHeldGo.thenCheckGrades k.thenSetStand.thenTestHeldGo)

theorem Kept.thenArmSample {s : Fin 5} {a b r : Nat} (k : Kept p q) : Kept p (Machine.armSample s a b r q) := by
  unfold armSample
  split
  · exact k
  · split
    · exact .ite k.thenTakeArms k.thenLatch
    · exact k.thenLatch

theorem Kept.thenSatisfyPlan {s : Fin 5} {g j : Nat} (k : Kept p q) : Kept p (Machine.satisfyPlan s g j q) := by
  unfold satisfyPlan
  dsimp only
  split
  · exact k
  · split
    · split
      · exact .ite k.thenSetStand.thenSetGradeLate k.thenSetStand
      · exact k.thenSetStand
    · exact k

theorem Kept.thenTakeDone {s : Fin 5} {g : GoRecord} (k : Kept p q) : Kept p (Machine.takeDone s g q) := by
  unfold takeDone
  exact ((k.thenSetStand.thenPosted (posted_withdrawAbort s _ _) (held_withdrawAbort s _ _)).thenInsertOrCover.thenHandOver.thenRaise).thenSetStand.thenSatisfyPlan.thenCheckGrades.thenEvalStand

theorem Kept.thenWebBroken (k : Kept p q) : Kept p (Machine.webBroken q) := k.thenLatch.thenActivate

theorem Kept.thenTakeFault {s : Fin 5} {b : Bool} (k : Kept p q) : Kept p (Machine.takeFault s b q) := by
  unfold takeFault
  exact .ite (Kept.thenEvalStand (.ite (Kept.thenSetStand k).thenWebBroken (Kept.thenSetStand k).thenLatch))
    (.ite k.thenSetStand.thenWebBroken k.thenSetStand)

theorem Kept.thenTakeAborted {s : Fin 5} {n : Byte} (k : Kept p q) : Kept p (Machine.takeAborted s n q) := by
  unfold takeAborted
  exact .ite (Kept.thenSetStand k).thenLatch.thenEvalStand (k.thenSetStand.thenPosted (posted_withdrawAbort s n _) (held_withdrawAbort s n _))

theorem Kept.thenTakeAccepted {s : Fin 5} (k : Kept p q) : Kept p (Machine.takeAccepted s q) := .ite k.thenSetStand k

theorem Kept.thenSplicerSample {s : Fin 5} {c n : Nat} (k : Kept p q) : Kept p (Machine.splicerSample s c n q) := by
  unfold splicerSample
  split
  · exact k
  · split
    · exact k.thenLatch
    · split
      · exact k
      · exact .ite (.ite k.thenTakeAccepted (.ite k.thenTakeDone (.ite k.thenTakeAborted k.thenTakeFault))) k

theorem Kept.thenSpliceTimeout {s : Fin 5} (k : Kept p q) : Kept p (Machine.spliceTimeout s q) := by
  unfold spliceTimeout
  dsimp only
  split
  · exact k.thenPostAbort.thenSetStand.thenLatch.thenEvalStand
  · exact k

theorem Kept.thenAcceptedExpiry {s : Fin 5} (k : Kept p q) : Kept p (Machine.acceptedExpiry s q) := .ite k.thenSpliceTimeout k

theorem Kept.thenDoneExpiry {s : Fin 5} (k : Kept p q) : Kept p (Machine.doneExpiry s q) := .ite k.thenSpliceTimeout k

end Splicer

end Sys2Proof.Machine
end

