-- ==== Sys2Proof/Laws/Requests.lean ====
section
/-! SUPPORT. How a request's command runs: what `Asks` gives, the two checks of MU, and the reply; and which operations do nothing outside RUN. -/

namespace Sys2Proof.Machine

/-! ## The head request (R195) -/

section Asked

variable {p : Part} {code : Nat} {ws fs : List Nat} {r : Request}

theorem headRequest_of_asks (a : Asks p code ws fs r) : headRequest code p = some r := by
  obtain ⟨f, h, c, _⟩ := a
  unfold headRequest
  cases q : p.mu.queue with
  | nil => simp [q] at h
  | cons x l => simp_all

/-- A request taken in the present mode: its owner's rule is applied to its fields and the part without it. -/
theorem serveWith_of_asks {t : Taken} {act : Request → List Nat → Part → Part} (a : Asks p code ws fs r)
    (m : t.allows p.mu.mode = true) : serveWith code t ws act p = act r fs (popRequest p) := by
  unfold serveWith
  rw [headRequest_of_asks a]
  simp [a.2.2.2, m]

/-- A request taken in the present mode answers what its owner's rule answers. -/
theorem serve_of_asks {t : Taken} {act : List Nat → Part → Answer} (a : Asks p code ws fs r) (m : t.allows p.mu.mode = true) :
    serve code t ws act p = replyTo r (act fs (popRequest p)) :=
  serveWith_of_asks a m

/-- A request in the mode that does not take it is refused with WRONG_MODE. -/
theorem serve_wrongMode {t : Taken} {act : List Nat → Part → Answer} (a : Asks p code ws fs r) (m : t.allows p.mu.mode = false) :
    serve code t ws act p = postReply r .wrongMode [] (popRequest p) := by
  unfold serve serveWith
  rw [headRequest_of_asks a]
  simp [a.2.2.2, m]

end Asked

@[simp] theorem allows_either (m : Mode) : Taken.either.allows m = true := rfl

theorem allows_only (m : Mode) : (Taken.only m).allows m = true := by simp [Taken.allows]

theorem allows_other {m n : Mode} (h : n ≠ m) : (Taken.only m).allows n = false := by simp [Taken.allows, Ne.symm h]

@[simp] theorem replyTo_okWith (r : Request) (l : List Byte) (q : Part) : replyTo r (okWith l q) = postReply r .ok l q := rfl

@[simp] theorem replyTo_refuse (r : Request) (st : Status) (q : Part) : replyTo r (refuse st q) = postReply r st [] q := rfl

/-- A command's effect, in the form of the statements. -/
theorem onPart_answered {f : Part → Part} {s : State} {r : Request} {st : Status} {l : List Byte} {q : Part}
    (h : f s.part = postReply r st l q) : onPart f s = Answered s r st l q := by
  rw [onPart, h, Answered]

/-! ## The part without its head request -/

@[simp] theorem popRequest_requests (p : Part) : (popRequest p).mu.queue = p.mu.queue.tail := rfl
@[simp] theorem popRequest_generation (p : Part) : (popRequest p).mu.generation = p.mu.generation := rfl
@[simp] theorem popRequest_snap (p : Part) : (popRequest p).mu.snap = p.mu.snap := rfl

/-! ## What does nothing outside RUN -/

section Config

variable {p : Part}

theorem inRun_config (h : p.mu.mode = .config) : inRun p = false := by simp [inRun, h]

theorem inRun_run (h : p.mu.mode = .run) : inRun p = true := by simp [inRun, h]

theorem commitCheck_config (h : p.mu.mode = .config) : commitCheck p = p := by simp [commitCheck, inRun_config h]

theorem selectNext_config (h : p.mu.mode = .config) : selectNext p = p := by
  unfold selectNext
  split <;> simp [inRun_config h]

theorem nextSelection_config (h : p.mu.mode = .config) : nextSelection p = p := by
  rw [nextSelection, selectNext_config h, commitCheck_config h]

theorem evalStand_config (h : p.mu.mode = .config) (s : Fin 5) : evalStand s p = p := by simp [evalStand, inRun_config h]

theorem gradeCheck_config (h : p.mu.mode = .config) (s : Fin 5) : gradeCheck s p = (p, []) := by simp [gradeCheck, inRun_config h]

theorem testLost_config (h : p.mu.mode = .config) : testLost p = p := by simp [testLost, inRun_config h]

theorem writeHeat_config (h : p.mu.mode = .config) (z : Fin 8) : writeHeat z p = p := by simp [writeHeat, inRun_config h]

theorem boardSample_config (h : p.mu.mode = .config) (c t : Word) : boardSample c t p = p := by simp [boardSample, inRun_config h]

theorem feederSample_config (h : p.mu.mode = .config) (f : Fin 2) (c t : Word) : feederSample f c t p = p := by
  simp [feederSample, inRun_config h]

theorem diameterSample_config (h : p.mu.mode = .config) (s : Fin 5) (v : Int) : diameterSample s v p = p := by
  simp [diameterSample, inRun_config h]

theorem sightSample_config (h : p.mu.mode = .config) (f : Fin 2) (c : Byte) : sightSample f c p = p := by
  simp [sightSample, inRun_config h]

theorem zoneTempSample_config (h : p.mu.mode = .config) (z : Fin 8) (t : Int) : zoneTempSample z t p = p := by
  simp [zoneTempSample, inRun_config h]

theorem glueSample_config (h : p.mu.mode = .config) (g : Fin 3) (x : Int) : glueSample g x p = (p, []) := by
  simp [glueSample, inRun_config h]

theorem defectSample_config (h : p.mu.mode = .config) (d : Fin 4) (n : Nat) (c : Byte) : defectSample d n c p = p := by
  simp [defectSample, inRun_config h]

theorem knifeSample_config (h : p.mu.mode = .config) (n : BitVec 16) (m : Nat) : knifeSample n m p = p := by
  simp [knifeSample, inRun_config h]

theorem slitterSample_config (h : p.mu.mode = .config) (c n : Nat) : slitterSample c n p = p := by
  simp [slitterSample, inRun_config h]

theorem stackerSample_config (h : p.mu.mode = .config) (a : BitVec 16) : stackerSample a p = p := by
  simp [stackerSample, inRun_config h]

theorem freshnessExpires_config (h : p.mu.mode = .config) (i : Input) : freshnessExpires i p = p := by
  unfold freshnessExpires
  split <;> simp [inRun_config h]

end Config

/-! ## Positions -/

/-- A sample never lowers its record's position (R9). -/
theorem Encoder.move_pos_le (e : Encoder) (dc : Int) (dt : Nat) : e.pos ≤ (e.move dc dt).after.pos := by
  unfold Encoder.move
  dsimp only
  split
  · exact Nat.le_refl _
  · exact Nat.le_add_right _ _

theorem Encoder.sample_pos_le (e : Encoder) (c t : Word) : e.pos ≤ (e.sample c t).after.pos := by
  unfold Encoder.sample
  split
  · exact Nat.le_refl _
  · dsimp only
    split
    · exact Nat.le_refl _
    · split
      · exact Nat.le_refl _
      · exact Encoder.move_pos_le { e with ref := some (c, t) } _ _

/-- After a board sample in RUN, B is the record's position. -/
theorem boardSample_kept {p : Part} (h : p.mu.mode = .run) (c t : Word) :
    Kept (setBoard p (p.wt.board.sample c t).after) (boardSample c t p) := by
  unfold boardSample
  rw [inRun_run h, if_pos rfl]
  have q := (Kept.refl (setBoard p (p.wt.board.sample c t).after)).thenMotionAlarms (m := p.wt.board.sample c t)
  have q1 := Kept.ite (c := (p.wt.board.sample c t).advance = 0) q (q.thenBoardAdvanced (n := (p.wt.board.sample c t).advance))
  exact .ite q1 (Kept.thenSpeedChanged (.ite q1.thenEvalStand q1))

/-- After a feeder sample in RUN, F_f is the record's position. -/
theorem feederSample_kept {p : Part} {f : Fin 2} (h : p.mu.mode = .run) (u : feederInUse p f = true) (c t : Word) :
    Kept (setFeeder p f ((p.wt.feeders.get f).sample c t).after) (feederSample f c t p) := by
  unfold feederSample
  rw [inRun_run h, u, Bool.true_and, if_pos rfl]
  have q := (Kept.refl (setFeeder p f ((p.wt.feeders.get f).sample c t).after)).thenMotionAlarms
    (m := (p.wt.feeders.get f).sample c t)
  exact .ite q.thenFeederAdvanced (.ite q q.thenEvalFeeder)

end Sys2Proof.Machine
end

