-- ==== Sys2Proof/Laws/Sound.lean ====
section
/-! SUPPORT. What every operation that leaves the mode as it is keeps: the invariants of Safety, and in RUN the positions. -/

namespace Sys2Proof.Machine

/-- An operation takes `p` to `q` in the same mode: the invariants carry over, and in RUN no position falls. -/
structure Sound (p q : Part) : Prop where
  mode : q.mu.mode = p.mu.mode
  capacities : Capacities p → Capacities q
  ordered : Ordered p → Ordered q
  governed : Governed p → Governed q
  conserved : Conserved p → Conserved q
  nodeLegal : NodeLegal p → NodeLegal q
  board : p.mu.mode = .run → posB p ≤ posB q
  feeders : p.mu.mode = .run → ∀ f, posF p f ≤ posF q f

theorem Sound.refl (p : Part) : Sound p p :=
  ⟨rfl, id, id, id, id, id, fun _ => Nat.le_refl _, fun _ _ => Nat.le_refl _⟩

theorem Sound.trans {p q r : Part} (a : Sound p q) (b : Sound q r) : Sound p r :=
  ⟨b.mode.trans a.mode, b.capacities ∘ a.capacities, b.ordered ∘ a.ordered, b.governed ∘ a.governed, b.conserved ∘ a.conserved, b.nodeLegal ∘ a.nodeLegal,
   fun h => (a.board h).trans (b.board (a.mode.trans h)), fun h f => (a.feeders h f).trans (b.feeders (a.mode.trans h) f)⟩

theorem Sound.after {p q r : Part} (b : Sound q r) (a : Sound p q) : Sound p r := a.trans b

theorem governed_config {p : Part} (h : p.mu.mode = .config) :
    Governed p ↔ p.sg.effective = none ∧ p.sg.slots = Sg.noSlots ∧ ∀ s : Fin 5, (standOf p s).recent = none := by
  unfold Governed
  rw [h]

/-- A reaction that keeps SG and the GO records empty in CONFIG. -/
theorem Kept.sound {p q : Part} (k : Kept p q)
    (c : p.mu.mode = .config → p.sg.effective = none → p.sg.slots = Sg.noSlots → (∀ s : Fin 5, (standOf p s).recent = none) →
      q.sg.effective = none ∧ q.sg.slots = Sg.noSlots ∧ ∀ s : Fin 5, (standOf q s).recent = none) : Sound p q where
  mode := k.mode
  capacities := k.capacities
  ordered := k.ordered
  governed := fun g => by
    cases h : p.mu.mode with
    | run => exact k.governed h g
    | config =>
      rw [governed_config h] at g
      exact (governed_config (k.mode.trans h)).2 (c h g.1 g.2.1 g.2.2)
  conserved := k.conserved
  nodeLegal := k.nodeLegal
  board := fun _ => Nat.le_of_eq k.board.symm
  feeders := fun _ f => Nat.le_of_eq (k.feeders f).symm

/-- A reaction in RUN. -/
theorem Kept.sound_run {p q : Part} (k : Kept p q) (h : p.mu.mode = .run) : Sound p q :=
  k.sound fun e => by rw [h] at e; cases e

theorem Posted.sound {p q : Part} (a : Posted p q) (h : Held p q) : Sound p q :=
  (a.kept h).sound fun _ e s r => ⟨by rw [a.sg]; exact e, by rw [a.sg]; exact s, fun i => by rw [a.recent i]; exact r i⟩

/-- An update that leaves the mode, the node, SG, the GOs, SC and the positions. -/
theorem Sound.same {p q : Part} (m : q.mu.mode = p.mu.mode) (n : q.node = p.node) (r : q.mu.queue.length ≤ p.mu.queue.length)
   (sg : q.sg = p.sg) (rsc : ∀ s, (standOf q s).recent = (standOf p s).recent) (sc : q.sc = p.sc)
   (b : posB p ≤ posB q) (f : ∀ f, posF p f ≤ posF q f) (cap : Capacities p → Capacities q) (ord : Ordered p → Ordered q) : Sound p q where
  mode := m
  capacities := cap
  ordered := ord
  governed := by unfold Governed; rw [m, sg]; intro g; split at g <;> simp_all
  conserved := by unfold Conserved; rw [m, sc]; exact id
  nodeLegal := by
    unfold NodeLegal; rw [m, n]; intro g; split at g
    · exact g
    · rename_i h; rw [g.2] at r; exact ⟨g.1, List.length_eq_zero_iff.1 (by simpa using r)⟩
  board := fun _ => b
  feeders := fun _ => f

/-- An update that leaves the mode, the node, the requests, SG, RSC, SC and WT. -/
theorem Sound.easy {p q : Part} (m : q.mu.mode = p.mu.mode) (n : q.node = p.node) (r : q.mu.queue = p.mu.queue)
   (sg : q.sg = p.sg) (rsc : q.rsc = p.rsc) (sc : q.sc = p.sc)
   (b : q.wt = p.wt) (cap : Capacities p → Capacities q) (reg : Linked p.os.regions → Linked q.os.regions := by exact id) : Sound p q :=
  .same m n (by rw [r]) sg (fun _ => by rw [standOf, rsc, standOf]) sc (by rw [posB, posB, b]) (fun f => by rw [posF, posF, b]) cap
    fun o => ⟨by rw [b]; exact o.track, by rw [b]; exact o.ids, fun h => reg (o.regions (m.symm.trans h))⟩

/-- An update in CONFIG that leaves the ceiling and the GOs. -/
theorem Sound.config {p q : Part} (h : p.mu.mode = .config) (m : q.mu.mode = .config) (n : q.node = p.node) (r : q.mu.queue = p.mu.queue)
   (e : q.sg.effective = p.sg.effective) (sl : q.sg.slots = p.sg.slots) (rsc : ∀ s, (standOf q s).recent = (standOf p s).recent)
   (cap : Capacities p → Capacities q) (tr : q.wt.track = p.wt.track := by rfl) : Sound p q where
  mode := m.trans h.symm
  capacities := cap
  ordered := fun o => ⟨by rw [tr]; exact o.track, by rw [tr]; exact o.ids, fun x => by rw [m] at x; cases x⟩
  governed := by rw [governed_config h, governed_config m, e, sl]; intro g; exact ⟨g.1, g.2.1, fun s => (rsc s).trans (g.2.2 s)⟩
  conserved := fun _ x => by rw [m] at x; cases x
  nodeLegal := by unfold NodeLegal; rw [n, m, h, r]; exact id
  board := fun x => by rw [h] at x; cases x
  feeders := fun x => by rw [h] at x; cases x

theorem either_sound {p q : Part} (r : p.mu.mode = .run → Sound p q) (c : p.mu.mode = .config → Sound p q) : Sound p q := by
  cases h : p.mu.mode with
  | run => exact r h
  | config => exact c h

theorem sound_fold {α : Type} {f : Part → α → Part} (s : ∀ r a, Sound r (f r a)) (l : List α) (p : Part) : Sound p (l.foldl f p) := by
  induction l generalizing p with
  | nil => exact .refl p
  | cons a l ih => exact (s p a).trans (ih _)

theorem sound_forEach {n : Nat} {f : Fin n → Part → Part} (s : ∀ i r, Sound r (f i r)) (p : Part) : Sound p (forEach f p) :=
  sound_fold (fun r i => s i r) _ p

/-! ## Operations of the blocks, in either mode -/

theorem setZone_sound {p : Part} (z : Fin 8) (x : ZoneUnit) : Sound p (setZone p z x) :=
  .easy rfl rfl rfl rfl rfl rfl rfl fun c => { c with }

theorem computeZone_sound {p : Part} (z : Fin 8) : Sound p (computeZone z p) := by
  unfold computeZone
  dsimp only
  split
  · exact .refl p
  · split
    · exact .refl p
    · exact (setZone_sound _ _).trans ((posted_postSetpoint _ _).sound (held_postSetpoint _ _ rfl))

theorem zoneChanged_sound {p : Part} (z : Fin 8) (a b : Bool) : Sound p (zoneChanged z a b p) := by
  cases h : p.mu.mode with
  | run => exact (Kept.refl p).thenZoneChanged.sound_run h
  | config =>
    unfold zoneChanged
    have s : Sound p (if a then setZoneState z (computeZone z p) else p) := by
      split
      · exact (computeZone_sound z).trans (setZone_sound _ _)
      · exact .refl p
    dsimp only
    split
    · rw [writeHeat_config (s.mode.trans h)]
      exact s
    · exact s

theorem forgetZone_sound {p : Part} (n : Nat) (z : Fin 8) : Sound p (forgetZone n z p) := by
  unfold forgetZone
  exact (setZone_sound _ _).trans (zoneChanged_sound _ _ _)

theorem setSlot_sound {p : Part} (i : Fin 32) (x : RecipeSlot) : Sound p (setSlot p i x) :=
  .easy rfl rfl rfl rfl rfl rfl rfl fun c => { c with }

theorem forgetUnits_sound {p : Part} (n : Nat) : Sound p (forgetUnits n p) :=
  .easy rfl rfl rfl rfl rfl rfl rfl fun c => { c with }

theorem erase_sound {p : Part} (i : Fin 32) (x : RecipeSlot) (n : Nat) :
    Sound p (forEach (n := 8) (forgetZone n) (forgetUnits n (setSlot p i x))) := by
  have a : Sound p (forgetUnits n (setSlot p i x)) := (setSlot_sound _ _).trans (forgetUnits_sound _)
  have b := sound_forEach (n := 8) (f := forgetZone n) (fun i r => forgetZone_sound n i) (forgetUnits n (setSlot p i x))
  exact a.trans b

theorem evalStand_sound {p : Part} (s : Fin 5) : Sound p (evalStand s p) :=
  either_sound (fun h => (Kept.refl p).thenEvalStand.sound_run h) fun h => by rw [evalStand_config h]; exact .refl p

theorem commitCheck_sound {p : Part} : Sound p (commitCheck p) :=
  either_sound (fun h => (Kept.refl p).thenCommitCheck.sound_run h) fun h => by rw [commitCheck_config h]; exact .refl p

theorem nextSelection_sound {p : Part} : Sound p (nextSelection p) :=
  either_sound (fun h => (Kept.refl p).thenNextSelection.sound_run h) fun h => by rw [nextSelection_config h]; exact .refl p

theorem releaseStation_sound {p : Part} : Sound p (releaseStation p) := by
  unfold releaseStation; split
  · exact .easy rfl rfl rfl rfl rfl rfl rfl fun c => { c with }
  · exact .refl p

theorem compareProfile_sound {p : Part} (o : Order) : Sound p (compareProfile o p) := by
  unfold compareProfile presetStation
  repeat' split
  · exact .easy rfl rfl rfl rfl rfl rfl rfl fun c => { c with }
  · exact Sound.after ((posted_postSetpoint _ _).sound (held_postSetpoint _ _ rfl)) (.easy rfl rfl rfl rfl rfl rfl rfl fun c => { c with })
  · exact .easy rfl rfl rfl rfl rfl rfl rfl fun c => { c with }

theorem changeRefs_sound {p : Part} (f) (n) : Sound p (changeRefs f n p) := by
  unfold changeRefs
  split
  · exact .refl p
  · exact .easy rfl rfl rfl rfl rfl rfl rfl fun c => { c with }

theorem setArm_recent (st : Stand) (w : Arm) (r : ArmRecord) : (st.setArm w r).recent = st.recent := by
  cases w <;> rfl

theorem setStandRec_sound {p : Part} {s : Fin 5} {x : Stand} (h : x.recent = (standOf p s).recent) : Sound p (setStandRec p s x) := by
  refine .same rfl rfl (Nat.le_refl _) rfl (fun t => ?_) rfl (Nat.le_refl _) (fun _ => Nat.le_refl _) (fun c => { c with })
    fun o => { o with }
  rw [standOf_setStandRec]
  split
  · rename_i e
    rw [e, h]
  · rfl

theorem assign_sound {p : Part} (s : Fin 5) (w : Arm) (r : Option Nat) (g : Nat) (a b : Option Nat) : Sound p (assign s w r g a b p) :=
  (setStandRec_sound (setArm_recent _ _ _)).trans (evalStand_sound _)

theorem setOrders_sound {p : Part} (l : List Order) (h : l.length ≤ p.os.queue.length) : Sound p (setOrders p l) :=
  .easy rfl rfl rfl rfl rfl rfl rfl fun c => { c with orders := h.trans c.orders }

theorem modifyRegion_sound {p : Part} (t : Nat) (f : Region → Region)
    (h : ∀ r, SameLinks r (f r) := by exact fun _ => ⟨rfl, rfl, rfl, rfl, rfl⟩) : Sound p (modifyRegion t f p) :=
  .easy rfl rfl rfl rfl rfl rfl rfl (fun c => { c with regions := by simp [modifyRegion]; exact c.regions })
    (RegionsKept.modifyWhere _ _ h).linked

theorem moveRef_sound {p : Part} (a b : Nat) : Sound p (moveRef a b p) := by
  unfold moveRef
  split
  · exact .refl p
  · exact (changeRefs_sound _ _).trans (changeRefs_sound _ _)

theorem amendNext_sound {p : Part} (o n : Order) : Sound p (amendNext o n p) := by
  unfold amendNext
  repeat' split
  · exact .refl p
  · exact releaseStation_sound.trans ((compareProfile_sound _).trans commitCheck_sound)
  · exact (compareProfile_sound _).trans commitCheck_sound

theorem amendQueued_sound {p : Part} (o n : Order) : Sound p (amendQueued o n p) := by
  unfold amendQueued
  split
  · exact nextSelection_sound
  · exact .refl p

theorem amendInQueue_sound {p : Part} (i : Nat) (o n : Order) : Sound p (amendInQueue i o n p) := by
  unfold amendInQueue
  have s : Sound p (moveRef o.slot (o.amended n).slot (setOrders p (p.os.queue.set i (o.amended n)))) :=
    (setOrders_sound _ (by simp)).trans (moveRef_sound _ _)
  dsimp only
  split
  · exact s.trans (amendNext_sound _ _)
  · exact s.trans (amendQueued_sound _ _)

theorem modifyOpen_sound {p : Part} (f : Region → Region)
    (h : ∀ r, SameLinks r (f r) := by exact fun _ => ⟨rfl, rfl, rfl, rfl, rfl⟩) : Sound p (modifyOpen f p) :=
  .easy rfl rfl rfl rfl rfl rfl rfl (fun c => { c with regions := by simpa [modifyOpen, setRegions] using c.regions })
    (RegionsKept.modifyLast _ h).linked

theorem computeChange_sound {p : Part} : Sound p (computeChange p) := by
  unfold computeChange
  repeat' split
  · exact .refl p
  · exact .refl p
  · exact modifyOpen_sound _

theorem amendRunning_sound {p : Part} (o n : Order) : Sound p (amendRunning o n p) :=
  ((modifyRegion_sound _ _).trans computeChange_sound).trans commitCheck_sound

theorem amendFound_sound {p : Part} {o n : Order} {e h : Nat} {r : Bool} {act : Part → Part} (s : Sound p (act p)) :
    Sound p (amendFound o n e h r act p).part := by
  unfold amendFound
  split
  · exact .refl p
  · exact s

theorem noNext_sound {p : Part} : Sound p { p with os := { p.os with next := none } } :=
  .easy rfl rfl rfl rfl rfl rfl rfl fun c => { c with }

theorem withdrawFromQueue_sound {p : Part} (i : Nat) (o : Order) : Sound p (withdrawFromQueue i o p) := by
  unfold withdrawFromQueue
  have s : Sound p (dropRef o.slot (setOrders p (p.os.queue.eraseIdx i))) :=
    (setOrders_sound _ (by simpa using List.length_eraseIdx_le _ _)).trans (changeRefs_sound _ _)
  dsimp only
  split
  · exact ((s.trans noNext_sound).trans releaseStation_sound).trans nextSelection_sound
  · exact s.trans nextSelection_sound

theorem setHold_sound {q : Part} {b after fs} (h : ∀ p, Sound p (after p)) : Sound q (setHold b after fs q).part := by
  unfold setHold
  repeat' split
  all_goals first | exact .refl q | skip
  exact (setOrders_sound _ (by simp)).trans (h _)

theorem storeSetting_sound {q : Part} (h : q.mu.mode = .config) (x : Setting) (v : Nat) : Sound q (storeSetting x v q) := by
  cases x <;> exact .config h h rfl rfl rfl rfl (fun _ => rfl) fun c => { c with }

end Sys2Proof.Machine
end

