-- ==== Sys2Proof/Laws/Arrivals.lean ====
section
/-! SUPPORT. The frame arrivals, the transmissions and the expiries keep the invariants (R171 to R191). -/

namespace Sys2Proof.Machine

variable {p : Part}

theorem latch_sound (w : Alarm) : Sound p (latch w p) := (posted_latch w p).sound (held_latch w p)
theorem raise_sound (c : Counter) (n : Nat) : Sound p (raise c n p) := (posted_raise c n p).sound (held_raise c n p)
theorem dropFrame_sound (r : DropReason) : Sound p (dropFrame r p) := raise_sound _ _

theorem testLost_kept : Kept p (testLost p) := by
  have l : ∀ b, Kept p { p with rif := { p.rif with lost := b } } := fun b => { Kept.refl p with }
  unfold testLost
  dsimp only
  repeat' split
  · exact ((l _).thenLatch).thenActivate
  · exact (l _).thenDeactivate
  · exact .refl p
  · exact .refl p

theorem testLost_sound : Sound p (testLost p) := by
  cases h : p.mu.mode with
  | config => rw [testLost_config h]; exact .refl p
  | run => exact testLost_kept.sound_run h

theorem roster_sound (l : List RosterEntry) (n : Nat) (h : p.rif.roster.length ≤ 64 → l.length ≤ 64) :
    Sound p { p with rif := { p.rif with roster := l, nextSweep := n } } :=
  .easy rfl rfl rfl rfl rfl rfl rfl fun c => { c with roster := h c.roster }

theorem learn_sound (b : Byte) : Sound p (learn b p) := by
  unfold learn
  dsimp only
  split
  · exact .easy rfl rfl rfl rfl rfl rfl rfl fun c => { c with roster := by simpa using c.roster }
  · split
    · rename_i h
      have s : Sound p { p with rif := { p.rif with roster := p.rif.roster ++ [{ node := b.toNat, lastHeard := p.time }] } } :=
        .easy rfl rfl rfl rfl rfl rfl rfl fun c => { c with roster := by simp [Config.rosterCap] at h ⊢; omega }
      exact s.trans testLost_sound
    · exact latch_sound _

theorem takeIn_sound (b : Byte) (l : List Byte) (n : p.node.isSome) : Sound p (takeIn b l p) := by
  unfold takeIn
  dsimp only
  split
  · rename_i h
    exact
    { mode := rfl, capacities := fun c => { c with requests := by simp [Config.mgmtCap] at h ⊢; omega },
      ordered := fun o => { o with },
      governed := id, conserved := id, nodeLegal := by unfold NodeLegal; dsimp only; split <;> simp_all,
      board := fun _ => Nat.le_refl _, feeders := fun _ _ => Nat.le_refl _ }
  · have s : Sound p { p with free := p.free + 1 } := .easy rfl rfl rfl rfl rfl rfl rfl fun c => { c with }
    exact (s.trans ((posted_postBusy _ _).sound (held_postBusy _ _))).trans (raise_sound _ _)

theorem forwardFrame_sound (f : Frame) : Sound p (forwardFrame f p) := by
  unfold forwardFrame
  dsimp only
  split
  · exact (dropFrame_sound _).trans (latch_sound _)
  · split
    · rename_i h
      have s : ∀ x, Sound p { p with rif := { p.rif with forward := p.rif.forward ++ [x] } } := fun x =>
        .easy rfl rfl rfl rfl rfl rfl rfl fun c => { c with forward := by simp [Config.forwardCap] at h ⊢; omega }
      exact (s _).trans ((posted_kick _).sound (held_kick _))
    · exact (dropFrame_sound _).trans (latch_sound _)

theorem setFreshness_sound (i : Input) (st : Fresh) (l : Option Nat) : Sound p (setFreshness i st l p) :=
  .easy rfl rfl rfl rfl rfl rfl rfl fun c => { c with channels := by simpa [setFreshness] using c.channels }

theorem setBoard_sound {e : Encoder} (h : p.wt.board.pos ≤ e.pos) : Sound p (setBoard p e) :=
  .same rfl rfl (Nat.le_refl _) rfl (fun _ => rfl) rfl h (fun _ => Nat.le_refl _) (fun c => { c with }) fun o => { o with }

theorem setFeeder_sound {f : Fin 2} {e : Encoder} (h : (p.wt.feeders.get f).pos ≤ e.pos) : Sound p (setFeeder p f e) := by
  refine .same rfl rfl (Nat.le_refl _) rfl (fun _ => rfl) rfl (Nat.le_refl _) (fun g => ?_) (fun c => { c with }) fun o => { o with }
  simp only [posF, setFeeder, get_upd]
  split
  · rename_i e; rw [e]; exact h
  · exact Nat.le_refl _

theorem holdAtCrawl_kept (x b) : Kept p (holdAtCrawl x b p) := (Kept.refl p).thenHoldAtCrawl

theorem holdEncoder_sound : Sound p (holdEncoder p) := by
  unfold holdEncoder
  cases h : p.mu.mode with
  | run => rw [inRun_run h]; exact (holdAtCrawl_kept _ _).sound_run h
  | config => rw [inRun_config h]; exact .refl p

theorem zoneFreshness_sound (z b) : Sound p (zoneFreshness z b p) := by
  cases h : p.mu.mode with
  | run => exact (Kept.refl p).thenZoneFreshness.sound_run h
  | config => unfold zoneFreshness; rw [inRun_config h]; exact .refl p

theorem toldFresh_sound (i : Input) : Sound p (toldFresh i p) := by
  unfold toldFresh
  split
  · exact holdEncoder_sound
  · exact holdEncoder_sound
  · exact evalStand_sound _
  · exact zoneFreshness_sound _ _
  · exact .refl p

theorem toldStale_sound (i : Input) : Sound p (toldStale i p) := by
  unfold toldStale
  split
  · exact Sound.after holdEncoder_sound (setBoard_sound (Nat.le_refl _))
  · exact Sound.after holdEncoder_sound (setFeeder_sound (Nat.le_refl _))
  · rename_i s
    have a : Sound p (setStandRec p s { standOf p s with staleSince := true }) := setStandRec_sound rfl
    exact a.trans (evalStand_sound _)
  · exact zoneFreshness_sound _ _
  · exact .refl p

theorem refresh_sound (e : InEntry) : Sound p (refresh e p) := by
  unfold refresh
  dsimp only
  split
  · split
    · exact (setFreshness_sound _ _ _).trans (toldFresh_sound _)
    · exact setFreshness_sound _ _ _
  · exact setFreshness_sound _ _ _

theorem freshnessExpires_sound (i : Input) : Sound p (freshnessExpires i p) := by
  unfold freshnessExpires
  split
  · exact .refl p
  · split
    · exact ((setFreshness_sound _ _ _).trans (latch_sound _)).trans (toldStale_sound _)
    · exact .refl p

theorem boardSample_sound (c t : Word) : Sound p (boardSample c t p) := by
  cases h : p.mu.mode with
  | run => exact (setBoard_sound (Encoder.sample_pos_le _ _ _)).trans ((boardSample_kept h c t).sound_run h)
  | config => rw [boardSample_config h]; exact .refl p

theorem feederSample_sound (f : Fin 2) (c t : Word) : Sound p (feederSample f c t p) := by
  cases h : p.mu.mode with
  | run =>
    by_cases u : feederInUse p f = true
    · exact (setFeeder_sound (Encoder.sample_pos_le _ _ _)).trans ((feederSample_kept h u c t).sound_run h)
    · unfold feederSample; rw [Bool.eq_false_iff.2 u, Bool.and_false]; exact .refl p
  | config => rw [feederSample_config h]; exact .refl p

theorem of_run_config {f : Part → Part} (r : Kept p (f p)) (c : p.mu.mode = .config → f p = p) : Sound p (f p) := by
  cases h : p.mu.mode with
  | run => exact r.sound_run h
  | config => rw [c h]; exact .refl p

theorem testHeldGo_none {s : Fin 5} (h : (standOf p s).recent = none) : testHeldGo s p = withdrawGo s p := by
  have : goSpoiled p s = false := by
    unfold goSpoiled
    rw [h]
  unfold testHeldGo
  rw [this]
  rfl

theorem takeArms_config {s : Fin 5} {a b : ArmState} (m : p.mu.mode = .config) (r : (standOf p s).recent = none) :
    ∃ x : Stand, x.recent = none ∧ takeArms s a b p = withdrawGo s (setStandRec p s x) := by
  have key : ∀ (x : Stand) (c : Bool), x.recent = none →
      evalStand s (if c && inRun (testHeldGo s (setStandRec p s x)) then checkGrades s (testHeldGo s (setStandRec p s x))
        else testHeldGo s (setStandRec p s x)) = withdrawGo s (setStandRec p s x) := by
    intro x c h
    rw [testHeldGo_none (by simpa using h)]
    have hm : (withdrawGo s (setStandRec p s x)).mu.mode = .config := m
    rw [inRun_config hm, Bool.and_false]
    exact evalStand_config hm s
  refine ⟨_, ?_, key _ _ ?_⟩ <;> (split <;> exact r)

theorem takeArms_sound (s : Fin 5) (a b : ArmState) : Sound p (takeArms s a b p) := by
  have k : Kept p (takeArms s a b p) := (Kept.refl p).thenTakeArms
  refine k.sound fun m e sl r => ?_
  obtain ⟨x, hx, eq⟩ := takeArms_config (a := a) (b := b) m (r s)
  rw [eq]
  refine ⟨e, sl, fun t => ?_⟩
  change (standOf (setStandRec p s x) t).recent = none
  rw [standOf_setStandRec]
  split
  · exact hx
  · exact r t

theorem armSample_sound (s a b r) : Sound p (armSample s a b r p) := by
  unfold armSample
  repeat' split
  · exact .refl p
  · exact takeArms_sound _ _ _
  · exact latch_sound _
  · exact latch_sound _

theorem splicerSample_sound (s c n) : Sound p (splicerSample s c n p) := by
  have k : Kept p (splicerSample s c n p) := (Kept.refl p).thenSplicerSample
  refine k.sound fun m e sl r => ?_
  unfold splicerSample
  rw [r s]
  split
  · exact ⟨e, sl, r⟩
  · split
    · have l := posted_latch .badSample p
      exact ⟨by rw [l.sg]; exact e, by rw [l.sg]; exact sl, fun t => by rw [l.recent t]; exact r t⟩
    · exact ⟨e, sl, r⟩

theorem glue_sound (g : Fin 3) (x : Int) : Sound p (handOn (glueSample g x p)) := by
  cases h : p.mu.mode with
  | run => exact (Kept.refl p).thenGlueSample.thenHandOn.sound_run h
  | config => rw [glueSample_config h]; exact .refl p

theorem deliver_sound (i : Input) (vs : List Word) : Sound p (deliver i vs p) := by
  unfold deliver
  split
  · exact boardSample_sound _ _
  · exact feederSample_sound _ _ _
  · exact of_run_config (f := diameterSample _ _) (Kept.refl p).thenDiameterSample fun h => diameterSample_config h _ _
  · exact armSample_sound _ _ _ _
  · exact splicerSample_sound _ _ _
  · exact of_run_config (f := sightSample _ _) (Kept.refl p).thenSightSample fun h => sightSample_config h _ _
  · exact of_run_config (f := zoneTempSample _ _) (Kept.refl p).thenZoneTempSample fun h => zoneTempSample_config h _ _
  · exact glue_sound _ _
  · exact of_run_config (f := defectSample _ _ _) (Kept.refl p).thenDefectSample fun h => defectSample_config h _ _ _
  · exact of_run_config (f := knifeSample _ _) (Kept.refl p).thenKnifeSample fun h => knifeSample_config h _ _
  · exact of_run_config (f := slitterSample _ _) (Kept.refl p).thenSlitterSample fun h => slitterSample_config h _ _
  · exact of_run_config (f := stackerSample _) (Kept.refl p).thenStackerSample fun h => stackerSample_config h _
  · exact .refl p

theorem takeSample_sound (b l) : Sound p (takeSample b l p) := by
  unfold takeSample
  repeat' split
  · exact .refl p
  · exact .refl p
  · exact latch_sound _
  · exact (refresh_sound _).trans (deliver_sound _ _)

theorem learn_node (b : Byte) : (learn b p).node = p.node := by
  unfold learn
  dsimp only
  split
  · rfl
  · split
    · rw [testLost_kept.node]
    · simp

theorem handleFrame_sound (n : Nat) (f : Frame) (hn : p.node = some n) : Sound p (handleFrame n f p) := by
  unfold handleFrame
  have s : Sound p (if f.src.toNat ≤ 239 ∧ f.src.toNat ≠ n then learn f.src p else p) := by
    split
    · exact learn_sound _
    · exact .refl p
  have sn : (if f.src.toNat ≤ 239 ∧ f.src.toNat ≠ n then learn f.src p else p).node = p.node := by
    split
    · exact learn_node _
    · rfl
  dsimp only
  generalize (if f.src.toNat ≤ 239 ∧ f.src.toNat ≠ n then learn f.src p else p) = x at s sn
  split
  · exact s.trans (dropFrame_sound _)
  · split
    · split
      · exact s.trans (takeIn_sound _ _ (by rw [sn, hn]; rfl))
      · exact s.trans (dropFrame_sound _)
    · split
      · exact (s.trans (takeSample_sound _ _)).trans (forwardFrame_sound _)
      · exact s.trans (forwardFrame_sound _)

theorem receive_sound (b) : Sound p (receive b p) := by
  unfold receive
  have s := raise_sound (p := p) .framesReceived 1
  dsimp only
  generalize raise .framesReceived 1 p = x at s
  split
  · exact (s.trans (dropFrame_sound _)).trans (latch_sound _)
  · exact s.trans (forwardFrame_sound _)
  · exact s.trans (handleFrame_sound _ _ (by assumption))

theorem endTransmission_sound : Sound p (endTransmission p) := by
  unfold endTransmission
  split
  · exact .refl p
  · exact (posted_nextFrame p).sound (held_nextFrame p)

theorem enterWaiting_sound : Sound p (enterWaiting p) :=
  ((posted_refill true p).trans ((posted_refill false _).trans (posted_kick _))).sound
    ((held_refill true p).trans ((held_refill false _).trans (held_kick _)))

/-- A sweep that is due, with what it leaves of the roster; where it removes an entry the lost flag is tested (R184, R185). -/
theorem sweep_due (h : p.rif.nextSweep ≤ p.time) :
    sweep p =
      (let q : Part := { p with rif := { p.rif with roster := p.rif.roster.filter (fun e => !aged p e), nextSweep := (p.time / 1000 + 1) * 1000 } }
       if p.rif.roster.any (aged p) then testLost q else q) := by
  simp [sweep, sweepDue, h]

theorem sweep_sound : Sound p (sweep p) := by
  unfold sweep
  dsimp only
  have s : Sound p { p with rif := { p.rif with roster := p.rif.roster.filter (fun e => !aged p e), nextSweep := (p.time / 1000 + 1) * 1000 } } :=
    roster_sound _ _ fun h => (List.length_filter_le _ _).trans h
  repeat' split
  · exact s.trans testLost_sound
  · exact s
  · exact .refl p

theorem refreshExpires_sound : Sound p (refreshExpires p) := by
  unfold refreshExpires
  split
  · split
    · rename_i e _ _ _
      unfold postCeiling
      refine Sound.trans (q := { p with sg := { p.sg with nextRefresh := _, lastPosted := _ } }) ?_ ((posted_postSetpoint _ _).sound (held_postSetpoint _ _ rfl))
      exact { mode := rfl, capacities := fun c => { c with }, ordered := fun o => { o with }, governed := id, conserved := id, nodeLegal := id, board := fun _ => Nat.le_refl _, feeders := fun _ _ => Nat.le_refl _ }
    · exact .refl p
  · exact .refl p

theorem transitExpires_sound : Sound p (transitExpires p) := by
  unfold transitExpires
  split
  · rename_i h
    have : p.mu.mode = .run := by simp [inRun] at h; exact h.1
    exact (Kept.refl p).thenTestHead.sound_run this
  · exact .refl p

theorem spliceTimeout_config (s : Fin 5) (r : ∀ s : Fin 5, (standOf p s).recent = none) : spliceTimeout s p = p := by
  unfold spliceTimeout; dsimp only; rw [r s]

theorem acceptedExpiry_sound (s) : Sound p (acceptedExpiry s p) := by
  refine (Kept.refl p).thenAcceptedExpiry.sound fun m e sl r => ?_
  unfold acceptedExpiry
  dsimp only
  rw [spliceTimeout_config s r, ite_self]
  exact ⟨e, sl, r⟩

theorem doneExpiry_sound (s) : Sound p (doneExpiry s p) := by
  refine (Kept.refl p).thenDoneExpiry.sound fun m e sl r => ?_
  unfold doneExpiry
  dsimp only
  rw [spliceTimeout_config s r, ite_self]
  exact ⟨e, sl, r⟩

theorem settleExpires_sound (g) : Sound p (settleExpires g p) := by
  unfold settleExpires
  dsimp only
  split
  · exact .easy rfl rfl rfl rfl rfl rfl rfl fun c => { c with }
  · exact .refl p

end Sys2Proof.Machine
end

