-- ==== Sys2Proof/Laws/Effects.lean ====
section
/-! SUPPORT. What a write to a contribution slot and a test of the lost flag do, what a stand evaluation decides, which coordinates the grade check's
stretches cover, and that a posted message is on its way. -/

namespace Sys2Proof.Machine

/-! ## Contribution slots (R160) -/

/-- `q` is `p` after a write of `c` to a slot: SG's table and ceiling may have changed, and posts may have been made. -/
structure SlotWritten (x : Slot) (c : Contribution) (p q : Part) : Prop where
  posted : Posted { p with sg := q.sg } q
  slots : q.sg.slots = upd p.sg.slots x.idx c
  lineMax : q.sg.lineMax = p.sg.lineMax
  crawl : q.sg.crawl = p.sg.crawl

theorem slotWritten_writeSlot (x : Slot) (c : Contribution) (p : Part) : SlotWritten x c p (writeSlot x c p) := by
  unfold writeSlot
  split
  · rename_i h
    exact ⟨.refl p, by rw [← h, upd_get_self], rfl, rfl⟩
  · dsimp only
    split
    · unfold postCeiling
      have a := posted_postSetpoint (.driveCeiling (ceilingOf { p.sg with slots := upd p.sg.slots x.idx c }))
        { p with sg := { p.sg with slots := upd p.sg.slots x.idx c, effective := some (ceilingOf { p.sg with slots := upd p.sg.slots x.idx c }),
                                   lastPosted := some (ceilingOf { p.sg with slots := upd p.sg.slots x.idx c }) } }
      refine ⟨?_, by rw [a.sg], by rw [a.sg], by rw [a.sg]⟩
      rw [a.sg]
      exact a
    · exact ⟨.refl _, rfl, rfl, rfl⟩

theorem slotWritten_activate (x : Slot) (v : Nat) (p : Part) : SlotWritten x { active := true, value := min v p.sg.lineMax } p (activate x v p) :=
  slotWritten_writeSlot _ _ _

theorem slotWritten_deactivate (x : Slot) (p : Part) : SlotWritten x { active := false, value := 0 } p (deactivate x p) :=
  slotWritten_writeSlot _ _ _

/-- Posts do not read SG's state: they are made beside any other one. -/
theorem Posted.withSg {p q : Part} (h : Posted p q) (g : Sg) : Posted { p with sg := g } { q with sg := g } := { h with sg := rfl }

/-- A test of the lost flag (R185) changes the flag and SG's state, and may post; nothing else. -/
theorem posted_testLost (p : Part) :
    Posted { p with sg := (testLost p).sg, rif := { p.rif with lost := (testLost p).rif.lost } } (testLost p) := by
  unfold testLost
  dsimp only
  split
  · split
    · have l := posted_latch .actuatorLost { p with rif := { p.rif with lost := true } }
      have a := (slotWritten_activate .actuatorLost p.sg.crawl (latch .actuatorLost { p with rif := { p.rif with lost := true } })).posted
      have f := a.lost.trans l.lost
      generalize activate _ _ _ = t at a f ⊢
      rw [f]
      exact (l.withSg t.sg).trans a
    · split
      · have a := (slotWritten_deactivate .actuatorLost { p with rif := { p.rif with lost := false } }).posted
        have f := a.lost
        generalize deactivate _ _ = t at a f ⊢
        rw [f]
        exact a
      · exact .refl p
  · exact .refl p

variable {p q r : Part} {s : Fin 5}

theorem SlotWritten.get {x : Slot} {c : Contribution} (h : SlotWritten x c p q) : q.sg.slots.get x.idx = c := by rw [h.slots, get_upd, if_pos rfl]

theorem SlotWritten.latches {x : Slot} {c : Contribution} (h : SlotWritten x c p q) (w : Alarm) (l : (alarmOf p w).latch = true) :
    (alarmOf q w).latch = true := h.posted.latches w l

theorem SlotWritten.stands {x : Slot} {c : Contribution} (h : SlotWritten x c p q) :
    standOf q s = { standOf p s with acceptBy := (standOf q s).acceptBy } := h.posted.stands s

/-! ## The stand evaluation (R82, R83) -/

/-- What the steps of an evaluation before the GO leave of a stand: all but the exhausted flag, the plan, a limit and the crawl mark. -/
structure SameStand (s : Fin 5) (p q : Part) : Prop where
  wt : q.wt = p.wt
  si : q.si = p.si
  stand : ∃ a b c d, standOf q s = { standOf p s with exhausted := a, plan := b, acceptBy := c, crawling := d }

theorem SameStand.trans (h : SameStand s p q) (k : SameStand s q r) : SameStand s p r := by
  obtain ⟨a, b, c, d, e⟩ := h.stand
  obtain ⟨a', b', c', d', e'⟩ := k.stand
  exact ⟨k.wt.trans h.wt, k.si.trans h.si, a', b', c', d', by rw [e', e]⟩

theorem Posted.sameStand (h : Posted p q) : SameStand s p q :=
  ⟨h.wt, h.si, (standOf p s).exhausted, (standOf p s).plan, (standOf q s).acceptBy, (standOf p s).crawling, h.stands s⟩

theorem SameStand.lead (h : SameStand s p q) : Machine.lead q s = Machine.lead p s := by
  obtain ⟨a, b, c, d, e⟩ := h.stand
  simp only [Machine.lead, standSpeed, lineSpeed, h.wt, e]

theorem SameStand.standPoint (h : SameStand s p q) : Machine.standPoint q s = Machine.standPoint p s := by
  simp only [Machine.standPoint, boardPoint, posF, posB, bridgeK, offset, h.wt]

theorem SameStand.standing (h : SameStand s p q) : Machine.standing q s = Machine.standing p s := by
  have l := h.lead
  obtain ⟨a, b, c, d, e⟩ := h.stand
  have f : effective q s = effective p s := by
    simp only [effective, inputStale, standRef, posF, posB, h.wt, h.si, e]
    rfl
  simp only [Machine.standing, f, l, e]

theorem SameStand.goArm (h : SameStand s p q) : Machine.goArm (standOf q s) = Machine.goArm (standOf p s) := by
  obtain ⟨a, b, c, d, e⟩ := h.stand
  rw [e]
  rfl

theorem sameStand_testExhausted (s : Fin 5) (p : Part) :
    SameStand s p (testExhausted s p) ∧ (standOf (testExhausted s p) s).plan = (standOf p s).plan ∧ (testExhausted s p).os = p.os := by
  unfold testExhausted
  split
  · have a := posted_latch .reelExhausted (setStandRec p s { standOf p s with exhausted := true })
    have b : SameStand s p (setStandRec p s { standOf p s with exhausted := true }) :=
      ⟨rfl, rfl, true, _, _, _, standOf_setStandRec_same _ _ _⟩
    refine ⟨b.trans a.sameStand, ?_, a.os⟩
    rw [a.stands, standOf_setStandRec_same]
  · exact ⟨(Posted.refl p).sameStand, rfl, rfl⟩

theorem hopeless_congr (wt : q.wt = p.wt) (os : q.os = p.os) (pl : Plan) : hopeless q s pl = hopeless p s pl := by
  have h : standPoint q s = standPoint p s := by simp only [standPoint, boardPoint, posF, posB, bridgeK, offset, wt]
  simp only [hopeless, regionOf, os, h]

/-- A plan that the test for cancellation leaves is not hopeless (R92). -/
theorem sameStand_testHopeless (s : Fin 5) (p : Part) :
    SameStand s p (testHopeless s p) ∧
      ∀ pl, (standOf (testHopeless s p) s).plan = some pl → (standOf p s).plan = some pl ∧ hopeless p s pl = false := by
  unfold testHopeless
  split
  · rename_i h
    exact ⟨(Posted.refl p).sameStand, by simp [h]⟩
  · rename_i pl h
    split
    · have e : standOf (setGradeLate pl.tag (setStandRec p s { standOf p s with plan := none })) s = { standOf p s with plan := none } :=
        standOf_setStandRec_same p s _
      have a := posted_latch .gradeNotReady (setGradeLate pl.tag (setStandRec p s { standOf p s with plan := none }))
      have b : SameStand s p (setGradeLate pl.tag (setStandRec p s { standOf p s with plan := none })) := ⟨rfl, rfl, _, none, _, _, e⟩
      refine ⟨b.trans a.sameStand, fun x hx => ?_⟩
      rw [a.stands, e] at hx
      cases hx
    · rename_i n
      refine ⟨(Posted.refl p).sameStand, fun x hx => ?_⟩
      rw [h] at hx
      cases hx
      exact ⟨h, by simpa using n⟩

/-- A plan after the test of its trigger is the one before, REACHED where it was or where its trigger is reached now (R91). -/
theorem sameStand_testTrigger (s : Fin 5) (p : Part) :
    SameStand s p (testTrigger s p).1 ∧
      ∀ pl, (standOf (testTrigger s p).1 s).plan = some pl →
        ∃ x, (standOf p s).plan = some x ∧ pl.grade = x.grade ∧ pl.tag = x.tag
          ∧ (pl.reached = true → x.reached = true ∨ x.target ≤ standPoint p s + lead p s) := by
  unfold testTrigger
  split
  · rename_i h
    exact ⟨(Posted.refl p).sameStand, by simp [h]⟩
  · rename_i pl h
    split
    · rename_i t
      refine ⟨⟨rfl, rfl, _, _, _, _, standOf_setStandRec_same _ _ _⟩, fun x hx => ?_⟩
      rw [standOf_setStandRec_same] at hx
      cases hx
      refine ⟨pl, h, rfl, rfl, fun _ => Or.inr ?_⟩
      simp only [triggerReached, Bool.and_eq_true, decide_eq_true_eq] at t
      exact t.2
    · refine ⟨(Posted.refl p).sameStand, fun x hx => ?_⟩
      rw [h] at hx
      cases hx
      exact ⟨pl, h, rfl, rfl, Or.inl⟩

theorem recent_postGo (s : Fin 5) (w : Arm) (p : Part) :
    (standOf (postGo s w p) s).recent = some { seq := (standOf p s).nextSeq, arm := w, grade := ((standOf p s).arm w).grade, isOpen := true } := by
  unfold postGo
  dsimp only
  split
  · rw [(posted_postSequence _ _).stands s, standOf_setStandRec_same]
  · rw [standOf_setStandRec_same, (posted_postSequence _ _).stands s, standOf_setStandRec_same]

/-- A decision that leaves the stand SENT has posted a GO to the arm that a GO may name, for a plan or for a run-out that is DUE (R83). -/
theorem sent_decideGo {b : Bool} (n : (standOf p s).splice ≠ .sent) (h : (standOf (decideGo s b p) s).splice = .sent) :
    ∃ w, goArm (standOf p s) = some w
      ∧ (standOf (decideGo s b p) s).recent
          = some { seq := (standOf p s).nextSeq, arm := w, grade := ((standOf p s).arm w).grade, isOpen := true }
      ∧ (plannedGo (standOf p s) w = true ∨ standing p s = .due) := by
  have latched : Posted p (if b = true then latch .spliceNotReady p else p) := by
    cases b
    · exact .refl p
    · exact posted_latch _ _
  have stays {q : Part} (a : Posted p q) : (standOf q s).splice ≠ .sent := by rw [a.splice]; exact n
  unfold decideGo at h ⊢
  split at h
  · rename_i w hw
    refine ⟨w, hw, ?_⟩
    split at h
    · rename_i g
      rw [if_pos g]
      exact ⟨recent_postGo _ _ _, Or.inl g⟩
    · rename_i g
      rw [if_neg g]
      dsimp only at h ⊢
      generalize (if b = true then latch .spliceNotReady p else p) = q at latched h ⊢
      split at h
      · rename_i d
        rw [if_pos d, recent_postGo, latched.stands s]
        exact ⟨by cases w <;> rfl, Or.inr (latched.sameStand.standing ▸ d)⟩
      · exact absurd h (stays latched)
  · exact absurd h (stays latched)

theorem splice_settleSplice (s : Fin 5) (p : Part) :
    ((standOf (settleSplice s p) s).splice = .sent → (standOf p s).splice = .sent)
      ∧ (standOf (settleSplice s p) s).recent = (standOf p s).recent := by
  unfold settleSplice
  dsimp only
  split
  · rw [standOf_setStandRec_same]
    refine ⟨fun h => ?_, rfl⟩
    dsimp only at h
    split at h <;> cases h
  · exact ⟨id, rfl⟩

theorem splice_writeSplice (s : Fin 5) (p : Part) :
    (standOf (writeSplice s p) s).splice = (standOf p s).splice ∧ (standOf (writeSplice s p) s).recent = (standOf p s).recent := by
  unfold writeSplice
  dsimp only
  split
  · rw [(slotWritten_activate _ _ _).stands]
    split
    · rw [standOf_setStandRec_same]
      exact ⟨rfl, rfl⟩
    · rw [(posted_latch _ _).stands, standOf_setStandRec_same]
      exact ⟨rfl, rfl⟩
  · split
    · rw [(slotWritten_activate _ _ _).stands, standOf_setStandRec_same]
      exact ⟨rfl, rfl⟩
    · rw [(slotWritten_deactivate _ _).stands, standOf_setStandRec_same]
      exact ⟨rfl, rfl⟩

/-! ## Stretches of a wrong grade (R85, R87) -/

theorem gradeAt_below {js : List (Nat × Nat)} {g y : Nat} (h : ∀ j ∈ js, y < j.1) : gradeAt g js y = g := by
  induction js with
  | nil => rfl
  | cons j js ih =>
    have := h j List.mem_cons_self
    simp only [gradeAt, List.foldl_cons]
    rw [if_neg (by omega)]
    exact ih fun k hk => h k (List.mem_cons_of_mem _ hk)

/-- A coordinate lies in one of some stretches. -/
def Covered (l : List (Nat × Option Nat)) (y : Nat) : Prop := ∃ z ∈ l, z.1 ≤ y ∧ ∀ e, z.2 = some e → y < e

/-- The last stretch, from `x` to the region's end or none, with the one that has reached `x`. -/
theorem covered_last {need c x y : Nat} {stop from? : Option Nat} (hf : ∀ a, from? = some a → a ≤ x) (hy : ∀ e, stop = some e → y < e) :
    Covered (if c = need then (match (generalizing := false) from? with | some a => [(a, some x)] | none => []) else [((from?).getD x, stop)]) y ↔
      (x ≤ y ∧ c ≠ need) ∨ (y < x ∧ ∃ a, from? = some a ∧ a ≤ y) := by
  cases from? with
  | none =>
    split
    · simp [Covered, *]
    · simp only [Covered, List.mem_singleton, exists_eq_left, Option.getD_none, and_iff_left hy]
      simp [*]
  | some a =>
    have := hf a rfl
    split
    · simp only [Covered, List.mem_singleton, exists_eq_left, Option.some.injEq, forall_eq', exists_eq_left']
      simp [*]
      omega
    · simp only [Covered, List.mem_singleton, exists_eq_left, Option.getD_some, and_iff_left hy, Option.some.injEq, exists_eq_left']
      simp [*]
      omega

/-- The stretches cover the coordinates from `x` on whose web grade is not `need`, and those from the start of a stretch that has reached `x`. -/
theorem covered_offStretches {need y : Nat} {stop : Option Nat} (js : List (Nat × Nat)) {x cur : Nat} {from? : Option Nat}
    (so : js.Pairwise (fun a b => a.1 ≤ b.1)) (hf : ∀ a, from? = some a → a ≤ x) (hy : ∀ e, stop = some e → y < e) :
    Covered (offStretches need stop js x cur from?) y ↔
      (x ≤ y ∧ gradeAt cur js y ≠ need) ∨ (y < x ∧ ∃ a, from? = some a ∧ a ≤ y) := by
  induction js generalizing x cur from? with
  | nil => exact covered_last hf hy
  | cons j js ih =>
    obtain ⟨j, g⟩ := j
    rw [List.pairwise_cons] at so
    have low (yj : y < j) : gradeAt cur ((j, g) :: js) y = cur := gradeAt_below fun k hk => by
      rcases List.mem_cons.1 hk with rfl | hk
      · exact yj
      · exact Nat.lt_of_lt_of_le yj (so.1 k hk)
    have high (yj : j ≤ y) : gradeAt cur ((j, g) :: js) y = gradeAt g js y := by
      simp only [gradeAt, List.foldl_cons]
      rw [if_pos yj]
    simp only [offStretches]
    split
    · rename_i h
      rw [ih so.2 hf]
      have e (w : x ≤ y) : gradeAt cur ((j, g) :: js) y = gradeAt g js y := high (by omega)
      constructor
      · rintro (⟨a, b⟩ | b)
        · exact Or.inl ⟨a, by rw [e a]; exact b⟩
        · exact Or.inr b
      · rintro (⟨a, b⟩ | b)
        · exact Or.inl ⟨a, by rw [e a] at b; exact b⟩
        · exact Or.inr b
    · rename_i xj
      split
      · rename_i n
        have yj : y < j := by
          cases stop with
          | none => simp [below] at n
          | some e =>
            have := hy e rfl
            simp only [below, Bool.not_eq_true', decide_eq_false_iff_not] at n
            omega
        rw [low yj]
        exact covered_last hf hy
      · split
        · rename_i c
          have i := ih (x := j) (cur := g) (from? := none) so.2 (by simp)
          cases from? with
          | none =>
            dsimp only
            rw [i]
            by_cases h : j ≤ y
            · rw [high h]
              simp [h]
              omega
            · rw [low (by omega)]
              simp [h, c]
          | some a =>
            have := hf a rfl
            have e : Covered ((a, some x) :: offStretches need stop js j g none) y ↔
                (a ≤ y ∧ y < x) ∨ Covered (offStretches need stop js j g none) y := by simp [Covered]
            dsimp only
            rw [e, i]
            by_cases h : j ≤ y
            · rw [high h]
              simp [h]
              omega
            · rw [low (by omega)]
              simp [h, c]
              omega
        · rename_i c
          rw [ih so.2 (from? := some (from?.getD x)) (by
            intro a ha
            cases from? with
            | none =>
              simp only [Option.getD_none, Option.some.injEq] at ha
              omega
            | some b =>
              have := hf b rfl
              simp only [Option.getD_some, Option.some.injEq] at ha
              omega)]
          by_cases h : j ≤ y
          · rw [high h]
            simp [h]
            omega
          · rw [low (by omega)]
            cases from? with
            | none =>
              simp [h, c]
              omega
            | some b =>
              have := hf b rfl
              simp [h, c]
              omega

/-- The joints of a list in its order stand in order of their coordinates (R22, R85). -/
theorem jointsOf_rising (s : Fin 5) (o : p.wt.track.Pairwise inOrder) : (jointsOf p s).Pairwise (fun a b => a.1 ≤ b.1) := by
  unfold jointsOf
  rw [List.pairwise_filterMap]
  refine o.imp fun {a b} h x hx y hy => ?_
  cases ka : a.kind <;> simp [ka] at hx
  cases kb : b.kind <;> simp [kb] at hy
  obtain ⟨_, rfl⟩ := hx
  obtain ⟨_, rfl⟩ := hy
  unfold inOrder at h
  dsimp only
  omega

/-! ## Messages on their way (R178, R182) -/

section Ways

variable {p q : Part} {m : Message}

/-- A message is in an originate queue or waits for one. -/
def InQueues (p : Part) (m : Message) : Prop :=
  m ∈ p.rif.urgent ∨ m ∈ p.rif.normal ∨ ∃ w ∈ p.rif.urgentWait ++ p.rif.normalWait, w.msg = m

theorem tellOwner_rif (m : Message) (p : Part) : (tellOwner m p).rif = p.rif := by
  unfold tellOwner
  split
  · dsimp only
    split <;> rfl
  · rfl

theorem InQueues.enterOldest {u : Bool} (h : InQueues p m) : InQueues (enterOldest u p) m := by
  unfold Machine.enterOldest
  split
  · exact h
  · rename_i w ws e
    split
    · unfold InQueues at h ⊢
      rw [tellOwner_rif]
      cases u
      · rw [show p.rif.normalWait = w :: ws from e] at h
        show m ∈ p.rif.urgent ∨ m ∈ p.rif.normal ++ [w.msg] ∨ ∃ x ∈ p.rif.urgentWait ++ ws, x.msg = m
        simp only [List.mem_append, List.mem_cons, List.not_mem_nil, or_false] at h ⊢
        rcases h with h | h | ⟨x, h | rfl | h, rfl⟩
        · exact Or.inl h
        · exact Or.inr (Or.inl (Or.inl h))
        · exact Or.inr (Or.inr ⟨x, Or.inl h, rfl⟩)
        · exact Or.inr (Or.inl (Or.inr rfl))
        · exact Or.inr (Or.inr ⟨x, Or.inr h, rfl⟩)
      · rw [show p.rif.urgentWait = w :: ws from e] at h
        show m ∈ p.rif.urgent ++ [w.msg] ∨ m ∈ p.rif.normal ∨ ∃ x ∈ ws ++ p.rif.normalWait, x.msg = m
        simp only [List.mem_append, List.mem_cons, List.not_mem_nil, or_false] at h ⊢
        rcases h with h | h | ⟨x, (rfl | h) | h, rfl⟩
        · exact Or.inl (Or.inl h)
        · exact Or.inr (Or.inl h)
        · exact Or.inl (Or.inr rfl)
        · exact Or.inr (Or.inr ⟨x, Or.inl h, rfl⟩)
        · exact Or.inr (Or.inr ⟨x, Or.inr h, rfl⟩)
    · exact h

theorem InQueues.refill {u : Bool} (h : InQueues p m) : InQueues (refill u p) m := by
  unfold Machine.refill
  generalize (waitOf p u).length = n
  induction n generalizing p with
  | zero => exact h
  | succ n ih => exact ih h.enterOldest

theorem enterOldest_port (u : Bool) (p : Part) : (enterOldest u p).rif.port = p.rif.port := by
  unfold enterOldest
  split
  · rfl
  · split
    · rw [tellOwner_rif]
      cases u <;> rfl
    · rfl

theorem refill_port (u : Bool) (p : Part) : (refill u p).rif.port = p.rif.port := by
  unfold refill
  generalize (waitOf p u).length = n
  induction n generalizing p with
  | zero => rfl
  | succ n ih => exact (ih _).trans (enterOldest_port u p)

theorem InQueues.onItsWay (h : InQueues p m) : OnItsWay p m := by
  rcases h with h | h | h
  · exact Or.inl h
  · exact Or.inr (Or.inl h)
  · exact Or.inr (Or.inr (Or.inl h))

theorem InQueues.arbitrate (h : InQueues p m) : OnItsWay (arbitrate p).1 m := by
  unfold Machine.arbitrate
  have sent (u : Bool) (r : Part) : OnItsWay (Machine.refill u (transmit m r)) m := by
    refine Or.inr (Or.inr (Or.inr ⟨r.rif.txSeq, ?_⟩))
    rw [refill_port, (posted_refill _ _).node]
    rfl
  have kept (u : Bool) (a : Message) (r : Part) (x : InQueues r m) : OnItsWay (Machine.refill u (transmit a r)) m :=
    (InQueues.refill (show InQueues (transmit a r) m from x)).onItsWay
  split
  · rename_i a rest e
    unfold InQueues at h
    rw [e] at h
    rcases h with h | h | h
    · rcases List.mem_cons.1 h with rfl | h
      · exact sent _ _
      · exact kept _ _ _ (Or.inl h)
    · exact kept _ _ _ (Or.inr (Or.inl h))
    · exact kept _ _ _ (Or.inr (Or.inr h))
  · rename_i e
    split
    · exact InQueues.onItsWay h
    · rename_i b rest e2
      split
      · unfold InQueues at h
        rw [e2] at h
        rcases h with h | h | h
        · exact kept _ _ _ (Or.inl h)
        · rcases List.mem_cons.1 h with rfl | h
          · exact sent _ _
          · exact kept _ _ _ (Or.inr (Or.inl h))
        · exact kept _ _ _ (Or.inr (Or.inr h))
      · exact InQueues.onItsWay h
    · rename_i b rest _ e2
      unfold InQueues at h
      rw [e2] at h
      rcases h with h | h | h
      · exact kept _ _ _ (Or.inl h)
      · rcases List.mem_cons.1 h with rfl | h
        · exact sent _ _
        · exact kept _ _ _ (Or.inr (Or.inl h))
      · exact kept _ _ _ (Or.inr (Or.inr h))
    · exact InQueues.onItsWay h

theorem OnItsWay.mono (h : OnItsWay p m) (n : q.node = p.node) (u : q.rif.urgent = p.rif.urgent) (l : ∀ x ∈ p.rif.normal, x ∈ q.rif.normal)
    (a : q.rif.urgentWait = p.rif.urgentWait) (b : q.rif.normalWait = p.rif.normalWait) (o : q.rif.port = p.rif.port) : OnItsWay q m := by
  unfold OnItsWay at *
  rw [n, u, a, b, o]
  rcases h with h | h | h | h
  · exact Or.inl h
  · exact Or.inr (Or.inl (l _ h))
  · exact Or.inr (Or.inr (Or.inl h))
  · exact Or.inr (Or.inr (Or.inr h))

theorem bump_rif (c : Counter) (n : Nat) (p : Part) : (bump c n p).1.rif = p.rif := by
  unfold bump
  dsimp only
  split <;> rfl

theorem loseNotice_rif (p : Part) : (loseNotice p).rif = p.rif := by
  unfold loseNotice
  dsimp only
  split <;> exact bump_rif _ _ _

theorem OnItsWay.queueNotice {n : Notice} (h : OnItsWay p m) : OnItsWay (queueNotice n p) m := by
  unfold Machine.queueNotice
  split
  · exact h
  · split
    · exact h.mono rfl rfl (fun x hx => by show x ∈ p.rif.normal ++ _; simp [hx]) rfl rfl rfl
    · have := loseNotice_rif p
      exact h.mono (posted_loseNotice p).node (by rw [this]) (by rw [this]; exact fun _ => id) (by rw [this]) (by rw [this]) (by rw [this])

theorem OnItsWay.rif (h : OnItsWay p m) (n : q.node = p.node) (e : q.rif = p.rif) : OnItsWay q m :=
  h.mono n (by rw [e]) (by rw [e]; exact fun _ => id) (by rw [e]) (by rw [e]) (by rw [e])

theorem occur_rif (w : Alarm) (p : Part) : (occur w p).1.rif = p.rif := rfl

theorem OnItsWay.latchQueued {w : Alarm} (h : OnItsWay p m) : OnItsWay (latchQueued w p) m := by
  have a : OnItsWay (occur w p).1 m := h.rif rfl rfl
  unfold Machine.latchQueued
  split <;> rename_i e <;> rw [e] at a
  · exact a
  · exact a.queueNotice

theorem OnItsWay.raiseQueued {c : Counter} {n : Nat} (h : OnItsWay p m) : OnItsWay (raiseQueued c n p) m := by
  have a : OnItsWay (bump c n p).1 m := h.rif (posted_bump _ _ _).node (bump_rif _ _ _)
  unfold Machine.raiseQueued
  split <;> rename_i e <;> rw [e] at a
  · exact a.latchQueued
  · exact a

theorem OnItsWay.kick (h : OnItsWay p m) : OnItsWay (kick p) m := by
  unfold Machine.kick
  split
  · rename_i e
    have l : InQueues p m := by
      rcases h with h | h | h | ⟨_, h⟩
      · exact Or.inl h
      · exact Or.inr (Or.inl h)
      · exact Or.inr (Or.inr h)
      · rw [e] at h; cases h
    have a := l.arbitrate
    unfold nextFrame
    split <;> rename_i e
    · rw [e] at a; exact a.raiseQueued
    · rw [e] at a; exact a
  · exact h

theorem OnItsWay.latch {w : Alarm} (h : OnItsWay p m) : OnItsWay (Machine.latch w p) m := h.latchQueued.kick

theorem OnItsWay.raise {c : Counter} {n : Nat} (h : OnItsWay p m) : OnItsWay (Machine.raise c n p) m := h.raiseQueued.kick

theorem inQueues_placeMessage (u : Bool) (m : Message) (p : Part) : InQueues (placeMessage u m p).1 m := by
  have w : ({ msg := m, late := false } : Waiting).msg = m := rfl
  unfold placeMessage
  split <;> cases u
  · exact Or.inr (Or.inl (List.mem_append_right _ (List.mem_singleton.2 rfl)))
  · exact Or.inl (List.mem_append_right _ (List.mem_singleton.2 rfl))
  · exact Or.inr (Or.inr ⟨_, List.mem_append_right _ (List.mem_append_right _ (List.mem_singleton.2 rfl)), w⟩)
  · exact Or.inr (Or.inr ⟨_, List.mem_append_left _ (List.mem_append_right _ (List.mem_singleton.2 rfl)), w⟩)

/-- A sequence command whose output has an OUT entry is on its way once it is posted (R182). -/
theorem onItsWay_postSequence {c : Command} {e : OutEntry} (h : outEntry p c.output = some e) :
    OnItsWay (postSequence c p).1 (.command c e.node e.channel) := by
  unfold postSequence
  rw [h]
  exact (inQueues_placeMessage _ _ _).onItsWay.kick

theorem mem_replaceFirst {α : Type} {c : α → Bool} {x : α} {l : List α} (h : l.any c = true) : x ∈ replaceFirst c x l := by
  induction l with
  | nil => cases h
  | cons y l ih =>
    rw [List.any_cons] at h
    unfold replaceFirst
    split
    · exact List.mem_cons_self
    · rename_i n
      rw [Bool.not_eq_true] at n
      rw [n, Bool.false_or] at h
      exact List.mem_cons_of_mem _ (ih h)

/-- A setpoint command takes its place in an originate queue, or waits for one (R181, R182). -/
theorem inQueues_placeSetpoint (o : Output) (u : Bool) (m : Message) (p : Part) : InQueues (placeSetpoint o u m p) m := by
  unfold placeSetpoint
  split
  · rename_i h
    cases u
    · exact Or.inr (Or.inl (mem_replaceFirst h))
    · exact Or.inl (mem_replaceFirst h)
  · split
    · exact inQueues_placeMessage _ _ _
    · split
      · rename_i h
        cases u
        · exact Or.inr (Or.inr ⟨_, List.mem_append_right _ (mem_replaceFirst h), rfl⟩)
        · exact Or.inr (Or.inr ⟨_, List.mem_append_left _ (mem_replaceFirst h), rfl⟩)
      · split <;> exact inQueues_placeMessage _ _ _

/-- A setpoint command whose output has an OUT entry is on its way once it is posted (R181, R183). -/
theorem onItsWay_postSetpoint {c : Command} {e : OutEntry} (h : outEntry p c.output = some e) :
    OnItsWay (postSetpoint c p) (.command c e.node e.channel) := by
  unfold postSetpoint
  rw [h]
  exact (inQueues_placeSetpoint _ _ _ _).onItsWay.kick

/-- A reply is on its way once it is posted (R195). -/
theorem onItsWay_postReply (r : Request) (st : Status) (l : List Byte) (p : Part) :
    OnItsWay (postReply r st l p) (.reply r.src r.codeByte r.number st l) :=
  (inQueues_placeMessage _ _ _).onItsWay.kick

end Ways

end Sys2Proof.Machine
end

