-- ==== Sys2Proof/Laws/Commits.lean ====
section
/-! SUPPORT. What a commitment's reactions leave of the region list (R56 to R59): all of it but C and the grade-late flags. -/

namespace Sys2Proof.Machine

/-- A region without what the reactions to a commitment may change of it: C and the grade-late flag (R52, R90, R92). -/
def bare (x : Region) : Region := { x with change := none, gradeLate := false }

/-- A reaction changes nothing of the region list but C and grade-late flags. -/
structure Bare (p q : Part) : Prop where
  regs : q.os.regions.map bare = p.os.regions.map bare

section Bare

variable {p q : Part}

theorem Bare.refl (p : Part) : Bare p p := ⟨rfl⟩

theorem Bare.trans {p q r : Part} (a : Bare p q) (b : Bare q r) : Bare p r := ⟨b.1.trans a.1⟩

theorem Bare.same {r : Part} (k : Bare p q) (w : r.os.regions = q.os.regions) : Bare p r := ⟨by rw [w]; exact k.1⟩

theorem Bare.thenPosted {r : Part} (k : Bare p q) (a : Posted q r) : Bare p r := k.same (by rw [a.os])

theorem Bare.thenSlot {r : Part} {x c} (k : Bare p q) (a : SlotWritten x c q r) : Bare p r := k.same (by rw [a.posted.os])

theorem Bare.map {l : List Region} (k : Bare p q) (h : l.map bare = q.os.regions.map bare) : Bare p (setRegions q l) := ⟨h.trans k.1⟩

theorem Bare.thenLatch {w : Alarm} (k : Bare p q) : Bare p (Machine.latch w q) := k.thenPosted (posted_latch w q)

theorem Bare.thenPostSetpoint {c : Command} (k : Bare p q) : Bare p (Machine.postSetpoint c q) := k.thenPosted (posted_postSetpoint c q)

theorem Bare.thenPostChange {n : Nat} {c : Option Nat} (k : Bare p q) : Bare p (Machine.postChange n c q) :=
  k.thenPosted (posted_postLimited _ _ _ _ q)

theorem Bare.thenActivate {x : Slot} {v : Nat} (k : Bare p q) : Bare p (Machine.activate x v q) := k.thenSlot (slotWritten_activate x v q)

theorem Bare.thenDeactivate {x : Slot} (k : Bare p q) : Bare p (Machine.deactivate x q) := k.thenSlot (slotWritten_deactivate x q)

theorem Bare.thenRsc {x : Rsc} (k : Bare p q) : Bare p { q with rsc := x } := k.same rfl

theorem Bare.thenBc {x : Bc} (k : Bare p q) : Bare p { q with bc := x } := k.same rfl

theorem Bare.thenPostGo' {s : Fin 5} {w : Arm} {n : Byte} (k : Bare p q) : Bare p (Machine.postSequence (.go s w n) q).1 :=
  k.thenPosted (posted_postSequence _ _)

theorem Bare.thenSetStand {s : Fin 5} {x : Stand} (k : Bare p q) : Bare p (Machine.setStandRec q s x) := k.thenRsc

theorem Bare.ite {c : Prop} [Decidable c] {x y : Part} (a : Bare p x) (b : Bare p y) : Bare p (if c then x else y) := by
  split
  · exact a
  · exact b

theorem Bare.thenFold {α : Type} {f : Part → α → Part} (s : ∀ r a, Bare r (f r a)) (l : List α) (k : Bare p q) :
    Bare p (l.foldl f q) := by
  induction l generalizing q with
  | nil => exact k
  | cons a l ih => exact ih (k.trans (s q a))

theorem Bare.thenForEach {n : Nat} {f : Fin n → Part → Part} (s : ∀ i r, Bare r (f i r)) (k : Bare p q) : Bare p (forEach f q) :=
  Bare.thenFold (fun r i => s i r) _ k

theorem Bare.thenModifyRegion {t : Nat} {f : Region → Region} (k : Bare p q) (h : ∀ x, bare (f x) = bare x) : Bare p (Machine.modifyRegion t f q) := by
  refine k.trans ⟨?_⟩
  simp only [modifyRegion, modifyWhere, List.map_map]
  refine List.map_congr_left fun x _ => ?_
  simp only [Function.comp]
  split <;> simp [h]

theorem Bare.thenSetGradeLate {t : Nat} (k : Bare p q) : Bare p (Machine.setGradeLate t q) := k.thenModifyRegion fun _ => rfl

theorem Bare.thenPostGo {s : Fin 5} {w : Arm} (k : Bare p q) : Bare p (Machine.postGo s w q) := by
  unfold postGo
  dsimp only
  split
  · exact k.thenSetStand.thenPostGo'
  · exact k.thenSetStand.thenPostGo'.thenSetStand

theorem Bare.thenTestExhausted {s : Fin 5} (k : Bare p q) : Bare p (Machine.testExhausted s q) := by
  unfold testExhausted
  split
  · exact k.thenSetStand.thenLatch
  · exact k

theorem Bare.thenTestHopeless {s : Fin 5} (k : Bare p q) : Bare p (Machine.testHopeless s q) := by
  unfold testHopeless
  split
  · exact k
  · split
    · exact k.thenSetStand.thenSetGradeLate.thenLatch
    · exact k

theorem Bare.thenTestTrigger {s : Fin 5} (k : Bare p q) : Bare p (Machine.testTrigger s q).1 := by
  unfold testTrigger
  split
  · exact k
  · split
    · exact k.thenSetStand
    · exact k

theorem Bare.thenDecideGo {s : Fin 5} {b : Bool} (k : Bare p q) : Bare p (Machine.decideGo s b q) := by
  unfold decideGo
  split
  · split
    · exact k.thenPostGo
    · cases b
      · exact .ite k.thenPostGo k
      · exact .ite k.thenLatch.thenPostGo k.thenLatch
  · exact .ite k.thenLatch k

theorem Bare.thenSettleSplice {s : Fin 5} (k : Bare p q) : Bare p (Machine.settleSplice s q) := by
  unfold settleSplice
  dsimp only
  split
  · exact k.thenSetStand
  · exact k

theorem Bare.thenWriteSplice {s : Fin 5} (k : Bare p q) : Bare p (Machine.writeSplice s q) := by
  unfold writeSplice
  dsimp only
  split
  · split
    · exact k.thenSetStand.thenActivate
    · exact k.thenSetStand.thenLatch.thenActivate
  · split
    · exact k.thenSetStand.thenActivate
    · exact k.thenSetStand.thenDeactivate

theorem Bare.thenEvalStand {s : Fin 5} (k : Bare p q) : Bare p (Machine.evalStand s q) := by
  unfold evalStand
  split
  · exact k.thenTestExhausted.thenTestHopeless.thenTestTrigger.thenDecideGo.thenSettleSplice.thenWriteSplice
  · exact k

theorem Bare.thenCoverZone {f : Option (Fin 2)} {s t : Nat} (k : Bare p q) : Bare p (Machine.coverZone f s t q).1 := by
  unfold coverZone
  dsimp only
  split
  · exact k.thenLatch
  · split
    · exact k.thenLatch
    · split
      · exact k.thenLatch.same rfl
      · exact k.thenLatch.same rfl

theorem Bare.thenInsertOrCover {f : Option (Fin 2)} {e : TrackEntry} (k : Bare p q) : Bare p (Machine.insertOrCover f e q).1 := by
  unfold insertOrCover
  split
  · exact k.same rfl
  · exact k.thenCoverZone

theorem Bare.thenInsertOpen {e : TrackEntry} (k : Bare p q) : Bare p (Machine.insertOpen e q).1 := by
  unfold insertOpen
  split
  · exact k.same rfl
  · exact k.thenLatch

theorem Bare.thenRetire (k : Bare p q) : Bare p (Machine.retire q) := by
  unfold retire
  split
  · exact k
  · refine k.same ?_
    have : ∀ (l : List TrackEntry) (p : Part), (l.foldl passJoint p).os = p.os := by
      intro l
      induction l with
      | nil => intro p; rfl
      | cons e l ih => intro p; rw [List.foldl_cons, ih]; unfold passJoint; split <;> rfl
    exact congrArg Os.regions (this _ _)

theorem Bare.thenInsertOff {s : Fin 5} {c : Nat × Option Nat × Nat} (k : Bare p q) : Bare p (Machine.insertOff s c q).1 := by
  unfold insertOff
  dsimp only
  split
  · exact k.thenInsertOrCover
  · exact k.thenInsertOpen

theorem Bare.thenFoldPair {α β : Type} {f : Part → α → Part × List β} (s : ∀ r a, Bare r (f r a).1) (l : List α) (b : List β)
    (k : Bare p q) : Bare p (l.foldl (fun acc c => let i := f acc.1 c; (i.1, acc.2 ++ i.2)) (q, b)).1 := by
  induction l generalizing q b with
  | nil => exact k
  | cons a l ih => exact ih _ (k.trans (s q a))

theorem Bare.thenGradeCheck {s : Fin 5} (k : Bare p q) : Bare p (Machine.gradeCheck s q).1 := by
  unfold gradeCheck
  split
  · refine Bare.ite (Bare.thenLatch ?_) ?_ <;>
      (refine Bare.thenFoldPair (f := fun r c => Machine.insertOff s c r) (fun r _ => (Bare.refl r).thenInsertOff) _ _ ?_
       have t := fun l => k.same (r := { q with wt := { q.wt with track := l } }) rfl
       split
       · exact t _
       · exact (t _).thenRetire)
  · exact k

theorem Bare.thenArmPlan {s : Fin 5} {o : Order} {n : Nat} (k : Bare p q) : Bare p (Machine.armPlan s o n q) := by
  unfold armPlan
  dsimp only
  split
  · split
    · exact k.thenSetStand.thenEvalStand
    · exact k.thenLatch.thenSetGradeLate
  · exact k

theorem Bare.thenSetGlue {g : Fin 3} {x : GlueUnit} (k : Bare p q) : Bare p (Machine.setGlue q g x) := k.thenBc

theorem Bare.thenSetWrap {g : Fin 3} {x : WrapUnit} (k : Bare p q) : Bare p (Machine.setWrap q g x) := k.thenBc

theorem Bare.thenSetZone {z : Fin 8} {x : ZoneUnit} (k : Bare p q) : Bare p (Machine.setZone q z x) := k.thenBc

theorem Bare.thenComputeGlue {g : Fin 3} (k : Bare p q) : Bare p (Machine.computeGlue g q) := by
  unfold computeGlue
  dsimp only
  split
  · exact k
  · split
    · exact k
    · exact k.thenSetGlue.thenPostSetpoint

theorem Bare.thenLookupGlue {g : Fin 3} (k : Bare p q) : Bare p (Machine.lookupGlue g q) := by
  unfold lookupGlue
  split
  · dsimp only
    split
    · exact k.thenSetGlue
    · exact k.thenSetGlue.thenComputeGlue
  · exact k

theorem Bare.thenComputeWrap {w : Fin 3} (k : Bare p q) : Bare p (Machine.computeWrap w q) := by
  unfold computeWrap
  dsimp only
  split
  · exact k
  · split
    · exact k
    · exact k.thenSetWrap.thenPostSetpoint

theorem Bare.thenLookupWrap {w : Fin 3} (k : Bare p q) : Bare p (Machine.lookupWrap w q) := by
  unfold lookupWrap
  split
  · dsimp only
    split
    · exact k.thenSetWrap
    · exact k.thenSetWrap.thenComputeWrap
  · exact k

theorem Bare.thenSetZoneState {z : Fin 8} (k : Bare p q) : Bare p (Machine.setZoneState z q) := k.thenSetZone

theorem Bare.thenComputeZone {z : Fin 8} (k : Bare p q) : Bare p (Machine.computeZone z q) := by
  unfold computeZone
  dsimp only
  split
  · exact k
  · split
    · exact k
    · exact k.thenSetZone.thenPostSetpoint

theorem Bare.thenWriteHeat {z : Fin 8} (k : Bare p q) : Bare p (Machine.writeHeat z q) := by
  unfold writeHeat
  split
  · dsimp only
    split
    · exact k.thenSetZone.thenActivate
    · split
      · split
        · split
          · exact k.thenSetZone.thenActivate
          · exact k.thenSetZone.thenLatch.thenActivate
        · exact k.thenSetZone.thenDeactivate
      · exact k.thenSetZone.thenDeactivate
  · exact k

theorem Bare.thenZoneChanged {z : Fin 8} {r a : Bool} (k : Bare p q) : Bare p (Machine.zoneChanged z r a q) := by
  unfold zoneChanged
  have l : Bare p (if r then setZoneState z (computeZone z q) else q) := by
    split
    · exact k.thenComputeZone.thenSetZoneState
    · exact k
  dsimp only
  split
  · exact l.thenWriteHeat
  · exact l

theorem Bare.thenLookupZone {z : Fin 8} (k : Bare p q) : Bare p (Machine.lookupZone z q) := by
  unfold lookupZone
  split
  · exact k.thenSetZone.thenZoneChanged
  · exact k

theorem Bare.thenLookupAll (k : Bare p q) : Bare p (Machine.lookupAll q) :=
  ((k.thenForEach fun _ r => (Bare.refl r).thenLookupGlue).thenForEach fun _ r => (Bare.refl r).thenLookupWrap).thenForEach
    fun _ r => (Bare.refl r).thenLookupZone

theorem Bare.thenGradeChecks {r : Region} (k : Bare p q) : Bare p (Machine.gradeChecks r q) := by
  refine k.thenForEach fun s t => ?_
  dsimp only
  split
  · exact (Bare.refl t).thenGradeCheck.thenArmPlan
  · exact (Bare.refl t).thenGradeCheck

theorem Bare.thenComputeChange (k : Bare p q) : Bare p (Machine.computeChange q) := by
  unfold computeChange
  split
  · exact k
  · split
    · exact k
    · refine k.map ?_
      have : ∀ l : List Region, ∀ f : Region → Region, (∀ x, bare (f x) = bare x) → (modifyLast f l).map bare = l.map bare := by
        intro l f h
        induction l with
        | nil => rfl
        | cons a l ih =>
          cases l with
          | nil => simp [modifyLast, h]
          | cons b l => simp only [modifyLast, List.map_cons] at ih ⊢; rw [ih]
      exact this _ _ fun _ => rfl

theorem Bare.thenSelectNext (k : Bare p q) : Bare p (Machine.selectNext q) := by
  unfold selectNext
  split
  · exact k
  · split
    · unfold compareProfile presetStation
      split
      · exact k.same rfl
      · split
        · exact Bare.thenPostSetpoint (k.same rfl)
        · exact k.same rfl
    · exact k

theorem Bare.thenInsertSwap {n : Nat} (k : Bare p q) : Bare p (Machine.insertSwap n q) := k.thenInsertOrCover.same rfl

/-- What follows the append at a commitment leaves the region list but for C and the grade-late flags. -/
theorem bare_commit (r : Region) (p : Part) : Bare (appendRegion r.length (fixEnd r p).2.1 (fixEnd r p).2.2 (fixEnd r p).1).1 (commit r p) := by
  unfold commit
  refine Bare.thenSelectNext (Bare.thenComputeChange (Bare.thenLookupAll (Bare.thenGradeChecks ?_)))
  generalize appendRegion r.length (fixEnd r p).2.1 (fixEnd r p).2.2 (fixEnd r p).1 = x
  exact Bare.ite (Bare.thenInsertSwap (Bare.ite (.refl _) (Bare.refl _).thenPostChange)) (Bare.ite (.refl _) (Bare.refl _).thenPostChange)

end Bare

/-- The committed end stands in the last region of the list. -/
theorem fixEnd_regions (p : Part) (r : Region) (before : List Region) (h : p.os.regions = before ++ [r]) :
    (fixEnd r p).1.os.regions
      = before ++ [{ r with stop := some (fixEnd r p).2.1, last := some (fixEnd r p).2.2, change := none, deferred := false }] := by
  rw [fixEnd_os]
  simp only [modifyOpen, setRegions, h]
  have : ∀ l : List Region, ∀ f : Region → Region, modifyLast f (l ++ [r]) = l ++ [f r] := by
    intro l f
    induction l with
    | nil => rfl
    | cons a l ih => cases l <;> simp_all [modifyLast]
  rw [this]
  rfl

/-- The appended region is the last of the list. -/
theorem appendRegion_regions (len stop last : Nat) (p : Part) :
    (appendRegion len stop last p).1.os.regions = p.os.regions ++ [(appendRegion len stop last p).2] := by
  unfold appendRegion
  split
  · dsimp only
    split <;> rfl
  · rfl

end Sys2Proof.Machine
end

