-- ==== Sys2Proof/Laws/Joints.lean ====
section
/-! SUPPORT. What reactions leave of the cut queue and the last cut, and that a bound SPLICE_JOINT entry stays in the tracking list through a change of K_f and all that it starts, while no cut
has been reported (R14, R18, R37, R66). -/

namespace Sys2Proof.Machine

/-- A bound SPLICE_JOINT entry of `l` stands in `m` too: its id, kind and start as they were, still bound, and its extent no smaller. -/
def JointsStay (l m : List TrackEntry) : Prop :=
  ∀ x ∈ l, (∃ s g, x.kind = .spliceJoint s g) → x.isBound = true →
    ∃ y ∈ m, y.id = x.id ∧ y.kind = x.kind ∧ y.isBound = true ∧ y.start = x.start ∧ ∀ n, x.extent = some n → ∃ k, y.extent = some k ∧ n ≤ k

theorem JointsStay.refl (l : List TrackEntry) : JointsStay l l := fun x h _ b => ⟨x, h, rfl, rfl, b, rfl, fun n e => ⟨n, e, Nat.le_refl n⟩⟩

theorem JointsStay.trans {l m n : List TrackEntry} (a : JointsStay l m) (b : JointsStay m n) : JointsStay l n := by
  intro x h k c
  obtain ⟨y, hy, i, kk, d, s, e⟩ := a x h k c
  obtain ⟨z, hz, i', k', d', s', e'⟩ := b y hy (by rw [kk]; exact k) d
  refine ⟨z, hz, i'.trans i, k'.trans kk, d', s'.trans s, fun v hv => ?_⟩
  obtain ⟨w, hw, le⟩ := e v hv
  obtain ⟨u, hu, le'⟩ := e' w hw
  exact ⟨u, hu, le.trans le'⟩

theorem mem_sortEntries {x : TrackEntry} {l : List TrackEntry} : x ∈ sortEntries l ↔ x ∈ l := by
  induction l with
  | nil => rfl
  | cons e l ih => rw [sortEntries, mem_insertEntry, ih, List.mem_cons]

/-- An update that leaves every bound joint in the list. -/
theorem JointsStay.of_mem {l m : List TrackEntry} (h : ∀ x ∈ l, (∃ s g, x.kind = .spliceJoint s g) → x.isBound = true → x ∈ m) : JointsStay l m :=
  fun x a k b => (JointsStay.refl m) x (h x a k b) k b

/-- A reaction neither takes a cut, nor changes what SC holds, nor removes a bound joint. -/
structure Steady (p q : Part) : Prop where
  sc : q.sc = p.sc
  kLast : q.dec.kLast = p.dec.kLast
  ids : IdsDiffer p.wt.track → IdsDiffer q.wt.track
  joints : p.dec.kLast = none → IdsDiffer p.wt.track → JointsStay p.wt.track q.wt.track

theorem Steady.refl (p : Part) : Steady p p := ⟨rfl, rfl, id, fun _ _ => .refl _⟩

theorem Steady.trans {p q r : Part} (a : Steady p q) (b : Steady q r) : Steady p r :=
  ⟨b.sc.trans a.sc, b.kLast.trans a.kLast, b.ids ∘ a.ids, fun n d => (a.joints n d).trans (b.joints (a.kLast.trans n) (a.ids d))⟩

section Steady

variable {p q : Part}

theorem Steady.same {r : Part} (k : Steady p q) (w : r.wt.track = q.wt.track) (d : r.dec.kLast = q.dec.kLast) (c : r.sc = q.sc) : Steady p r :=
  k.trans ⟨c, d, by rw [w]; exact id, fun _ _ => by rw [w]; exact .refl _⟩

theorem Steady.thenPosted {r : Part} (k : Steady p q) (a : Posted q r) : Steady p r := k.same (by rw [a.wt]) (by rw [a.dec]) a.sc

theorem Steady.thenLatch {w : Alarm} (k : Steady p q) : Steady p (Machine.latch w q) := k.thenPosted (posted_latch w q)

theorem Steady.thenPostSetpoint {c : Command} (k : Steady p q) : Steady p (Machine.postSetpoint c q) := k.thenPosted (posted_postSetpoint c q)

theorem Steady.thenPostGo' {s : Fin 5} {w : Arm} {n : Byte} (k : Steady p q) : Steady p (Machine.postSequence (.go s w n) q).1 :=
  k.thenPosted (posted_postSequence _ q)

theorem Steady.thenPostChange {n : Nat} {c : Option Nat} (k : Steady p q) : Steady p (Machine.postChange n c q) :=
  k.thenPosted (posted_postLimited _ _ _ _ q)

theorem Steady.thenActivate {x : Slot} {v : Nat} (k : Steady p q) : Steady p (Machine.activate x v q) :=
  (k.same (r := { q with sg := (Machine.activate x v q).sg }) rfl rfl rfl).thenPosted (slotWritten_activate x v q).posted

theorem Steady.thenDeactivate {x : Slot} (k : Steady p q) : Steady p (Machine.deactivate x q) :=
  (k.same (r := { q with sg := (Machine.deactivate x q).sg }) rfl rfl rfl).thenPosted (slotWritten_deactivate x q).posted

theorem Steady.thenRsc {x : Rsc} (k : Steady p q) : Steady p { q with rsc := x } := k.same rfl rfl rfl

theorem Steady.thenBc {x : Bc} (k : Steady p q) : Steady p { q with bc := x } := k.same rfl rfl rfl

theorem Steady.thenOs {x : Os} (k : Steady p q) : Steady p { q with os := x } := k.same rfl rfl rfl

theorem Steady.thenSetStand {s : Fin 5} {x : Stand} (k : Steady p q) : Steady p (Machine.setStandRec q s x) := k.thenRsc

theorem Steady.ite {c : Prop} [Decidable c] {x y : Part} (a : Steady p x) (b : Steady p y) : Steady p (if c then x else y) := by
  split
  · exact a
  · exact b

theorem Steady.thenFold {α : Type} {f : Part → α → Part} (s : ∀ r a, Steady r (f r a)) (l : List α) (k : Steady p q) :
    Steady p (l.foldl f q) := by
  induction l generalizing q with
  | nil => exact k
  | cons a l ih => exact ih (k.trans (s q a))

theorem Steady.thenForEach {n : Nat} {f : Fin n → Part → Part} (s : ∀ i r, Steady r (f i r)) (k : Steady p q) : Steady p (forEach f q) :=
  Steady.thenFold (fun r i => s i r) _ k

/-! ## The tracking list -/

/-- Two entries of a list whose ids differ are one where their ids are. -/
theorem eq_of_id {l : List TrackEntry} (d : IdsDiffer l) {x y : TrackEntry} (hx : x ∈ l) (hy : y ∈ l) (h : x.id = y.id) : x = y :=
  List.inj_on_of_nodup_map d hx hy h

theorem Steady.thenTrack {l : List TrackEntry} (k : Steady p q) (i : IdsDiffer q.wt.track → IdsDiffer l)
    (j : q.dec.kLast = none → IdsDiffer q.wt.track → JointsStay q.wt.track l) : Steady p { q with wt := { q.wt with track := l } } :=
  k.trans ⟨rfl, rfl, i, j⟩

theorem Steady.thenAddEntry {e : TrackEntry} (k : Steady p q) (h : hasPlace e.kind q = true) : Steady p (Machine.addEntry e q).1 :=
  k.trans ⟨rfl, rfl, ((Kept.refl q).thenAddEntry h).track.ids,
    fun _ _ => .of_mem fun _ hx _ _ => mem_insertEntry.2 (Or.inr hx)⟩

/-- An entry that stays where it is, bound as it was and no shorter, is replaced. -/
theorem Steady.thenReplaceEntry {e e1 : TrackEntry} (k : Steady p q) (m : e ∈ q.wt.track) (i : e1.id = e.id) (b : e.isBound = true → e1.isBound = true)
    (s : e1.start = e.start) (x : ∀ n, e.extent = some n → ∃ k, e1.extent = some k ∧ n ≤ k) : Steady p (Machine.replaceEntry e1 q) := by
  refine k.trans ⟨rfl, rfl, (Kept.refl q).thenReplaceEntry.track.ids, fun _ d y hy _ c => ?_⟩
  refine ⟨if decide (y.id = e1.id) then { y with start := e1.start, extent := e1.extent, binding := e1.binding } else y,
    mem_sortEntries.2 (List.mem_map.2 ⟨y, hy, rfl⟩), ?_⟩
  split
  · rename_i h
    have : y = e := eq_of_id d hy m ((of_decide_eq_true h).trans i)
    subst this
    exact ⟨rfl, rfl, b c, s, x⟩
  · exact ⟨rfl, rfl, c, rfl, fun n h => ⟨n, h, Nat.le_refl n⟩⟩

theorem Steady.thenAbsorbInto {d : TrackEntry} {s t : Nat} (k : Steady p q) (m : d ∈ q.wt.track) (h : d.kind = .defect) :
    Steady p (Machine.absorbInto d s t q).1 := by
  refine k.trans ⟨rfl, rfl, (Kept.refl q).thenAbsorbInto.track.ids, fun _ i => .of_mem fun x hx c _ => ?_⟩
  obtain ⟨a, g, c⟩ := c
  refine mem_sortEntries.2 (List.mem_map.2 ⟨x, List.mem_filter.2 ⟨hx, by simp [defectOverlaps, c]⟩, ?_⟩)
  have : x.id ≠ d.id := fun e => by
    have := eq_of_id i hx m e
    rw [this, h] at c
    cases c
  simp [this]

theorem Steady.thenCoverZone {f : Option (Fin 2)} {s t : Nat} (k : Steady p q) : Steady p (Machine.coverZone f s t q).1 := by
  unfold coverZone
  dsimp only
  split
  · exact k.thenLatch
  · rename_i e he
    have m := List.mem_filter.1 (List.mem_of_getLast? he)
    split
    · exact k.thenLatch
    · rename_i n
      split
      · exact k.thenLatch.thenAbsorbInto m.1 (by assumption)
      · refine Steady.thenReplaceEntry (e := e) k.thenLatch m.1 rfl ?_ rfl fun v hv => ⟨_, rfl, ?_⟩
        · unfold TrackEntry.isBound raiseEnd
          cases e.binding <;> exact id
        · simp only [TrackEntry.stop, hv, Option.getD_some] at n
          omega

theorem Steady.thenInsertOrCover {f : Option (Fin 2)} {e : TrackEntry} (k : Steady p q) : Steady p (Machine.insertOrCover f e q).1 := by
  unfold insertOrCover
  split
  · exact k.thenAddEntry (by assumption)
  · exact k.thenCoverZone

theorem Steady.thenInsertOpen {e : TrackEntry} (k : Steady p q) : Steady p (Machine.insertOpen e q).1 := by
  unfold insertOpen
  split
  · exact k.thenAddEntry (by assumption)
  · exact k.thenLatch

theorem passJoints_wt (l : List TrackEntry) (p : Part) :
    (l.foldl passJoint p).wt = p.wt ∧ (l.foldl passJoint p).dec = p.dec ∧ (l.foldl passJoint p).sc = p.sc := by
  induction l generalizing p with
  | nil => exact ⟨rfl, rfl, rfl⟩
  | cons e l ih =>
    rw [List.foldl_cons, (ih _).1, (ih _).2.1, (ih _).2.2]
    unfold passJoint
    split <;> exact ⟨rfl, rfl, rfl⟩

theorem Steady.thenRetire (k : Steady p q) : Steady p (Machine.retire q) := by
  refine k.trans ⟨?_, ?_, ?_, fun n _ => ?_⟩
  · unfold retire
    split
    · rfl
    · exact (passJoints_wt _ q).2.2
  · unfold retire
    split
    · rfl
    · exact congrArg Dec.kLast (passJoints_wt _ q).2.1
  · exact (Kept.refl q).thenRetire.track.ids
  · unfold retire
    rw [n]
    exact .refl _

theorem Steady.thenMoveUnbound {f : Fin 2} (k : Steady p q) : Steady p (Machine.moveUnbound f q).1 := by
  refine k.trans ⟨rfl, rfl, (Kept.refl q).thenMoveUnbound.track.ids, fun _ _ => .of_mem fun x hx _ b => ?_⟩
  refine mem_sortEntries.2 (List.mem_map.2 ⟨x, hx, ?_⟩)
  unfold placedUnder
  unfold TrackEntry.isBound at b
  split
  · rename_i y e
    simp only [e] at b
    simp [b]
  · rfl

theorem bind_isBound (e : TrackEntry) : e.bind.isBound = true := by
  unfold TrackEntry.isBound TrackEntry.bind
  cases e.binding <;> rfl

theorem Steady.thenBindBonds (k : Steady p q) : Steady p (Machine.bindBonds q) := by
  unfold bindBonds
  split
  · refine (k.thenTrack (TrackKept.modifyWhere (f := TrackEntry.bind) _ _ fun _ => ⟨rfl, rfl, rfl⟩).ids fun _ _ => .of_mem fun x hx c _ => ?_).thenRetire
    obtain ⟨a, g, c⟩ := c
    refine List.mem_map.2 ⟨x, hx, ?_⟩
    simp [bondPassed, c]
  · exact k

/-! ## RSC, BC and OS -/

theorem Steady.thenModifyRegion {t : Nat} {f : Region → Region} (k : Steady p q) : Steady p (Machine.modifyRegion t f q) := k.thenOs

theorem Steady.thenSetGradeLate {t : Nat} (k : Steady p q) : Steady p (Machine.setGradeLate t q) := k.thenOs

theorem Steady.thenPostGo {s : Fin 5} {w : Arm} (k : Steady p q) : Steady p (Machine.postGo s w q) := by
  unfold postGo
  dsimp only
  split
  · exact k.thenSetStand.thenPostGo'
  · exact k.thenSetStand.thenPostGo'.thenSetStand

theorem Steady.thenTestExhausted {s : Fin 5} (k : Steady p q) : Steady p (Machine.testExhausted s q) := by
  unfold testExhausted
  split
  · exact k.thenSetStand.thenLatch
  · exact k

theorem Steady.thenTestHopeless {s : Fin 5} (k : Steady p q) : Steady p (Machine.testHopeless s q) := by
  unfold testHopeless
  split
  · exact k
  · split
    · exact k.thenSetStand.thenSetGradeLate.thenLatch
    · exact k

theorem Steady.thenTestTrigger {s : Fin 5} (k : Steady p q) : Steady p (Machine.testTrigger s q).1 := by
  unfold testTrigger
  split
  · exact k
  · split
    · exact k.thenSetStand
    · exact k

theorem Steady.thenDecideGo {s : Fin 5} {b : Bool} (k : Steady p q) : Steady p (Machine.decideGo s b q) := by
  unfold decideGo
  split
  · split
    · exact k.thenPostGo
    · cases b
      · exact .ite k.thenPostGo k
      · exact .ite k.thenLatch.thenPostGo k.thenLatch
  · exact .ite k.thenLatch k

theorem Steady.thenSettleSplice {s : Fin 5} (k : Steady p q) : Steady p (Machine.settleSplice s q) := by
  unfold settleSplice
  dsimp only
  split
  · exact k.thenSetStand
  · exact k

theorem Steady.thenWriteSplice {s : Fin 5} (k : Steady p q) : Steady p (Machine.writeSplice s q) := by
  unfold writeSplice
  dsimp only
  split
  · split
    · exact k.thenSetStand.thenActivate
    · exact k.thenSetStand.thenLatch.thenActivate
  · split
    · exact k.thenSetStand.thenActivate
    · exact k.thenSetStand.thenDeactivate

theorem Steady.thenEvalStand {s : Fin 5} (k : Steady p q) : Steady p (Machine.evalStand s q) := by
  unfold evalStand
  split
  · exact k.thenTestExhausted.thenTestHopeless.thenTestTrigger.thenDecideGo.thenSettleSplice.thenWriteSplice
  · exact k

theorem Steady.thenEvalFeeder {f : Fin 2} (k : Steady p q) : Steady p (Machine.evalFeeder f q) := by
  refine k.thenForEach fun i r => ?_
  split
  · exact (Steady.refl r).thenEvalStand
  · exact .refl r

theorem Steady.thenInsertOff {s : Fin 5} {c : Nat × Option Nat × Nat} (k : Steady p q) : Steady p (Machine.insertOff s c q).1 := by
  unfold insertOff
  dsimp only
  split
  · exact k.thenInsertOrCover
  · exact k.thenInsertOpen

/-- A fold that answers a part and a list keeps what each of its steps keeps. -/
theorem Steady.thenFoldPair {α β : Type} {f : Part → α → Part × List β} (s : ∀ r a, Steady r (f r a).1) (l : List α) (b : List β)
    (k : Steady p q) : Steady p (l.foldl (fun acc c => let i := f acc.1 c; (i.1, acc.2 ++ i.2)) (q, b)).1 := by
  induction l generalizing q b with
  | nil => exact k
  | cons a l ih => exact ih _ (k.trans (s q a))

theorem Steady.thenGradeCheck {s : Fin 5} (k : Steady p q) : Steady p (Machine.gradeCheck s q).1 := by
  have joint {x : TrackEntry} (c : ∃ s g, x.kind = .spliceJoint s g) : x.offTag s = none := by
    obtain ⟨a, g, c⟩ := c
    simp [TrackEntry.offTag, c]
  unfold gradeCheck
  split
  · refine Steady.ite (Steady.thenLatch ?_) ?_ <;>
      (refine Steady.thenFoldPair (f := fun r c => Machine.insertOff s c r) (fun r _ => (Steady.refl r).thenInsertOff) _ _ ?_
       have t := k.thenTrack (l := modifyWhere (fun e : TrackEntry => (e.offTag s).isSome && decide (e.start < posB q) && !e.closed)
           (fun e : TrackEntry => { e with extent := some (posB q - e.start) })
           (q.wt.track.filter fun e => !((e.offTag s).isSome && decide (posB q ≤ e.start) && !((computedOff q s).any fun c => sameOff s c e))))
         ((TrackKept.filter _ _).trans (.modifyWhere (f := fun e : TrackEntry => { e with extent := some (posB q - e.start) }) _ _ fun _ => ⟨rfl, rfl, rfl⟩)).ids
         fun _ _ => .of_mem fun x hx c _ => List.mem_map.2 ⟨x, List.mem_filter.2 ⟨hx, by simp [joint c]⟩, by simp [joint c]⟩
       split
       · exact t
       · exact t.thenRetire)
  · exact k

theorem Steady.thenArmPlan {s : Fin 5} {o : Order} {n : Nat} (k : Steady p q) : Steady p (Machine.armPlan s o n q) := by
  unfold armPlan
  dsimp only
  split
  · split
    · exact k.thenSetStand.thenEvalStand
    · exact k.thenLatch.thenSetGradeLate
  · exact k

theorem Steady.thenSetGlue {g : Fin 3} {x : GlueUnit} (k : Steady p q) : Steady p (Machine.setGlue q g x) := k.thenBc

theorem Steady.thenSetWrap {g : Fin 3} {x : WrapUnit} (k : Steady p q) : Steady p (Machine.setWrap q g x) := k.thenBc

theorem Steady.thenSetZone {z : Fin 8} {x : ZoneUnit} (k : Steady p q) : Steady p (Machine.setZone q z x) := k.thenBc

theorem Steady.thenComputeGlue {g : Fin 3} (k : Steady p q) : Steady p (Machine.computeGlue g q) := by
  unfold computeGlue
  dsimp only
  split
  · exact k
  · split
    · exact k
    · exact k.thenSetGlue.thenPostSetpoint

theorem Steady.thenLookupGlue {g : Fin 3} (k : Steady p q) : Steady p (Machine.lookupGlue g q) := by
  unfold lookupGlue
  split
  · dsimp only
    split
    · exact k.thenSetGlue
    · exact k.thenSetGlue.thenComputeGlue
  · exact k

theorem Steady.thenComputeWrap {w : Fin 3} (k : Steady p q) : Steady p (Machine.computeWrap w q) := by
  unfold computeWrap
  dsimp only
  split
  · exact k
  · split
    · exact k
    · exact k.thenSetWrap.thenPostSetpoint

theorem Steady.thenLookupWrap {w : Fin 3} (k : Steady p q) : Steady p (Machine.lookupWrap w q) := by
  unfold lookupWrap
  split
  · dsimp only
    split
    · exact k.thenSetWrap
    · exact k.thenSetWrap.thenComputeWrap
  · exact k

theorem Steady.thenSetZoneState {z : Fin 8} (k : Steady p q) : Steady p (Machine.setZoneState z q) := k.thenSetZone

theorem Steady.thenComputeZone {z : Fin 8} (k : Steady p q) : Steady p (Machine.computeZone z q) := by
  unfold computeZone
  dsimp only
  split
  · exact k
  · split
    · exact k
    · exact k.thenSetZone.thenPostSetpoint

theorem Steady.thenWriteHeat {z : Fin 8} (k : Steady p q) : Steady p (Machine.writeHeat z q) := by
  unfold writeHeat
  split
  · dsimp only
    split
    · exact k.thenSetZone.thenActivate
    · split
      · split
        · split
          · exact k.thenSetZone.thenActivate
          · exact k.thenSetZone.thenLatch.thenActivate
        · exact k.thenSetZone.thenDeactivate
      · exact k.thenSetZone.thenDeactivate
  · exact k

theorem Steady.thenZoneChanged {z : Fin 8} {r a : Bool} (k : Steady p q) : Steady p (Machine.zoneChanged z r a q) := by
  unfold zoneChanged
  have l : Steady p (if r then setZoneState z (computeZone z q) else q) := by
    split
    · exact k.thenComputeZone.thenSetZoneState
    · exact k
  dsimp only
  split
  · exact l.thenWriteHeat
  · exact l

theorem Steady.thenLookupZone {z : Fin 8} (k : Steady p q) : Steady p (Machine.lookupZone z q) := by
  unfold lookupZone
  split
  · exact k.thenSetZone.thenZoneChanged
  · exact k

theorem Steady.thenLookupAll (k : Steady p q) : Steady p (Machine.lookupAll q) :=
  ((k.thenForEach fun _ r => (Steady.refl r).thenLookupGlue).thenForEach fun _ r => (Steady.refl r).thenLookupWrap).thenForEach
    fun _ r => (Steady.refl r).thenLookupZone

theorem Steady.thenSelectNext (k : Steady p q) : Steady p (Machine.selectNext q) := by
  unfold selectNext
  split
  · exact k
  · split
    · unfold compareProfile presetStation
      split
      · exact k.thenOs
      · split
        · exact Steady.thenPostSetpoint (k.same rfl rfl rfl)
        · exact k.thenOs
    · exact k

theorem Steady.thenModifyOpen {f : Region → Region} (k : Steady p q) : Steady p (Machine.modifyOpen f q) := k.thenOs

theorem Steady.thenComputeChange (k : Steady p q) : Steady p (Machine.computeChange q) := by
  unfold computeChange
  split
  · exact k
  · split
    · exact k
    · exact k.thenModifyOpen

theorem Steady.thenInsertSwap {n : Nat} (k : Steady p q) : Steady p (Machine.insertSwap n q) := k.thenInsertOrCover.same rfl rfl rfl

theorem Steady.thenFixEnd {r : Region} (k : Steady p q) : Steady p (Machine.fixEnd r q).1 := by
  unfold fixEnd
  dsimp only
  split
  · exact k.thenModifyOpen.thenDeactivate
  · exact k.thenModifyOpen

theorem Steady.thenAppendRegion {len stop last : Nat} (k : Steady p q) : Steady p (Machine.appendRegion len stop last q).1 := by
  unfold appendRegion
  split
  · dsimp only
    split <;> exact k.thenOs
  · exact k.thenOs

theorem Steady.thenGradeChecks {r : Region} (k : Steady p q) : Steady p (Machine.gradeChecks r q) := by
  refine k.thenForEach fun s t => ?_
  dsimp only
  split
  · exact (Steady.refl t).thenGradeCheck.thenArmPlan
  · exact (Steady.refl t).thenGradeCheck

theorem Steady.thenCommit {r : Region} (k : Steady p q) : Steady p (Machine.commit r q) := by
  have a := (k.thenFixEnd (r := r)).thenAppendRegion (len := r.length) (stop := (fixEnd r q).2.1) (last := (fixEnd r q).2.2)
  unfold commit
  refine Steady.thenSelectNext (Steady.thenComputeChange (Steady.thenLookupAll (Steady.thenGradeChecks ?_)))
  exact Steady.ite (Steady.thenInsertSwap (Steady.ite a a.thenPostChange)) (Steady.ite a a.thenPostChange)

theorem Steady.thenCommitTimes {n : Nat} (k : Steady p q) : Steady p (Machine.commitTimes n q) := by
  induction n generalizing q with
  | zero => exact k
  | succ n ih =>
    rw [commitTimes]
    split
    · exact k
    · split
      · exact .ite (ih k.thenCommit) (.ite k k.thenModifyOpen.thenLatch.thenActivate)
      · exact .ite k.thenModifyOpen.thenDeactivate k

theorem Steady.thenCommitCheck (k : Steady p q) : Steady p (Machine.commitCheck q) := by
  unfold commitCheck
  split
  · exact k.thenCommitTimes
  · exact k

theorem Steady.thenTakeChanges {l : List Change} (k : Steady p q) : Steady p (Machine.takeChanges l q) := by
  unfold takeChanges
  split
  · exact k
  · split
    · exact k
    · split
      · exact k.thenComputeChange
      · exact k

theorem Steady.thenHandOver {l : List Change} (k : Steady p q) : Steady p (Machine.handOver l q) := k.thenTakeChanges.thenCommitCheck

theorem Steady.thenCheckGrades {s : Fin 5} (k : Steady p q) : Steady p (Machine.checkGrades s q) := k.thenGradeCheck.thenHandOver

/-! ## Completion (R66) -/

theorem Steady.thenSetRegions {l : List Region} (k : Steady p q) : Steady p (Machine.setRegions q l) := k.thenOs

theorem Steady.thenDropRef {n : Nat} (k : Steady p q) : Steady p (Machine.dropRef n q) := by
  unfold dropRef changeRefs
  split
  · exact k
  · exact k.thenBc

theorem Steady.thenWriteRecord {c : Completion} (k : Steady p q) : Steady p (Machine.writeRecord c q) := by
  unfold writeRecord
  exact Steady.thenPosted (Steady.ite k.thenOs.thenLatch k.thenOs) (posted_postNotice _ _)

theorem Steady.thenCompleteFirst {r : Region} {rest : List Region} (k : Steady p q) : Steady p (Machine.completeFirst r rest q) := by
  unfold completeFirst
  split
  · exact k.thenSetRegions
  · exact k.thenSetRegions.thenDropRef.thenWriteRecord

theorem Steady.thenCompleteTimes {n : Nat} (k : Steady p q) : Steady p (Machine.completeTimes n q) := by
  induction n generalizing q with
  | zero => exact k
  | succ n ih =>
    rw [completeTimes]
    split
    · exact k
    · exact .ite (ih k.thenCompleteFirst.thenLookupAll).thenCommitCheck k

theorem Steady.thenCompleteRegions (k : Steady p q) : Steady p (Machine.completeRegions q) := k.thenCompleteTimes

/-! ## WT (01) -/

theorem Steady.thenSetBridge {f : Fin 2} {b : Bridge} (k : Steady p q) : Steady p (Machine.setBridgeRec q f b) := k.same rfl rfl rfl

theorem Steady.thenCheckLow {f : Fin 2} (k : Steady p q) : Steady p (Machine.checkLow f q) := by
  unfold checkLow
  exact .ite k.thenSetBridge.thenLatch.thenActivate (.ite k.thenSetBridge.thenDeactivate k)

theorem Steady.thenCheckHigh {f : Fin 2} (k : Steady p q) : Steady p (Machine.checkHigh f q) := by
  unfold checkHigh
  exact .ite k.thenSetBridge.thenLatch (.ite k.thenSetBridge k)

theorem Steady.thenCheckBridge {f : Fin 2} (k : Steady p q) : Steady p (Machine.checkBridge f q) := .ite k.thenCheckLow.thenCheckHigh k

theorem Steady.thenKChanged {f : Fin 2} {m : List Change} {a : Option (Fin 5)} (k : Steady p q) : Steady p (Machine.kChanged f m a q) := by
  unfold kChanged
  refine Steady.thenLookupGlue (Steady.thenEvalFeeder (Steady.thenForEach (fun _ r => ?_)
    k.thenMoveUnbound.thenHandOver.thenBindBonds.thenCommitCheck.thenCheckBridge))
  exact .ite (Steady.refl r).thenCheckGrades (.refl r)

/-- What follows the binding of a matched joint keeps the bound joints (R18). -/
theorem steady_matchJoint (f : Fin 2) (k : Nat) (s : Fin 5) (e : TrackEntry) (p : Part) :
    Steady (retire (replaceEntry (sighted p k s e) p)) (matchJoint f k s e p) := by
  unfold matchJoint
  dsimp only
  generalize retire (replaceEntry (sighted p k s e) p) = q
  have b := Steady.refl q
  exact .ite (.ite b.thenHandOver.thenCheckGrades b.thenHandOver) b.thenSetBridge.thenKChanged

end Steady

end Sys2Proof.Machine
end

