-- ==== Sys2Proof/Laws/Cuts.lean ====
section
/-! SUPPORT. Cut reports: the region that holds a number, synthesized cuts, notices, what waits for the urgent queue, and the cut
queue's heads (R50, R130, R133, R140, R154, R156). -/

namespace Sys2Proof.Machine

/-- A region holds a run cut number between its first and its last one (R50). -/
theorem holds_iff (n : Nat) (r : Region) : Region.holds n r = true ↔ ∃ a, r.first = some a ∧ a ≤ n ∧ ∀ l, r.last = some l → n ≤ l := by
  unfold Region.holds
  cases r.first <;> cases r.last <;> simp

/-- The first region that holds a number, in a list split at it. -/
theorem find?_holds {n : Nat} {before after : List Region} {r : Region}
    (b : ∀ x ∈ before, ¬ ∃ a, x.first = some a ∧ a ≤ n ∧ ∀ l, x.last = some l → n ≤ l)
    (h : ∃ a, r.first = some a ∧ a ≤ n ∧ ∀ l, r.last = some l → n ≤ l) :
    (before ++ r :: after).find? (Region.holds n) = some r := by
  induction before with
  | nil => simp [(holds_iff n r).2 h]
  | cons x l ih =>
    have := b x (by simp)
    rw [← holds_iff] at this
    simp only [List.cons_append, List.find?_cons, this]
    exact ih fun y hy => b y (by simp [hy])

/-- A change of the first region that holds a number, in a list split at it. -/
theorem modifyFirst_holds {n : Nat} {before after : List Region} {r : Region} (f : Region → Region)
    (b : ∀ x ∈ before, ¬ ∃ a, x.first = some a ∧ a ≤ n ∧ ∀ l, x.last = some l → n ≤ l)
    (h : ∃ a, r.first = some a ∧ a ≤ n ∧ ∀ l, r.last = some l → n ≤ l) :
    modifyFirst (Region.holds n) f (before ++ r :: after) = before ++ f r :: after := by
  induction before with
  | nil => simp [modifyFirst, (holds_iff n r).2 h]
  | cons x l ih =>
    have := b x (by simp)
    rw [← holds_iff] at this
    simp only [List.cons_append, modifyFirst, this]
    rw [ih fun y hy => b y (by simp [hy])]; rfl

/-- Notices are posts. -/
theorem posted_notices (l : List Notice) (p : Part) : Posted p (l.foldl (fun q n => postNotice n q) p) := by
  induction l generalizing p with
  | nil => exact .refl _
  | cons a l ih => exact (posted_postNotice a p).trans (ih _)

/-- The frames that wait for the urgent queue were waiting before: a reaction that posts nothing urgent adds none. -/
def WaitsFewer (p q : Part) : Prop := ∀ w ∈ q.rif.urgentWait, w ∈ p.rif.urgentWait

theorem WaitsFewer.eq {p q : Part} (h : q.rif.urgentWait = p.rif.urgentWait) : WaitsFewer p q := fun w m => by rw [h] at m; exact m

theorem WaitsFewer.trans {p q r : Part} (a : WaitsFewer p q) (b : WaitsFewer q r) : WaitsFewer p r := fun w m => a w (b w m)

theorem few_enterOldest (u : Bool) (p : Part) : WaitsFewer p (enterOldest u p) := by
  unfold enterOldest
  split
  · exact .eq rfl
  · rename_i w ws e
    split
    · intro x hx
      rw [tellOwner_rif] at hx
      cases u
      · exact hx
      · rw [show p.rif.urgentWait = w :: ws from e]
        exact List.mem_cons_of_mem _ hx
    · exact .eq rfl

theorem few_refill (u : Bool) (p : Part) : WaitsFewer p (refill u p) := by
  unfold refill
  generalize (waitOf p u).length = n
  induction n generalizing p with
  | zero => exact .eq rfl
  | succ n ih => exact (few_enterOldest u p).trans (ih _)

theorem few_arbitrate (p : Part) : WaitsFewer p (arbitrate p).1 := by
  unfold arbitrate
  split
  · exact few_refill true _
  · split
    · exact .eq rfl
    · split
      · exact few_refill false _
      · exact .eq rfl
    · exact few_refill false _
    · exact .eq rfl

theorem few_queueNotice (n : Notice) (p : Part) : WaitsFewer p (queueNotice n p) := by
  unfold queueNotice
  split
  · exact .eq rfl
  · split
    · exact .eq rfl
    · exact .eq (by rw [loseNotice_rif])

theorem few_latchQueued (w : Alarm) (p : Part) : WaitsFewer p (latchQueued w p) := by
  unfold latchQueued
  have h := occur_rif w p
  split <;> rename_i e <;> rw [e] at h
  · exact .eq (by rw [h])
  · exact (WaitsFewer.eq (by rw [h])).trans (few_queueNotice _ _)

theorem few_kick (q : Part) : WaitsFewer q (kick q) := by
  unfold kick
  split
  · unfold nextFrame
    have h := few_arbitrate q
    split <;> rename_i e <;> rw [e] at h
    · refine h.trans ?_
      unfold raiseQueued
      rename_i r
      have b := bump_rif .framesForwarded 1 r
      split <;> rename_i e <;> rw [e] at b
      · exact (WaitsFewer.eq (by rw [b])).trans (few_latchQueued _ _)
      · exact .eq (by rw [b])
    · exact h
  · exact .eq rfl

theorem few_latch (w : Alarm) (p : Part) : WaitsFewer p (latch w p) := (few_latchQueued w p).trans (few_kick _)

/-- The parts and ends of the synthesized cuts of a report, one after another (R133). -/
theorem synthesize_iterates (k : Nat) : ∀ (n x : Nat) (p : Part), ∃ (q : Nat → Part) (y : Nat → Nat), q 0 = p ∧ y 0 = x
        ∧ (∀ i, i < k → y (i + 1) = y i + commandedLength (q i) (n + i)
            ∧ q (i + 1) = takeCut { number := n + i, start := y i, stop := y (i + 1), measured := none, moved := false } (q i))
        ∧ synthesize k n x p = (q k, y k) := by
  induction k with
  | zero => exact fun n x p => ⟨fun _ => p, fun _ => x, rfl, rfl, fun i h => absurd h (Nat.not_lt_zero _), rfl⟩
  | succ k ih =>
    intro n x p
    obtain ⟨q, y, a, b, c, d⟩ := ih (n + 1) (x + commandedLength p n) (takeCut { number := n, start := x, stop := x + commandedLength p n, measured := none, moved := false } p)
    refine ⟨fun i => match i with | 0 => p | i + 1 => q i, fun i => match i with | 0 => x | i + 1 => y i, rfl, rfl, ?_, d⟩
    intro i hi
    cases i with
    | zero => dsimp only; rw [b, a]; exact ⟨rfl, rfl⟩
    | succ i =>
      have := c i (by omega)
      rw [Nat.add_right_comm] at this
      exact this

/-- Synthesized cuts leave B. -/
theorem posB_synthesized (q : Nat → Part) (y : Nat → Nat) (n k : Nat)
    (h : ∀ i, i < k → q (i + 1) = takeCut { number := n + i, start := y i, stop := y (i + 1), measured := none, moved := false } (q i)) :
    posB (q k) = posB (q 0) := by
  induction k with
  | zero => rfl
  | succ k ih => rw [h k (by omega), ((Kept.refl _).thenTakeCut).board]; exact ih fun i hi => h i (by omega)

/-! ## The head of the cut queue (R154, R156) -/

theorem steady_actFlags (e : CutEntry) (p : Part) : Steady p (actFlags e p) := by
  have f : Steady p (if e.stackEnd then postEject e.tag p else p) := .ite ((Steady.refl p).thenPosted (posted_postLimited _ _ _ _ p)) (.refl p)
  exact .ite (f.thenPosted (posted_postLimited _ _ _ _ _)) f

theorem steady_testBacklog (p : Part) : (testBacklog p).sc = { p.sc with backlog := (testBacklog p).sc.backlog } := by
  unfold testBacklog
  split
  · rw [((Steady.refl _).thenActivate).sc]
  · split
    · rw [((Steady.refl _).thenDeactivate).sc]
    · rfl

/-- A head removed as missing leaves the queue, and the run's missing count rises. -/
theorem removeMissing_sc (e : CutEntry) (rest : List CutEntry) (p : Part) :
    (removeMissing e rest p).sc = { p.sc with cuts := rest, missing := sat32 p.sc.missing 1 } := by
  unfold removeMissing
  rw [(steady_actFlags e _).thenCompleteRegions.sc, latch_sc]
  rfl

/-- A head removed as stacked leaves the queue, and the run's stacked count rises. -/
theorem removeStacked_sc (e : CutEntry) (rest : List CutEntry) (p : Part) :
    (removeStacked e rest p).sc = { p.sc with cuts := rest, stacked := sat32 p.sc.stacked 1 } := by
  unfold removeStacked
  rw [(steady_actFlags e _).thenCompleteRegions.sc]
  simp only [raise_sc]
  rfl

theorem kept_removeMissing {e : CutEntry} {rest : List CutEntry} {p : Part} (h : p.sc.cuts = e :: rest) : Kept p (removeMissing e rest p) :=
  (Kept.refl p).thenRemoveMissing h

/-- The head's test where its deadline has passed: it is removed as missing, and the new head is tested. -/
theorem testHead_overdue {e : CutEntry} {rest : List CutEntry} {p : Part} (h : p.sc.cuts = e :: rest)
    (d : e.knifeTime + p.sc.transit ≤ p.time) : testHead p = testHead (removeMissing e rest p) := by
  have o : headOverdue p = true := by simp [headOverdue, h, d]
  unfold testHead
  rw [removeMissing_sc, h, List.length_cons, missingTimes, h]
  simp only [o, if_true]

/-- The head's test where nothing is overdue: the backlog test alone. -/
theorem testHead_early {e : CutEntry} {rest : List CutEntry} {p : Part} (h : p.sc.cuts = e :: rest)
    (d : p.time < e.knifeTime + p.sc.transit) : testHead p = testBacklog p := by
  have o : headOverdue p = false := by simp [headOverdue, h, d]
  unfold testHead
  rw [h, List.length_cons, missingTimes, h]
  simp [o]

theorem testHead_empty {p : Part} (h : p.sc.cuts = []) : testHead p = testBacklog p := by
  unfold testHead
  rw [h]
  rfl

end Sys2Proof.Machine
end

