-- ==== Sys2Proof/Laws/RunEnds.lean ====
section
/-! SUPPORT. What RUN entry and the end of a run keep, between the blocks' own values and the posts (R197 to R199). -/

namespace Sys2Proof.Machine

variable {p : Part}

theorem ceilingOf_noSlots (g : Sg) (h : g.slots = Sg.noSlots) : ceilingOf g = g.lineMax := by
  unfold ceilingOf
  rw [h]
  rfl

/-- The part at RUN entry with SG's values stored and nothing posted yet. -/
def enteredPart (p : Part) : Part :=
  let q := enterValues p
  let g : Sg :=
    { q.sg with slots := Sg.noSlots, effective := some q.sg.lineMax, nextRefresh := some (q.time + q.sg.refreshPeriod),
                lastPosted := some q.sg.lineMax }
  { q with sg := g }

theorem enteredPart_track : (enteredPart p).wt.track = [] := by
  unfold enteredPart enterValues
  rfl

theorem enterRunSg_kept : Kept (enteredPart p) (enterRunSg (enterValues p)) :=
  (Kept.refl (enteredPart p)).thenPostSetpoint (c := .driveCeiling (enterValues p).sg.lineMax)

/-- The part at RUN entry with the initial region in place. -/
def regionEntered (p : Part) : Part :=
  let q := testLost (forEach (n := 2) checkBridge (enterRunSg (enterValues p)))
  setRegions q [initialRegion q.os.wasteLength]

theorem regionEntered_regions : ∃ n, (regionEntered p).os.regions = [initialRegion n] := ⟨_, setRegions_regions _ _⟩

theorem linked_initial (n : Nat) : Linked [initialRegion n] := ⟨rfl, rfl, rfl⟩

theorem regionEntered_kept : Kept (enteredPart p) (regionEntered p) :=
  Kept.thenSetRegions ((enterRunSg_kept.thenForEach (n := 2) (f := checkBridge) (fun _ r => (Kept.refl r).thenCheckBridge)).trans testLost_kept)
    ⟨fun _ => Nat.succ_le_succ (Nat.zero_le _), fun _ => linked_initial _⟩

theorem enterRunMode_eq : enterRunMode p
    = lookupAll (forEach (n := 5) evalStand (nextSelection (postChange (regionEntered p).os.wasteLength none (regionEntered p)))) := rfl

theorem entrySteps_kept (n : Nat) (q : Part) : Kept q (lookupAll (forEach (n := 5) evalStand (nextSelection (postChange n none q)))) := by
  have k : Kept q (nextSelection (postChange n none q)) := (Kept.refl q).thenPostChange.thenNextSelection
  have e : Kept q (forEach (n := 5) evalStand (nextSelection (postChange n none q))) :=
    k.thenForEach (f := evalStand) fun _ r => (Kept.refl r).thenEvalStand
  exact e.thenLookupAll

theorem afterEntry_kept : Kept (regionEntered p) (enterRunMode p) := by
  rw [enterRunMode_eq]
  exact entrySteps_kept _ _

theorem enterRunMode_kept : Kept (enteredPart p) (enterRunMode p) := regionEntered_kept.trans afterEntry_kept

theorem enteredPart_inOrder : List.Pairwise inOrder (enteredPart p).wt.track := by
  rw [enteredPart_track]
  exact .nil

theorem enteredPart_ids : IdsDiffer (enteredPart p).wt.track := by
  rw [enteredPart_track]
  exact .nil

theorem regionEntered_linked : Linked (regionEntered p).os.regions := by
  obtain ⟨n, h⟩ := regionEntered_regions (p := p)
  rw [h]
  exact linked_initial n

/-- A run starts with an empty tracking list and one open region (R40, R48). -/
theorem enterRunMode_ordered (p : Part) : Ordered (enterRunMode p) := by
  have k : Kept (enteredPart p) (enterRunMode p) := enterRunMode_kept
  have r : Kept (regionEntered p) (enterRunMode p) := afterEntry_kept
  generalize enterRunMode p = q at k r
  exact ⟨k.track.ordered enteredPart_inOrder, k.track.ids enteredPart_ids, fun _ => r.regions.linked regionEntered_linked⟩

theorem dropRegion_kept (b r) : Kept p (dropRegion b p r) := by
  unfold dropRegion
  split
  · exact .refl p
  · split
    · exact (Kept.refl p).thenDropRef.thenWriteRecord
    · exact (Kept.refl p).thenDropRef

/-- A fall of a slot's reference count changes BC's slots alone (R44). -/
theorem dropRef_eq (n : Nat) (p : Part) : ∃ v, dropRef n p = { p with bc := { p.bc with slots := v } } := by
  unfold dropRef changeRefs
  split
  · exact ⟨p.bc.slots, rfl⟩
  · exact ⟨_, rfl⟩

theorem dropRegion_wt (b r) : (dropRegion b p r).wt = p.wt := by
  have d : ∀ n, (dropRef n p).wt = p.wt := fun n => by
    obtain ⟨v, h⟩ := dropRef_eq n p
    rw [h]
  unfold dropRegion
  split
  · rfl
  · split
    · unfold writeRecord
      dsimp only
      split
      · rw [postNotice_wt, latch_wt]
        exact d _
      · rw [postNotice_wt]
        exact d _
    · exact d _

/-- The end of a run leaves WT's end-of-run values, with a record for each region and without (R20, R40). -/
theorem endRun_wt (b) : (endRun b p).wt = p.wt.ended := by
  have f : ∀ (l : List Region) (q : Part), (l.foldl (dropRegion b) q).wt = q.wt := fun l => by
    induction l with
    | nil => exact fun _ => rfl
    | cons r l ih => exact fun q => (ih _).trans (dropRegion_wt b r)
  unfold endRun
  rw [refill_wt]
  exact congrArg Wt.ended (f p.os.regions p)

/-- Regions that are discarded without a record change nothing but the recipe slots' reference counts (R44, R70). -/
theorem discardRegions_eq (l : List Region) (p : Part) :
    ∃ v, l.foldl (dropRegion false) p = { p with bc := { p.bc with slots := v } } := by
  have one : ∀ (r : Region) (q : Part), ∃ v, dropRegion false q r = { q with bc := { q.bc with slots := v } } := fun r q => by
    unfold dropRegion
    split
    · exact ⟨q.bc.slots, rfl⟩
    · exact dropRef_eq _ q
  induction l generalizing p with
  | nil => exact ⟨p.bc.slots, rfl⟩
  | cons r l ih =>
    obtain ⟨v, h⟩ := one r p
    obtain ⟨w, k⟩ := ih (dropRegion false p r)
    exact ⟨w, by rw [List.foldl_cons, k, h]⟩

/-- OS's records are written and its regions dropped. -/
theorem endOs_caps (b) (c : Capacities p) : Capacities (endOs b p) := by
  unfold endOs
  have k : Kept p (p.os.regions.foldl (dropRegion b) p) := (Kept.refl p).thenFold (fun r a => dropRegion_kept b a) _
  exact { k.capacities c with regions := Nat.zero_le _ }

theorem ended_recent (s : Fin 5) : (standOf (endValues p) s).recent = none := by
  simp [standOf, endValues, Vector.get_eq_getElem, Rsc.ended, Stand.ended]

theorem ended_posF (f : Fin 2) : posF (endValues p) f = posF p f := by
  simp [posF, endValues, Wt.ended, Vector.get_eq_getElem, Encoder.ended]

theorem endRun_caps (b) (c : Capacities p) : Capacities (endRun b p) := by
  have c1 := endOs_caps b c
  unfold endRun
  generalize endOs b p = q at c1
  refine ((posted_refill _ _).kept (held_refill _ _)).capacities ?_
  have m : ∀ o, pendingSetpoints o (endValues q) ≤ pendingSetpoints o q := fun o => by
    rw [pendingSetpoints_eq, pendingSetpoints_eq]
    exact Nat.add_le_add (Nat.add_le_add List.filter_sublist.countP_le List.filter_sublist.countP_le)
      (Nat.add_le_add List.filter_sublist.countP_le List.filter_sublist.countP_le)
  have w : ∀ c, waitTally c (endValues q) ≤ waitTally c q := fun c => List.filter_sublist.countP_le
  exact { c1 with urgent := (List.length_filter_le _ _).trans c1.urgent, normal := (List.length_filter_le _ _).trans c1.normal,
                  track := Nat.zero_le _, cuts := Nat.zero_le _, channels := by simpa [endValues, Si.waiting] using c1.channels,
                  dbm := Nat.zero_le _, setpoints := fun o => (m o).trans (c1.setpoints o),
                  changes := by have := c1.changes; rw [changeList_length] at *; exact (w _).trans this
                  diverts := by have := c1.diverts; rw [divertList_length] at *; exact (w _).trans this
                  stackerCommands := by have := c1.stackerCommands; rw [stackerList_length] at *; exact (w _).trans this }

theorem endRun_mode (b) : (endRun b p).mu.mode = .config := by
  unfold endRun
  rw [refill_mode]
  rfl

/-- A run ends with an empty tracking list, in CONFIG (R40). -/
theorem endRun_ordered (b) : Ordered (endRun b p) where
  track := by
    unfold endRun
    rw [refill_wt]
    exact List.Pairwise.nil
  ids := by
    unfold endRun
    rw [refill_wt]
    exact List.Pairwise.nil
  regions := fun m => by rw [endRun_mode] at m; cases m

theorem endRun_governed (b) : Governed (endRun b p) := by
  rw [governed_config (endRun_mode b)]
  unfold endRun
  generalize endOs b p = q
  have a := posted_refill false (endValues q)
  refine ⟨by rw [a.sg]; rfl, by rw [a.sg]; rfl, fun s => by rw [a.recent s, ended_recent]⟩

end Sys2Proof.Machine
end

