-- ==== Sys2Proof/Laws/Served.lean ====
section
/-! SUPPORT. Every request but the mode changes keeps the invariants, in whatever state it is served (R195). -/

namespace Sys2Proof.Machine

theorem sound_popRequest (p : Part) : Sound p (popRequest p) :=
  .same rfl rfl (by simp) rfl (fun _ => rfl) rfl (Nat.le_refl _) (fun _ => Nat.le_refl _)
    (fun c => { c with requests := by have := c.requests; simp; omega }) fun o => { o with }

theorem serveWith_sound {code : Nat} {t : Taken} {ws : List Nat} {act : Request → List Nat → Part → Part} {p : Part}
    (h : ∀ r fs q, t.allows q.mu.mode = true → Sound q (act r fs q)) : Sound p (serveWith code t ws act p) := by
  unfold serveWith
  split
  · exact .refl p
  · dsimp only
    split
    · exact (sound_popRequest p).trans ((posted_postReply _ _ _ _).sound (held_postReply _ _ _ _))
    · split
      · exact (sound_popRequest p).trans (h _ _ _ (by assumption))
      · exact (sound_popRequest p).trans ((posted_postReply _ _ _ _).sound (held_postReply _ _ _ _))

/-- A request keeps what its owner's rule keeps, in the modes in which it is taken (R195). -/
theorem serve_sound {code : Nat} {t : Taken} {ws : List Nat} {act : List Nat → Part → Answer} {p : Part}
    (h : ∀ fs q, t.allows q.mu.mode = true → Sound q (act fs q).part) : Sound p (serve code t ws act p) :=
  serveWith_sound fun _ fs q a => (h fs q a).trans ((posted_postReply _ _ _ _).sound (held_postReply _ _ _ _))

/-- A request whose rule changes nothing. -/
theorem serve_read {code : Nat} {t : Taken} {ws : List Nat} {act : List Nat → Part → Answer} {p : Part}
    (h : ∀ fs q, (act fs q).part = q) : Sound p (serve code t ws act p) :=
  serve_sound fun _ q _ => by rw [h]; exact .refl q

theorem allows_eq {m n : Mode} (h : (Taken.only m).allows n = true) : n = m := by simpa [Taken.allows, eq_comm] using h

theorem config_of_allows {p : Part} (h : (Taken.only Mode.config).allows p.mu.mode = true) : p.mu.mode = .config := allows_eq h

theorem run_of_allows {p : Part} (h : (Taken.only Mode.run).allows p.mu.mode = true) : p.mu.mode = .run := allows_eq h

/-! ## The requests, in the order of their codes' owners -/

theorem readStatus_sound {p : Part} : Sound p (serve 44 .either [4, 4] readStatusOf p) := serve_read fun _ q => by
  unfold readStatusOf listSection; split <;> first | rfl | (split <;> rfl)

theorem readTrack_sound {p : Part} : Sound p (serve 45 .either [4] readTrackFrom p) := serve_read fun _ q => by
  unfold readTrackFrom; repeat' (first | rfl | split)

theorem readCounters_sound {p : Part} : Sound p (serve 51 .either [4] readCountersPage p) := serve_read fun _ q => by
  unfold readCountersPage; repeat' (first | rfl | split)

theorem readRecipe_sound {p : Part} : Sound p (serve 34 .either [4] readRecipeFrom p) := serve_read fun _ q => by
  unfold readRecipeFrom; repeat' (first | rfl | split | dsimp only)

theorem readOrder_sound {p : Part} : Sound p (serve 41 .either [4, 4] readOrderOf p) := serve_read fun _ q => by
  unfold readOrderOf; repeat' (first | rfl | split)

theorem readQueue_sound {p : Part} : Sound p (serve 42 .either [4, 4] readQueuePart p) := serve_read fun _ q => by
  unfold readQueuePart; repeat' (first | rfl | split)

theorem readCompletion_sound {p : Part} : Sound p (serve 43 .either [] takeCompletion p) := serve_sound fun _ q _ => by
  unfold takeCompletion
  split
  · exact .refl q
  · rename_i c rest h
    exact .easy rfl rfl rfl rfl rfl rfl rfl fun c => { c with records := by have := c.records; rw [h] at this; simp at this; simp only [okWith]; omega }

theorem readAlarms_sound {p : Part} : Sound p (serve 46 .either [] readAlarmsAll p) := serve_sound fun _ _ _ =>
   .easy rfl rfl rfl rfl rfl rfl rfl fun c => { c with }

theorem setNoticeMask_sound {p : Part} : Sound p (serve 48 .either [8] setMask p) := serve_sound fun _ q _ => by
  unfold setMask
  repeat' split
  · exact .refl q
  · exact .easy rfl rfl rfl rfl rfl rfl rfl fun c => { c with }
  · exact .refl q

theorem snapshot_sound {p : Part} : Sound p (serve 49 .either [] takeSnapshot p) := serve_sound fun _ _ _ =>
   .easy rfl rfl rfl rfl rfl rfl rfl fun c => { c with }

theorem snapshotClear_sound {p : Part} : Sound p (serve 50 .either [] takeSnapshotClear p) := serve_sound fun _ _ _ =>
   .easy rfl rfl rfl rfl rfl rfl rfl fun c => { c with }

theorem ackAlarms_sound {p : Part} : Sound p (serveWith 47 .either [4] ackAlarmsBy p) := serveWith_sound fun _ _ q _ => by
  unfold ackAlarmsBy replyTo
  split
  · split
    · exact ((posted_postReply _ _ _ _).sound (held_postReply _ _ _ _))
    · split
      · exact ((posted_postReply _ _ _ _).sound (held_postReply _ _ _ _))
      · dsimp only
        have a : ∀ g, Sound q (clearLatches g q) := fun g => .easy rfl rfl rfl rfl rfl rfl rfl fun c => { c with }
        split
        · exact ((a _).trans ((posted_postReply _ _ _ _).sound (held_postReply _ _ _ _))).trans ((posted_latch _ _).sound (held_latch _ _))
        · exact (a _).trans ((posted_postReply _ _ _ _).sound (held_postReply _ _ _ _))
  · exact ((posted_postReply _ _ _ _).sound (held_postReply _ _ _ _))

theorem setLine_sound {p : Part} : Sound p (serve 16 (.only .config) [4] setLineForm p) := serve_sound fun _ q h => by
  unfold setLineForm
  repeat' split
  all_goals first | exact .refl q | exact .config (config_of_allows h) (config_of_allows h) rfl rfl rfl rfl (fun _ => rfl) fun c => { c with }

theorem setEncoder_sound {p : Part} : Sound p (serve 17 (.only .config) [4,4,4,4] setEncoderSettings p) := serve_sound fun _ q h => by
  unfold setEncoderSettings
  repeat' split
  all_goals first | exact .refl q | exact .config (config_of_allows h) (config_of_allows h) rfl rfl rfl rfl (fun _ => rfl) fun c => { c with }

theorem setStation_sound {p : Part} : Sound p (serve 18 (.only .config) [4,4] setStationOffset p) := serve_sound fun _ q h => by
  unfold setStationOffset
  repeat' split
  all_goals first | exact .refl q | exact .config (config_of_allows h) (config_of_allows h) rfl rfl rfl rfl (fun _ => rfl) fun c => { c with }

theorem setStand_sound {p : Part} : Sound p (serve 19 (.only .config) [4,4,4,4,4,4,4,4] setStandSettings p) := serve_sound fun _ q h => by
  unfold setStandSettings
  repeat' split
  all_goals first | exact .refl q | (refine .config (config_of_allows h) (config_of_allows h) rfl rfl rfl rfl (fun t => ?_) fun c => { c with } ; dsimp only [okWith]; rw [standOf_setStandRec]; split <;> simp_all)

theorem setBridge_sound {p : Part} : Sound p (serve 20 (.only .config) [4,4,4,4,4,4,4,4] setBridgeSettings p) := serve_sound fun _ q h => by
  unfold setBridgeSettings
  repeat' split
  all_goals first | exact .refl q | exact .config (config_of_allows h) (config_of_allows h) rfl rfl rfl rfl (fun _ => rfl) fun c => { c with }

theorem setLimits_sound {p : Part} : Sound p (serveLimits p) := by
  unfold serveLimits
  split
  · exact .refl p
  · refine serve_sound fun _ q h => ?_
    unfold storePairs
    split
    · exact .refl q
    · exact .refl q
    · rename_i l xs _ _
      have key : ∀ (l : List (Setting × Nat)) (q : Part), q.mu.mode = .config →
         Sound q (l.foldl (fun q x => storeSetting x.1 (clamp x.1.range.1 x.1.range.2 x.2) q) q) := by
        intro l
        induction l with
        | nil => intro q _; exact .refl q
        | cons a l ih => intro q hq; exact (storeSetting_sound hq _ _).trans (ih _ ((storeSetting_sound hq _ _).mode.trans hq))
      have k := key xs q (config_of_allows h)
      exact k.trans (.config (k.mode.trans (config_of_allows h)) (k.mode.trans (config_of_allows h)) rfl rfl rfl rfl (fun _ => rfl) fun c => { c with })

theorem mapWrite_sound {p : Part} : Sound p (serve 22 (.only .config) [4,4,4,4,4] writeMap p) := serve_sound fun _ q h => by
  unfold writeMap writeIn writeOut
  dsimp only
  repeat' split
  all_goals first | exact .refl q |
    (refine .config (config_of_allows h) (config_of_allows h) rfl rfl rfl rfl (fun _ => rfl) fun c => { c with channels := ?_ }; simp_all [okWith, mapCount, Config.mapCap]; try omega)
  all_goals exact c.channels

theorem mapClear_sound {p : Part} : Sound p (serve 23 (.only .config) [4,4,4] clearMap p) := serve_sound fun _ q h => by
  unfold clearMap clearIn clearOut
  dsimp only
  repeat' split
  · exact .config (config_of_allows h) (config_of_allows h) rfl rfl rfl rfl (fun _ => rfl) fun c => { c with channels := by simp [okWith] }
  · exact .refl q
  · refine .config (config_of_allows h) (config_of_allows h) rfl rfl rfl rfl (fun _ => rfl) fun c => { c with channels := ?_ }
    exact (Nat.add_le_add_right (List.length_filter_le _ _) _).trans c.channels
  · exact .refl q
  · refine .config (config_of_allows h) (config_of_allows h) rfl rfl rfl rfl (fun _ => rfl) fun c => { c with channels := ?_ }
    exact (Nat.add_le_add_left (List.length_filter_le _ _) _).trans c.channels
  · exact .refl q
  · exact .refl q
  · exact .refl q

theorem rosterClear_sound {p : Part} : Sound p (serve 24 (.only .config) [] clearRoster p) := serve_sound fun _ _ h =>
  .config (config_of_allows h) (config_of_allows h) rfl rfl rfl rfl (fun _ => rfl) fun c => { c with roster := by simp [okWith, clearRoster] }

theorem loadRecipe_sound {p : Part} : Sound p (serveRecipe p) := by
  unfold serveRecipe
  split
  · exact .refl p
  · refine serve_sound fun _ q h => ?_
    unfold loadRecipeInto
    dsimp only
    repeat' split
    all_goals first | exact .refl q | exact .easy rfl rfl rfl rfl rfl rfl rfl fun c => { c with }

theorem eraseRecipe_sound {p : Part} : Sound p (serve 33 .either [4] eraseRecipeIn p) := serve_sound fun _ q _ => by
  unfold eraseRecipeIn
  split
  · split
    · exact .refl q
    · dsimp only
      split
      · exact .refl q
      · split
        · exact .refl q
        · dsimp only [okWith]
          exact erase_sound _ _ _
  · exact .refl q

theorem assignReel_sound {p : Part} : Sound p (serve 35 .either [4,4,4,4,4,4,4] assignReelTo p) := serve_sound fun _ q _ => by
  unfold assignReelTo
  repeat' split
  all_goals first | exact .refl q | exact assign_sound _ _ _ _ _ _

theorem appendOrder_sound {p : Part} : Sound p (serve 36 .either [4, 1, 1, 1, 2, 2, 2, 2, 2, 4, 4, 2, 2, 2] appendOrderOf p) := serve_sound fun _ q _ => by
  unfold appendOrderOf
  split
  · dsimp only
    repeat' split
    all_goals first | exact .refl q | skip
    rename_i h
    refine Sound.trans (Sound.trans (q := setOrders q (q.os.queue ++ [_])) ?_ (changeRefs_sound _ _)) nextSelection_sound
    refine .easy rfl rfl rfl rfl rfl rfl rfl fun c => { c with orders := ?_ }
    simp only [setOrders, List.length_append, List.length_singleton]
    simp only [Config.orderCap] at h; omega
  · exact .refl q

theorem amendOrder_sound {p : Part} : Sound p (serve 37 .either (List.replicate 15 4) amendOrderBy p) := serve_sound fun _ q _ => by
  unfold amendOrderBy
  repeat' split
  all_goals first | exact .refl q | exact amendFound_sound (amendInQueue_sound _ _ _) | exact amendFound_sound (amendRunning_sound _ _)

theorem withdrawOrder_sound {p : Part} : Sound p (serve 38 .either [4] withdrawOrderOf p) := serve_sound fun _ q _ => by
  unfold withdrawOrderOf
  repeat' split
  all_goals first | exact .refl q | exact withdrawFromQueue_sound _ _ | exact (modifyRegion_sound _ _).trans commitCheck_sound

theorem holdOrder_sound {p : Part} : Sound p (serve 39 .either [4] (setHold true id) p) := serve_sound fun _ _ _ => setHold_sound fun r => .refl r

theorem releaseOrder_sound {p : Part} : Sound p (serve 40 .either [4] (setHold false nextSelection) p) :=
  serve_sound fun _ _ _ => setHold_sound fun _ => nextSelection_sound

theorem alignBridge_sound {p : Part} : Sound p (serve 64 (.only .run) [4,8] alignBridgeTo p) := serve_sound fun _ q h => by
  unfold alignBridgeTo
  repeat' split
  all_goals first | exact .refl q | skip
  exact (Kept.refl q).thenSetK.sound_run (run_of_allows h)

theorem mark_sound {p : Part} : Sound p (serve 65 (.only .run) [4,4,4] markAt p) := serve_sound fun _ q h => by
  unfold markAt placeMark
  dsimp only
  repeat' split
  all_goals first | exact .refl q | skip
  exact ((Kept.refl q).thenAddEntry (by assumption)).thenHandOver.sound_run (run_of_allows h)

theorem setCeiling_sound {p : Part} : Sound p (serve 66 (.only .run) [4] setOperator p) := serve_sound fun _ q h => by
  unfold setOperator
  repeat' split
  all_goals first | exact .refl q | skip
  exact (Kept.refl q).thenActivate.sound_run (run_of_allows h)

theorem clearSlot_sound {p : Part} {sl : Slot} {n : Nat} : Sound p (serve n (.only .run) [] (clearSlot sl) p) := serve_sound fun _ q h =>
  (Kept.refl q).thenDeactivate.sound_run (run_of_allows h)

theorem unknownRequest_sound {p : Part} : Sound p (refuseMalformed p) := by
  unfold refuseMalformed
  repeat' split
  · exact (sound_popRequest p).trans ((posted_postReply _ _ _ _).sound (held_postReply _ _ _ _))
  · exact .refl p
  · exact .refl p

end Sys2Proof.Machine
end

