-- ==== Sys2Proof/Tests/Slice0.lean ====
section
/-! SUPPORT. Tests: the checks of WellFormed refuse, worked examples of the manual run as it says, and every hypothesis of the obligations is met somewhere. -/

namespace Sys2Proof.Tests

open Machine

set_option Elab.async false

/-! ## Small states -/

/-- The part after reset with strap value 1. -/
def config : Part := Part.reset 1

/-- A part in RUN, with a line-max ceiling. -/
def running : Part :=
  { config with mu := { config.mu with mode := .run }, sg := { config.sg with effective := some 100000 } }

/-- The request with this code, number 7, and arguments. -/
def request (code : Nat) (args : List Byte) : Request := { src := 9, payload := bytesOf 1 code ++ bytesOf 2 7 ++ args, stamp := 0 }

/-- The part with one request queued. -/
def asking (p : Part) (code : Nat) (args : List Byte) : Part := { p with mu := { p.mu with queue := [request code args] } }

/-- The state of a part on an empty command queue. -/
def at' (p : Part) : State := { pending := [], part := p }

/-- The fields as 32-bit values. -/
def words (l : List Nat) : List Byte := l.flatMap w32

/-- A frame. -/
def frame (dest src kind hop : Byte) (payload : List Byte) : Frame :=
  Frame.checked { dest := dest, src := src, kind := kind, hop := hop, seq := 3, payload := payload, check := 0 }

/-- The part after a command, where it answers a next state. -/
def after (c : Instr) (p : Part) : Option Part :=
  match exec c (at' p) with
  | .next t => some t.part
  | _ => none

/-- An order. -/
def order : Order :=
  { tag := 6201, revision := 0, slot := 1, grades := #v[0, 0, 0, 0, 31], outs := 2, length := 10000, quantity := 201, stackHeight := 10,
    profile := 118, overrun := 25, hold := false }

/-- A recipe: 42 fields in range, with breakpoints of rising speed. -/
def recipeFields : List Nat :=
  [180, 180, 180, 0, 0, 65516, 30, 100, 300, 200, 450, 300, 600, 400, 650, 100, 300, 200, 450, 300, 600, 400, 650, 100, 300, 200, 450, 300, 600,
    400, 650, 1900, 1900, 1900, 1900, 1900, 1900, 1900, 1900, 50, 400, 300]

/-- A knife sample's region: the initial one, with an order. -/
def orderRegion : Region := { initialRegion 3000000 with order := some order, length := 10000, first := some 301, stop := none }

/-- A running part with one order region, its board speed 50,000. -/
def producing : Part :=
  { running with
      os := { running.os with regions := [orderRegion] },
      wt := { running.wt with board := { running.wt.board with pos := 3000000, history := List.replicate 8 50000 } } }

/-- The part with a recipe in slot 1, referred to `refs` times. -/
def loaded (refs : Nat) (p : Part) : Part := setSlot p 0 { recipe := some (recipeOf true recipeFields), refs := refs }

/-- The part with one order queued. -/
def queued (p : Part) : Part := setOrders (loaded 1 p) [order]

/-- A stand of `p` replaced. -/
def withStand (p : Part) (f : Stand → Stand) : Part := setStandRec p 3 (f (standOf p 3))

/-! ## WellFormed refuses ill-formed commands -/

theorem test_wf_freshness_index_zero : (Instr.freshnessExpiry .standDia 0).wellFormed = false := by decide
theorem test_wf_freshness_index_high : (Instr.freshnessExpiry .zoneTemp 9).wellFormed = false := by decide
theorem test_wf_freshness_index_of_single : (Instr.freshnessExpiry .knife 1).wellFormed = false := by decide
theorem test_wf_accepted_stand_zero : (Instr.acceptedTimeout 0).wellFormed = false := by decide
theorem test_wf_accepted_stand_six : (Instr.acceptedTimeout 6).wellFormed = false := by decide
theorem test_wf_done_stand_zero : (Instr.doneTimeout 0).wellFormed = false := by decide
theorem test_wf_done_stand_six : (Instr.doneTimeout 6).wellFormed = false := by decide
theorem test_wf_glue_unit_zero : (Instr.glueSettleExpiry 0).wellFormed = false := by decide
theorem test_wf_glue_unit_four : (Instr.glueSettleExpiry 4).wellFormed = false := by decide
theorem test_wf_accepts : (Instr.freshnessExpiry .zoneTemp 8).wellFormed = true ∧ (Instr.acceptedTimeout 5).wellFormed = true
    ∧ (Instr.doneTimeout 1).wellFormed = true ∧ (Instr.glueSettleExpiry 3).wellFormed = true := by decide

/-! ## Worked examples of the manual -/

/-- Section 5.3: the gaps of glue unit 3 across a speed change. -/
theorem test_glue_gaps : [50000, 50010, 58333, 58500, 41667].map (fun v => gapAt 180 (-20) v 115 1000) = [120, 120, 115, 115, 130] := by
  decide +kernel

/-- Section 5.5: a wrap schedule. -/
theorem test_wraps : [10000, 41667, 50000, 58333, 70000].map (fun v => wrapAt #v[(100, 300), (200, 450), (300, 600), (400, 650)] (toMpm v))
    = [300, 525, 600, 624, 650] := by decide +kernel

/-- R51: the target of a quantity of 201 over 2 outs with 25 per mille of overrun. -/
theorem test_order_target : order.cutsWanted = 101 ∧ order.target = 104 := by decide +kernel

/-- R172: the check of the nine bytes "123456789" under the generator, preset to all ones, is 29B1. -/
theorem test_crc : crc16 [0x31, 0x32, 0x33, 0x34, 0x35, 0x36, 0x37, 0x38, 0x39] = 0x29B1#16 := by decide +kernel

/-- R26: two zones that touch a cut end to start do not meet it. -/
theorem test_zone_touches : ({ start := 100, extent := some 50 } : Zone).meets 150 250 = false
    ∧ ({ start := 100, extent := some 50 } : Zone).meets 149 250 = true
    ∧ ({ start := 100, extent := some 0 } : Zone).meets 100 200 = true
    ∧ ({ start := 200, extent := some 0 } : Zone).meets 100 200 = false := by decide +kernel

/-- R176, R194: a SET LINE request that arrives is queued; its execution stores the form. -/
theorem test_set_line_arrives :
    ((after (.frameReceive (frame 1 9 3 10 ([16, 0, 7] ++ w32 2)).bytes) config).bind (after .setLine)).map (fun p => p.wt.line) = some .double := by
  decide +kernel

/-- R197: ENTER RUN without a map is refused, and the part stays in CONFIG. -/
theorem test_enter_run_refused : (after .enterRun (asking config 1 [])).map (fun p => p.mu.mode) = some .config := by decide +kernel

/-- Section 4.2: remaining lengths of a reel with core 1,100 and caliper 250. -/
theorem test_reel_lengths : [12000, 1932, 1900, 1850, 1860].map (fun d => reelLength d 1100 250) = [44858906, 792507, 753984, 695079, 706734] := by
  decide +kernel

/-- Section 5.6: the HEAT values of a recipe with derate 400 and max speed 300 m/min. -/
theorem test_heat_values : let r : Recipe := { recipeOf true recipeFields with derate := 400, maxSpeed := 300 }
    (heatValue r 12 5000 100000, heatValue r 4 5000 100000) = (45200, 48400) := by decide +kernel

/-- Section 3.4's order: 1,000 sheets over 3 outs with 20 per mille of overrun. -/
def order5101 : Order := { order with tag := 5101, outs := 3, length := 12500, quantity := 1000, overrun := 20 }

/-- Section 3.4: the open region of that order, with a splice joint ahead. -/
def ahead : Part :=
  setTrack (setRegions running [newRegion (some order5101) 1000000 12500 101 false])
    [{ id := 1, kind := .spliceJoint 4 7, start := 2997000, extent := some 8000, cull := true, origin := .stand 4, binding := none }]

/-- Section 3.4: Q, T and C of that order. -/
theorem test_change_point : order5101.cutsWanted = 334 ∧ order5101.target = 341
    ∧ changePoint ahead (newRegion (some order5101) 1000000 12500 101 false) order5101 = 1000000 + 343 * 12500 := by decide +kernel

/-- R8 to R10: the first sample of a run sets the reference, and the next moves the position and leaves a residue. -/
theorem test_encoder_sample :
    let e : Encoder := { Encoder.reset with sigma := 163840, ref := some (1000000, 5000000) }
    (e.sample 1000027 5001000).advance = 67 ∧ (e.sample 1000027 5001000).after.residue = 32768
      ∧ (Encoder.reset.sample 1000000 5000000).advance = 0 ∧ (Encoder.reset.sample 1000000 5000000).after.ref = some (1000000, 5000000)
      ∧ (e.sample 1010000 5001000).glitch = true := by decide +kernel

/-- R37, R134: a cut report in registration ends where its measured length says, and is the last cut. -/
theorem test_knife_report :
    (knifeSample 302 10003 { producing with
        wt := { producing.wt with board := { producing.wt.board with pos := 3010010 } },
        dec := { producing.dec with cLast := some 301, kLast := some 3000000 } }).dec.kLast = some 3010003 := by decide +kernel

/-- R153 to R155: the first arrival count is a reference, and an arrival on an empty queue is a phantom. -/
theorem test_stacker_phantom :
    (stackerSample 500 running).sc.lastArrival = some 500 ∧ (stackerSample 502 (stackerSample 500 running)).sc.phantom = 2 := by
  decide +kernel

/-- R83, R95: a run-out that is DUE with a PREPARED ready arm posts a GO with the next sequence number. -/
theorem test_go_posted :
    let st : Stand :=
      { standOf running 4 with
          armA := { ArmRecord.cleared with state := .running, caliper := some 250, core := some 1100 },
          armB := { ArmRecord.cleared with state := .prepared, grade := 45 }, history := [1100], nextSeq := 17 }
    let p := evalStand 4 (setStandRec running 4 st)
    (standOf p 4).splice = .sent ∧ (standOf p 4).recent = some { seq := 17, arm := .b, grade := 45, isOpen := true } := by decide +kernel

/-- R203: the acknowledged generation of a token, of one not yet given out, and of one 256 reads old. -/
theorem test_acknowledged : acknowledged 0x142 0x41 = some 0x141 ∧ acknowledged 0x142 0x42 = some 0x42 ∧ acknowledged 1 5 = none := by
  decide +kernel

/-! ## The hypotheses of the obligations are met -/

/-- A part whose port is sending. -/
def sending : Part := { running with rif := { running.rif with port := some (frame 2 9 2 2 [0]) } }

/-- A part in RUN with a bound, fresh knife input whose limit has run out. -/
def boundPart : Part :=
  { running with
      time := 1000,
      si := { running.si with inMap := [{ node := 12, channel := 0, input := .knife, state := .fresh, last := some 500 }] } }

/-- A MARK entry. -/
def markEntry (id start : Nat) : TrackEntry :=
  { id := id, kind := .mark 5, start := start, extent := some 0, cull := true, origin := .slitter, binding := none }

/-- A part whose list holds 40 marks. -/
def fullOfMarks : Part :=
  { running with wt := { running.wt with track := (List.range 40).map (fun k => markEntry (k + 1) (100 * k)) } }

/-- The argument bytes of an APPEND ORDER for `order`. -/
def orderBytes : List Byte :=
  w32 6201 ++ [1, 2, 0] ++ ([0, 0, 0, 0, 31] : List Nat).flatMap (bytesOf 2) ++ w32 10000 ++ w32 201
    ++ ([10, 118, 25] : List Nat).flatMap (bytesOf 2)

/-- The argument bytes of a LOAD RECIPE into slot 1. -/
def recipeArgs : List Byte := w32 1 ++ recipeFields.flatMap (bytesOf 2)

/-- A part with one completion record. -/
def oneRecord : Part :=
  { running with os := { running.os with log :=
      [{ tag := 6201, stacked := 1, goodSheets := 2, missing := 0, culled := Vector.replicate 12 0, overrunCuts := 0, boardLength := 9,
         short := false, withdrawn := false, gradeLate := false, aborted := false }] } }

/-- A part after one READ ALARMS. -/
def readOnce : Part := { config with mu := { config.mu with readMade := true, generation := 1 } }

/-- A part in CONFIG with the roles a SINGLE line without reels or glue needs. -/
def bindable : Part :=
  let inputs : List Input := [.boardEnc, .feederEnc 0, .knife, .slitter, .stacker]
  let outputs : List Output := [.driveCeiling, .slitter, .knife, .stacker, .rejectGate]
  { config with si := { config.si with
      inMap := inputs.map (fun i => { node := 12, channel := 0, input := i, state := .waiting, last := none }),
      outMap := outputs.map (fun o => { output := o, node := 20, channel := 0 }) } }

/-- An own command is due on one part, none on another. -/
theorem test_hyp_idle :
    ownCommand (asking config 1 []) = some .enterRun ∧ ownCommand config = none := by decide +kernel

/-- Strap values at the bounds. -/
theorem test_hyp_straps :
    1 ≤ (1 : Byte).toNat ∧ (239 : Byte).toNat ≤ 239 ∧ (0 : Byte).toNat = 0 ∧ 240 ≤ (240 : Byte).toNat ∧ 240 ≤ (255 : Byte).toNat := by decide +kernel

/-- A part in RUN with an order within its capacities, whose step answers a next state. -/
theorem test_hyp_capacities :
    Capacities (queued running) ∧ step (at' (queued running)) = .next (at' (tick (queued running))) := by
  refine ⟨?_, rfl⟩
  constructor
  case setpoints => exact fun o => Nat.zero_le 1
  all_goals decide +kernel

/-- A running and a configured part under SG, and their steps. -/
theorem test_hyp_governed :
    Governed (queued running) ∧ Governed (queued config) ∧ step (at' (queued running)) = .next (at' (tick (queued running))) := by
  refine ⟨rfl, ⟨rfl, rfl, fun s => ?_⟩, rfl⟩
  revert s
  decide +kernel

/-- A running part with one queued and one stacked cut. -/
theorem test_hyp_conserved :
    Conserved { running with sc := { running.sc with cuts := [{ cut := 5, tag := 6201, knifeTime := 0, stackEnd := false, orderEnd := false }], entered := 2, stacked := 1 } } := fun _ _ => rfl

/-- A part with a node number, and one without. -/
theorem test_hyp_node_legal :
    NodeLegal running ∧ NodeLegal { config with node := some 239 } ∧ NodeLegal (Part.reset 240) := ⟨⟨by decide, by decide⟩, ⟨by decide, by decide⟩, rfl, rfl⟩

/-- A step from RUN to RUN. -/
theorem test_hyp_positions :
    (at' running).part.mu.mode = .run ∧ (at' (tick running)).part.mu.mode = .run ∧ step (at' running) = .next (at' (tick running)) := ⟨rfl, rfl, rfl⟩

/-- Frames with the longest payload, and the two bounds of the destination. -/
theorem test_hyp_frame_reads_back :
    (frame 239 9 1 10 (List.replicate 120 0)).payload.length ≤ 120 ∧ (239 : Byte).toNat < 240 ∧ (255 : Byte).toNat = 255 := by decide +kernel

/-- A frame with a wrong check. -/
theorem test_hyp_bad_frame :
    parseFrame (({ frame 1 9 3 10 [] with check := 0 } : Frame).bytes) = none := by decide +kernel

/-- A request for this node, with room in the queue and with none. -/
theorem test_hyp_request_frame :
    (parseFrame (frame 1 9 3 10 [46, 0, 7]).bytes).isSome ∧ config.node = some 1 ∧ (frame 1 9 3 10 [46, 0, 7]).dest.toNat = 1 ∧ (frame 1 9 3 10 [46, 0, 7]).src.toNat ≠ 1
    ∧ (frame 1 9 3 10 [46, 0, 7]).kind = kindRequest ∧ config.mu.queue.length < 8
    ∧ ({ config with mu := { config.mu with queue := List.replicate 8 (request 46 []) } } : Part).mu.queue.length = 8 := by decide +kernel

/-- A frame for another node while the port is sending. -/
theorem test_hyp_forwarded :
    (parseFrame (frame 2 9 2 2 [0]).bytes).isSome ∧ (frame 2 9 2 2 [0]).dest.toNat ≠ 1 ∧ (frame 2 9 2 2 [0]).src.toNat ≠ 1 ∧ (frame 2 9 2 2 [0]).kind ≠ kindSample
    ∧ 2 ≤ (frame 2 9 2 2 [0]).hop.toNat ∧ sending.rif.forward.length < 8 ∧ sending.rif.port.isSome := by decide +kernel

/-- The four cases of a transmission end. -/
theorem test_hyp_transmission_end :
    sending.rif.port = some (frame 2 9 2 2 [0]) ∧ { sending.rif with urgent := [.notice (.alarm .backlog 1 1)] }.urgent = [.notice (.alarm .backlog 1 1)]
    ∧ (sending.rif.urgent = [] ∧ sending.rif.forward = [] ∧ sending.rif.normal = [])
    ∧ (let r : Rif := { sending.rif with forward := [frame 2 9 2 2 []], normal := [.notice (.alarm .backlog 1 1)], forwardCount := 3 }
       r.urgent = [] ∧ r.forward = [frame 2 9 2 2 []] ∧ r.forwardCount ≠ 4)
    ∧ (let r : Rif := { sending.rif with forward := [frame 2 9 2 2 []], normal := [.notice (.alarm .backlog 1 1)], forwardCount := 4 }
       r.urgent = [] ∧ r.normal = [.notice (.alarm .backlog 1 1)] ∧ r.forwardCount = 4) := by decide +kernel

/-- One frame waits for the urgent queue, which has room. -/
theorem test_hyp_waiting_frame :
    (let r : Rif := { sending.rif with urgent := List.replicate 15 (.notice (.alarm .backlog 1 1)), urgentWait := [{ msg := .command (.divert 5) 21 0, late := false }] }
     r.urgentWait = [{ msg := .command (.divert 5) 21 0, late := false }] ∧ r.urgent.length < 16 ∧ r.normalWait = []) := by decide +kernel

/-- A part with one pending setpoint of an output. -/
theorem test_hyp_one_pending :
    (Command.driveCeiling 5).setpoint = true ∧ ∀ o : Output, ((([.command (.driveCeiling 4) 20 0] : List Message)).filter (hasKey o)).length ≤ 1 := by
  refine ⟨rfl, fun o => ?_⟩
  exact List.length_filter_le _ _

/-- A sweep that is due, with one entry kept and one removed. -/
theorem test_hyp_sweep :
    ({ config with time := 21000 } : Part).rif.nextSweep ≤ 21000 ∧ ([{ node := 2, lastHeard := 1000 }, { node := 3, lastHeard := 1001 }] : List RosterEntry).filter
    (fun e => decide (21000 < e.lastHeard + 1000 * config.rif.agingSec)) = [{ node := 3, lastHeard := 1001 }] := by decide +kernel

/-- A fresh input whose limit has run out. -/
theorem test_hyp_freshness :
    inEntry boundPart .knife = some { node := 12, channel := 0, input := .knife, state := .fresh, last := some 500 } ∧ boundPart.mu.mode = .run
    ∧ 500 + freshLimit boundPart .knife ≤ boundPart.time := by decide +kernel

/-- Forward motion, backward motion and backward motion beyond the reverse limit. -/
theorem test_hyp_encoder_motion :
    config.wt.board.debt ≤ config.wt.board.reverseLimit ∧ (0 : Int) ≤ (0 + 5 * 65536) / 65536 ∧ ((0 : Int) + (-5) * 65536) / 65536 < 0
    ∧ (config.wt.board.reverseLimit : Int) < 0 - (((0 : Int) + (-100001) * 65536) / 65536) := by decide +kernel

/-- SET LINE in CONFIG. -/
theorem test_hyp_set_line :
    Asks (asking config 16 (words [2])) 16 [4] [2] (request 16 (words [2])) ∧ lineFormOf 2 = some .double := by unfold Asks; decide +kernel

/-- SET STATION in CONFIG, at the greatest offset. -/
theorem test_hyp_set_station :
    Asks (asking config 18 (words [64, 3000000])) 18 [4, 4] [64, 3000000] (request 18 (words [64, 3000000])) ∧ stationOf 64 = some .slitter ∧ Station.slitter ≠ .glue 0 ∧ Station.slitter ≠ .glue 1 := by unfold Asks; decide +kernel

/-- SET BRIDGE in CONFIG, at the least capacity and threshold distance. -/
theorem test_hyp_set_bridge :
    Asks (asking config 20 (words [2, 5000000, 60000, 60000, 0, 50001, 1000, 50000])) 20 [4, 4, 4, 4, 4, 4, 4, 4] [2, 5000000, 60000, 60000, 0, 50001, 1000, 50000] (request 20 (words [2, 5000000, 60000, 60000, 0, 50001, 1000, 50000])) ∧ place 2 2 = some 1 := by unfold Asks; decide +kernel

/-- SET ENCODER of the board and of a feeder, and a scale out of range. -/
theorem test_hyp_set_encoder :
    Asks (asking config 17 (words [0, 4096, 1, 0])) 17 [4, 4, 4, 4] [0, 4096, 1, 0] (request 17 (words [0, 4096, 1, 0])) ∧ Asks (asking config 17 (words [2, 16777215, 65535, 2000000])) 17 [4, 4, 4, 4] [2, 16777215, 65535, 2000000] (request 17 (words [2, 16777215, 65535, 2000000])) ∧ place 2 2 = some 1 ∧ Asks (asking config 17 (words [0, 4095, 1, 0])) 17 [4, 4, 4, 4] [0, 4095, 1, 0] (request 17 (words [0, 4095, 1, 0])) ∧ Asks (asking config 17 (words [3, 4096, 1, 0])) 17 [4, 4, 4, 4] [3, 4096, 1, 0] (request 17 (words [3, 4096, 1, 0])) := by unfold Asks; decide +kernel

/-- ALIGN BRIDGE in RUN for the feeder of a SINGLE line. -/
theorem test_hyp_align_bridge :
    Asks (asking running 64 (w32 1 ++ w64 5000)) 64 [4, 8] [1, 5000] (request 64 (w32 1 ++ w64 5000)) ∧ place 2 1 = some 0 ∧ feederInUse running 0 = true := by unfold Asks; decide +kernel

/-- ALIGN BRIDGE of the bridge numbers 0 and 3, and of feeder 2 on a SINGLE line. -/
theorem test_hyp_align_bridge_refused :
    let args (n : Nat) : List Byte := w32 n ++ w64 5000
    running.mu.mode = .run ∧ running.wt.line = .single
    ∧ ∀ n ∈ [0, 2, 3], Asks (asking running 64 (args n)) 64 [4, 8] [n, 5000] (request 64 (args n)) := by unfold Asks; decide +kernel

/-- MARK in RUN at a board station, with a place and without. -/
theorem test_hyp_mark :
    Asks (asking running 65 (words [64, 1, 65535])) 65 [4, 4, 4] [64, 1, 65535] (request 65 (words [64, 1, 65535])) ∧ stationOf 64 = some .slitter ∧ Station.slitter.onFeeder = false ∧ running.wt.track.length < 64 ∧ dbmCount running < 40 ∧ dbmCount fullOfMarks = 40 := by unfold Asks; decide +kernel

/-- A list in order, and an entry of another id. -/
theorem test_hyp_insertion :
    let e : TrackEntry := markEntry 3 100
    let l : List TrackEntry := [markEntry 1 100, markEntry 2 200]
    (∀ x ∈ l, x.id ≠ e.id) ∧ l.Pairwise (fun a b => entryBefore a b = true) := by decide +kernel

/-- APPEND ORDER in CONFIG with a LOADED slot. -/
theorem test_hyp_append_order :
    Asks (asking (loaded 0 config) 36 orderBytes) 36 [4, 1, 1, 1, 2, 2, 2, 2, 2, 4, 4, 2, 2, 2] [6201, 1, 2, 0, 0, 0, 0, 0, 31, 10000, 201, 10, 118, 25] (request 36 orderBytes)
    ∧ order.inRange = true ∧ place 32 1 = some 0 ∧ ((loaded 0 config).bc.slots.get 0).recipe.isSome ∧ tagHeld (loaded 0 config) 6201 = false
    ∧ (loaded 0 config).os.queue.length < 24 := by unfold Asks; decide +kernel

/-- AMEND ORDER of a queued order, with the right revision and with another. -/
theorem test_hyp_amend_order :
    Asks (asking (queued config) 37 (words [6201, 0, 1, 0, 0, 0, 0, 31, 2, 10000, 200, 10, 118, 25, 1])) 37 [4, 4, 4, 4, 4, 4, 4, 4, 4, 4, 4, 4, 4, 4, 4] [6201, 0, 1, 0, 0, 0, 0, 31, 2, 10000, 200, 10, 118, 25, 1] (request 37 (words [6201, 0, 1, 0, 0, 0, 0, 31, 2, 10000, 200, 10, 118, 25, 1])) ∧ queuedAt (queued config) 6201 = some (0, order)
    ∧ (queued config).os.next = none ∧ Asks (asking (queued config) 37 (words [6201, 1, 1, 0, 0, 0, 0, 31, 2, 10000, 200, 10, 118, 25, 1])) 37 [4, 4, 4, 4, 4, 4, 4, 4, 4, 4, 4, 4, 4, 4, 4] [6201, 1, 1, 0, 0, 0, 0, 31, 2, 10000, 200, 10, 118, 25, 1] (request 37 (words [6201, 1, 1, 0, 0, 0, 0, 31, 2, 10000, 200, 10, 118, 25, 1])) ∧ slotLoaded (queued config) 1 = true ∧ (0 : Nat) < 255
    ∧ ({ order with revision := 1, quantity := 200, hold := true } : Order).inRange = true := by unfold Asks; decide +kernel

/-- WITHDRAW, HOLD and RELEASE of a queued order and of a tag not held. -/
theorem test_hyp_queued_order :
    Asks (asking (queued config) 38 (words [6201])) 38 [4] [6201] (request 38 (words [6201])) ∧ Asks (asking (queued config) 39 (words [6201])) 39 [4] [6201] (request 39 (words [6201])) ∧ Asks (asking (queued config) 40 (words [6201])) 40 [4] [6201] (request 40 (words [6201]))
    ∧ queuedAt (queued config) 6201 = some (0, order) ∧ tagHeld (queued config) 6202 = false ∧ Asks (asking (queued config) 38 (words [6202])) 38 [4] [6202] (request 38 (words [6202])) := by unfold Asks; decide +kernel

/-- An order with outs, a region with and without cuts, a cut number and a length. -/
theorem test_hyp_target :
    0 < order.outs ∧ orderRegion.first = some 301 ∧ orderRegion.attributed = 0
    ∧ (0 < ({ orderRegion with attributed := 1 } : Region).attributed ∧ ({ config.dec with cLast := some 301, kLast := some 3010000 } : Dec).cLast = some 301) ∧ (1 : Nat) ≤ 1 ∧ 0 < orderRegion.length := by decide +kernel

/-- Zones in the list's order. -/
theorem test_hyp_change_point :
    (0 : Nat) < 10000 ∧ ([{ start := 100, extent := some 5 }, { start := 100, extent := none }] : List Zone).Pairwise (fun a b => a.start ≤ b.start) := by decide +kernel

/-- READ ORDER, READ QUEUE and READ COMPLETION. -/
theorem test_hyp_order_reads :
    Asks (asking (queued running) 41 (words [6201, 0])) 41 [4, 4] [6201, 0] (request 41 (words [6201, 0])) ∧ queuedAt (queued running) 6201 = some (0, order) ∧ Asks (asking (queued running) 42 (words [0, 0])) 42 [4, 4] [0, 0] (request 42 (words [0, 0]))
    ∧ (queued running).os.queue[0]? = some order ∧ Asks (asking running 43 (words [])) 43 [] [] (request 43 (words [])) ∧ running.os.log = [] ∧ oneRecord.os.log = [{ tag := 6201, stacked := 1, goodSheets := 2, missing := 0, culled := Vector.replicate 12 0, overrunCuts := 0, boardLength := 9, short := false, withdrawn := false, gradeLate := false, aborted := false }] := by unfold Asks; decide +kernel

/-- SET STAND in CONFIG of stand 5. -/
theorem test_hyp_set_stand :
    Asks (asking config 19 (words [5, 0, 4999, 5000001, 1, 50001, 0, 9])) 19 [4, 4, 4, 4, 4, 4, 4, 4] [5, 0, 4999, 5000001, 1, 50001, 0, 9] (request 19 (words [5, 0, 4999, 5000001, 1, 50001, 0, 9])) ∧ place 5 5 = some 4 := by unfold Asks; decide +kernel

/-- ASSIGN REEL of an arm that does not run, and of one that does. -/
theorem test_hyp_assign_reel :
    Asks (asking config 35 (words [4, 1, 0, 0, 65535, 80, 2500])) 35 [4, 4, 4, 4, 4, 4, 4] [4, 1, 0, 0, 65535, 80, 2500] (request 35 (words [4, 1, 0, 0, 65535, 80, 2500])) ∧ place 5 4 = some 3 ∧ armOf 1 = some .a ∧ ((standOf config 3).arm .a).state ≠ .running
    ∧ Asks (asking (withStand config (fun st => { st with armA := { st.armA with state := .running } })) 35 (words [4, 1, 0, 0, 65535, 80, 2500])) 35 [4, 4, 4, 4, 4, 4, 4] [4, 1, 0, 0, 65535, 80, 2500] (request 35 (words [4, 1, 0, 0, 65535, 80, 2500]))
    ∧ ((standOf (withStand config (fun st => { st with armA := { st.armA with state := .running } })) 3).arm .a).state = .running := by unfold Asks; decide +kernel

/-- A stand in SENT and one in ACTIVE whose limits are due. -/
theorem test_hyp_splice_limits :
    let g : GoRecord := { seq := 1, arm := .b, grade := 31, isOpen := true }
    let sent := withStand running (fun st => { st with splice := .sent, recent := some g, acceptBy := some 0 })
    let active := withStand running (fun st => { st with splice := .active, recent := some g, doneBy := some 0 })
    place 5 4 = some 3 ∧ (standOf sent 3).recent = some g ∧ (standOf sent 3).splice = .sent ∧ (standOf sent 3).acceptBy = some 0 ∧ 0 ≤ sent.time
      ∧ (standOf active 3).recent = some g ∧ (standOf active 3).splice = .active ∧ (standOf active 3).doneBy = some 0 := by decide +kernel

/-- LOAD RECIPE into an EMPTY slot, and a LOADED one. -/
theorem test_hyp_load_recipe :
    Asks (asking config 32 recipeArgs) 32 (4 :: List.replicate 42 2) (1 :: recipeFields) (request 32 recipeArgs) ∧ place 32 1 = some 0
    ∧ (config.bc.slots.get 0).recipe = none ∧ (recipeOf true recipeFields).inRange = true ∧ (recipeOf true recipeFields).rising = true
    ∧ Asks (asking (loaded 0 config) 32 recipeArgs) 32 (4 :: List.replicate 42 2) (1 :: recipeFields) (request 32 recipeArgs)
    ∧ ((loaded 0 config).bc.slots.get 0).recipe.isSome := by unfold Asks; decide +kernel

/-- ERASE and READ RECIPE of an EMPTY, a referenced and a free slot. -/
theorem test_hyp_erase_read_recipe :
    Asks (asking config 33 (words [1])) 33 [4] [1] (request 33 (words [1])) ∧ Asks (asking (loaded 0 config) 33 (words [1])) 33 [4] [1] (request 33 (words [1])) ∧ Asks (asking (loaded 1 config) 33 (words [1])) 33 [4] [1] (request 33 (words [1])) ∧ Asks (asking (loaded 0 config) 34 (words [1])) 34 [4] [1] (request 34 (words [1])) ∧ Asks (asking config 34 (words [32])) 34 [4] [32] (request 34 (words [32]))
    ∧ ((loaded 0 config).bc.slots.get 0).refs = 0 ∧ 0 < ((loaded 1 config).bc.slots.get 0).refs ∧ place 32 32 = some 31 := by unfold Asks; decide +kernel

/-- A glue unit and a wrap with a requested recipe. -/
theorem test_hyp_glue_and_wrap :
    recipeIn (loaded 0 config) (some 1) = some (recipeOf true recipeFields) ∧ ∀ i : Fin 3,
    (((recipeOf true recipeFields).wraps.get 0).get i.castSucc).1 < (((recipeOf true recipeFields).wraps.get 0).get i.succ).1 := by decide +kernel

/-- A settle deadline that has come. -/
theorem test_hyp_settle :
    place 3 3 = some 2 ∧ ((setGlue config 2 { config.bc.glue.get 2 with settleBy := some 0 }).bc.glue.get 2).settleBy = some 0 := by decide +kernel

/-- A repeated number, a gap and a first report. -/
theorem test_hyp_knife :
    (301 : BitVec 16) = BitVec.ofNat 16 301 ∧ ((302 : BitVec 16) - BitVec.ofNat 16 301).toNat ≠ 0 ∧ running.mu.mode = .run ∧ running.dec.cLast = none := by decide +kernel

/-- A station presetting the profile of the NEXT order. -/
theorem test_hyp_preset_done :
    ({ running.dec with inactive := .presetting 118 } : Dec).inactive = .presetting 118 ∧ (queued running).os.queue = [order] ∧ order.profile = 118
    ∧ ({ running.os with next := some { ready := false, needsSwap := true } } : Os).next = some { ready := false, needsSwap := true } ∧ (118 : Nat) ≠ 119 := by decide +kernel

/-- An overdue head. -/
theorem test_hyp_transit :
    let e : CutEntry := { cut := 5, tag := 6201, knifeTime := 0, stackEnd := false, orderEnd := false }
    let p : Part := { running with time := 5000, sc := { running.sc with cuts := [e], entered := 1 } }
    p.mu.mode = .run ∧ p.sc.cuts = [e] ∧ e.knifeTime + p.sc.transit ≤ p.time := by decide +kernel

/-- SET CEILING, CLEAR CEILING and CLEAR BREAK in RUN. -/
theorem test_hyp_ceiling :
    Asks (asking running 66 (words [100001])) 66 [4] [100001] (request 66 (words [100001])) ∧ Asks (asking running 67 (words [])) 67 [] [] (request 67 (words [])) ∧ Asks (asking running 68 (words [])) 68 [] [] (request 68 (words [])) ∧ running.sg.effective = some (ceilingOf running.sg) := by unfold Asks; decide +kernel

/-- A write that changes the slot and the ceiling, and one that changes nothing. -/
theorem test_hyp_slot_writes :
    running.sg.slots.get Slot.operator.idx = { active := false, value := 0 } ∧ running.sg.slots.get Slot.operator.idx ≠ { active := true, value := min 7 running.sg.lineMax }
    ∧ running.sg.effective ≠ some (ceilingOf { running.sg with slots := upd running.sg.slots Slot.operator.idx { active := true, value := 7 } })
    ∧ running.sg.effective = some (ceilingOf { running.sg with slots := upd running.sg.slots Slot.operator.idx { active := true, value := 100000 } }) := by decide +kernel

/-- A refresh that is due. -/
theorem test_hyp_refresh :
    ({ running.sg with nextRefresh := some 0 } : Sg).nextRefresh = some 0 ∧ 0 ≤ running.time ∧ running.sg.effective = some 100000 := by decide +kernel

/-- A malformed request and requests in the wrong mode. -/
theorem test_hyp_mu_checks :
    (request 99 []).malformed = true ∧ (request 16 [1]).malformed = true ∧ muFree config = true ∧ Asks (asking running 16 (words [2])) 16 [4] [2] (request 16 (words [2])) ∧ Asks (asking config 66 (words [2])) 66 [4] [2] (request 66 (words [2])) := by unfold Asks; decide +kernel

/-- ENTER RUN with every role bound, and with none. -/
theorem test_hyp_enter_run :
    Asks (asking bindable 1 (words [])) 1 [] [] (request 1 (words [])) ∧ missingRoles bindable = [] ∧ minimumLead bindable < bindable.os.commitLead ∧ bindable.mu.mode = .config ∧ missingRoles config ≠ [] := by unfold Asks; decide +kernel

/-- ENTER CONFIG at standstill and at speed. -/
theorem test_hyp_enter_config :
    Asks (asking running 2 (words [])) 2 [] [] (request 2 (words [])) ∧ lineSpeed running = 0 ∧ 0 < lineSpeed producing ∧ Asks (asking producing 2 (words [])) 2 [] [] (request 2 (words [])) := by unfold Asks; decide +kernel

/-- RESTART in both modes. -/
theorem test_hyp_restart :
    Asks (asking running 3 (words [])) 3 [] [] (request 3 (words [])) ∧ Asks (asking config 3 (words [])) 3 [] [] (request 3 (words [])) := by unfold Asks; decide +kernel

/-- SET LIMITS with two pairs, and with an identity not in the table. -/
theorem test_hyp_set_limits :
    Asks (asking config 21 (bytesOf 2 1 ++ w32 65 ++ bytesOf 2 1 ++ w32 0)) 21 (pairWidths 12) [1, 65, 1, 0] (request 21 (bytesOf 2 1 ++ w32 65 ++ bytesOf 2 1 ++ w32 0))
    ∧ settingPairs (pairUp [1, 65, 1, 0]) = some [(.bucketSize, 65), (.bucketSize, 0)]
    ∧ Asks (asking config 21 (bytesOf 2 999 ++ w32 0)) 21 (pairWidths 6) [999, 0] (request 21 (bytesOf 2 999 ++ w32 0)) ∧ settingPairs (pairUp [999, 0]) = none := by unfold Asks; decide +kernel

/-- MAP WRITE, MAP CLEAR and ROSTER CLEAR in CONFIG. -/
theorem test_hyp_map :
    Asks (asking config 22 (words [2, 239, 255, 9, 0])) 22 [4, 4, 4, 4, 4] [2, 239, 255, 9, 0] (request 22 (words [2, 239, 255, 9, 0])) ∧ outputOfCodes 9 0 = some .rejectGate ∧ outEntry config .rejectGate = none ∧ config.node ≠ some 239 ∧ mapCount config < 96
    ∧ Asks (asking config 23 (words [0, 0, 0])) 23 [4, 4, 4] [0, 0, 0] (request 23 (words [0, 0, 0])) ∧ Asks (asking config 23 (words [2, 9, 0])) 23 [4, 4, 4] [2, 9, 0] (request 23 (words [2, 9, 0])) ∧ Asks (asking config 24 (words [])) 24 [] [] (request 24 (words [])) := by unfold Asks; decide +kernel

/-- READ ALARMS, SET NOTICE MASK at both sides of its bound, and ACK ALARMS. -/
theorem test_hyp_alarm_requests :
    Asks (asking config 46 (words [])) 46 [] [] (request 46 (words [])) ∧ Asks (asking config 48 (w64 (2 ^ 37 - 1))) 48 [8] [2 ^ 37 - 1] (request 48 (w64 (2 ^ 37 - 1)))
    ∧ Asks (asking config 48 (w64 (2 ^ 37))) 48 [8] [2 ^ 37] (request 48 (w64 (2 ^ 37))) ∧ Asks (asking readOnce 47 (words [0])) 47 [4] [0] (request 47 (words [0])) ∧ readOnce.mu.readMade = true
    ∧ acknowledged readOnce.mu.generation 0 = some 0 ∧ acknowledged readOnce.mu.generation 255 = none ∧ Asks (asking config 47 (words [255])) 47 [4] [255] (request 47 (words [255])) ∧ config.mu.readMade = false ∧ anyOpenOff readOnce = false := by unfold Asks; decide +kernel

/-- A counter below its maximum. -/
theorem test_hyp_counters :
    (counterOf config .busyReplies).value ≤ Counter.busyReplies.max := by decide +kernel

/-- SNAPSHOT, SNAPSHOT CLEAR and READ COUNTERS with pages 0, 1 and 2. -/
theorem test_hyp_counter_requests :
    Asks (asking running 49 (words [])) 49 [] [] (request 49 (words [])) ∧ Asks (asking config 50 (words [])) 50 [] [] (request 50 (words [])) ∧ Asks (asking config 51 (words [0])) 51 [4] [0] (request 51 (words [0])) ∧ Asks (asking config 51 (words [1])) 51 [4] [1] (request 51 (words [1])) ∧ Asks (asking config 51 (words [2])) 51 [4] [2] (request 51 (words [2])) := by unfold Asks; decide +kernel

/-- READ STATUS of sections 0, 1, 4 and 10, READ TRACK of an entry and beyond the bound. -/
theorem test_hyp_status_requests :
    Asks (asking running 44 (words [0, 0])) 44 [4, 4] [0, 0] (request 44 (words [0, 0])) ∧ Asks (asking config 44 (words [1, 0])) 44 [4, 4] [1, 0] (request 44 (words [1, 0])) ∧ Asks (asking running 44 (words [4, 0])) 44 [4, 4] [4, 0] (request 44 (words [4, 0])) ∧ Asks (asking running 44 (words [10, 0])) 44 [4, 4] [10, 0] (request 44 (words [10, 0]))
    ∧ Asks (asking fullOfMarks 45 (words [39])) 45 [4] [39] (request 45 (words [39])) ∧ fullOfMarks.wt.track[39]?.isSome ∧ Asks (asking fullOfMarks 45 (words [64])) 45 [4] [64] (request 45 (words [64])) := by unfold Asks; decide +kernel

/-! ### Samples -/

/-- A SAMPLE of the KNIFE role from node 12, channel 0. -/
def knifeFrame : Frame := frame 2 12 kindSample 5 ([0, 2] ++ w32 302 ++ w32 10003)

/-- A SAMPLE frame for another node: its key is in the map, and its count and length fit; a copy of one value fits no KNIFE input, and one of another
channel matches no entry; taken in CONFIG, it leaves its time. -/
theorem test_hyp_sample :
    (parseFrame knifeFrame.bytes).isSome ∧ knifeFrame.dest.toNat ≠ 1 ∧ knifeFrame.src.toNat ≠ 1 ∧ knifeFrame.kind = kindSample
    ∧ sampleValues 2 knifeFrame.payload = some [302, 10003] ∧ sampleValues 2 ([0, 1] ++ w32 302) = none
    ∧ takeSample 12 (1 :: w32 302) boundPart = boundPart ∧ takeSample 12 ([0, 1] ++ w32 302) boundPart = latch .badSample boundPart
    ∧ (inEntry (takeSample 12 knifeFrame.payload { boundPart with mu := config.mu }) .knife).map (fun e => (e.state, e.last))
      = some (.waiting, some 1000) := by
  decide +kernel

/-- The stages of an encoder sample: no reference, differences at the glitch limit and above it, and the speed entry. -/
theorem test_hyp_encoder_sample :
    let e : Encoder := { Encoder.reset with ref := some (0, 0) }
    Encoder.reset.ref = none ∧ (4096#32 - 0).toInt.natAbs ≤ e.gmax ∧ e.gmax < (4097#32 - 0).toInt.natAbs ∧ e.history.length = 8 ∧ (1#32) ≠ 0
    ∧ (e.sample 4096 1).advance = 4096 ∧ (e.sample 5 1000).after.history = [0, 0, 0, 0, 0, 0, 0, 5000] := by
  decide +kernel

/-- A part in RUN whose encoder inputs are fresh, with limits that have run out. -/
def staleEncoders : Part :=
  let fresh (i : Input) : InEntry := { node := 12, channel := 0, input := i, state := .fresh, last := some 500 }
  { boundPart with si := { boundPart.si with inMap := [fresh .boardEnc, fresh (.feederEnc 0)] } }

/-- A board and a feeder encoder input at the end of their limit. -/
theorem test_hyp_encoder_stale :
    (inEntry staleEncoders .boardEnc).map InEntry.last = some (some 500) ∧ (inEntry staleEncoders (.feederEnc 0)).map InEntry.last = some (some 500)
    ∧ 500 + staleEncoders.si.encoderLimit ≤ staleEncoders.time ∧ feederInUse staleEncoders 0 = true ∧ feederInUse staleEncoders 1 = false
    ∧ (after (.freshnessExpiry .feederEnc 1) staleEncoders).map (fun p => p.sg.slots.get Slot.encoder.idx)
      = some { active := true, value := 5000 } := by
  decide +kernel

/-! ### The tracking list -/

/-- An unbound joint of stand 1 on feeder 1. -/
def jointAt (id start : Nat) : TrackEntry :=
  { id := id, kind := .spliceJoint 0 7, start := start, extent := some 8000, cull := true, origin := .stand 0,
    binding := some { feeder := 0, start := 0, bound := false, web := some 8000 } }

/-- A part in RUN at B = 500,000, with a sight counter seen and these entries. -/
def sightable (l : List TrackEntry) : Part :=
  setTrack (setBridgeRec { running with wt := { running.wt with board := { running.wt.board with pos := 500000 } } } 0
    { running.wt.bridges.get 0 with lastSight := some 4 }) l

/-- The distances of the entries from the point now at the joint detector. -/
def distances (p : Part) : List (Option Nat) := p.wt.track.map (sightDistance p 0 (boardPoint p (.jointDet 0)))

/-- Two joints equally near a sighting, of which the lower id is matched; a joint beyond the window, which is missed. -/
theorem test_hyp_sighting :
    let p := sightable [jointAt 2 496990, jointAt 1 497010]
    distances p = [some 10, some 10] ∧ (sightSample 0 5 p).wt.track.map (fun e => (e.id, e.isBound)) = [(2, false), (1, true)]
    ∧ distances (sightable [jointAt 1 476999]) = [none] ∧ (sightSample 0 5 (sightable [])).mu = (latch .jointUnexpected (sightable [])).mu
    ∧ (missJoints (sightable [jointAt 1 476999, jointAt 2 477000])).wt.track.map TrackEntry.isBound = [true, false] := by
  decide +kernel

/-- A DEFECT entry. -/
def defectAt (id start extent : Nat) : TrackEntry :=
  { id := id, kind := .defect, start := start, extent := some extent, cull := true, origin := .defect 0, binding := none }

/-- A part in RUN at B = 500,000, with a defect counter seen, this credit and these entries. -/
def defective (credit : Nat) (l : List TrackEntry) : Part :=
  let p := setTrack { running with wt := { running.wt with board := { running.wt.board with pos := 500000 } } } l
  { p with wt := { p.wt with credit := credit, defectLast := upd p.wt.defectLast 0 (some 4) } }

/-- The zones of the list after a DEFECT sample of 100 units. -/
def defectsAfter (credit : Nat) (l : List TrackEntry) : List (Nat × Nat × Nat) :=
  (defectSample 0 100 5 (defective credit l)).wt.track.map (fun e => (e.id, e.start, e.extent.getD 0))

/-- A defect beside an entry it touches, one without credit in an empty list, and one that overlaps the second of two entries. -/
theorem test_hyp_defect :
    defectsAfter 1 [defectAt 3 499900 100] = [(3, 499900, 100), (1, 500000, 100)]
    ∧ defectsAfter 0 [] = [] ∧ (counterOf (defectSample 0 100 5 (defective 0 [])) .droppedDefects).value = 1
    ∧ defectsAfter 0 [defectAt 3 499900 100, defectAt 4 500050 200] = [(3, 499900, 100), (4, 500000, 250)] := by
  decide +kernel

/-- A part in RUN with two linked regions and an ordered list, whose step answers a next state; and a part in CONFIG. -/
theorem test_hyp_ordered :
    let first : Region := { orderRegion with stop := some 50, last := some 310 }
    let p := setTrack (setRegions running [first, newRegion none 50 10000 311 false]) [markEntry 1 100, markEntry 2 100]
    Ordered p ∧ Ordered config ∧ step (at' p) = .next (at' (tick p)) := by
  refine ⟨⟨?_, by unfold IdsDiffer; decide +kernel, fun _ => ⟨rfl, ⟨310, rfl, rfl⟩, rfl, rfl, rfl⟩⟩,
    ⟨List.Pairwise.nil, List.nodup_nil, fun h => by cases h⟩, rfl⟩
  unfold inOrder
  decide +kernel

/-- A cut's end at the end of a zone and at a mark: the zone is retired and the mark stays; the mark passes one unit on. -/
theorem test_hyp_retire :
    let p := setTrack { running with dec := { running.dec with kLast := some 200 } } [defectAt 1 100 100, defectAt 2 100 101, markEntry 3 200]
    (retire p).wt.track.map TrackEntry.id = [2, 3] ∧ (passMarks 200 p).wt.track.length = 3 ∧ (passMarks 201 p).wt.track.length = 2 := by
  decide +kernel

/-- A swap zone. -/
def swapAt (id start extent : Nat) : TrackEntry := { defectAt id start extent with kind := .swapZone, origin := .slitter }

/-- A zone without a place is covered by the last eligible entry at or below its start, which is raised to its end. -/
theorem test_hyp_cover :
    let p := setTrack running [swapAt 1 100 50, swapAt 2 300 50, swapAt 3 300 20, markEntry 4 310, swapAt 5 321 9]
    p.wt.track.Pairwise (fun a b => entryBefore a b = true)
    ∧ (coverZone none 320 400 p).1.wt.track.map (fun e => (e.id, e.extent)) = [(1, some 50), (2, some 50), (3, some 100), (4, some 0), (5, some 9)]
    ∧ (coverZone none 320 320 p).2 = [] ∧ (coverZone none 99 400 p).2 = [] := by
  decide +kernel

/-- A region that requires grade 31 of stand 5, with a web of grade 0 before its joint and of grade 31 from it. -/
def gradedPart : Part :=
  setTrack (setRegions running [orderRegion])
    [{ id := 1, kind := .spliceJoint 4 31, start := 3997000, extent := some 8000, cull := true, origin := .stand 4, binding := none }]

/-- The region is off grade from its start to the joint, and nowhere for a stand it requires nothing of. -/
theorem test_hyp_grade : regionOff gradedPart 4 orderRegion = [(0, some 4000000, 6201)] ∧ regionOff gradedPart 0 orderRegion = []
    ∧ webGrade gradedPart 4 3999999 = 0 ∧ webGrade gradedPart 4 4000000 = 31 := by
  decide +kernel

/-! ### Orders -/

/-- A part in RUN with a ready NEXT order and `n` regions, of which the last is an open WASTE region. -/
def commitPart (n : Nat) : Part :=
  let done : Region := { orderRegion with stop := some 0, last := some 301, ended := false }
  let p := setRegions (queued running) (List.replicate n done ++ [newRegion none 0 10000 302 false])
  { p with os := { p.os with next := some { ready := true, needsSwap := false } } }

/-- A commitment that is due with room and without; an ORDER region whose change point lies at the commit lead, and one unit beyond it. -/
theorem test_hyp_commit :
    let ends (p : Part) := (commitCheck p).os.regions.map (fun r => (r.start, r.stop, r.first, r.deferred))
    let changing (c : Nat) : Region := { orderRegion with change := some c }
    ends (commitPart 0) = [(0, some 900000, some 302, false), (900000, none, some 392, false)]
    ∧ (commitPart 5).os.regions.length = 6 ∧ ((commitCheck (commitPart 5)).os.regions.getLast?).map Region.deferred = some true
    ∧ commitDue running (changing 900000) = true ∧ commitDue running (changing 900001) = false
    ∧ commitTarget running (changing 200000) = 200000 ∧ commitTarget running (changing 199999) = 900000 := by
  decide +kernel

/-- A first region that has ended, without an entry in the cut queue and with one. -/
theorem test_hyp_complete :
    let x : Region := { orderRegion with stop := some 3050000, last := some 305, ended := true, stacked := 101 }
    let p := setRegions (loaded 1 running) [x, newRegion none 3050000 10000 306 false]
    let e : CutEntry := { cut := 305, tag := 6201, knifeTime := 0, stackEnd := false, orderEnd := true }
    (completeRegions p).os.log.map (fun c => (c.goodSheets, c.overrunCuts, c.boardLength, c.short)) = [(202, 0, 3050000, false)]
    ∧ ((completeRegions p).bc.slots.get 0).refs = 0 ∧ completeRegions (setCuts p [e]) = setCuts p [e] := by
  decide +kernel

/-- READ ORDER of an order in the region list, and READ QUEUE of the regions. -/
theorem test_hyp_region_reads :
    Asks (asking producing 41 (words [6201, 2])) 41 [4, 4] [6201, 2] (request 41 (words [6201, 2])) ∧ queuedAt producing 6201 = none
    ∧ regionOf producing 6201 = some orderRegion ∧ Asks (asking producing 42 (words [1, 5])) 42 [4, 4] [1, 5] (request 42 (words [1, 5])) := by
  unfold Asks; decide +kernel

/-! ### Reels and splices -/

/-- An arm report that fits its running arm, and one that does not; a diameter sample, and R of section 4.2's reel. -/
theorem test_hyp_reports :
    let p := config
    let st : Stand :=
      { standOf running 0 with armA := { ArmRecord.cleared with state := .running, caliper := some 250, core := some 1100 }, historyArm := some .a }
    (standOf (armSample 3 3 1 1 p) 3).running = some .a ∧ armSample 3 3 1 2 p = latch .badSample p ∧ armSample 3 3 3 1 p = latch .badSample p
    ∧ standInUse running 3 = false ∧ armSample 3 3 1 1 running = running
    ∧ (standOf (diameterSample 0 1932 (setStandRec running 0 st)) 0).reckon = some (792507, 0)
    ∧ (standOf (diameterSample 0 20000 (setStandRec running 0 st)) 0).history = [18000] := by
  decide +kernel

/-- A stand whose run-out is DUE and whose ready arm holds grade 45. -/
def dueStand : Stand :=
  { standOf running 4 with
      armA := { ArmRecord.cleared with state := .running, caliper := some 250, core := some 1100 },
      armB := { ArmRecord.cleared with state := .prepared, grade := 45 }, history := [1100], nextSeq := 17 }

/-- A splicer with an OUT entry has its GO on its way; without one the ACCEPTED limit starts at once. -/
theorem test_hyp_go :
    let p := setStandRec running 4 dueStand
    let q := { p with si := { p.si with outMap := [{ output := .splicer 4, node := 20, channel := 3 }] } }
    let crawl := setStandRec running 4 { dueStand with armB := ArmRecord.cleared }
    (evalStand 4 q).rif.port.isSome ∧ (standOf (evalStand 4 p) 4).acceptBy = some 200 ∧ (standOf (evalStand 4 p) 4).splice = .sent
    ∧ (writeSplice 4 crawl).sg.slots.get (Slot.splice 4).idx = { active := true, value := 5000 }
    ∧ (writeSplice 4 p).sg.slots.get (Slot.splice 4).idx = { active := true, value := min dueStand.maxSpeed 100000 }
    ∧ (writeSplice 4 running).sg.slots.get (Slot.splice 4).idx = { active := false, value := 0 } := by
  decide +kernel

/-- A stand whose GO number 1, of grade 31, is in this state. -/
def spliced (x : SpliceState) : Part :=
  setStandRec running 4 { standOf running 4 with splice := x, recent := some { seq := 1, arm := .b, grade := 31, isOpen := true } }

/-- Splicer reports: of another number, of codes out of range, ACCEPTED, DONE and a web break. -/
theorem test_hyp_splicer :
    splicerSample 4 2 2 (spliced .sent) = spliced .sent ∧ splicerSample 4 0 1 (spliced .sent) = latch .badSample (spliced .sent)
    ∧ splicerSample 4 7 1 (spliced .sent) = latch .badSample (spliced .sent) ∧ (standOf (splicerSample 4 1 1 (spliced .sent)) 4).splice = .active
    ∧ splicerSample 4 1 1 (spliced .active) = spliced .active
    ∧ (splicerSample 4 2 1 (spliced .active)).wt.track.map (fun e => (e.kind, e.start, e.extent)) = [(.spliceJoint 4 31, 0, some 5000)]
    ∧ (splicerSample 4 5 1 (spliced .active)).sg.slots.get Slot.webBreak.idx = { active := true, value := 0 } := by
  decide +kernel

/-! ### Glue and heat -/

/-- LOAD RECIPE with fields of 32 bits, and of a recipe whose breakpoint speeds do not rise. -/
theorem test_hyp_load_wide :
    let args := words (1 :: recipeFields)
    let flat := recipeFields.set 9 300
    Asks (asking config 32 args) 32 (4 :: List.replicate 42 4) (1 :: recipeFields) (request 32 args)
    ∧ (recipeOf false (recipeFields.set 5 4294967276)).inRange = true ∧ (recipeOf false recipeFields).inRange = false
    ∧ (recipeOf true flat).rising = false
    ∧ Asks (asking config 32 (words (1 :: flat))) 32 (4 :: List.replicate 42 4) (1 :: flat) (request 32 (words (1 :: flat))) := by
  unfold Asks; decide +kernel

/-- A glue unit whose setpoint has been posted and settled, with a measured gap at the tolerance and beyond it. -/
theorem test_hyp_glue_sample :
    let p := setGlue running 2 { running.bc.glue.get 2 with testSet := some 180, testTol := some 30, settleBy := none }
    let t := (glueSample 2 211 p).1
    glueSample 2 210 p = (p, []) ∧ (t.bc.glue.get 2).deviation = true ∧ (t.bc.glue.get 2).entry = some 1 ∧ t.wt.track.map TrackEntry.extent = [none]
    ∧ ((glueSample 2 150 t).1.bc.glue.get 2).deviation = false ∧ glueSample 2 149 t = (t, [])
    ∧ (glueSample 0 211 (setGlue fullOfMarks 0 (p.bc.glue.get 2))).1.wt = fullOfMarks.wt ∧ running.wt.line = .single := by
  decide +kernel

/-- A point at a region's start, at the end of the list's first region, and before the first; a zone without an average, and one in deficit. -/
theorem test_hyp_lookup_and_heat :
    let p := setRegions running [{ orderRegion with start := 10, stop := some 20 }, newRegion none 20 10000 302 false]
    let z := loaded 1 (setZone running 0 { running.bc.zones.get 0 with history := [1838], acting := some 1, requested := some 1 })
    lookupAt p 10 (some 9) = some 1 ∧ lookupAt p 20 (some 9) = some 9 ∧ lookupAt p 9 (some 9) = some 9
    ∧ zoneState running 0 = .unset ∧ zoneState z 0 = .tracking ∧ (0 : Fin 8).val < running.bc.zoneCount
    ∧ (writeHeat 0 z).sg.slots.get (Slot.heat 0).idx = { active := true, value := 45200 }
    ∧ (writeHeat 0 running).sg.slots.get (Slot.heat 0).idx = { active := false, value := 0 } := by
  decide +kernel

/-! ### The dry end -/

/-- A first report gives the first region its first cut number. -/
theorem test_hyp_first_report :
    let p := setRegions { running with wt := { running.wt with board := { running.wt.board with pos := 12000 } } } [initialRegion 10000]
    (knifeSample 700 10000 p).os.regions.map (fun r => (r.first, r.attributed)) = [(some 700, 1)] ∧ (knifeSample 700 10000 p).dec.kLast = some 12000 := by
  decide +kernel

/-- A part in RUN at B = 5,000 whose swap is in this state, with a swap record whose zone, if it has one, is entry 1. -/
def swapping (x : SwapState) (late : Bool) (entry : Option Nat) : Part :=
  let p := setTrack { running with wt := { running.wt with board := { running.wt.board with pos := 5000 } } } (if entry.isSome then [swapAt 1 3000 2000] else [])
  { p with dec := { p.dec with swap := x, swapRec := some { start := 3000, entry := entry, extent := 2000, late := late }, inactive := .ready 118 } }

/-- A swap point that is reached, a slitter that is late at the end of its zone, and a SWAPPED that closes a late zone, with an entry and without. -/
theorem test_hyp_swap :
    let late (e : Option Nat) := (testSlitterLate (swapping .requested false e)).1.wt.track.map (fun e => (e.start, e.extent))
    let done (l : Bool) (e : Option Nat) := (slitterSample 2 118 (swapping .requested l e)).dec
    (testSwapPoint (swapping .none false none)).dec.swap = .requested ∧ late (some 1) = [(3000, none)] ∧ late none = [(5000, none)]
    ∧ (done false (some 1)).swap = .done ∧ (done true (some 1)).active = some 118 ∧ (done false none).inactive = .free
    ∧ slitterSample 2 118 (swapping .done false none) = swapping .done false none := by
  decide +kernel

/-- A cut-queue entry. -/
def cutOf (n : Nat) : CutEntry := { cut := n, tag := 6201, knifeTime := 0, stackEnd := false, orderEnd := false }

/-- A good cut at a queue with a place and at a full one; an arrival, and one more than the queue holds; order ends with an entry and without. -/
theorem test_hyp_cut_queue :
    let p := setCuts { producing with sc := { producing.sc with lastArrival := some 65535 } } [cutOf 301, cutOf 302]
    let full := setCuts producing (List.replicate 64 (cutOf 301))
    (takeGood 303 orderRegion order p).1.sc.cuts.length = 3 ∧ (takeGood 303 orderRegion order full).2 = true
    ∧ (stackerSample 0 p).sc.cuts = [cutOf 302] ∧ (stackerSample 2 p).sc.phantom = 1
    ∧ (orderEnded orderRegion order p).sc.cuts.map CutEntry.orderEnd = [false, true]
    ∧ orderEnded orderRegion order producing = postOrderEnd 6201 (postEject 6201 producing) := by
  decide +kernel

/-- R62: two cuts lie on a stack of height 10 whose height becomes 1; the countdown then stands at the height, where the order's end posts no EJECT (log 42). -/
theorem test_lowered_height :
    countdownAfter 10 1 8 = 1
    ∧ orderEnded { orderRegion with countdown := 1 } { order with stackHeight := 1 } producing = postOrderEnd 6201 producing := by
  decide +kernel

/-! ### Requests -/

/-- MAP WRITE of an IN entry whose input is free, is bound to its key and is bound to another; MAP CLEAR of a key held and of one not held. -/
theorem test_hyp_map_in :
    let write := words [1, 12, 0, 10, 0]
    let clear := words [1, 12, 0]
    let p : Part := { config with si := { config.si with inMap := [{ node := 12, channel := 0, input := .knife, state := .fresh, last := some 5 }] } }
    Asks (asking p 22 write) 22 [4, 4, 4, 4, 4] [1, 12, 0, 10, 0] (request 22 write) ∧ inputOfCodes 10 0 = some .knife
    ∧ Asks (asking p 23 clear) 23 [4, 4, 4] [1, 12, 0] (request 23 clear)
    ∧ ((after .mapWrite (asking p 22 write)).map (fun q => q.si.inMap.map (fun e => (e.state, e.last)))) = some [(.waiting, none)]
    ∧ ((after .mapWrite (asking p 22 (words [1, 13, 0, 10, 0]))).map (fun q => q.si.inMap)) = some p.si.inMap
    ∧ ((after .mapClear (asking p 23 clear)).map (fun q => q.si.inMap)) = some []
    ∧ ((after .mapWrite (asking config 22 write)).map (fun q => q.si.inMap.length)) = some 1 := by
  unfold Asks; decide +kernel

/-- READ STATUS of sections 2 and 5. -/
theorem test_hyp_status_lists :
    Asks (asking running 44 (words [5, 0])) 44 [4, 4] [5, 0] (request 44 (words [5, 0])) ∧ Asks (asking config 44 (words [2, 4])) 44 [4, 4] [2, 4] (request 44 (words [2, 4])) := by
  unfold Asks; decide +kernel

/-! ### The ring and the sensors -/

/-- A pending setpoint in its own queue, in the other queue, and waiting; a full queue; an output without an OUT entry. -/
theorem test_hyp_setpoint_place :
    let old : Message := .command (.driveCeiling 4) 20 0
    let new : Message := .command (.driveCeiling 5) 20 0
    let other : Message := .notice (.alarm .backlog 1 1)
    let place (r : Rif) : Part := placeSetpoint .driveCeiling true new { sending with rif := r }
    let r := sending.rif
    (place { r with urgent := [other, old, other] }).rif.urgent = [other, new, other]
    ∧ (place { r with normal := [other, old, other] }).rif.normal = [other, other] ∧ (place { r with normal := [other, old, other] }).rif.urgent = [new]
    ∧ (place { r with urgentWait := [{ msg := old, late := true }] }).rif.urgentWait = [{ msg := new, late := false }]
    ∧ (place { r with urgent := List.replicate 15 other }).rif.urgent.length = 16
    ∧ (place { r with urgent := List.replicate 16 other }).rif.urgentWait = [{ msg := new, late := false }]
    ∧ outEntry running .driveCeiling = none ∧ (outEntry bindable .driveCeiling).isSome := by
  decide +kernel

/-- A source that is learned, one that is heard again, and one that a full roster leaves out. -/
theorem test_hyp_roster :
    let full : Part := { config with rif := { config.rif with roster := (List.range 64).map (fun k => { node := k + 100, lastHeard := 0 }) } }
    let once := learn 9 { config with time := 5 }
    once.rif.roster = [{ node := 9, lastHeard := 5 }] ∧ (learn 9 { once with time := 8 }).rif.roster = [{ node := 9, lastHeard := 8 }]
    ∧ (learn 9 full).rif.roster = full.rif.roster ∧ (alarmOf (learn 9 full) .rosterFull).latch = true
    ∧ (frame 1 9 3 10 [46, 0, 7]).src.toNat ≤ 239 := by
  decide +kernel

/-- The lost flag is set while the node of an OUT entry is absent, and cleared once it is heard. -/
theorem test_hyp_lost :
    let p : Part := { running with si := bindable.si }
    let t := testLost p
    t.rif.lost = true ∧ t.sg.slots.get Slot.actuatorLost.idx = { active := true, value := 5000 } ∧ testLost config = config ∧ testLost running = running
    ∧ (learn 20 t).rif.lost = false ∧ (learn 20 t).sg.slots.get Slot.actuatorLost.idx = { active := false, value := 0 } ∧ testLost t = t := by
  decide +kernel

/-- R184, R185: a sweep in RUN that removes an actuator's node sets the lost flag; one that removes no entry makes no test. -/
theorem test_hyp_sweep_lost :
    let p : Part := { running with time := 21000, si := bindable.si }
    let swept (l : List RosterEntry) : Option (List Nat × List Nat) :=
      (after .rosterSweep { p with rif := { p.rif with roster := l } }).map (fun q => (q.rif.roster.map RosterEntry.node,
        [q.rif.nextSweep, codeBool q.rif.lost, codeBool (alarmOf q .actuatorLost).latch, (q.sg.slots.get Slot.actuatorLost.idx).value]))
    p.rif.nextSweep ≤ p.time
    ∧ swept [{ node := 20, lastHeard := 1000 }, { node := 3, lastHeard := 1001 }] = some ([3], [22000, 1, 1, 5000])
    ∧ swept [{ node := 20, lastHeard := 1001 }, { node := 3, lastHeard := 1000 }] = some ([20], [22000, 0, 0, 0])
    ∧ swept [{ node := 3, lastHeard := 1001 }] = some ([3], [22000, 0, 0, 0]) := by
  decide +kernel

/-- Samples at 0 units/s, without an advance of B and with one. -/
theorem test_hyp_board_sample :
    let p : Part := { running with wt := { running.wt with board := { running.wt.board with ref := some (0, 0) } } }
    ((p.wt.board.sample 0 1000000).advance, (p.wt.board.sample 0 1000000).after.speed) = (0, 0)
    ∧ ((p.wt.board.sample 4 1000000).advance, (p.wt.board.sample 4 1000000).after.speed) = (4, 0)
    ∧ (counterOf (boardSample 4 1000000 p) .boardLength).value = 4 := by
  decide +kernel

/-- A bridge of minimum 10,000 and maximum 90,000 whose content is this, LOW or not. -/
def bridged (content : Int) (low : Bool) : Part :=
  setBridgeRec running 0 { running.wt.bridges.get 0 with lfix := 0, k := content, minimum := 10000, maximum := 90000, low := low }

/-- A content below the minimum and at it, one unit under the end of LOW and at it, at the maximum and above it. -/
theorem test_hyp_bridge :
    let state (p : Part) := let q := checkBridge 0 p; ((q.wt.bridges.get 0).low, (q.wt.bridges.get 0).high, (q.sg.slots.get (Slot.bridge 0).idx).active)
    [(9999, false), (10000, false), (59999, true), (60000, true), (90000, false), (90001, false)].map (fun x => state (bridged x.1 x.2))
      = [(true, false, true), (false, false, false), (true, false, false), (false, false, false), (false, false, false), (false, true, false)]
    ∧ feederInUse running 0 = true := by
  decide +kernel

/-- A matched joint, while no cut has been reported, in a list whose ids differ, stands bound where it was seen; the correction moves the other. -/
theorem test_hyp_matched :
    let p := sightable [jointAt 2 496990, jointAt 1 497010]
    p.dec.kLast = none ∧ p.wt.track.map TrackEntry.id = [2, 1] ∧ (jointAt 1 497010).binding.bind Binding.web = some 8000
    ∧ (sightSample 0 5 p).wt.track.map (fun e => (e.id, e.isBound, e.start, e.extent)) = [(2, false, 0, some 7990), (1, true, 497000, some 8000)] := by
  decide +kernel

/-- A refill that gives two credits and leaves travel, one that fills the bucket, and one of a full bucket. -/
theorem test_hyp_refill :
    let p (credit size : Nat) : Part := { running with wt := { running.wt with credit := credit, bucketSize := size, refillLength := 100, remainder := 30 } }
    let after (p : Part) := ((refillCredit 180 p).wt.credit, (refillCredit 180 p).wt.remainder)
    after (p 1 8) = (3, 10) ∧ after (p 7 8) = (8, 0) ∧ after (p 8 8) = (8, 0) := by
  decide +kernel

/-- A covering DEFECT absorbs the DEFECT that its raised zone overlaps, and leaves the one that it touches. -/
theorem test_hyp_cover_defect :
    let p := setTrack running [defectAt 1 100 50, defectAt 2 200 400, defectAt 3 600 10]
    p.wt.track.Pairwise (fun a b => entryBefore a b = true) ∧ coveringEntry none 150 p = p.wt.track.head?
    ∧ (coverZone none 150 300 p).1.wt.track.map (fun e => (e.id, e.start, e.extent)) = [(1, 100, some 500), (3, 600, some 10)] := by
  decide +kernel

/-! ### Commitments and cuts -/

/-- A commitment to a ready NEXT order of another length that needs a swap, on a part whose knife has an OUT entry. -/
theorem test_hyp_commit_swap :
    let done := newRegion none 0 20000 302 false
    let p := setRegions (queued running) [done]
    let q : Part := { p with os := { p.os with next := some { ready := true, needsSwap := true } }, si := bindable.si }
    let t := commit done q
    done.stop = none ∧ t.os.regions.map (fun r => (r.start, r.stop, r.length)) = [(0, some 900000, 20000), (900000, none, 10000)]
    ∧ t.wt.track.map (fun e => (e.kind, e.start, e.extent)) = [(.swapZone, 900000, some 2000), (.offGrade 4 6201, 900000, none)]
    ∧ t.dec.swapRec = some { start := 900000, entry := some 1, extent := 2000, late := false } ∧ (outEntry q .knife).isSome ∧ t.rif.port.isSome := by
  decide +kernel

/-- A part whose urgent queue is full and before which these commands wait, with the outputs of a SINGLE line. -/
def waiting (l : List Command) : Part :=
  { running with
      si := bindable.si,
      rif := { sending.rif with urgent := List.replicate 16 (.notice (.alarm .backlog 1 1)),
                                urgentWait := l.map (fun c => { msg := .command c 20 0, late := false }) } }

/-- The fourth CHANGE LENGTH and the sixteenth DIVERT wait; the next ones are discarded. A swap zone finds no place in a full list. -/
theorem test_hyp_owner_lists :
    let changes (n : Nat) : Part := waiting (List.replicate n (.changeLength 10000 (some 5)))
    let diverts (n : Nat) : Part := waiting (List.replicate n (.divert 5))
    let full := setTrack running ((List.range 64).map (fun k => swapAt (k + 1) (100 * k + 1000) 100))
    (changeList (postChange 9000 none (changes 3))).length = 4 ∧ postChange 9000 none (changes 4) = latch .knifeCommandLate (changes 4)
    ∧ (divertList (postDivert 9 (diverts 15))).length = 16 ∧ postDivert 9 (diverts 16) = latch .divertLost (diverts 16)
    ∧ (insertSwap 0 full).dec.swapRec = some { start := 0, entry := none, extent := 2000, late := false } ∧ postDivert 9 running = running := by
  decide +kernel

/-- A waiting CHANGE LENGTH is overdue from its cut on, and its alarm is latched once. -/
theorem test_hyp_overdue_change :
    let p := waiting [.changeLength 10000 (some 5), .changeLength 9000 none]
    testChanges 4 p = p ∧ (testChanges 5 p).rif.urgentWait.map Waiting.late = [true, false]
    ∧ (alarmOf (testChanges 6 (testChanges 5 p)) .knifeCommandLate).count = 1 := by
  decide +kernel

/-- A producing part in whose list a mark stands at 3,009,999 and another at the end of the cut, with a reported cut before or without. -/
def marked (k : Option Nat) : Part := setTrack { producing with dec := { producing.dec with kLast := k } } [markEntry 1 3009999, markEntry 2 3010000]

/-- A cut of no region, a good cut and a culled one; the marks that a cut meets and passes. -/
theorem test_hyp_take_cut :
    let c : Cut := { number := 302, start := 3000000, stop := 3010000, measured := some 10000, moved := false }
    let culled (p : Part) : List (Nat × Nat) := p.os.regions.map (fun r => (r.attributed, r.culled.get Cause.mark.idx))
    cullCause producing orderRegion c = none ∧ cullCause (marked none) orderRegion c = some .mark
    ∧ culled (takeCut c producing) = [(1, 0)] ∧ culled (takeCut c (marked (some 3000000))) = [(1, 1)] ∧ culled (takeCut { c with number := 300 } producing) = [(0, 0)]
    ∧ markNotices (marked none) c true = [.mark 5 1 302 true] ∧ (handleMarks c true (marked none)).wt.track.map TrackEntry.id = [2] := by
  decide +kernel

/-- Knife reports: at the registration limit and beyond it, with two cuts synthesized, and past the greatest gap. -/
theorem test_hyp_report_spans :
    let p : Part := { producing with dec := { producing.dec with cLast := some 301, kLast := some 3000000 } }
    let last (n : BitVec 16) (m : Nat) (p : Part) := ((knifeSample n m p).dec.cLast, (knifeSample n m p).dec.kLast, (alarmOf (knifeSample n m p) .knifeSequence).latch)
    let limit := p.dec.regLimit
    last 302 limit p = (some 302, some (3000000 + limit), false) ∧ last 302 (limit + 1) p = (some 302, some 3000000, false)
    ∧ last 304 10000 { p with wt := { p.wt with board := { p.wt.board with pos := 3030000 } } } = (some 304, some 3030000, true)
    ∧ last 366 10000 p = (some 366, some 3000000, true) ∧ commandedLength p 302 = 10000 := by
  decide +kernel

/-- NEXT selection of an order whose profile the active station has, of another, of a held one, and while a swap is pending. -/
theorem test_hyp_next :
    let p := queued running
    let with' (active : Option Nat) : Part := { p with dec := { p.dec with active := active } }
    let held := setOrders p [{ order with hold := true }]
    let pending : Part := { p with dec := (swapping .none false none).dec }
    (selectNext (with' (some 118))).os.next = some { ready := true, needsSwap := false }
    ∧ (selectNext (with' none)).os.next = some { ready := false, needsSwap := true } ∧ (selectNext (with' none)).dec.inactive = .presetting 118
    ∧ selectNext held = held ∧ selectNext pending = pending ∧ selectNext running = running ∧ (releaseStation pending).dec.inactive = .free := by
  decide +kernel

/-- The backlog flag at the watermark and below it, and at the end of the backlog and before it. -/
theorem test_hyp_backlog :
    let p (n : Nat) (b : Bool) : Part := setCuts { running with sc := { running.sc with backlog := b } } (List.replicate n (cutOf 301))
    let w := running.sc.watermark
    8 ≤ w ∧ (testBacklog (p w false)).sc.backlog = true ∧ ((testBacklog (p w false)).sg.slots.get Slot.backlog.idx).active = true
    ∧ testBacklog (p (w - 1) false) = p (w - 1) false ∧ (testBacklog (p (w - 8) true)).sc.backlog = false ∧ testBacklog (p (w - 7) true) = p (w - 7) true := by
  decide +kernel

/-- An unknown code, a wrong length, the two lengths of LOAD RECIPE, and SET LIMITS in RUN. -/
theorem test_hyp_malformed :
    (request 4 []).malformed = true ∧ (request 16 []).malformed = true ∧ (request 32 recipeArgs).malformed = false
    ∧ (request 32 (words (1 :: recipeFields))).malformed = false ∧ (request 21 (List.replicate 7 0)).malformed = true
    ∧ Asks (asking running 21 (bytesOf 2 1 ++ w32 5)) 21 (pairWidths 6) [1, 5] (request 21 (bytesOf 2 1 ++ w32 5)) := by
  unfold Asks; decide +kernel

/-! ### The ring: every frame and every queue -/

/-- The part after a frame arrives. -/
def arrived (f : Frame) (p : Part) : Option Part := after (.frameReceive f.bytes) p

/-- A frame for another node: at a hop of 1, at a full forward buffer, from the part itself, with no node number, and at an IDLE port with nothing queued;
and a frame for the part's node that is no request. -/
theorem test_hyp_frame_ways :
    let other := frame 2 9 kindReply 2 []
    let full : Part := { sending with rif := { sending.rif with forward := List.replicate 8 other } }
    let dropped (w : DropReason) (f : Frame) (p : Part) : Option Nat := (arrived f p).map (fun q => (counterOf q (.framesDropped w)).value)
    dropped .hopExpired (frame 2 9 kindReply 1 []) sending = some 1 ∧ dropped .forwardOverrun other full = some 1
    ∧ dropped .stripped (frame 2 1 kindReply 2 []) sending = some 1 ∧ dropped .notRequest (frame 1 9 kindReply 2 []) sending = some 1
    ∧ (Part.reset 0).node = none ∧ (arrived other (Part.reset 0)).map (fun q => q.rif.port) = some (some (frame 2 9 kindReply 1 []))
    ∧ config.rif.port = none ∧ (arrived other config).map (fun q => (q.rif.port, q.rif.forwardCount)) = some (some (frame 2 9 kindReply 1 []), 1) := by
  decide +kernel

/-- Three frames wait for a normal queue with room for two; a GO that enters the urgent queue starts the ACCEPTED limit of its stand. -/
theorem test_hyp_entering :
    let n (k : Nat) : Message := .notice (.alarm .backlog k 1)
    let p : Part := { sending with rif := { sending.rif with
      normal := List.replicate 30 (n 0), normalWait := [1, 2, 3].map (fun k => { msg := n k, late := false }) } }
    let st : Stand := { standOf sending 4 with splice := .sent, recent := some { seq := 7, arm := .b, grade := 31, isOpen := true } }
    let q : Part := setStandRec { sending with rif := { sending.rif with
      urgentWait := [{ msg := .command (.go 4 .b 7) 20 3, late := false }] } } 4 st
    (refill false p).rif.normal.drop 30 = [n 1, n 2] ∧ (refill false p).rif.normalWait.map Waiting.msg = [n 3]
    ∧ (standOf (refill true q) 4).acceptBy = some 200 ∧ (refill true q).rif.urgent.length = 1 := by
  decide +kernel

/-! ### The web, again -/

/-- A board sample that changes the average speed, with an advance of B and without; the same of a feeder in use; a glitch and a backward run. -/
theorem test_hyp_speed_change :
    let e : Encoder := { Encoder.reset with ref := some (0, 0) }
    let turning : Encoder := { e with history := List.replicate 8 800 }
    let told (m : Motion) : Nat × Nat := (m.advance, m.after.speed)
    told (e.sample 8 1000) = (8, 1000) ∧ told (turning.sample 0 1000) = (0, 700) ∧ e.speed = 0 ∧ turning.speed = 800 ∧ feederInUse running 0 = true
    ∧ (posF (feederSample 0 8 1000 (setFeeder running 0 e)) 0) = 8
    ∧ (e.sample 4097 1).glitch = true ∧ ({ e with reverseLimit := 3 }.sample (-4) 1).reverse = true ∧ (e.sample (-4) 1).reverse = false := by
  decide +kernel

/-- Where two unbound joints stand, and one of the other feeder, when K of feeder 1 takes a value that moves them, and its own. -/
theorem test_hyp_k_change :
    let far : TrackEntry :=
      { jointAt 3 900 with kind := .spliceJoint 2 7, origin := .stand 2, binding := some { feeder := 1, start := 0, bound := false, web := some 8000 } }
    let p := setTrack running [{ jointAt 2 0 with extent := some 7990, binding := some { feeder := 0, start := -10, bound := false, web := some 8000 } }, jointAt 1 0, far]
    let placed (k : Int) : List (Nat × Nat × Option Nat) := (setK 0 k p).wt.track.map (fun e => (e.id, e.start, e.extent))
    bridgeK p 0 = 0 ∧ setK 0 0 p = p ∧ placed 500 = [(2, 490, some 8000), (1, 500, some 8000), (3, 900, some 8000)]
    ∧ placed (-500) = [(1, 0, some 7500), (2, 0, some 7490), (3, 900, some 8000)]
    ∧ (moveUnbound 0 p).2 = [] := by
  decide +kernel

/-- Sightings exactly at a joint, which corrects nothing and leaves its zone, and with a maximum correction of 0, which moves the joint alone. -/
theorem test_hyp_sight_without_correction :
    let p := sightable [jointAt 1 497000]
    let still := setBridgeRec p 0 { p.wt.bridges.get 0 with maxCorr := 0 }
    let seen (q : Part) (e : TrackEntry) := ((matchJoint 0 500000 0 e q).wt.track.map (fun x => (x.start, x.isBound)), bridgeK (matchJoint 0 500000 0 e q) 0)
    seen p (jointAt 1 497000) = ([(497000, true)], 0) ∧ (sighted p 500000 0 (jointAt 1 497000)).zone = (jointAt 1 497000).zone
    ∧ seen (setTrack still [jointAt 1 497010]) (jointAt 1 497010) = ([(497000, true)], 0) := by
  decide +kernel

/-- Defects that find no credit: one is merged into the latest DEFECT, one would make it longer than 1,000,000 units; MARK at a feeder station. -/
theorem test_hyp_merge :
    defectsAfter 0 [defectAt 3 1000 100, defectAt 4 400000 100] = [(3, 1000, 100), (4, 400000, 100100)]
    ∧ defectsAfter 0 [defectAt 3 100 300000, defectAt 4 1600000 100] = [(3, 100, 300000), (4, 1600000, 100)]
    ∧ stationOf 1 = some (.stand 0) ∧ (Station.stand 0).onFeeder = true ∧ stationOf 0 = none
    ∧ Asks (asking running 65 (words [1, 1, 5])) 65 [4, 4, 4] [1, 1, 5] (request 65 (words [1, 1, 5])) := by
  unfold Asks; decide +kernel

/-- R36: a mark's point at B = 3,000,000 before a first cut, with the last cut's end below it, and with that end beyond it. -/
theorem test_hyp_mark_point :
    [none, some 2999999, some 3000001].map (fun k => markPoint { producing with dec := { producing.dec with kLast := k } } .slitter)
      = [3000000, 3000000, 3000001] := by
  decide +kernel

/-- An unbound BOND entry of glue unit 1. -/
def bondAt (id start : Nat) (extent : Option Nat) : TrackEntry :=
  { id := id, kind := .bond, start := start, extent := extent, cull := true, origin := .glue 0,
    binding := some { feeder := 0, start := start, bound := false, web := extent } }

/-- A BOND entry that its detector has passed and one it has not; a zone closed with a travel above 0, with a travel of 0, and one whose place is cut at 0. -/
theorem test_hyp_bonds :
    let p := setTrack { running with wt := { running.wt with board := { running.wt.board with pos := 1000 } } } [bondAt 1 999 none, bondAt 2 1000 none]
    let low := setBridgeRec p 0 { p.wt.bridges.get 0 with k := -1009 }
    let zones (q : Part) := q.wt.track.map (fun e => (e.id, e.start, e.extent))
    (bindBonds p).wt.track.map TrackEntry.isBound = [true, false] ∧ bindBonds (setTrack p [bondAt 2 1000 none]) = setTrack p [bondAt 2 1000 none]
    ∧ zones (closeZone 1 40 p).1 = [(1, 999, some 40), (2, 1000, none)] ∧ zones (closeZone 1 0 p).1 = [(2, 1000, none)] ∧ (closeZone 3 5 p) = (p, [])
    ∧ zones (closeZone 1 40 low).1 = [(1, 0, some 30), (2, 1000, none)] := by
  decide +kernel

/-- An OFF_GRADE entry of stand 5 for order 6201. -/
def offAt (id start : Nat) (extent : Option Nat) : TrackEntry :=
  { id := id, kind := .offGrade 4 6201, start := start, extent := extent, cull := true, origin := .stand 4, binding := none }

/-- A grade check that keeps what it computes, one that inserts it, one that removes another and ends an open one at B; an insertion into a full list. -/
theorem test_hyp_grade_check :
    let kept := setTrack gradedPart (offAt 2 0 (some 4000000) :: gradedPart.wt.track)
    let moved := setTrack { gradedPart with wt := { gradedPart.wt with board := { gradedPart.wt.board with pos := 50 } } }
      ([offAt 2 0 none, offAt 3 60 (some 5)] ++ gradedPart.wt.track)
    let full := setTrack running ((List.range 64).map (fun k => swapAt (k + 1) (100 * k + 1000) 100))
    let offs (p : Part) := ((gradeCheck 4 p).1.wt.track.filter (fun e => decide (e.kind = .offGrade 4 6201))).map (fun e => (e.start, e.extent))
    gradeCheck 4 kept = (kept, []) ∧ offs gradedPart = [(0, some 4000000)] ∧ offs moved = [(0, some 50), (50, some 3999950)]
    ∧ standInUse gradedPart 4 = true ∧ insertOff 4 (5, none, 6201) full = (latch .trackOverflow full, [])
    ∧ insertOff 4 (5, some 9, 6201) full = (latch .trackOverflow full, []) := by
  decide +kernel

/-! ### The orders, in RUN -/

/-- The status of a reply that waits or is queued, of a command on a part that a reply can leave. -/
def answered (c : Instr) (p : Part) : Option Status :=
  (after c { p with rif := { p.rif with port := sending.rif.port } }).bind (fun q =>
    match q.rif.normal.getLast? with
    | some (.reply _ _ _ st _) => some st
    | _ => none)

/-- APPEND ORDER with a field out of range, for an EMPTY slot, with a tag held, at a full queue, and in RUN. -/
theorem test_hyp_append_ways :
    let orders (n : Nat) : Part := setOrders (loaded 0 running) ((List.range n).map (fun k => { order with tag := k }))
    let told (p : Part) (args : List Byte) : Option Status := answered .appendOrder (asking p 36 args)
    told (orders 0) (orderBytes.set 5 0) = some .badArg ∧ told running orderBytes = some .notFound ∧ told (queued running) orderBytes = some .conflict
    ∧ told (orders 24) orderBytes = some .full ∧ told (orders 23) orderBytes = some .ok
    ∧ ((after .appendOrder (asking (orders 0) 36 orderBytes)).map (fun q => q.os.next)) = some (some { ready := false, needsSwap := true }) := by
  decide +kernel

/-- The fields of an AMEND ORDER of `order`. -/
def amendment (revision slot quantity profile hold : Nat) : List Nat := [6201, revision, slot, 0, 0, 0, 0, 31, 2, 10000, quantity, 10, profile, 25, hold]

/-- A part with slots 1 and 2 LOADED, whose NEXT order is not ready. -/
def withNext : Part :=
  let p := queued running
  { setSlot p 1 { recipe := some (recipeOf true recipeFields), refs := 0 } with
      os := { p.os with next := some { ready := false, needsSwap := true } }, dec := { p.dec with active := some 119, inactive := .presetting 118 } }

/-- AMEND ORDER of a NEXT order, to the active station's profile and to another; between two LOADED slots; at revision 255; of a RUNNING order; and of a committed one. -/
theorem test_hyp_amend_ways :
    let amend (p : Part) (l : List Nat) : Option Part := after .amendOrder (asking p 37 (words l))
    let told (p : Part) (l : List Nat) : Option Status := answered .amendOrder (asking p 37 (words l))
    let open' := setRegions (loaded 1 producing) [{ orderRegion with start := 3000000 }]
    let committed := setRegions open' [{ orderRegion with stop := some 4000000, last := some 400 }, newRegion none 4000000 10000 401 false]
    (amend withNext (amendment 0 1 201 119 0)).map (fun q => (q.os.next, q.dec.inactive)) = some (some { ready := true, needsSwap := false }, .free)
    ∧ (amend withNext (amendment 0 1 201 120 0)).map (fun q => (q.os.next, q.dec.inactive)) = some (some { ready := false, needsSwap := true }, .presetting 120)
    ∧ (amend withNext (amendment 0 2 201 118 0)).map (fun q => ((q.bc.slots.get 0).refs, (q.bc.slots.get 1).refs)) = some (0, 1)
    ∧ told (setOrders withNext [{ order with revision := 255 }]) (amendment 255 1 201 118 0) = some .state
    ∧ told withNext (amendment 1 1 201 118 0) = some .conflict ∧ told withNext (amendment 0 3 201 118 0) = some .notFound
    ∧ told withNext (amendment 0 1 201 118 2) = some .badArg
    ∧ told open' (amendment 0 1 201 119 0) = some .state ∧ told committed (amendment 0 1 300 118 0) = some .state
    ∧ (amend open' (amendment 0 1 300 118 0)).map (fun q => q.os.regions.map (fun x => x.order.map (fun o => (o.quantity, o.revision)))) = some [some (300, 1)] := by
  decide +kernel

/-- WITHDRAW, HOLD and RELEASE ORDER of a NEXT order, and of a RUNNING one, open and committed. -/
theorem test_hyp_order_ways :
    let tag := words [6201]
    let told (c : Instr) (code : Nat) (p : Part) : Option Status := answered c (asking p code tag)
    let committed := setRegions producing [{ orderRegion with stop := some 4000000, last := some 400 }, newRegion none 4000000 10000 401 false]
    (after .withdrawOrder (asking withNext 38 tag)).map (fun q => (q.os.queue, q.os.next, q.dec.inactive)) = some ([], none, .free)
    ∧ told .holdOrder 39 withNext = some .state ∧ told .releaseOrder 40 withNext = some .state
    ∧ (after .withdrawOrder (asking producing 38 tag)).map (fun q => (q.os.regions.head?).map Region.withdrawn) = some (some true)
    ∧ told .withdrawOrder 38 committed = some .state ∧ told .holdOrder 39 producing = some .state := by
  decide +kernel

/-- A closed change that meets the span from the grid's origin to C has C computed anew, and one at C has not. -/
theorem test_hyp_hand_over :
    let p := setRegions producing [{ orderRegion with start := 3000000, change := some 5000000 }]
    let change (start : Nat) : Change := { before := none, after := some { start := start, extent := some 10 }, cull := true }
    let changes (q : Part) := q.os.regions.map Region.change
    changes (computeChange p) = [some 4040000] ∧ changes (handOver [change 3000005] p) = [some 4040000] ∧ changes (handOver [change 5000000] p) = [some 5000000] := by
  decide +kernel

/-! ### Reels and splices, in RUN -/

/-- ASSIGN REEL in RUN with a caliper and a core, without them, and with a caliper out of range, an unknown stand and a wrong presence field. -/
theorem test_hyp_assign_ways :
    let absent := 4294967295
    let p (l : List Nat) : Part := asking running 35 (words l)
    let record (l : List Nat) := (after .assignReel (p l)).map (fun q => ((standOf q 4).armB.reel, (standOf q 4).armB.caliper, (standOf q 4).armB.core))
    record [5, 2, 1, 9, 31, 250, 1100] = some (some 9, some 250, some 1100) ∧ record [5, 2, 0, 9, 31, absent, absent] = some (none, none, none)
    ∧ standInUse running 4 = true ∧ ((standOf running 4).arm .b).state ≠ .running
    ∧ [[5, 2, 1, 9, 31, 79, 1100], [6, 2, 1, 9, 31, 250, 1100], [5, 2, 2, 9, 31, 250, 1100]].map (fun l => answered .assignReel (p l))
      = List.replicate 3 (some .badArg) := by
  decide +kernel

/-- A stand 5 whose running reel has this much left by its diameter, with this plan, in a part with `gradedPart`'s region. -/
def planned (diameter : Nat) (plan : Option Plan) : Part :=
  setStandRec gradedPart 4 { dueStand with history := [diameter], plan := plan }

/-- At a commitment, a plan is armed for a web that is off grade, none where one is held, and none for a stand of which nothing is required. -/
theorem test_hyp_arm_plan :
    let pl : Plan := { grade := 31, tag := 6201, target := 0, reached := false }
    let held := armPlan 4 order 3000000 (planned 9000 (some pl))
    webGrade (planned 9000 none) 4 3000000 = 0
    ∧ (standOf (armPlan 4 order 3000000 (planned 9000 none)) 4).plan = some { pl with target := 2980000 }
    ∧ (alarmOf held .gradeNotReady).latch = true ∧ held.os.regions.map Region.gradeLate = [true] ∧ armPlan 0 order 3000000 running = running := by
  decide +kernel

/-- An evaluation stage by stage: nothing remains; a plan whose region has left, whose region has passed, and that stays; a trigger that is reached and one that is
not; a planned GO, one for the run-out, and none. -/
theorem test_hyp_evaluation :
    let pl : Plan := { grade := 45, tag := 6201, target := 0, reached := true }
    let p := planned 9000 (some pl)
    let passed := setRegions p [{ orderRegion with stop := some 0 }]
    let waits (target : Nat) : Part := planned 9000 (some { pl with target := target, reached := false })
    let sent (x : Part) : Bool := decide ((standOf x 4).splice = .sent)
    effective (planned 1100 none) 4 = some 0 ∧ (alarmOf (testExhausted 4 (planned 1100 none)) .reelExhausted).latch = true ∧ testExhausted 4 p = p
    ∧ [hopeless (setRegions p []) 4 pl, hopeless passed 4 pl, hopeless p 4 pl] = [true, true, false] ∧ (standOf (testHopeless 4 passed) 4).plan = none
    ∧ (testTrigger 4 (waits 0)).2 = true ∧ testTrigger 4 (waits 1) = (waits 1, false) ∧ standing (planned 1100 none) 4 = .due ∧ standing p 4 ≠ .due
    ∧ [decideGo 4 false p, decideGo 4 true (planned 1100 none), decideGo 4 true (planned 9000 none)].map sent = [true, true, false]
    ∧ (standOf (settleSplice 4 p) 4).splice = .armed ∧ (standOf (settleSplice 4 (planned 9000 none)) 4).splice = .idle := by
  decide +kernel

/-- Splicer reports of codes 3, 4 and 6 with a splice in flight and without; a joint that satisfies a plan at its region's start and before it, and a plan of another grade. -/
theorem test_hyp_splice_ends :
    let told (x : SpliceState) (code : Nat) := let q := splicerSample 4 code 1 (spliced x)
      ((standOf q 4).splice, (standOf q 4).recent.map GoRecord.isOpen, (alarmOf q .spliceFault).latch)
    let p := setRegions (planned 9000 (some { grade := 31, tag := 6201, target := 0, reached := true })) [{ orderRegion with start := 700 }]
    let plan (grade j : Nat) := ((standOf (satisfyPlan 4 grade j p) 4).plan.isSome, (satisfyPlan 4 grade j p).os.regions.map Region.gradeLate)
    [3, 4, 6].map (told .active) = List.replicate 3 (.idle, some false, true) ∧ [3, 4, 6].map (told .idle) = List.replicate 3 (.idle, some false, false)
    ∧ plan 31 700 = (false, [true]) ∧ plan 31 699 = (false, [false]) ∧ satisfyPlan 4 45 700 p = p := by
  decide +kernel

/-! ### The rest -/

/-- The travel of a zone that glue unit 1 opened at feeder position 100, and of one that unit 3 opened at B = 40. -/
theorem test_hyp_travel :
    let entry : TrackEntry :=
      { id := 1, kind := .bond, start := 0, extent := none, cull := true, origin := .glue 0,
        binding := some { feeder := 0, start := 100, bound := false, web := none } }
    let p := setFeeder (setTrack running [entry]) 0 { Encoder.reset with pos := 130 }
    let q : Part := setGlue (setGlue p 0 { GlueUnit.reset with deviation := true, entry := some 1 }) 2 { GlueUnit.reset with openedAt := 40 }
    glueTravel q 0 = 30 ∧ glueTravel { q with wt := { q.wt with board := { q.wt.board with pos := 50 } } } 2 = 10 := by
  decide +kernel

/-- The last cut of a report in the open region, where C is computed anew, and in a region before it. -/
theorem test_hyp_report_end :
    let p := setRegions producing [{ orderRegion with start := 3000000 }]
    let ended := setRegions producing
      [{ orderRegion with stop := some 3050000, last := some 305 }, { orderRegion with start := 3050000, first := some 306, order := some order5101 }]
    let cut : Cut := { number := 302, start := 3000000, stop := 3010000, measured := some 10000, moved := false }
    let changes (q : Part) := (lastCut cut q).os.regions.map Region.change
    changes p = [some 4040000] ∧ changes ended = [none, none] := by
  decide +kernel

/-- At the end of a run an open ORDER region and a committed one leave their records; the log of 16 loses one. -/
theorem test_hyp_aborted :
    let second := { orderRegion with start := 20, order := some order5101, first := some 306 }
    let p := setRegions (loaded 2 { running with wt := { running.wt with board := { running.wt.board with pos := 50 } } })
      [{ orderRegion with stop := some 20, last := some 305 }, second]
    let full : Part := { p with os := { p.os with log := (List.range 15).flatMap (fun _ => oneRecord.os.log) } }
    let ended (q : Part) := (after .enterConfig (asking q 2 [])).map (fun t => (t.os.log.length, (t.os.log.drop (t.os.log.length - 2)).map (fun x => (x.tag, x.boardLength, x.aborted))))
    ended p = some (2, [(6201, 20, true), (5101, 30, true)]) ∧ ended full = some (16, [(6201, 20, true), (5101, 30, true)])
    ∧ ((after .enterConfig (asking full 2 [])).map (fun t => ((alarmOf t .completionLost).count, (t.bc.slots.get 0).refs))) = some (1, 0) := by
  decide +kernel

/-- MAP WRITE at 96 entries, of an OUT key that has an entry and of the part's own node; MAP CLEAR of an OUT key that has an entry, and of an unknown direction. -/
theorem test_hyp_map_out :
    let entry (k : Nat) : InEntry := { node := BitVec.ofNat 8 (k + 2), channel := 0, input := .knife, state := .waiting, last := none }
    let full : Part := { config with si := { config.si with inMap := (List.range 96).map entry } }
    let write (l : List Nat) (p : Part) : Part := asking p 22 (words l)
    mapCount full = 96 ∧ answered .mapWrite (write [2, 239, 255, 9, 0] full) = some .full ∧ answered .mapWrite (write [2, 1, 0, 9, 0] config) = some .badArg
    ∧ answered .mapWrite (write [3, 20, 0, 9, 0] config) = some .badArg ∧ answered .mapClear (asking config 23 (words [3, 0, 0])) = some .badArg
    ∧ (after .mapWrite (write [2, 239, 255, 9, 0] bindable)).map (fun q => (outEntry q .rejectGate).map OutEntry.node) = some (some 239)
    ∧ (after .mapClear (asking bindable 23 (words [2, 9, 0]))).map (fun q => (q.si.outMap.length, outEntry q .rejectGate)) = some (4, none) := by
  decide +kernel

/-- ACK ALARMS of OFF_GRADE, seen, while a stand holds an open OFF_GRADE entry: it occurs again. A token of 256. -/
theorem test_hyp_held_alarm :
    let e : TrackEntry := { id := 2, kind := .offGrade 4 6201, start := 0, extent := none, cull := true, origin := .stand 4, binding := none }
    let p := latch .offGrade (setTrack running [e])
    let q : Part := { p with mu := { p.mu with readMade := true, generation := 1 } }
    (after .ackAlarms (asking q 47 (words [0]))).map (fun t => alarmOf t .offGrade) = some { latch := true, count := 2, stamp := 1 }
    ∧ answered .ackAlarms (asking q 47 (words [256])) = some .badArg := by
  decide +kernel

/-- An enabled alarm posts its notice; at a full normal queue the notice is lost; the 2^32 - 1st lost notice is followed by one that saturates the count. -/
theorem test_hyp_notices :
    let enabled' (n : Nat) : Part :=
      { sending with rif := { sending.rif with normal := List.replicate n (.notice (.alarm .backlog 1 1)) }, mu := { sending.mu with mask := BitVec.ofNat 64 (2 ^ 37 - 1) } }
    let p := latch .offGrade (enabled' 31)
    let lost := latch .offGrade (enabled' 32)
    let last : Part := { enabled' 32 with mu := (bump .noticesLost (2 ^ 32 - 1) (enabled' 32)).1.mu }
    enabled (enabled' 0) .offGrade = true ∧ p.rif.normal.getLast? = some (.notice (.alarm .offGrade 1 0)) ∧ (counterOf lost .noticesLost).value = 1
    ∧ (alarmOf lost .counterSaturated).latch = false ∧ (alarmOf (latch .offGrade last) .counterSaturated).latch = true
    ∧ (counterOf (latch .offGrade last) .noticesLost).saturated = true ∧ (latch .offGrade { enabled' 0 with rif := config.rif }).rif.port.isSome
    ∧ postNotice (.mark 1 1 1 true) (Part.reset 0) = Part.reset 0 := by
  decide +kernel

/-- READ STATUS of the sections with a list, from its start and beyond it, and READ TRACK at the occupancy. -/
theorem test_hyp_status_sections :
    let p : Part := { running with rif := { running.rif with roster := [{ node := 9, lastHeard := 0 }] }, si := bindable.si }
    let status (n i : Nat) : Option Status := answered .readStatus (asking p 44 (words [n, i]))
    [2, 3, 6, 7, 8, 9].map (fun n => status n 0) = List.replicate 6 (some .ok) ∧ [2, 3, 6, 7, 8, 9].map (fun n => status n 21) = List.replicate 6 (some .badArg)
    ∧ answered .readStatus (asking config 44 (words [8, 0])) = some .ok ∧ answered .readStatus (asking config 44 (words [8, 1])) = some .badArg
    ∧ answered .readTrack (asking fullOfMarks 45 (words [40])) = some .ok ∧ fullOfMarks.wt.track.length = 40 := by
  decide +kernel

/-- Seven bytes, and a frame whose check, length field or destination is wrong, fail the check; the destinations 239 and 255 pass it. -/
theorem test_hyp_check_fails :
    let parsed (dest len : Byte) (check : BitVec 16) : Bool :=
      let header := [dest, 9, 2, 5, 3, len]
      (parseFrame (header ++ [7] ++ bytesOf 2 ((crc16 (header ++ [7])).toNat + check.toNat))).isSome
    parseFrame (List.replicate 7 0) = none ∧ parsed 2 1 0 = true ∧ parsed 2 1 1 = false ∧ parsed 2 2 0 = false ∧ parsed 2 121 0 = false
    ∧ [239, 240, 254, 255].map (fun d => parsed d 1 0) = [true, false, false, true] := by
  decide +kernel

/-- Held GOs of stand 5, arm A PREPARED and arm B not: the most recent number's, in SENT and in ACTIVE; an earlier number's; both; another stand's. -/
theorem test_hyp_held_go :
    let arms (a b : ArmState) (st : Stand) : Stand := { st with armA := { st.armA with state := a }, armB := { st.armB with state := b } }
    let go (x : SpliceState) (l : List Command) : Part := setStandRec (waiting l) 4 (arms .prepared .loaded (standOf (spliced x) 4))
    let tested (x : SpliceState) (l : List Command) :=
      let q := testHeldGo 4 (go x l); ((standOf q 4).splice, (standOf q 4).recent.map GoRecord.isOpen, q.rif.urgentWait.length)
    (standOf (spliced .sent) 4).recent.map GoRecord.seq = some 1
    ∧ tested .sent [.go 4 .a 1, .divert 5] = (.sent, some true, 2) ∧ tested .sent [.go 4 .b 1, .divert 5] = (.idle, some false, 1)
    ∧ tested .active [.go 4 .b 1, .divert 5] = (.idle, some false, 1) ∧ tested .sent [.go 4 .b 0, .go 4 .a 1] = (.sent, some true, 1)
    ∧ tested .sent [.go 4 .a 0, .go 4 .b 1] = (.idle, some false, 1) ∧ tested .sent [.go 3 .b 1] = (.sent, some true, 1) := by
  decide +kernel

/-- A cut that reaches the last cuts of two regions, and one that reaches none. -/
theorem test_hyp_end_regions :
    let first := { orderRegion with stop := some 20, last := some 305 }
    let p := setRegions (loaded 1 producing)
      [first, { first with order := none, start := 20, first := some 306, last := some 306 }, { orderRegion with start := 20, first := some 307 }]
    endRegions 304 p = p ∧ (endRegions 306 p).os.regions.map Region.ended = [false]
    ∧ ((endRegions 306 (setCuts p [cutOf 305])).os.regions.map Region.ended, (endRegions 306 (setCuts p [cutOf 305])).sc.cuts.map CutEntry.orderEnd)
        = ([true, true, false], [true]) := by
  decide +kernel

/-- A glue unit, a wrap and a zone look up a changed recipe, then the same again, in RUN; none does in CONFIG, nor a unit that is not in use. -/
theorem test_hyp_unit_lookups :
    let p := loaded 1 producing
    let q := lookupAll p
    let first (r : Part) := ((r.bc.glue.get 0).requested, (r.bc.wraps.get 0).acting, (r.bc.zones.get 0).requested)
    let idle : Part := { p with mu := { p.mu with mode := .config } }
    first p = (none, none, none) ∧ first q = (some 1, some 1, some 1) ∧ lookupAll q = q ∧ lookupAll idle = idle
    ∧ (q.bc.glue.get 1).requested = none ∧ p.wt.line = .single ∧ (q.bc.zones.get 0).last = some 1900 ∧ (q.bc.zones.get 7).requested
        = (if 7 < p.bc.zoneCount then some 1 else none) := by
  decide +kernel

/-- The entries that deviations of glue units 1 and 3 open. -/
theorem test_hyp_opened :
    let p (g : Fin 3) : Part := setGlue (setFeeder producing 0 { Encoder.reset with pos := 70 }) g { GlueUnit.reset with testSet := some 100, testTol := some 5 }
    let opened (g : Fin 3) := (glueSample g 106 (p g)).1.wt.track.map (fun e => (e.extent, e.binding.map Binding.start))
    opened 0 = [(none, some 70)] ∧ opened 2 = [(none, none)] ∧ ((glueSample 2 106 (p 2)).1.bc.glue.get 2).openedAt = 3000000
    ∧ glueSample 0 105 (p 0) = (p 0, []) := by
  decide +kernel

/-- A good cut at a full queue: DIVERT is on its way while 15 wait, and lost while 16 do; the counts rise. -/
theorem test_hyp_full_queue :
    let p (n : Nat) : Part := setCuts (setRegions (waiting (List.replicate n (.divert 5))) [orderRegion]) (List.replicate 64 (cutOf 301))
    let q (n : Nat) : Part := (takeGood 303 orderRegion order (p n)).1
    (divertList (q 15)).length = 16 ∧ (alarmOf (q 15) .divertLost).latch = false ∧ (divertList (q 16)).length = 16 ∧ (alarmOf (q 16) .divertLost).latch = true
    ∧ (q 16).os.regions.map (fun r => r.culled.get Cause.backlog.idx) = [1] ∧ (counterOf (q 15) (.culled .backlog)).value = 1
    ∧ (outEntry (p 15) .rejectGate).isSome = true := by
  decide +kernel

/-- Heads that leave: stacked with both flags, and missing; EJECT while 31 wait, while 32 do, and without an OUT entry. -/
theorem test_hyp_removals :
    let e : CutEntry := { cutOf 301 with stackEnd := true, orderEnd := true }
    let p : Part := setCuts { producing with si := bindable.si } [e, cutOf 302]
    let ejects (n : Nat) : Part := waiting (List.replicate n (.eject 5))
    let q := removeStacked e [cutOf 302] p
    (q.os.regions.map Region.stacked, q.sc.stacked, (counterOf q .goodSheets).value, q.sc.cuts) = ([1], 1, 2, [cutOf 302])
    ∧ q.rif.normal.length + q.rif.urgent.length = 1 ∧ q.rif.port.isSome = true
    ∧ (let m := removeMissing e [] p; (m.os.regions.map Region.missing, m.sc.missing, (alarmOf m .stackerMissing).latch)) = ([1], 1, true)
    ∧ (stackerList (postEject 6201 (ejects 31))).length = 32 ∧ postOrderEnd 6201 (ejects 32) = latch .stackerCommandLost (ejects 32)
    ∧ postEject 6201 producing = producing := by
  decide +kernel

/-- A completion posts ORDER DONE with the record's flags. READ ORDER refuses a page above 2 and a tag that is not held, READ QUEUE a selector above 1. -/
theorem test_hyp_done_and_reads :
    let x : Region := { orderRegion with stop := some 3050000, last := some 305, ended := true, stacked := 100 }
    let p := setRegions (loaded 1 sending) [x]
    (completeFirst x [] p).rif.normal = [.notice (.orderDone 6201 true false false false)]
    ∧ [[6201, 3], [5101, 0]].map (fun l => answered .readOrder (asking producing 41 (words l))) = [some .badArg, some .notFound]
    ∧ [[0, 24], [1, 6], [2, 0], [0, 0]].map (fun l => answered .readQueue (asking (queued running) 42 (words l)))
        = [some .badArg, some .badArg, some .badArg, some .ok] := by
  decide +kernel

/-- The fields of a recipe, its ranges at their ends, and breakpoints that do not rise. -/
theorem test_hyp_recipe_fields :
    let with' (k n : Nat) : Recipe := recipeOf true (recipeFields.set k n)
    let legal (k n : Nat) : Bool := (with' k n).inRange
    [legal 0 50, legal 0 49, legal 3 65036, legal 3 65035, legal 39 500, legal 39 0, legal 41 600, legal 41 601] = [true, false, true, false, true, false, true, false]
    ∧ (recipeOf true recipeFields).slope.get 2 = -20 ∧ (with' 9 100).rising = false ∧ (with' 9 101).rising = true
    ∧ (recipeOf true recipeFields).bytes = recipeFields.flatMap (bytesOf 2) ∧ recipeFields.length = 42 := by
  decide +kernel

/-- The frames of RUN entry, with the next ones behind the one that is sent; the roles and the lead that are missing. -/
theorem test_hyp_run_entry :
    let p : Part := { bindable with rif := { bindable.rif with port := some (frame 2 9 2 2 [0]), roster := [{ node := 20, lastHeard := 0 }] } }
    let low : Part := { p with os := { p.os with commitLead := 200000 } }
    ((after .enterRun (asking p 1 [])).map (fun q => q.rif.urgent))
        = some [.command (.driveCeiling p.sg.lineMax) 20 0, .command (.changeLength p.os.wasteLength none) 20 0]
    ∧ missingRoles p = [] ∧ (missingRoles config).length = 10 ∧ (notConfigured config).length = 100
    ∧ answered .enterRun (asking low 1 []) = some .notConfigured ∧ notConfigured low = w32 1 ∧ (changeList p).length < 4 := by
  decide +kernel

/-- RESTART of a run with an ORDER region, a cut and a waiting command, and in CONFIG of a stand whose knife-side grade is set. -/
theorem test_hyp_restart_clears :
    let p := setCuts (setRegions (loaded 1 (waiting [.divert 5])) [orderRegion]) [cutOf 301]
    let graded := withStand config (fun st => { st with g0 := 31 })
    ((after .restart (asking p 3 [])).map (fun q => ([q.os.regions.length, q.os.log.length, q.sc.cuts.length, (q.bc.slots.get 0).refs, q.rif.urgentWait.length], q.sg.effective)))
        = some ([0, 0, 0, 0, 0], none)
    ∧ p.os.regions.length = 1 ∧ (after .restart (asking graded 3 [])).map (fun q => (standOf q 3).g0) = some 0 := by
  decide +kernel

/-- R20, R40: what RESTART in RUN leaves of an encoder, a bridge and the defect intake; B and K stay. -/
theorem test_restart_web :
    let w := producing.wt
    let p : Part := { producing with wt := { w with
      board := { w.board with ref := some (5, 6), residue := 7, debt := 8 }
      bridges := upd w.bridges 0 { w.bridges.get 0 with k := 9, low := true, high := true, lastSight := some 1 }
      credit := 3, remainder := 4, nextId := 12, defectLast := upd w.defectLast 2 (some 1) } }
    (after .restart (asking p 3 [])).map (fun q => q.wt)
      = some { w with board := { w.board with history := List.replicate 8 0 }, bridges := upd w.bridges 0 { w.bridges.get 0 with k := 9 }, nextId := 12 } := by
  decide +kernel

/-- SET LIMITS without a pair, and at the ends of R200's rows; a maximum gap below its unit's minimum, and a crawl speed above the line max. -/
theorem test_hyp_limit_rows :
    let pairs (l : List (Nat × Nat)) : Part := asking config 21 (l.flatMap (fun x => bytesOf 2 x.1 ++ w32 x.2))
    answered .setLimits (pairs []) = some .badArg ∧ answered .setLimits (pairs [(1, 5), (20, 5)]) = some .badArg
    ∧ [0, 1, 5, 6, 16, 17, 19, 20, 21, 23, 24, 25, 27, 28, 31, 32, 39, 40, 41, 74, 75].map (fun n => (settingOf n).isSome)
        = [false, true, true, false, false, true, true, false, true, true, true, true, true, false, false, true, true, true, false, true, false]
    ∧ (after .setLimits (pairs [(17, 900), (21, 100), (64, 10000), (65, 20000)])).map (fun q => (q.bc.maxGap.get 0, q.sg.crawl)) = some (900, 10000) := by
  decide +kernel

/-- The values of a sample as its input's owner takes them: a signed gap and temperature, counters modulo their range. -/
theorem test_hyp_deliver :
    let all : Word := BitVec.ofNat 32 4294967295
    let zone (p : Part) : List Int := (p.bc.zones.get 0).history
    let glue : Part := setGlue running 0 { running.bc.glue.get 0 with testSet := some 0, testTol := some 1 }
    zone (deliver (.zoneTemp 0) [all] running) = [-1] ∧ deliver (.glueFb 0) [all] glue = glue
    ∧ (glueSample 0 (BitVec.ofNat 32 2).toInt glue).2.length = 1
    ∧ (deliver .stacker [all] running).sc.lastArrival = some 65535 ∧ (deliver (.jointSight 0) [all] running).wt.bridges.toList.map Bridge.lastSight = [some 255, none]
    ∧ (deliver .knife [BitVec.ofNat 32 65836, 10000] producing).dec.cLast = some 300
    ∧ wordsOf 2 (w32 7 ++ w32 4294967295) = [7, all] := by
  decide +kernel

/-- What the owners are told: an encoder input that is stale with another one in use, alone, and one that is not in use; a zone in use and one that is not; a stand. -/
theorem test_hyp_owners_told :
    let input (i : Input) (x : Fresh) : InEntry := { node := 12, channel := 0, input := i, state := x, last := some 0 }
    let with' (l : List InEntry) : Part := { running with si := { running.si with inMap := l } }
    let held (p : Part) : Bool := ((holdEncoder p).sg.slots.get Slot.encoder.idx).active
    held (with' [input .boardEnc .stale]) = true ∧ held (with' [input .boardEnc .fresh, input (.feederEnc 0) .stale]) = true
    ∧ held (with' [input .boardEnc .fresh]) = false ∧ held (with' [input (.feederEnc 1) .stale]) = false
    ∧ (toldFresh .boardEnc (holdEncoder (with' [input .boardEnc .stale]))).sg.slots.get Slot.encoder.idx = { active := true, value := running.sg.crawl }
    ∧ (refresh (input .boardEnc .stale) (holdEncoder (with' [input .boardEnc .stale]))).sg.slots.get Slot.encoder.idx = { active := false, value := 0 }
    ∧ (standOf (toldStale (.standDia 4) running) 4).staleSince = true
    ∧ ((toldStale (.zoneTemp 0) (with' [input (.zoneTemp 0) .stale])).bc.zones.get 0).state = .stale
    ∧ toldStale .knife running = running := by
  decide +kernel

/-- Samples that are discarded: in CONFIG, and in RUN of what the line form and the zone count do not use. -/
theorem test_hyp_discards :
    config.mu.mode = .config ∧ running.mu.mode = .run ∧ running.wt.line = .single ∧ standInUse running 2 = false
    ∧ feederInUse running 1 = false ∧ glueInUse running 1 = false ∧ zoneInUse running 7 = true
    ∧ zoneInUse { running with bc := { running.bc with zoneCount := 7 } } 7 = false := by
  decide +kernel

/-- Temperatures of a zone: into a full history, and after its input was stale. -/
theorem test_hyp_zone_temperature :
    let zone (stale : Bool) : Part := setZone running 0 { running.bc.zones.get 0 with history := [1, 2, 3, 4, 5, 6, 7, 8], staleSince := stale }
    let entered (stale : Bool) : ZoneUnit := (zoneTempSample 0 9 (zone stale)).bc.zones.get 0
    (entered false).history = [2, 3, 4, 5, 6, 7, 8, 9] ∧ (entered true).history = [9] ∧ (entered true).staleSince = false
    ∧ (entered true).state = .unset := by
  decide +kernel

/-- The end of a deferred region, and of one that is not. -/
theorem test_hyp_fixed_end :
    let at'' (d : Bool) : Part := activate .orderWait running.sg.crawl (setRegions (loaded 1 producing) [{ orderRegion with deferred := d }])
    let wait (d : Bool) : Bool := ((fixEnd { orderRegion with deferred := d } (at'' d)).1.sg.slots.get Slot.orderWait.idx).active
    wait true = false ∧ wait false = true ∧ (at'' true).os.regions = [] ++ [{ orderRegion with deferred := true }] := by
  decide +kernel

/-- ERASE RECIPE keeps another slot's units, and slot numbers outside 1 to 32. -/
theorem test_hyp_erase_keeps_others :
    let p : Part := setZone (setGlue (loaded 0 config) 0 { config.bc.glue.get 0 with acting := some 1, requested := some 2 }) 0
      { config.bc.zones.get 0 with acting := some 2, requested := some 1 }
    let units (q : Part) := [(q.bc.glue.get 0).acting, (q.bc.glue.get 0).requested, (q.bc.zones.get 0).acting, (q.bc.zones.get 0).requested]
    (after .eraseRecipe (asking p 33 (words [1]))).map units = some [none, some 2, some 2, none]
    ∧ [0, 33].map (fun n => answered .eraseRecipe (asking config 33 (words [n]))) = [some .badArg, some .badArg]
    ∧ [0, 33].map (fun n => answered .readRecipe (asking config 34 (words [n]))) = [some .badArg, some .badArg]
    ∧ answered .loadRecipe (asking config 32 (w32 33 ++ recipeFields.flatMap (bytesOf 2))) = some .badArg := by
  decide +kernel

/-- SLITTER reports that no table lists, at the ends of the profile's range. -/
theorem test_hyp_slitter_checks :
    let bad (code profile : Nat) : Bool := (alarmOf (slitterSample code profile running) .badSample).latch
    [bad 0 5, bad 3 5, bad 1 0, bad 2 1000, bad 1 1, bad 2 999] = [true, true, true, true, false, false] := by
  decide +kernel

/-- SET LINE, SET STATION, SET BRIDGE and SET STAND at the ends of what they take. -/
theorem test_hyp_setting_refusals :
    let line (v : Nat) := answered .setLine (asking config 16 (words [v]))
    let station (n off : Nat) := answered .setStation (asking config 18 (words [n, off]))
    let bridge (l : List Nat) := answered .setBridge (asking config 20 (words l))
    let stand (n : Nat) := answered .setStand (asking config 19 (words [n, 500, 5000, 0, 0, 0, 0, 0]))
    [line 0, line 2, line 3] = [some .badArg, some .ok, some .badArg]
    ∧ [station 9 5, station 10 5, station 11 3000000, station 11 3000001, station 99 5] = [some .badArg, some .badArg, some .ok, some .badArg, some .badArg]
    ∧ [bridge [2, 0, 60000, 60000, 9999, 60000, 1000, 50000], bridge [3, 0, 60000, 60000, 9999, 60000, 1000, 50000],
       bridge [2, 0, 60000, 60000, 10000, 60000, 1000, 50000], bridge [2, 0, 60000, 60001, 9999, 60000, 1000, 50000]]
        = [some .ok, some .badArg, some .badArg, some .badArg]
    ∧ [stand 0, stand 5, stand 6] = [some .badArg, some .ok, some .badArg] := by
  decide +kernel

/-- RUN entry: a stand with a running arm, a filled zone, a swap, arrivals and a FRESH record, and what becomes of them. -/
theorem test_hyp_run_entry_values :
    let st : Stand := { standOf config 4 with armA := { state := .running, reel := none, grade := 7, caliper := none, core := none }, splice := .sent, history := [5], g0 := 1 }
    let p : Part := { setStandRec (setZone bindable 0 { bindable.bc.zones.get 0 with acting := some 3, history := [5] }) 4 st with
      dec := { bindable.dec with swap := .done, cLast := some 5 }
      sc := { bindable.sc with lastArrival := some 5, stacked := 5 } }
    let q := enterValues p
    ((standOf q 4).splice, (standOf q 4).g0, (standOf q 4).history, (standOf q 4).armA.grade) = (.idle, 7, [], 7)
    ∧ (q.bc.zones.get 0, q.dec.swap, q.dec.cLast, q.sc.lastArrival, q.sc.stacked) = (ZoneUnit.reset, .none, none, none, 0)
    ∧ q.si.inMap.all (fun e => decide (e.state = .waiting)) = true := by
  decide +kernel

end Sys2Proof.Tests
end

section
/-! The state right after reset. -/

namespace Sys2Proof.Machine

/-- A part right after reset holds no recipe (R102). -/
theorem recipeIn_reset (straps : Byte) (n : Nat) : recipeIn (Part.reset straps) (some n) = none := by
  unfold recipeIn
  dsimp only
  split
  · exact congrArg RecipeSlot.recipe (Vector.get_replicate _ _ _)
  · rfl

/-- Settles O4: the reset state is a fixed one, and each table of it holds one value at every place. -/
theorem resetState : Obligations.ResetState := by
  unfold Obligations.ResetState
  have alarms (w : Alarm) : alarmOf State.reset.part w = { latch := false, count := 0, stamp := 0 } := Vector.get_replicate _ _ w.idx
  have counters (c : Counter) : counterOf State.reset.part c = { value := 0, saturated := false } := Vector.get_replicate _ _ c.idx
  have feeders (f : Fin 2) : posF State.reset.part f = 0 := congrArg Encoder.pos (Vector.get_replicate _ Encoder.reset f)
  have bridges (f : Fin 2) : bridgeK State.reset.part f = 0 := congrArg Bridge.k (Vector.get_replicate _ Bridge.reset f)
  have offsets (st : Station) : offset State.reset.part st = 0 := Vector.get_replicate _ _ st.idx
  have stand (s : Fin 5) : standOf State.reset.part s = Stand.reset := Vector.get_replicate _ _ s
  have slots (x : Slot) : slotActive State.reset.part x = false := congrArg Contribution.active (Vector.get_replicate _ _ x.idx)
  refine ⟨rfl, rfl, rfl, rfl, rfl, rfl, alarms, counters, rfl, fun f => ⟨feeders f, bridges f⟩, rfl, offsets, rfl, rfl, rfl, rfl, rfl, rfl, rfl, rfl,
    rfl, rfl, fun s => ?_, recipeIn_reset 1, rfl, rfl, rfl, rfl, rfl, slots, rfl, rfl, rfl, rfl, rfl, rfl, rfl, rfl, rfl⟩
  rw [stand s]
  exact ⟨rfl, rfl, rfl, rfl, rfl⟩

end Sys2Proof.Machine
end

section
/-! What every command keeps: the commands that leave the mode keep the invariants, and a run goes on only through such commands. -/

namespace Sys2Proof.Machine

/-- The commands that can put the part in another mode or back to reset (R171, R197 to R199). -/
def changesMode : Instr → Bool
  | .powerOnReset _ => true
  | .enterRun => true
  | .enterConfig => true
  | .restart => true
  | _ => false

/-- Every command that leaves the mode keeps the invariants, and in RUN the positions. -/
theorem exec_sound (c : Instr) (s : State) (h : changesMode c = false) :
    ∃ q, exec c s = .next { s with part := q } ∧ Sound s.part q := by
  cases c with
  | powerOnReset _ => cases h
  | enterRun => cases h
  | enterConfig => cases h
  | restart => cases h
  | frameReceive b => exact ⟨_, rfl, receive_sound b⟩
  | transmissionEnd => exact ⟨_, rfl, endTransmission_sound⟩
  | waitingFrameEntry => exact ⟨_, rfl, enterWaiting_sound⟩
  | rosterSweep => exact ⟨_, rfl, sweep_sound⟩
  | freshnessExpiry role index =>
    refine ⟨_, rfl, ?_⟩
    dsimp only
    split
    · exact freshnessExpires_sound _
    · exact .refl _
  | refreshExpiry => exact ⟨_, rfl, refreshExpires_sound⟩
  | transitDeadlineExpiry => exact ⟨_, rfl, transitExpires_sound⟩
  | acceptedTimeout n =>
    refine ⟨_, rfl, ?_⟩
    dsimp only
    split
    · exact acceptedExpiry_sound _
    · exact .refl _
  | doneTimeout n =>
    refine ⟨_, rfl, ?_⟩
    dsimp only
    split
    · exact doneExpiry_sound _
    · exact .refl _
  | glueSettleExpiry n =>
    refine ⟨_, rfl, ?_⟩
    dsimp only
    split
    · exact settleExpires_sound _
    · exact .refl _
  | mgmtUnknownRequest => exact ⟨_, rfl, unknownRequest_sound⟩
  | setLine => exact ⟨_, rfl, setLine_sound⟩
  | setEncoder => exact ⟨_, rfl, setEncoder_sound⟩
  | setStation => exact ⟨_, rfl, setStation_sound⟩
  | setStand => exact ⟨_, rfl, setStand_sound⟩
  | setBridge => exact ⟨_, rfl, setBridge_sound⟩
  | setLimits => exact ⟨_, rfl, setLimits_sound⟩
  | mapWrite => exact ⟨_, rfl, mapWrite_sound⟩
  | mapClear => exact ⟨_, rfl, mapClear_sound⟩
  | rosterClear => exact ⟨_, rfl, rosterClear_sound⟩
  | loadRecipe => exact ⟨_, rfl, loadRecipe_sound⟩
  | eraseRecipe => exact ⟨_, rfl, eraseRecipe_sound⟩
  | readRecipe => exact ⟨_, rfl, readRecipe_sound⟩
  | assignReel => exact ⟨_, rfl, assignReel_sound⟩
  | appendOrder => exact ⟨_, rfl, appendOrder_sound⟩
  | amendOrder => exact ⟨_, rfl, amendOrder_sound⟩
  | withdrawOrder => exact ⟨_, rfl, withdrawOrder_sound⟩
  | holdOrder => exact ⟨_, rfl, holdOrder_sound⟩
  | releaseOrder => exact ⟨_, rfl, releaseOrder_sound⟩
  | readOrder => exact ⟨_, rfl, readOrder_sound⟩
  | readQueue => exact ⟨_, rfl, readQueue_sound⟩
  | readCompletion => exact ⟨_, rfl, readCompletion_sound⟩
  | readStatus => exact ⟨_, rfl, readStatus_sound⟩
  | readTrack => exact ⟨_, rfl, readTrack_sound⟩
  | readAlarms => exact ⟨_, rfl, readAlarms_sound⟩
  | ackAlarms => exact ⟨_, rfl, ackAlarms_sound⟩
  | setNoticeMask => exact ⟨_, rfl, setNoticeMask_sound⟩
  | snapshot => exact ⟨_, rfl, snapshot_sound⟩
  | snapshotClear => exact ⟨_, rfl, snapshotClear_sound⟩
  | readCounters => exact ⟨_, rfl, readCounters_sound⟩
  | alignBridge => exact ⟨_, rfl, alignBridge_sound⟩
  | mark => exact ⟨_, rfl, mark_sound⟩
  | setCeiling => exact ⟨_, rfl, setCeiling_sound⟩
  | clearCeiling => exact ⟨_, rfl, clearSlot_sound⟩
  | clearBreak => exact ⟨_, rfl, clearSlot_sound⟩

/-- A request's command either executes its owner's rule in a mode that takes the request, or keeps what `Sound` names: nothing happens, or the
request is refused (R195). -/
theorem serve_cases (code : Nat) (t : Taken) (ws : List Nat) (act : List Nat → Part → Answer) (p : Part) :
    Sound p (serve code t ws act p) ∨
      t.allows p.mu.mode = true ∧ ∃ r fs, serve code t ws act p = replyTo r (act fs (popRequest p)) := by
  have refused (r : Request) (st : Status) : Sound p (postReply r st [] (popRequest p)) :=
    (sound_popRequest p).trans ((posted_postReply _ _ _ _).sound (held_postReply _ _ _ _))
  unfold serve serveWith
  split
  · exact .inl (.refl p)
  · rename_i r _
    dsimp only
    split
    · exact .inl (refused r _)
    · rename_i fs _
      split
      · rename_i a
        exact .inr ⟨a, r, fs, rfl⟩
      · exact .inl (refused r _)

@[simp] theorem replyTo_mode (r : Request) (x : Answer) : (replyTo r x).mu.mode = x.part.mu.mode := postReply_mode _ _ _ _

theorem tick_sound (p : Part) : Sound p (tick p) := .easy rfl rfl rfl rfl rfl rfl rfl fun c => { c with }

@[simp] theorem restartClear_mode (p : Part) : (restartClear p).mu.mode = p.mu.mode := rfl

theorem postReply_sound (r : Request) (st : Status) (l : List Byte) (p : Part) : Sound p (postReply r st l p) :=
  (posted_postReply r st l p).sound (held_postReply r st l p)

/-- ENTER RUN is refused in RUN (R197). -/
theorem enterRun_sound_run {p : Part} (h : p.mu.mode = .run) : Sound p (serve 1 (.only .config) [] enterRunRequest p) := by
  rcases serve_cases 1 (.only .config) [] enterRunRequest p with k | ⟨a, _⟩
  · exact k
  · rw [h] at a
    cases a

/-- An ENTER CONFIG after which the part is in RUN has been refused (R198). -/
theorem enterConfig_sound_run {p : Part} (h : (serve 2 (.only .run) [] enterConfigRequest p).mu.mode = .run) :
    Sound p (serve 2 (.only .run) [] enterConfigRequest p) := by
  rcases serve_cases 2 (.only .run) [] enterConfigRequest p with k | ⟨_, r, fs, e⟩
  · exact k
  · rw [e] at h ⊢
    unfold enterConfigRequest at h ⊢
    split at h
    · rename_i moving
      rw [if_pos moving]
      exact (sound_popRequest p).trans (postReply_sound _ _ _ _)
    · rw [replyTo_mode, okWith, endRun_mode] at h
      cases h

/-- A RESTART executed in RUN ends the run (R199). -/
theorem restart_sound_run {p : Part} (hp : p.mu.mode = .run) (h : (serve 3 .either [] restartRequest p).mu.mode = .run) :
    Sound p (serve 3 .either [] restartRequest p) := by
  rcases serve_cases 3 .either [] restartRequest p with k | ⟨_, r, fs, e⟩
  · exact k
  · have run : inRun (popRequest p) = true := inRun_run hp
    rw [e, restartRequest, run, if_pos rfl, replyTo_mode, okWith, restartClear_mode, endRun_mode] at h
    cases h

/-- A run goes on only through commands that keep the invariants and the positions (R197 to R199). -/
theorem exec_sound_run {c : Instr} {s t : State} (hs : s.part.mu.mode = .run) (ht : t.part.mu.mode = .run) (h : exec c s = .next t) :
    Sound s.part t.part := by
  by_cases m : changesMode c = true
  · cases c with
    | powerOnReset straps => cases h; cases ht
    | enterRun => cases h; exact enterRun_sound_run hs
    | enterConfig => cases h; exact enterConfig_sound_run ht
    | restart => cases h; exact restart_sound_run hs ht
    | _ => cases m
  · obtain ⟨q, e, k⟩ := exec_sound c s (Bool.eq_false_iff.2 m)
    cases e.symm.trans h
    exact k

/-- A step within a run keeps the invariants and the positions. -/
theorem step_sound_run {s t : State} (hs : s.part.mu.mode = .run) (ht : t.part.mu.mode = .run) (h : step s = .next t) :
    Sound s.part t.part := by
  unfold step at h
  split at h
  · rename_i c rest _
    exact exec_sound_run (s := { s with pending := rest }) hs ht h
  · split at h
    · exact exec_sound_run hs ht h
    · cases h
      exact tick_sound s.part

/-- Settles O11: every step within a run keeps what `Sound` names, the positions among it. -/
theorem positionsNeverDecrease : Obligations.PositionsNeverDecrease := by
  intro s t hs ht h
  have sound := step_sound_run hs ht h
  exact ⟨sound.board hs, sound.feeders hs⟩

end Sys2Proof.Machine
end

section
/-! The requests that store WT's settings: each rule's answer to arguments in range and to the others (R4 to R6, R13). -/

namespace Sys2Proof.Machine

/-- A request's command answers what its owner's rule answers to the request's fields, in the mode that takes it (R195). -/
theorem onPart_serve_of_asks {code : Nat} {t : Taken} {ws fs : List Nat} {act : List Nat → Part → Answer} {s : State} {r : Request}
    {st : Status} {l : List Byte} {q : Part} (a : Asks s.part code ws fs r) (m : t.allows s.part.mu.mode = true)
    (h : act fs (popRequest s.part) = { part := q, status := st, results := l }) :
    onPart (serve code t ws act) s = Answered s r st l q := by
  refine onPart_answered ?_
  rw [serve_of_asks a m, h, replyTo]

theorem place_eq_some {n k : Nat} {i : Fin n} : place n k = some i ↔ k = i.val + 1 := by
  have := i.isLt
  unfold place
  split
  · simp only [Option.some.injEq, Fin.ext_iff]
    omega
  · simp only [reduceCtorEq, false_iff]
    omega

theorem within_iff {lo hi x : Nat} : within lo hi x = true ↔ lo ≤ x ∧ x ≤ hi := by simp [within]

section Settings

variable {p : Part}

theorem setLineForm_known {v : Nat} {l : LineForm} (h : lineFormOf v = some l) :
    setLineForm [v] p = okWith [] { p with wt := { p.wt with line := l } } := by
  simp only [setLineForm, h]

theorem setLineForm_unknown {v : Nat} (h : lineFormOf v = none) : setLineForm [v] p = refuse .badArg p := by
  simp only [setLineForm, h]

theorem fixed_iff {st : Station} : st.fixed = true ↔ st = .glue 0 ∨ st = .glue 1 := by simp [Station.fixed]

theorem setStationOffset_ok {n off : Nat} {st : Station} (h : stationOf n = some st) (h0 : st ≠ .glue 0) (h1 : st ≠ .glue 1)
    (o : off ≤ 3000000) : setStationOffset [n, off] p = okWith [] { p with wt := { p.wt with offsets := upd p.wt.offsets st.idx off } } := by
  have free : ¬(st.fixed || decide (3000000 < off)) = true := by
    rw [Bool.or_eq_true, fixed_iff, decide_eq_true_eq]
    rintro ((e | e) | e)
    · exact h0 e
    · exact h1 e
    · omega
  simp only [setStationOffset, h]
  rw [if_neg free]

theorem setStationOffset_refused {n off : Nat}
    (h : stationOf n = none ∨ stationOf n = some (.glue 0) ∨ stationOf n = some (.glue 1) ∨ 3000000 < off) :
    setStationOffset [n, off] p = refuse .badArg p := by
  cases e : stationOf n with
  | none => simp only [setStationOffset, e]
  | some st =>
    have bad : (st.fixed || decide (3000000 < off)) = true := by
      rw [Bool.or_eq_true, fixed_iff, decide_eq_true_eq]
      rw [e] at h
      simpa [or_assoc] using h
    simp only [setStationOffset, e]
    rw [if_pos bad]

/-- The ranges of a bridge's settings (R13). -/
def BridgeRanges (lfix cap qnom lo hi w corr : Nat) : Prop :=
  lfix ≤ 5000000 ∧ (10000 ≤ cap ∧ cap ≤ 5000000) ∧ qnom ≤ cap ∧ lo ≤ cap ∧ hi ≤ cap ∧ (1000 ≤ w ∧ w ≤ 100000) ∧ corr ≤ 50000 ∧ lo + 50000 < hi

theorem setBridgeSettings_ok {n lfix cap qnom lo hi w corr : Nat} {f : Fin 2} (h : place 2 n = some f)
    (r : BridgeRanges lfix cap qnom lo hi w corr) :
    setBridgeSettings [n, lfix, cap, qnom, lo, hi, w, corr] p
      = okWith [] (setBridgeRec p f
          { p.wt.bridges.get f with
              lfix := lfix, capacity := cap, qnom := qnom, minimum := lo, maximum := hi, window := w, maxCorr := corr }) := by
  simp only [setBridgeSettings, h]
  rw [if_pos]
  simpa [within_iff, BridgeRanges, and_assoc] using r

theorem setBridgeSettings_refused {n lfix cap qnom lo hi w corr : Nat} (h : n < 1 ∨ 2 < n ∨ ¬BridgeRanges lfix cap qnom lo hi w corr) :
    setBridgeSettings [n, lfix, cap, qnom, lo, hi, w, corr] p = refuse .badArg p := by
  cases e : place 2 n with
  | none => simp only [setBridgeSettings, e]
  | some f =>
    have k := place_eq_some.1 e
    have bad : ¬BridgeRanges lfix cap qnom lo hi w corr := by
      rcases h with h | h | h
      · omega
      · omega
      · exact h
    simp only [setBridgeSettings, e]
    rw [if_neg]
    simpa [within_iff, BridgeRanges, and_assoc] using bad

theorem setEncoderSettings_board {sigma gmax limit : Nat} (s : 4096 ≤ sigma ∧ sigma ≤ 16777215) (g : 1 ≤ gmax ∧ gmax ≤ 65535) :
    setEncoderSettings [0, sigma, gmax, limit] p = okWith [] (setBoard p (p.wt.board.configure sigma gmax limit)) := by
  simp only [setEncoderSettings, within_iff.2 s, within_iff.2 g, Bool.and_self, if_true]

theorem setEncoderSettings_feeder {n sigma gmax limit : Nat} {f : Fin 2} (h : place 2 n = some f)
    (s : 4096 ≤ sigma ∧ sigma ≤ 16777215) (g : 1 ≤ gmax ∧ gmax ≤ 65535) :
    setEncoderSettings [n, sigma, gmax, limit] p = okWith [] (setFeeder p f ((p.wt.feeders.get f).configure sigma gmax limit)) := by
  cases place_eq_some.1 h
  match f with
  | 0 => simp only [setEncoderSettings, within_iff.2 s, within_iff.2 g, Bool.and_self, if_true]; rfl
  | 1 => simp only [setEncoderSettings, within_iff.2 s, within_iff.2 g, Bool.and_self, if_true]; rfl

theorem setEncoderSettings_refused {n sigma gmax limit : Nat} (h : 2 < n ∨ sigma < 4096 ∨ 16777215 < sigma ∨ gmax < 1 ∨ 65535 < gmax) :
    setEncoderSettings [n, sigma, gmax, limit] p = refuse .badArg p := by
  unfold setEncoderSettings
  dsimp only
  split
  · rename_i r
    rw [Bool.and_eq_true, within_iff, within_iff] at r
    split
    · omega
    · omega
    · omega
    · rfl
  · rfl

end Settings

/-- Settles O22: each rule's answer, for arguments in range and for the others. -/
theorem webSettingsAreStored : Obligations.WebSettingsAreStored := by
  intro s r config
  have taken : (Taken.only .config).allows s.part.mu.mode = true := by rw [config]; rfl
  refine ⟨fun v l a h => ?_, fun v a h => ?_, fun n off a h => ?_, fun n off st a h h0 h1 o => ?_,
    fun n f lfix cap qnom lo hi w corr a h l c0 c1 q lo' hi' w0 w1 co d => ?_, fun n lfix cap qnom lo hi w corr a h => ?_,
    fun n sigma gmax limit a => ⟨fun g => ⟨fun z => ?_, fun f h => ?_⟩, fun h => ?_⟩⟩
  · exact onPart_serve_of_asks a taken (setLineForm_known h)
  · exact onPart_serve_of_asks a taken (setLineForm_unknown h)
  · exact onPart_serve_of_asks a taken (setStationOffset_refused h)
  · exact onPart_serve_of_asks a taken (setStationOffset_ok h h0 h1 o)
  · exact onPart_serve_of_asks a taken (setBridgeSettings_ok h ⟨l, ⟨c0, c1⟩, q, lo', hi', ⟨w0, w1⟩, co, d⟩)
  · refine onPart_serve_of_asks a taken (setBridgeSettings_refused ?_)
    unfold BridgeRanges
    omega
  · subst z
    obtain ⟨s0, s1, g0, g1⟩ := g
    exact onPart_serve_of_asks a taken (setEncoderSettings_board ⟨s0, s1⟩ ⟨g0, g1⟩)
  · obtain ⟨s0, s1, g0, g1⟩ := g
    exact onPart_serve_of_asks a taken (setEncoderSettings_feeder h ⟨s0, s1⟩ ⟨g0, g1⟩)
  · exact onPart_serve_of_asks a taken (setEncoderSettings_refused h)

end Sys2Proof.Machine
end

section
/-! Encoder samples: the record's motion and stages, what an advance and a change of speed start, and what a stale encoder input does (R8 to R12). -/

namespace Sys2Proof.Machine

/-! ## An encoder's record (R8 to R10) -/

namespace Encoder

theorem move_residue (e : Encoder) (dc : Int) (dt : Nat) :
    ((e.move dc dt).after.residue : Int) = ((e.residue : Int) + dc * e.sigma) % 65536 := by
  have r : (e.move dc dt).after.residue = (((e.residue : Int) + dc * e.sigma) % 65536).toNat := by
    unfold move
    dsimp only
    split <;> rfl
  rw [r]
  omega

theorem move_history (e : Encoder) (dc : Int) (dt : Nat) :
    (e.move dc dt).after.history = enter8 e.history (instantSpeed e.sigma dc dt) := by
  unfold move
  dsimp only
  split <;> rfl

/-- Forward motion repays the debt before it advances (R9). -/
theorem move_forward {e : Encoder} {dc : Int} {dt : Nat} (h : 0 ≤ ((e.residue : Int) + dc * e.sigma) / 65536) :
    let m := e.move dc dt
    let n := (((e.residue : Int) + dc * e.sigma) / 65536).toNat
    m.reverse = false ∧ m.advance = n - min e.debt n ∧ m.after.pos = e.pos + m.advance ∧ m.after.debt = e.debt - min e.debt n := by
  unfold move
  dsimp only
  rw [if_neg (by omega)]
  exact ⟨rfl, rfl, rfl, rfl⟩

/-- Backward motion raises the debt up to the reverse limit (R9). -/
theorem move_backward {e : Encoder} {dc : Int} {dt : Nat} (h : ((e.residue : Int) + dc * e.sigma) / 65536 < 0) :
    let m := e.move dc dt
    let n := (((e.residue : Int) + dc * e.sigma) / 65536).natAbs
    m.reverse = decide (e.reverseLimit < e.debt + n) ∧ m.advance = 0 ∧ m.after.pos = e.pos ∧ m.after.debt = min e.reverseLimit (e.debt + n) := by
  unfold move
  dsimp only
  rw [if_pos h]
  exact ⟨rfl, rfl, rfl, rfl⟩

theorem sample_first {e : Encoder} (c t : Word) (h : e.ref = none) :
    e.sample c t = { after := { e with ref := some (c, t) }, advance := 0, glitch := false, reverse := false } := by
  simp only [sample, h]

section Referred

variable {e : Encoder} {c t c₀ t₀ : Word} (h : e.ref = some (c₀, t₀))
include h

theorem sample_duplicate (d : t = t₀) : e.sample c t = { after := e, advance := 0, glitch := false, reverse := false } := by
  simp only [sample, h]
  rw [if_pos d]

theorem sample_glitch (d : t ≠ t₀) (g : e.gmax < (c - c₀).toInt.natAbs) :
    e.sample c t = { after := { e with ref := some (c, t) }, advance := 0, glitch := true, reverse := false } := by
  simp only [sample, h]
  rw [if_neg d, if_pos g]

theorem sample_motion (d : t ≠ t₀) (g : (c - c₀).toInt.natAbs ≤ e.gmax) :
    e.sample c t = ({ e with ref := some (c, t) } : Encoder).move (c - c₀).toInt (t - t₀).toNat := by
  simp only [sample, h]
  rw [if_neg d, if_neg (by omega)]

end Referred

end Encoder

theorem instantSpeed_eq (sigma : Nat) (dc : Int) (dt : Nat) :
    (instantSpeed sigma dc dt : Int) = min 100000 (max 0 (dc * sigma * 1000000 / (65536 * dt))) := by
  unfold instantSpeed clampInt
  push_cast
  omega

theorem enter8_full {α : Type} {l : List α} (h : l.length = 8) (x : α) : enter8 l x = l.tail ++ [x] := by
  rw [enter8, if_pos (by omega)]

/-- A fold over a table of three places. -/
theorem forEach_three (f : Fin 3 → Part → Part) (p : Part) : forEach f p = f 2 (f 1 (f 0 p)) := rfl

/-! ## Which feeders and glue units are in use (R5, R108) -/

theorem feederInUse_one {p : Part} : feederInUse p 1 = true ↔ p.wt.line = .double := by simp [feederInUse]

theorem feederInUse_single {p : Part} {f : Fin 2} (h : f = 1 ∧ p.wt.line = .single) : feederInUse p f = false := by
  obtain ⟨rfl, h⟩ := h
  simp [feederInUse, h]

theorem glueInUse_one {p : Part} : glueInUse p 1 = true ↔ p.wt.line = .double := by simp [glueInUse]

theorem evalFeeder_first (p : Part) : evalFeeder 0 p = evalStand 1 (evalStand 0 p) := rfl

theorem evalFeeder_second (p : Part) : evalFeeder 1 p = evalStand 3 (evalStand 2 p) := rfl

/-- A change of the line speed computes the gaps of the units in use, then the wraps (R110). -/
theorem speedChanged_run {p : Part} (h : p.mu.mode = .run) :
    speedChanged p = computeWrap 2 (computeWrap 1 (computeWrap 0 (computeGlue 2
      (if (computeGlue 0 p).wt.line = .double then computeGlue 1 (computeGlue 0 p) else computeGlue 0 p)))) := by
  unfold speedChanged
  rw [inRun_run h, if_pos rfl, forEach_three, forEach_three]
  simp only [glueInUse_one]
  rfl

/-! ## Samples and the reactions to them -/

section Samples

variable {p : Part} {c t : Word}

theorem boardAdvanced_eq (n : Nat) (p : Part) :
    boardAdvanced n p = raise .boardLength n (slitterLate (testSwapPoint (lookupAll (evalStand 4 (commitCheck (bindBonds (refillCredit n
      (missJoints (checkBridge 1 (checkBridge 0 p)))))))))) := rfl

theorem boardSample_run (h : p.mu.mode = .run) :
    boardSample c t p =
      (let m := p.wt.board.sample c t
       let q := motionAlarms m (setBoard p m.after)
       let q1 := if m.advance = 0 then q else boardAdvanced m.advance q
       if m.after.speed = p.wt.board.speed then q1 else speedChanged (if m.advance = 0 then evalStand 4 q1 else q1)) := by
  unfold boardSample
  rw [inRun_run h, if_pos rfl]

theorem feederSample_run {f : Fin 2} (h : p.mu.mode = .run) (u : feederInUse p f = true) :
    feederSample f c t p =
      (let m := (p.wt.feeders.get f).sample c t
       let q := motionAlarms m (setFeeder p f m.after)
       if m.advance ≠ 0 then feederAdvanced f q else if m.after.speed = (p.wt.feeders.get f).speed then q else evalFeeder f q) := by
  unfold feederSample
  rw [inRun_run h, u, Bool.and_self, if_pos rfl]

theorem feederSample_unused {f : Fin 2} (u : feederInUse p f = false) : feederSample f c t p = p := by
  unfold feederSample
  rw [u, Bool.and_false]
  rfl

end Samples

/-! ## Stale encoders (R11, R191) -/

section Stale

variable {p : Part}

theorem inputStale_iff {i : Input} : inputStale p i = true ↔ ∃ e ∈ p.si.inMap, e.input = i ∧ e.state = .stale := by simp [inputStale]

theorem encoderStale_iff :
    encoderStale p = true ↔
      inputStale p .boardEnc = true ∨ inputStale p (.feederEnc 0) = true ∨ (p.wt.line = .double ∧ inputStale p (.feederEnc 1) = true) := by
  simp only [encoderStale, Bool.or_eq_true, Bool.and_eq_true, feederInUse_one, or_assoc]

theorem encoderStale_feeder {f : Fin 2} (u : feederInUse p f = true) (h : inputStale p (.feederEnc f) = true) : encoderStale p = true := by
  rw [encoderStale_iff]
  match f with
  | 0 => exact .inr (.inl h)
  | 1 => exact .inr (.inr ⟨feederInUse_one.1 u, h⟩)

theorem holdEncoder_config (h : p.mu.mode = .config) : holdEncoder p = p := by
  unfold holdEncoder
  rw [inRun_config h]
  rfl

theorem holdEncoder_stale (h : p.mu.mode = .run) (s : encoderStale p = true) : holdEncoder p = activate .encoder p.sg.crawl p := by
  unfold holdEncoder holdAtCrawl
  rw [inRun_run h, if_pos rfl, s, if_pos rfl]

theorem holdEncoder_fresh (h : p.mu.mode = .run) (s : encoderStale p = false) : holdEncoder p = deactivate .encoder p := by
  unfold holdEncoder holdAtCrawl
  rw [inRun_run h, if_pos rfl, s]
  rfl

theorem activate_wt (x : Slot) (v : Nat) (p : Part) : (activate x v p).wt = p.wt := (slotWritten_activate x v p).posted.wt

theorem deactivate_wt (x : Slot) (p : Part) : (deactivate x p).wt = p.wt := (slotWritten_deactivate x p).posted.wt

theorem holdEncoder_wt (p : Part) : (holdEncoder p).wt = p.wt := by
  unfold holdEncoder holdAtCrawl
  split
  · split
    · exact activate_wt _ _ p
    · exact deactivate_wt _ p
  · rfl

theorem holdEncoder_slot (h : p.mu.mode = .run) (s : encoderStale p = true) :
    (holdEncoder p).sg.slots.get Slot.encoder.idx = { active := true, value := min p.sg.crawl p.sg.lineMax } := by
  rw [holdEncoder_stale h s]
  exact (slotWritten_activate _ _ p).get

theorem inEntry_spec {i : Input} {e : InEntry} (h : inEntry p i = some e) : e ∈ p.si.inMap ∧ e.input = i :=
  ⟨List.mem_of_find?_eq_some h, by simpa using List.find?_some h⟩

theorem inputStale_setFreshness {i : Input} {e : InEntry} (h : inEntry p i = some e) (last : Option Nat) :
    inputStale (setFreshness i .stale last p) i = true := by
  obtain ⟨m, rfl⟩ := inEntry_spec h
  exact inputStale_iff.2 ⟨{ e with state := .stale, last := last }, List.mem_map.2 ⟨e, m, by simp⟩, rfl, rfl⟩

/-- The part as an input's owner finds it when the input's limit has run out (R191): the record STALE, INPUT_STALE latched. -/
def expired (i : Input) (last : Option Nat) (p : Part) : Part := latch .inputStale (setFreshness i .stale last p)

/-- An input whose record is FRESH becomes stale once its limit has passed since its last sample, and its owner is told (R191). -/
theorem freshnessExpires_due {i : Input} {e : InEntry} {last : Nat} (h : p.mu.mode = .run) (m : inEntry p i = some e) (f : e.state = .fresh)
    (l : e.last = some last) (d : last + freshLimit p i ≤ p.time) :
    freshnessExpires i p = toldStale i (expired i e.last p) := by
  have ei : e.input = i := (inEntry_spec m).2
  have due : freshnessDue p e = true := by
    simp only [freshnessDue, f, l, ei, decide_true, Bool.true_and, decide_eq_true_eq]
    exact d
  unfold freshnessExpires
  rw [m]
  dsimp only
  rw [inRun_run h, due, Bool.and_self, if_pos rfl, expired]

theorem exec_freshnessExpiry {role : InRole} {index : Nat} {i : Input} (h : inputOf role index = some i) (s : State) :
    exec (.freshnessExpiry role index) s = .next { s with part := freshnessExpires i s.part } := by
  show execFreshnessExpiry role index s = _
  simp only [execFreshnessExpiry, onPart, h]

@[simp] theorem expired_wt (i : Input) (last : Option Nat) (p : Part) : (expired i last p).wt = p.wt := by rw [expired, latch_wt, setFreshness_wt]

@[simp] theorem expired_sg (i : Input) (last : Option Nat) (p : Part) : (expired i last p).sg = p.sg := by rw [expired, latch_sg, setFreshness_sg]

@[simp] theorem expired_mode (i : Input) (last : Option Nat) (p : Part) : (expired i last p).mu.mode = p.mu.mode := by
  rw [expired, latch_mode, setFreshness_mu]

theorem expired_stale {i : Input} {e : InEntry} (h : inEntry p i = some e) (last : Option Nat) : inputStale (expired i last p) i = true := by
  have := inputStale_setFreshness h last
  unfold inputStale at this ⊢
  rw [expired, latch_si]
  exact this

/-- The board encoder's input has become stale (R11). -/
theorem boardStale_effects {e : InEntry} (h : p.mu.mode = .run) (m : inEntry p .boardEnc = some e) (last : Option Nat) :
    let t := toldStale .boardEnc (expired .boardEnc last p)
    t.wt = { p.wt with board := { p.wt.board with ref := none } }
      ∧ t.sg.slots.get Slot.encoder.idx = { active := true, value := min p.sg.crawl p.sg.lineMax } := by
  have stale : encoderStale (setBoard (expired .boardEnc last p) { (expired .boardEnc last p).wt.board with ref := none }) = true :=
    encoderStale_iff.2 (.inl (expired_stale m last))
  refine ⟨?_, ?_⟩
  · rw [toldStale, holdEncoder_wt, setBoard, expired_wt]
  · rw [toldStale, holdEncoder_slot (by rw [setBoard_mu, expired_mode, h]) stale, setBoard_sg, expired_sg]

/-- A feeder encoder's input has become stale (R11). -/
theorem feederStale_effects {f : Fin 2} {e : InEntry} (h : p.mu.mode = .run) (m : inEntry p (.feederEnc f) = some e) (last : Option Nat) :
    let t := toldStale (.feederEnc f) (expired (.feederEnc f) last p)
    (t.wt.feeders.get f).ref = none ∧ t.wt.board = p.wt.board
      ∧ (feederInUse p f = true → t.sg.slots.get Slot.encoder.idx = { active := true, value := min p.sg.crawl p.sg.lineMax }) := by
  have wt : (toldStale (.feederEnc f) (expired (.feederEnc f) last p)).wt
      = { p.wt with feeders := upd p.wt.feeders f { p.wt.feeders.get f with ref := none } } := by
    rw [toldStale, holdEncoder_wt, setFeeder, expired_wt]
  refine ⟨?_, ?_, fun u => ?_⟩
  · rw [wt, get_upd_same]
  · rw [wt]
  · have used : feederInUse (setFeeder (expired (.feederEnc f) last p) f { (expired (.feederEnc f) last p).wt.feeders.get f with ref := none }) f
        = true := by
      rw [feederInUse, setFeeder, expired_wt]
      exact u
    rw [toldStale, holdEncoder_slot (by rw [setFeeder_mu, expired_mode, h]) (encoderStale_feeder used (expired_stale m last)), setFeeder_sg,
      expired_sg]

end Stale

/-! ## Settling O21 -/

/-- The motion of a sample accounts for its pulses (R9). -/
theorem encoderMotion_accounts (e : Encoder) (dc : Int) (dt : Nat) (d : e.debt ≤ e.reverseLimit) :
    let m := e.move dc dt
    let dp := ((e.residue : Int) + dc * e.sigma) / 65536
    m.after.residue < 65536 ∧ (e.residue : Int) + dc * e.sigma = dp * 65536 + m.after.residue
      ∧ m.after.pos = e.pos + m.advance ∧ m.after.debt ≤ e.reverseLimit
      ∧ (0 ≤ dp → m.reverse = false ∧ (m.advance : Int) - m.after.debt = dp - e.debt ∧ (0 < m.advance → m.after.debt = 0))
      ∧ (dp < 0 → m.advance = 0 ∧ (m.reverse = true ↔ (e.reverseLimit : Int) < e.debt - dp)
          ∧ (m.reverse = false → (m.after.debt : Int) = e.debt - dp) ∧ (m.reverse = true → m.after.debt = e.reverseLimit)) := by
  have residue := e.move_residue dc dt
  dsimp only
  refine ⟨by omega, by omega, ?_⟩
  rcases Int.lt_or_le (((e.residue : Int) + dc * e.sigma) / 65536) 0 with back | forth
  · obtain ⟨reverse, advance, pos, debt⟩ := Encoder.move_backward (dt := dt) back
    generalize e.move dc dt = m at *
    generalize ((e.residue : Int) + dc * e.sigma) / 65536 = dp at *
    refine ⟨by omega, by omega, by omega, fun _ => ⟨advance, ?_, fun r => ?_, fun r => ?_⟩⟩
    · rw [reverse, decide_eq_true_eq]
      omega
    · rw [reverse, decide_eq_false_iff_not] at r
      omega
    · rw [reverse, decide_eq_true_eq] at r
      omega
  · obtain ⟨reverse, advance, pos, debt⟩ := Encoder.move_forward (dt := dt) forth
    generalize e.move dc dt = m at *
    generalize ((e.residue : Int) + dc * e.sigma) / 65536 = dp at *
    exact ⟨pos, by omega, fun _ => ⟨reverse, by omega, by omega⟩, by omega⟩

/-- A motion's speed takes the place of the oldest of the eight (R10). -/
theorem encoderSpeed_entered (e : Encoder) (dc : Int) (dt : Nat) (h : e.history.length = 8) :
    ∃ v : Nat, (v : Int) = min 100000 (max 0 (dc * e.sigma * 1000000 / (65536 * dt)))
      ∧ (e.move dc dt).after.history = e.history.tail ++ [v] ∧ (e.move dc dt).after.speed = (e.history.tail.sum + v) / 8 := by
  have history : (e.move dc dt).after.history = e.history.tail ++ [instantSpeed e.sigma dc dt] := by rw [Encoder.move_history, enter8_full h]
  refine ⟨instantSpeed e.sigma dc dt, instantSpeed_eq _ _ _, history, ?_⟩
  rw [Encoder.speed, history, List.sum_append, List.sum_singleton]

/-- What follows a board sample: the reactions to the advance, then those to a change of the line speed (R12, R82, R110). -/
theorem boardSample_reactions (p : Part) (c t : Word) (h : p.mu.mode = .run) :
    let m := p.wt.board.sample c t
    let q := motionAlarms m (setBoard p m.after)
    let advanced := raise .boardLength m.advance (slitterLate (testSwapPoint (lookupAll (evalStand 4 (commitCheck (bindBonds (refillCredit m.advance
      (missJoints (checkBridge 1 (checkBridge 0 q))))))))))
    (m.after.speed = p.wt.board.speed → m.advance = 0 → boardSample c t p = q) ∧
    (m.after.speed = p.wt.board.speed → m.advance ≠ 0 → boardSample c t p = advanced) ∧
    (m.after.speed ≠ p.wt.board.speed → m.advance = 0 → boardSample c t p = speedChanged (evalStand 4 q)) ∧
    (m.after.speed ≠ p.wt.board.speed → m.advance ≠ 0 → boardSample c t p = speedChanged advanced) := by
  dsimp only
  rw [boardSample_run h]
  dsimp only
  refine ⟨fun s a => ?_, fun s a => ?_, fun s a => ?_, fun s a => ?_⟩
  · rw [if_pos s, if_pos a]
  · rw [if_pos s, if_neg a, boardAdvanced_eq]
  · rw [if_neg s, if_pos a, if_pos a]
  · rw [if_neg s, if_neg a, if_neg a, boardAdvanced_eq]

/-- What follows a feeder sample (R12, R82). -/
theorem feederSample_reactions (p : Part) (f : Fin 2) (c t : Word) (h : p.mu.mode = .run) (u : feederInUse p f = true) :
    let e := p.wt.feeders.get f
    let m := e.sample c t
    let q := motionAlarms m (setFeeder p f m.after)
    (m.advance = 0 → m.after.speed = e.speed → feederSample f c t p = q) ∧
    (m.advance = 0 → m.after.speed ≠ e.speed → feederSample f c t p = evalFeeder f q) ∧
    (m.advance ≠ 0 → feederSample f c t p = evalFeeder f (checkBridge f q)) := by
  dsimp only
  rw [feederSample_run h u]
  dsimp only
  refine ⟨fun a s => ?_, fun a s => ?_, fun a => ?_⟩
  · rw [if_neg (not_not.2 a), if_pos s]
  · rw [if_neg (not_not.2 a), if_neg s]
  · rw [if_pos a, feederAdvanced]

theorem motionAlarms_cases (m : Motion) (q : Part) :
    (m.glitch = true → motionAlarms m q = latch .encoderGlitch q) ∧
    (m.glitch = false → m.reverse = true → motionAlarms m q = latch .reverseLimit q) ∧
    (m.glitch = false → m.reverse = false → motionAlarms m q = q) := by
  unfold motionAlarms
  refine ⟨fun g => ?_, fun g r => ?_, fun g r => ?_⟩
  · rw [if_pos g]
  · rw [if_neg (by simp [g]), if_pos r]
  · rw [if_neg (by simp [g]), if_neg (by simp [r])]

/-- Settles O21, each part by the lemma about its operation. -/
theorem encoderMotionAccounts : Obligations.EncoderMotionAccounts := by
  refine ⟨encoderMotion_accounts, fun e c t => ⟨Encoder.sample_first c t, fun c₀ t₀ h => ⟨Encoder.sample_duplicate h, Encoder.sample_glitch h,
      Encoder.sample_motion h⟩⟩, fun e dc dt h _ => encoderSpeed_entered e dc dt h, fun e p => ⟨rfl, rfl⟩, fun s e last run m f l d => ?_,
    fun s f e last run m fr l d => ?_, boardSample_reactions, fun p run => speedChanged_run run, feederSample_reactions,
    fun p => ⟨evalFeeder_first p, evalFeeder_second p⟩, motionAlarms_cases,
    fun p c t => ⟨fun config => boardSample_config config c t, fun f h => ?_⟩, fun p => ⟨holdEncoder_config, fun run h => ?_, fun run h => ?_, rfl, rfl,
      fun f => ⟨rfl, rfl⟩⟩⟩
  · obtain ⟨wt, slot⟩ := boardStale_effects run m e.last
    exact ⟨_, by rw [exec_freshnessExpiry rfl, freshnessExpires_due run m f l d], wt, slot⟩
  · obtain ⟨ref, board, slot⟩ := feederStale_effects run m e.last
    have input : inputOf .feederEnc (f.val + 1) = some (.feederEnc f) := congrArg (Option.map Input.feederEnc) (place_eq_some.2 rfl)
    exact ⟨_, by rw [exec_freshnessExpiry input, freshnessExpires_due run m fr l d], ref, board, slot⟩
  · rcases h with config | single
    · exact feederSample_config config f c t
    · exact feederSample_unused (feederInUse_single single)
  · refine holdEncoder_stale run (encoderStale_iff.2 ?_)
    simpa only [inputStale_iff] using h
  · refine holdEncoder_fresh run (Bool.eq_false_iff.2 fun stale => h ?_)
    simpa only [inputStale_iff] using encoderStale_iff.1 stale

end Sys2Proof.Machine
end

section
/-! WT beside the tracking list: the settings, the encoders, the bridges but for their conditions, the credit. Few operations change anything of it,
so the stand evaluation, the lookups, a commitment and all that a change of K_f starts leave the positions and the constants as they are. -/

namespace Sys2Proof.Machine

theorem forEach_keeps {α : Type} {n : Nat} (g : Part → α) {f : Fin n → Part → Part} (h : ∀ i r, g (f i r) = g r) (p : Part) :
    g (forEach f p) = g p := by
  unfold forEach
  induction List.finRange n generalizing p with
  | nil => rfl
  | cons i l ih => exact (ih _).trans (h i p)

/-! ## Operations that leave WT as it is -/

section Wt

variable {p : Part}

@[simp] theorem wt_activate (x : Slot) (v : Nat) (p : Part) : (activate x v p).wt = p.wt := activate_wt x v p

@[simp] theorem wt_deactivate (x : Slot) (p : Part) : (deactivate x p).wt = p.wt := deactivate_wt x p

@[simp] theorem wt_setGradeLate (t : Nat) (p : Part) : (setGradeLate t p).wt = p.wt := rfl

@[simp] theorem wt_postGo (s : Fin 5) (w : Arm) (p : Part) : (postGo s w p).wt = p.wt := by
  unfold postGo
  dsimp only
  split <;> simp

@[simp] theorem wt_testExhausted (s : Fin 5) (p : Part) : (testExhausted s p).wt = p.wt := by
  unfold testExhausted
  split <;> simp

@[simp] theorem wt_testHopeless (s : Fin 5) (p : Part) : (testHopeless s p).wt = p.wt := by
  unfold testHopeless
  split
  · rfl
  · split <;> simp

@[simp] theorem wt_testTrigger (s : Fin 5) (p : Part) : (testTrigger s p).1.wt = p.wt := by
  unfold testTrigger
  split
  · rfl
  · split <;> simp

@[simp] theorem wt_decideGo (s : Fin 5) (b : Bool) (p : Part) : (decideGo s b p).wt = p.wt := by
  have latched : (if b = true then latch .spliceNotReady p else p).wt = p.wt := by split <;> simp
  unfold decideGo
  split
  · split
    · exact wt_postGo _ _ p
    · dsimp only
      generalize (if b = true then latch .spliceNotReady p else p) = q at latched ⊢
      split
      · exact (wt_postGo _ _ q).trans latched
      · exact latched
  · exact latched

@[simp] theorem wt_settleSplice (s : Fin 5) (p : Part) : (settleSplice s p).wt = p.wt := by
  unfold settleSplice
  dsimp only
  split <;> simp

@[simp] theorem wt_writeSplice (s : Fin 5) (p : Part) : (writeSplice s p).wt = p.wt := by
  unfold writeSplice
  dsimp only
  split
  · split <;> simp
  · split <;> simp

@[simp] theorem wt_evalStand (s : Fin 5) (p : Part) : (evalStand s p).wt = p.wt := by
  unfold evalStand
  split <;> simp

@[simp] theorem wt_evalFeeder (f : Fin 2) (p : Part) : (evalFeeder f p).wt = p.wt :=
  forEach_keeps Part.wt (fun s r => by split <;> simp) p

@[simp] theorem wt_armPlan (s : Fin 5) (o : Order) (n : Nat) (p : Part) : (armPlan s o n p).wt = p.wt := by
  unfold armPlan
  dsimp only
  split
  · split <;> simp
  · rfl

@[simp] theorem wt_computeGlue (g : Fin 3) (p : Part) : (computeGlue g p).wt = p.wt := by
  unfold computeGlue
  dsimp only
  split
  · rfl
  · split <;> simp

@[simp] theorem wt_lookupGlue (g : Fin 3) (p : Part) : (lookupGlue g p).wt = p.wt := by
  unfold lookupGlue
  split
  · dsimp only
    split <;> simp
  · rfl

@[simp] theorem wt_computeWrap (w : Fin 3) (p : Part) : (computeWrap w p).wt = p.wt := by
  unfold computeWrap
  dsimp only
  split
  · rfl
  · split <;> simp

@[simp] theorem wt_lookupWrap (w : Fin 3) (p : Part) : (lookupWrap w p).wt = p.wt := by
  unfold lookupWrap
  split
  · dsimp only
    split <;> simp
  · rfl

@[simp] theorem wt_setZoneState (z : Fin 8) (p : Part) : (setZoneState z p).wt = p.wt := rfl

@[simp] theorem wt_computeZone (z : Fin 8) (p : Part) : (computeZone z p).wt = p.wt := by
  unfold computeZone
  dsimp only
  split
  · rfl
  · split <;> simp

@[simp] theorem wt_writeHeat (z : Fin 8) (p : Part) : (writeHeat z p).wt = p.wt := by
  unfold writeHeat
  split
  · dsimp only
    split
    · simp
    · split
      · split
        · split <;> simp
        · simp
      · simp
  · rfl

@[simp] theorem wt_zoneChanged (z : Fin 8) (a b : Bool) (p : Part) : (zoneChanged z a b p).wt = p.wt := by
  have computed : (if a = true then setZoneState z (computeZone z p) else p).wt = p.wt := by split <;> simp
  unfold zoneChanged
  dsimp only
  split
  · exact (wt_writeHeat _ _).trans computed
  · exact computed

@[simp] theorem wt_lookupZone (z : Fin 8) (p : Part) : (lookupZone z p).wt = p.wt := by
  unfold lookupZone
  split
  · simp
  · rfl

@[simp] theorem wt_lookupAll (p : Part) : (lookupAll p).wt = p.wt :=
  (forEach_keeps Part.wt wt_lookupZone _).trans ((forEach_keeps Part.wt wt_lookupWrap _).trans (forEach_keeps Part.wt wt_lookupGlue p))

@[simp] theorem wt_selectNext (p : Part) : (selectNext p).wt = p.wt := by
  unfold selectNext compareProfile presetStation
  split
  · rfl
  · split
    · split
      · rfl
      · split <;> simp
    · rfl

@[simp] theorem wt_modifyOpen (f : Region → Region) (p : Part) : (modifyOpen f p).wt = p.wt := rfl

@[simp] theorem wt_computeChange (p : Part) : (computeChange p).wt = p.wt := by
  unfold computeChange
  split
  · rfl
  · split <;> rfl

@[simp] theorem wt_takeChanges (l : List Change) (p : Part) : (takeChanges l p).wt = p.wt := by
  unfold takeChanges
  split
  · rfl
  · split
    · rfl
    · split
      · exact wt_computeChange p
      · rfl

@[simp] theorem wt_postChange (n : Nat) (c : Option Nat) (p : Part) : (postChange n c p).wt = p.wt := (posted_postLimited _ _ _ _ p).wt

@[simp] theorem wt_fixEnd (r : Region) (p : Part) : (fixEnd r p).1.wt = p.wt := by
  unfold fixEnd
  dsimp only
  split
  · exact wt_deactivate _ _
  · rfl

@[simp] theorem wt_appendRegion (len stop last : Nat) (p : Part) : (appendRegion len stop last p).1.wt = p.wt := by
  unfold appendRegion
  split
  · dsimp only
    split <;> rfl
  · rfl

@[simp] theorem wt_deferCommit (r : Region) (p : Part) : (deferCommit r p).wt = p.wt := by
  unfold deferCommit
  split <;> simp

@[simp] theorem wt_endDeferral (r : Region) (p : Part) : (endDeferral r p).wt = p.wt := by
  unfold endDeferral
  split <;> simp

end Wt

/-! ## Operations that change the tracking list and the bridges' conditions alone -/

/-- A bridge without its conditions (R15). -/
def Bridge.plain (b : Bridge) : Bridge := { b with low := false, high := false }

/-- WT without the tracking list, the next id and the conditions of the bridges. -/
def webOf (p : Part) : Wt := { p.wt with track := [], nextId := 0, bridges := p.wt.bridges.map Bridge.plain }

theorem webOf_congr {p q : Part} (h : q.wt = p.wt) : webOf q = webOf p := by rw [webOf, h, webOf]

theorem plain_of_webOf {p q : Part} (h : webOf q = webOf p) (f : Fin 2) : (q.wt.bridges.get f).plain = (p.wt.bridges.get f).plain := by
  have b := congrArg (fun w => w.bridges.get f) h
  simpa [webOf, Vector.get_eq_getElem] using b

section Web

variable {p q : Part}

theorem bridgeK_of_webOf (h : webOf q = webOf p) (f : Fin 2) : bridgeK q f = bridgeK p f := (congrArg Bridge.k (plain_of_webOf h f) :)

theorem lfix_of_webOf (h : webOf q = webOf p) (f : Fin 2) : (q.wt.bridges.get f).lfix = (p.wt.bridges.get f).lfix :=
  (congrArg Bridge.lfix (plain_of_webOf h f) :)

@[simp] theorem webOf_latch (w : Alarm) (p : Part) : webOf (latch w p) = webOf p := webOf_congr (latch_wt w p)

@[simp] theorem webOf_track (l : List TrackEntry) (p : Part) : webOf { p with wt := { p.wt with track := l } } = webOf p := rfl

@[simp] theorem webOf_setTrack (l : List TrackEntry) (p : Part) : webOf (setTrack p l) = webOf p := rfl

@[simp] theorem webOf_replaceEntry (e : TrackEntry) (p : Part) : webOf (replaceEntry e p) = webOf p := rfl

theorem map_upd {α β : Type} {n : Nat} (g : α → β) (v : Vector α n) (i : Fin n) (x : α) : (upd v i x).map g = upd (v.map g) i (g x) :=
  Vector.map_set

theorem webOf_setBridgeRec_eq (f : Fin 2) (b : Bridge) (p : Part) :
    webOf (setBridgeRec p f b) = { webOf p with bridges := upd (webOf p).bridges f b.plain } := by
  unfold webOf setBridgeRec
  dsimp only
  rw [map_upd]

theorem webOf_setBridgeRec_congr (h : webOf q = webOf p) (f : Fin 2) (b : Bridge) : webOf (setBridgeRec q f b) = webOf (setBridgeRec p f b) := by
  rw [webOf_setBridgeRec_eq, webOf_setBridgeRec_eq, h]

theorem setBridgeRec_get_self (f : Fin 2) (p : Part) : setBridgeRec p f (p.wt.bridges.get f) = p := by
  rw [setBridgeRec, upd_get_self]

theorem webOf_setBridgeRec {f : Fin 2} {b : Bridge} (h : b.plain = (p.wt.bridges.get f).plain) : webOf (setBridgeRec p f b) = webOf p := by
  rw [webOf_setBridgeRec_eq, h, ← webOf_setBridgeRec_eq, setBridgeRec_get_self]

@[simp] theorem webOf_addEntry (e : TrackEntry) (p : Part) : webOf (addEntry e p).1 = webOf p := rfl

@[simp] theorem webOf_absorbInto (d : TrackEntry) (s t : Nat) (p : Part) : webOf (absorbInto d s t p).1 = webOf p := rfl

@[simp] theorem webOf_moveUnbound (f : Fin 2) (p : Part) : webOf (moveUnbound f p).1 = webOf p := rfl

@[simp] theorem webOf_coverZone (f : Option (Fin 2)) (s t : Nat) (p : Part) : webOf (coverZone f s t p).1 = webOf p := by
  unfold coverZone
  dsimp only
  split
  · simp
  · split
    · simp
    · split <;> simp

@[simp] theorem webOf_insertOrCover (f : Option (Fin 2)) (e : TrackEntry) (p : Part) : webOf (insertOrCover f e p).1 = webOf p := by
  unfold insertOrCover
  split <;> simp

@[simp] theorem webOf_insertOpen (e : TrackEntry) (p : Part) : webOf (insertOpen e p).1 = webOf p := by
  unfold insertOpen
  split <;> simp

@[simp] theorem webOf_retire (p : Part) : webOf (retire p) = webOf p := by
  unfold retire
  split
  · rfl
  · exact webOf_congr (q := (p.wt.track.filter (retires _)).foldl passJoint p) (passJoints_wt _ p).1

@[simp] theorem webOf_bindBonds (p : Part) : webOf (bindBonds p) = webOf p := by
  unfold bindBonds
  split
  · rw [webOf_retire, webOf_track]
  · rfl

@[simp] theorem webOf_insertOff (s : Fin 5) (c : Nat × Option Nat × Nat) (p : Part) : webOf (insertOff s c p).1 = webOf p := by
  unfold insertOff
  dsimp only
  split <;> simp

theorem webOf_foldPair {α β : Type} {f : Part → α → Part × List β} (s : ∀ r a, webOf (f r a).1 = webOf r) (l : List α) (b : List β) (p : Part) :
    webOf (l.foldl (fun acc c => let i := f acc.1 c; (i.1, acc.2 ++ i.2)) (p, b)).1 = webOf p := by
  induction l generalizing p b with
  | nil => rfl
  | cons a l ih => exact (ih _ _).trans (s p a)

@[simp] theorem webOf_gradeCheck (s : Fin 5) (p : Part) : webOf (gradeCheck s p).1 = webOf p := by
  unfold gradeCheck
  split
  · dsimp only
    rw [apply_ite webOf, webOf_latch, ite_self]
    refine (webOf_foldPair (f := fun r c => insertOff s c r) (fun r c => webOf_insertOff s c r) _ _ _).trans ?_
    split
    · rfl
    · rw [webOf_retire, webOf_track]
  · rfl

@[simp] theorem webOf_gradeChecks (r : Region) (p : Part) : webOf (gradeChecks r p) = webOf p := by
  refine forEach_keeps webOf (fun s q => ?_) p
  dsimp only
  split
  · exact (webOf_congr (wt_armPlan _ _ _ _)).trans (webOf_gradeCheck s q)
  · exact webOf_gradeCheck s q

@[simp] theorem webOf_insertSwap (n : Nat) (p : Part) : webOf (insertSwap n p) = webOf p := webOf_insertOrCover none _ p

@[simp] theorem webOf_commit (r : Region) (p : Part) : webOf (commit r p) = webOf p := by
  unfold commit
  dsimp only
  rw [webOf_congr (wt_selectNext _), webOf_congr (wt_computeChange _), webOf_congr (wt_lookupAll _), webOf_gradeChecks]
  have appended : ∀ len stop last, webOf (appendRegion len stop last (fixEnd r p).1).1 = webOf p := fun _ _ _ =>
    (webOf_congr (wt_appendRegion _ _ _ _)).trans (webOf_congr (wt_fixEnd r p))
  rw [apply_ite webOf, webOf_insertSwap, ite_self, apply_ite webOf, webOf_congr (wt_postChange _ _ _), ite_self, appended]

@[simp] theorem webOf_commitTimes (n : Nat) (p : Part) : webOf (commitTimes n p) = webOf p := by
  induction n generalizing p with
  | zero => rfl
  | succ n ih =>
    rw [commitTimes]
    split
    · rfl
    · split
      · split
        · rw [ih, webOf_commit]
        · exact webOf_congr (wt_deferCommit _ p)
      · exact webOf_congr (wt_endDeferral _ p)

@[simp] theorem webOf_commitCheck (p : Part) : webOf (commitCheck p) = webOf p := by
  unfold commitCheck
  split <;> simp

@[simp] theorem webOf_handOver (l : List Change) (p : Part) : webOf (handOver l p) = webOf p :=
  (webOf_commitCheck _).trans (webOf_congr (wt_takeChanges l p))

@[simp] theorem webOf_checkGrades (s : Fin 5) (p : Part) : webOf (checkGrades s p) = webOf p :=
  (webOf_handOver _ _).trans (webOf_gradeCheck s p)

@[simp] theorem webOf_checkLow (f : Fin 2) (p : Part) : webOf (checkLow f p) = webOf p := by
  unfold checkLow
  dsimp only
  split
  · rw [webOf_congr (wt_activate _ _ _), webOf_latch]
    exact webOf_setBridgeRec rfl
  · split
    · rw [webOf_congr (wt_deactivate _ _)]
      exact webOf_setBridgeRec rfl
    · rfl

@[simp] theorem webOf_checkHigh (f : Fin 2) (p : Part) : webOf (checkHigh f p) = webOf p := by
  unfold checkHigh
  dsimp only
  split
  · rw [webOf_latch]
    exact webOf_setBridgeRec rfl
  · split
    · exact webOf_setBridgeRec rfl
    · rfl

@[simp] theorem webOf_checkBridge (f : Fin 2) (p : Part) : webOf (checkBridge f p) = webOf p := by
  unfold checkBridge
  split <;> simp

/-- All that a change of K_f starts leaves the positions, the settings and the constants (R14). -/
@[simp] theorem webOf_kChanged (f : Fin 2) (more : List Change) (also : Option (Fin 5)) (p : Part) : webOf (kChanged f more also p) = webOf p := by
  unfold kChanged
  dsimp only
  rw [webOf_congr (wt_lookupGlue _ _), webOf_congr (wt_evalFeeder _ _)]
  refine (forEach_keeps webOf (fun s r => ?_) _).trans ?_
  · split
    · exact webOf_checkGrades s r
    · rfl
  · simp

end Web

end Sys2Proof.Machine
end

section
/-! Bridges: what sets K_f, the content that ALIGN BRIDGE leaves, and the conditions of a bridge (R14 to R16). -/

namespace Sys2Proof.Machine

/-! ## Changes of K (R14) -/

section K

variable {p : Part}

theorem setK_same {f : Fin 2} {k : Int} (h : bridgeK p f = k) : setK f k p = p := if_pos h

theorem setK_new {f : Fin 2} {k : Int} (h : bridgeK p f ≠ k) :
    setK f k p = kChanged f [] none (setBridgeRec p f { p.wt.bridges.get f with k := k }) := if_neg h

theorem webOf_setK (f : Fin 2) (k : Int) (p : Part) : webOf (setK f k p) = webOf (setBridgeRec p f { p.wt.bridges.get f with k := k }) := by
  by_cases h : bridgeK p f = k
  · have same : { p.wt.bridges.get f with k := k } = p.wt.bridges.get f := by rw [← h]; rfl
    rw [setK_same h, same, setBridgeRec_get_self]
  · rw [setK_new h, webOf_kChanged]

theorem bridges_setBridgeRec (f g : Fin 2) (b : Bridge) (p : Part) :
    (setBridgeRec p f b).wt.bridges.get g = if g = f then b else p.wt.bridges.get g := get_upd _ _ _ _

theorem bridgeK_setK (f : Fin 2) (k : Int) (p : Part) : bridgeK (setK f k p) f = k := by
  rw [bridgeK_of_webOf (webOf_setK f k p), bridgeK, bridges_setBridgeRec, if_pos rfl]

theorem bridgeK_setK_ne {f g : Fin 2} (h : g ≠ f) (k : Int) (p : Part) : bridgeK (setK f k p) g = bridgeK p g := by
  rw [bridgeK_of_webOf (webOf_setK f k p), bridgeK, bridges_setBridgeRec, if_neg h, bridgeK]

theorem lfix_setK (f : Fin 2) (k : Int) (p : Part) : ((setK f k p).wt.bridges.get f).lfix = (p.wt.bridges.get f).lfix := by
  rw [lfix_of_webOf (webOf_setK f k p), bridges_setBridgeRec, if_pos rfl]

end K

/-! ## ALIGN BRIDGE (R16) -/

section Align

variable {p : Part}

theorem alignBridgeTo_ok {n raw : Nat} {f : Fin 2} (h : place 2 n = some f) (u : feederInUse p f = true) :
    let k := clampInt 0 (p.wt.bridges.get f).capacity (signedOf 8 raw) + posB p + (p.wt.bridges.get f).lfix - posF p f
    alignBridgeTo [n, raw] p = okWith (i64 (bridgeContent p f) ++ i64 k) (setK f k p) := by
  simp only [alignBridgeTo, h, u, if_true]

theorem alignBridgeTo_refused {n raw : Nat} (h : n = 0 ∨ 2 < n ∨ (n = 2 ∧ p.wt.line = .single)) :
    alignBridgeTo [n, raw] p = refuse .badArg p := by
  cases e : place 2 n with
  | none => simp only [alignBridgeTo, e]
  | some f =>
    have k := place_eq_some.1 e
    have two : f = 1 ∧ p.wt.line = .single := by
      rcases h with h | h | ⟨h, l⟩
      · omega
      · omega
      · exact ⟨Fin.ext (by show f.val = 1; omega), l⟩
    simp only [alignBridgeTo, e, feederInUse_single two, Bool.false_eq_true, if_false]

/-- The content that a constant taken from a content gives. -/
theorem bridgeContent_setK (f : Fin 2) (x : Int) (p : Part) :
    bridgeContent (setK f (x + posB p + (p.wt.bridges.get f).lfix - posF p f) p) f = x := by
  have kept := (Kept.refl p).thenSetK (f := f) (x := x + posB p + (p.wt.bridges.get f).lfix - posF p f)
  rw [bridgeContent, bridgeK_setK, lfix_setK, kept.board, kept.feeders]
  omega

end Align

/-! ## The conditions of a bridge (R15) -/

/-- The LOW condition that a check finds for a content. -/
def lowAt (b : Bridge) (content : Int) : Bool :=
  if content < b.minimum then true else if (b.minimum : Int) + 50000 ≤ content then false else b.low

/-- The HIGH condition that a check finds for a content. -/
def highAt (b : Bridge) (content : Int) : Bool := decide ((b.maximum : Int) < content)

section Check

variable {p : Part} {f : Fin 2}

theorem checkLow_sets (b : (p.wt.bridges.get f).low = false) (h : lowAt (p.wt.bridges.get f) (bridgeContent p f) = true) :
    checkLow f p = activate (.bridge f) p.sg.crawl (latch .bridgeLow (setBridgeRec p f { p.wt.bridges.get f with low := true })) := by
  have below : bridgeContent p f < (p.wt.bridges.get f).minimum := by
    unfold lowAt at h
    split at h
    · assumption
    · split at h
      · cases h
      · rw [b] at h; cases h
  unfold checkLow
  dsimp only
  rw [if_pos (by simp [b, below])]

theorem checkLow_clears (b : (p.wt.bridges.get f).low = true) (h : lowAt (p.wt.bridges.get f) (bridgeContent p f) = false) :
    checkLow f p = deactivate (.bridge f) (setBridgeRec p f { p.wt.bridges.get f with low := false }) := by
  have above : ((p.wt.bridges.get f).minimum : Int) + 50000 ≤ bridgeContent p f := by
    unfold lowAt at h
    split at h
    · cases h
    · split at h
      · assumption
      · rw [b] at h; cases h
  unfold checkLow
  dsimp only
  rw [if_neg (by simp [b]), if_pos (by simp [b, above])]

theorem checkLow_same (h : (p.wt.bridges.get f).low = lowAt (p.wt.bridges.get f) (bridgeContent p f)) : checkLow f p = p := by
  unfold lowAt at h
  unfold checkLow
  dsimp only
  rw [if_neg, if_neg]
  · rw [Bool.and_eq_true, decide_eq_true_eq]
    rintro ⟨low, above⟩
    rw [low, if_neg (by omega), if_pos above] at h
    cases h
  · rw [Bool.and_eq_true, decide_eq_true_eq]
    rintro ⟨low, below⟩
    rw [if_pos below] at h
    simp [h] at low

theorem checkHigh_sets (b : (p.wt.bridges.get f).high = false) (h : highAt (p.wt.bridges.get f) (bridgeContent p f) = true) :
    checkHigh f p = latch .bridgeHigh (setBridgeRec p f { p.wt.bridges.get f with high := true }) := by
  unfold highAt at h
  unfold checkHigh
  dsimp only
  rw [if_pos (by simp [b, h])]

theorem checkHigh_clears (b : (p.wt.bridges.get f).high = true) (h : highAt (p.wt.bridges.get f) (bridgeContent p f) = false) :
    checkHigh f p = setBridgeRec p f { p.wt.bridges.get f with high := false } := by
  have inside : bridgeContent p f ≤ (p.wt.bridges.get f).maximum := by simpa [highAt] using h
  unfold checkHigh
  dsimp only
  rw [if_neg (by simp [b]), if_pos (by simp [b, inside])]

theorem checkHigh_same (h : (p.wt.bridges.get f).high = highAt (p.wt.bridges.get f) (bridgeContent p f)) : checkHigh f p = p := by
  unfold checkHigh
  dsimp only
  rw [if_neg, if_neg]
  · rw [Bool.and_eq_true, decide_eq_true_eq]
    rintro ⟨high, inside⟩
    rw [high, highAt, eq_comm, decide_eq_true_eq] at h
    omega
  · rw [Bool.and_eq_true, decide_eq_true_eq]
    rintro ⟨high, above⟩
    rw [h, highAt] at high
    simp [above] at high

/-- What a check of LOW writes. -/
theorem checkLow_wt (f : Fin 2) (p : Part) :
    (checkLow f p).wt = (setBridgeRec p f { p.wt.bridges.get f with low := lowAt (p.wt.bridges.get f) (bridgeContent p f) }).wt := by
  cases b : (p.wt.bridges.get f).low <;> cases h : lowAt (p.wt.bridges.get f) (bridgeContent p f)
  case false.true => rw [checkLow_sets b h, wt_activate, latch_wt]
  case true.false => rw [checkLow_clears b h, wt_deactivate]
  all_goals
    rw [checkLow_same (b.trans h.symm), ← b, setBridgeRec_get_self]

/-- What a check of HIGH writes. -/
theorem checkHigh_wt (f : Fin 2) (p : Part) :
    (checkHigh f p).wt = (setBridgeRec p f { p.wt.bridges.get f with high := highAt (p.wt.bridges.get f) (bridgeContent p f) }).wt := by
  cases b : (p.wt.bridges.get f).high <;> cases h : highAt (p.wt.bridges.get f) (bridgeContent p f)
  case false.true => rw [checkHigh_sets b h, latch_wt]
  case true.false => rw [checkHigh_clears b h]
  all_goals
    rw [checkHigh_same (b.trans h.symm), ← b, setBridgeRec_get_self]

/-- A check of HIGH leaves SG's state and the latches. -/
theorem posted_checkHigh (f : Fin 2) (p : Part) : Posted { p with wt := (checkHigh f p).wt } (checkHigh f p) := by
  unfold checkHigh
  dsimp only
  split
  · rw [latch_wt]
    exact posted_latch .bridgeHigh _
  · split
    · exact .refl _
    · exact .refl _

theorem checkBridge_run (h : p.mu.mode = .run) (u : feederInUse p f = true) : checkBridge f p = checkHigh f (checkLow f p) := by
  unfold checkBridge
  rw [inRun_run h, u, Bool.and_self, if_pos rfl]

/-- A check of LOW leaves what a check of HIGH reads. -/
theorem checkLow_reads (f : Fin 2) (p : Part) :
    bridgeContent (checkLow f p) f = bridgeContent p f ∧
      (checkLow f p).wt.bridges.get f = { p.wt.bridges.get f with low := lowAt (p.wt.bridges.get f) (bridgeContent p f) } := by
  have bridge : (checkLow f p).wt.bridges.get f = { p.wt.bridges.get f with low := lowAt (p.wt.bridges.get f) (bridgeContent p f) } := by
    rw [checkLow_wt, bridges_setBridgeRec, if_pos rfl]
  have kept := (Kept.refl p).thenCheckLow (f := f)
  refine ⟨?_, bridge⟩
  rw [bridgeContent, bridgeK, bridge, kept.board, kept.feeders]
  rfl

/-- A check of a bridge: the conditions it writes, and the alarms and the contribution of those that change (R15). -/
theorem checkBridge_effects (h : p.mu.mode = .run) (u : feederInUse p f = true) :
    let b := p.wt.bridges.get f
    let low := lowAt b (bridgeContent p f)
    let high := highAt b (bridgeContent p f)
    let t := checkBridge f p
    t.wt = { p.wt with bridges := upd p.wt.bridges f { b with low := low, high := high } } ∧
    (b.low = false → low = true → (alarmOf t .bridgeLow).latch = true
      ∧ t.sg.slots = upd p.sg.slots (Slot.bridge f).idx { active := true, value := min p.sg.crawl p.sg.lineMax }) ∧
    (b.low = true → low = false → t.sg.slots = upd p.sg.slots (Slot.bridge f).idx { active := false, value := 0 }) ∧
    (b.low = low → t.sg = p.sg) ∧ (b.high = false → high = true → (alarmOf t .bridgeHigh).latch = true) ∧
    (b.low = low → b.high = high → t = p) := by
  dsimp only
  rw [checkBridge_run h u]
  obtain ⟨content, bridge⟩ := checkLow_reads f p
  have high : highAt ((checkLow f p).wt.bridges.get f) (bridgeContent (checkLow f p) f) = highAt (p.wt.bridges.get f) (bridgeContent p f) := by
    rw [content, bridge]
    rfl
  have posted := posted_checkHigh f (checkLow f p)
  refine ⟨?_, fun b l => ⟨posted.latches _ ?_, ?_⟩, fun b l => ?_, fun l => ?_, fun b x => ?_, fun l x => ?_⟩
  · rw [checkHigh_wt, high, setBridgeRec, bridge, checkLow_wt]
    simp only [setBridgeRec, upd_upd]
  · rw [checkLow_sets b l]
    exact (slotWritten_activate _ _ _).latches _ (latch_sets _ _)
  · rw [posted.sg]
    show (checkLow f p).sg.slots = _
    rw [checkLow_sets b l, (slotWritten_activate _ _ _).slots, latch_sg]
    rfl
  · rw [posted.sg]
    show (checkLow f p).sg.slots = _
    rw [checkLow_clears b l, (slotWritten_deactivate _ _).slots]
    rfl
  · rw [posted.sg]
    show (checkLow f p).sg = _
    rw [checkLow_same l]
  · have b' : ((checkLow f p).wt.bridges.get f).high = false := by rw [bridge]; exact b
    rw [checkHigh_sets b' (high.trans x)]
    exact latch_sets _ _
  · rw [checkLow_same l, checkHigh_same x]

end Check

end Sys2Proof.Machine
end

section
/-! The moves of a change of K_f and what follows them, joint sightings, missed joints, and ALIGN BRIDGE (R14 to R19, R23). -/

namespace Sys2Proof.Machine

/-! ## The moves of a change of K (R14, R23) -/

theorem perm_insertEntry (e : TrackEntry) (l : List TrackEntry) : (insertEntry e l).Perm (e :: l) := by
  induction l with
  | nil => exact .refl _
  | cons x l ih =>
    simp only [insertEntry]
    split
    · exact .refl _
    · exact (ih.cons x).trans (.swap _ _ _)

theorem perm_sortEntries (l : List TrackEntry) : (sortEntries l).Perm l := by
  induction l with
  | nil => exact .refl _
  | cons e l ih => exact (perm_insertEntry e _).trans (ih.cons e)

/-- A start below 0 is 0, with the part below 0 cut off (R23). -/
theorem placeZone_eq (x : Int) (web : Option Nat) : placeZone x web = (x.toNat, web.map (fun n => n - (-x).toNat)) := by
  unfold placeZone
  split
  · rw [show (-x).toNat = 0 by omega]
    simp
  · rw [show x.toNat = 0 by omega]

theorem placedUnder_unbound {k : Int} {f : Fin 2} {e : TrackEntry} {b : Binding} (h : e.binding = some b) (n : b.bound = false)
    (m : b.feeder = f) :
    placedUnder k f e = { e with start := (b.start + k).toNat, extent := b.web.map (fun n => n - (-(b.start + k)).toNat) } := by
  simp only [placedUnder, h, n, m, placeZone_eq, Bool.not_false, decide_true, Bool.and_self, if_true]

theorem placedUnder_other {k : Int} {f : Fin 2} {e : TrackEntry} (h : ∀ b, e.binding = some b → b.bound = true ∨ b.feeder ≠ f) :
    placedUnder k f e = e := by
  cases b : e.binding with
  | none => simp only [placedUnder, b]
  | some x =>
    have stays : ¬(!x.bound && decide (x.feeder = f)) = true := by
      rcases h x b with h | h <;> simp [h]
    simp only [placedUnder, b]
    rw [if_neg stays]

/-- The changes of a list whose entries move, in its order (R30). -/
theorem movedZones_map (g : TrackEntry → TrackEntry) (l : List TrackEntry) :
    movedZones l (l.map g)
      = l.filterMap (fun e => if e.zone = (g e).zone then none else some { before := some e.zone, after := some (g e).zone, cull := e.cull }) := by
  unfold movedZones
  induction l with
  | nil => rfl
  | cons e l ih =>
    rw [List.map_cons, List.zip_cons_cons, List.flatMap_cons, ih, List.filterMap_cons, zoneChange]
    by_cases z : e.zone = (g e).zone
    · simp [z]
    · simp [z]

/-- The entry is a joint of the stand whose zone the placement `g` changes. -/
def JointMoves (g : TrackEntry → TrackEntry) (s : Fin 5) (e : TrackEntry) : Prop := ∃ x, e.kind = .spliceJoint s x ∧ e.zone ≠ (g e).zone

/-- The stands whose joints moved are those with a joint whose zone is another (R88). -/
theorem mem_movedStands (g : TrackEntry → TrackEntry) (l : List TrackEntry) (s : Fin 5) :
    s ∈ movedStands (movedZones l (l.map g)) l (l.map g) ↔ ∃ e ∈ l, JointMoves g s e := by
  have pairs : l.zip (l.map g) = l.map (fun e => (e, g e)) := by
    induction l with
    | nil => rfl
    | cons e l ih => rw [List.map_cons, List.zip_cons_cons, ih, List.map_cons]
  have joint (e : TrackEntry) :
      ((match e.kind with | .spliceJoint t _ => decide (t = s) | _ => false) && !decide (e.zone = (g e).zone)) = true ↔ JointMoves g s e := by
    unfold JointMoves
    cases e.kind <;> simp
  unfold movedStands
  split
  · rename_i empty
    simp only [List.not_mem_nil, false_iff]
    rintro ⟨e, m, x, _, z⟩
    rw [List.isEmpty_iff, movedZones_map, List.filterMap_eq_nil_iff] at empty
    have := empty e m
    rw [if_neg z] at this
    cases this
  · rw [List.mem_filter, pairs, List.any_map, List.any_eq_true]
    simp only [List.mem_finRange, true_and, Function.comp]
    exact exists_congr fun e => and_congr_right fun _ => joint e

theorem foldl_filter_if {α β : Type} (c : α → Bool) (f : β → α → β) (l : List α) (b : β) :
    l.foldl (fun q a => if c a then f q a else q) b = (l.filter c).foldl f b := (List.foldl_filter ..).symm

/-- The grade checks that a change of K makes are of the stands whose joints moved, by number (log 32). -/
theorem kChanged_stands (p : Part) (f : Fin 2) (more : List Change) (also : Option (Fin 5)) :
    let m := moveUnbound f p
    ∃ stands : List (Fin 5), stands.Pairwise (· < ·) ∧
      (∀ s, s ∈ stands ↔ (∃ e ∈ p.wt.track, JointMoves (placedUnder (bridgeK p f) f) s e) ∨ also = some s) ∧
      kChanged f more also p = lookupGlue (if f = 0 then 0 else 1) (evalFeeder f (stands.foldl (fun q s => checkGrades s q)
        (checkBridge f (commitCheck (bindBonds (handOver (more ++ m.2) m.1)))))) := by
  refine ⟨(List.finRange 5).filter fun s =>
    decide (s ∈ movedStands (moveUnbound f p).2 p.wt.track (p.wt.track.map (placedUnder (bridgeK p f) f))) || decide (also = some s), ?_, fun s => ?_, ?_⟩
  · exact List.Pairwise.filter _ (by decide)
  · rw [List.mem_filter, Bool.or_eq_true, decide_eq_true_eq, decide_eq_true_eq, moveUnbound, mem_movedStands]
    simp
  · unfold kChanged forEach
    dsimp only
    rw [foldl_filter_if]

/-! ## Joint sightings (R17, R18) -/

/-- An entry that a sighting of feeder `f` at `k` can match: an unbound joint of stand `s` at the distance `d`, within the window (R18). -/
def Candidate (p : Part) (f : Fin 2) (k : Nat) (e : TrackEntry) (s : Fin 5) (d : Nat) : Prop :=
  (∃ g, e.kind = .spliceJoint s g) ∧ e.unboundOf f = true ∧ d = (((e.start + (standOf p s).preCull : Nat) : Int) - k).natAbs
    ∧ d ≤ (p.wt.bridges.get f).window

section Sightings

variable {p : Part} {f : Fin 2} {k : Nat}

theorem sightDistance_eq_some {e : TrackEntry} {d : Nat} : sightDistance p f k e = some d ↔ ∃ s, Candidate p f k e s d := by
  unfold sightDistance jointOf Candidate
  cases e.kind with
  | spliceJoint s g =>
    dsimp only
    split
    · rename_i c
      rw [Bool.and_eq_true, decide_eq_true_eq] at c
      constructor
      · intro h
        cases h
        exact ⟨s, ⟨g, rfl⟩, c.1, rfl, c.2⟩
      · rintro ⟨t, ⟨x, h⟩, _, rfl, _⟩
        cases h
        rfl
    · rename_i c
      rw [Bool.and_eq_true, decide_eq_true_eq] at c
      refine ⟨fun h => (by cases h), ?_⟩
      rintro ⟨t, ⟨x, h⟩, u, rfl, w⟩
      cases h
      exact absurd ⟨u, w⟩ c
  | _ => simp

theorem nearest_eq_none {l : List TrackEntry} (h : ∀ e ∈ l, sightDistance p f k e = none) : nearest p f k l = none := by
  induction l with
  | nil => rfl
  | cons e l ih =>
    rw [List.forall_mem_cons] at h
    simp only [nearest, h.1, ih h.2]

/-- `x` at the distance `d` is no worse than `y` at the distance `c`: nearer, or as near with an id that is not higher (R18). -/
def NoWorse (x : TrackEntry) (d : Nat) (y : TrackEntry) (c : Nat) : Prop := d < c ∨ (d = c ∧ x.id ≤ y.id)

theorem NoWorse.trans {x y z : TrackEntry} {d c b : Nat} (a : NoWorse x d y c) (h : NoWorse y c z b) : NoWorse x d z b := by
  unfold NoWorse at *
  omega

/-- The nearest candidate stands in the list, and no other is better (R18). -/
theorem nearest_spec {l : List TrackEntry} {e : TrackEntry} {d : Nat} (m : e ∈ l) (h : sightDistance p f k e = some d) :
    ∃ x c, nearest p f k l = some (x, c) ∧ x ∈ l ∧ sightDistance p f k x = some c
      ∧ ∀ y ∈ l, ∀ b, sightDistance p f k y = some b → NoWorse x c y b := by
  induction l generalizing e d with
  | nil => cases m
  | cons a l ih =>
    by_cases rest : ∃ y ∈ l, ∃ b, sightDistance p f k y = some b
    · obtain ⟨y, hy, b, hb⟩ := rest
      obtain ⟨x, c, hx, mx, dx, best⟩ := ih hy hb
      cases da : sightDistance p f k a with
      | none =>
        refine ⟨x, c, by simp only [nearest, da, hx], List.mem_cons_of_mem _ mx, dx, List.forall_mem_cons.2 ⟨fun b h => ?_, best⟩⟩
        rw [da] at h
        cases h
      | some v =>
        by_cases better : v < c ∨ (v = c ∧ a.id < x.id)
        · have first : NoWorse a v x c := by unfold NoWorse; omega
          refine ⟨a, v, by simp only [nearest, da, hx, if_pos better], List.mem_cons_self, da, List.forall_mem_cons.2 ⟨fun b h => ?_, fun y hy b h => ?_⟩⟩
          · cases da.symm.trans h
            exact .inr ⟨rfl, Nat.le_refl _⟩
          · exact first.trans (best y hy b h)
        · refine ⟨x, c, by simp only [nearest, da, hx, if_neg better], List.mem_cons_of_mem _ mx, dx, List.forall_mem_cons.2 ⟨fun b h => ?_, best⟩⟩
          cases da.symm.trans h
          unfold NoWorse
          omega
    · have nobody : nearest p f k l = none := nearest_eq_none fun y hy => by
        cases h : sightDistance p f k y with
        | none => rfl
        | some b => exact absurd ⟨y, hy, b, h⟩ rest
      rcases List.mem_cons.1 m with rfl | m
      · refine ⟨e, d, by simp only [nearest, h, nobody], List.mem_cons_self, h, List.forall_mem_cons.2 ⟨fun b hb => ?_, fun y hy b hb => ?_⟩⟩
        · cases h.symm.trans hb
          exact .inr ⟨rfl, Nat.le_refl _⟩
        · exact absurd ⟨y, hy, b, hb⟩ rest
      · exact absurd ⟨e, m, d, h⟩ rest

/-- A sighting without a candidate is unexpected (R18). -/
theorem sighting_unexpected (h : ∀ e ∈ p.wt.track, ∀ s d, ¬Candidate p f k e s d) : sighting f k p = latch .jointUnexpected p := by
  have nobody : nearest p f k p.wt.track = none := nearest_eq_none fun e m => by
    cases c : sightDistance p f k e with
    | none => rfl
    | some d =>
      obtain ⟨s, x⟩ := sightDistance_eq_some.1 c
      exact absurd x (h e m s d)
  simp only [sighting, nobody]

/-- A sighting matches the candidate that is better than every other (R18). -/
theorem sighting_matches {e : TrackEntry} {s : Fin 5} {d : Nat} (m : e ∈ p.wt.track) (c : Candidate p f k e s d)
    (best : ∀ y ∈ p.wt.track, y ≠ e → ∀ t b, Candidate p f k y t b → d < b ∨ (d = b ∧ e.id < y.id)) :
    sighting f k p = matchJoint f k s e p := by
  have de := sightDistance_eq_some.2 ⟨s, c⟩
  obtain ⟨x, v, n, mx, dx, first⟩ := nearest_spec m de
  have same : x = e := by
    by_contra other
    obtain ⟨t, cx⟩ := sightDistance_eq_some.1 dx
    have worse := best x mx other t v cx
    have better := first e m d de
    unfold NoWorse at better
    omega
  subst same
  obtain ⟨⟨g, kind⟩, _⟩ := c
  simp only [sighting, n, kind]

theorem sighted_start (p : Part) (k : Nat) (s : Fin 5) (e : TrackEntry) : (sighted p k s e).start = coord ((k : Int) - (standOf p s).preCull) := by
  rw [sighted, placeZone_eq]
  rfl

theorem sighted_extent (p : Part) (k : Nat) (s : Fin 5) (e : TrackEntry) :
    (sighted p k s e).extent = (e.binding.bind Binding.web).map (fun n => n - (-((k : Int) - (standOf p s).preCull)).toNat) := by
  rw [sighted, placeZone_eq]
  rfl

theorem sighted_isBound (p : Part) (k : Nat) (s : Fin 5) (e : TrackEntry) : (sighted p k s e).isBound = true := bind_isBound _

/-- The correction of K that a sighting at `k` of the joint `e` makes (R18). -/
def correction (p : Part) (f : Fin 2) (k : Nat) (s : Fin 5) (e : TrackEntry) : Int :=
  min ((p.wt.bridges.get f).maxCorr : Int)
    (max (-((p.wt.bridges.get f).maxCorr : Int)) ((k : Int) - (e.start + (standOf p s).preCull : Nat)))

theorem clampInt_correction (p : Part) (f : Fin 2) (k : Nat) (s : Fin 5) (e : TrackEntry) :
    clampInt (-((p.wt.bridges.get f).maxCorr : Int)) (p.wt.bridges.get f).maxCorr ((k : Int) - ((e.start + (standOf p s).preCull : Nat) : Int))
      = correction p f k s e := rfl

/-- What a match starts, by the correction and the joint's move (R18). -/
theorem matchJoint_cases (p : Part) (f : Fin 2) (k : Nat) (s : Fin 5) (e : TrackEntry) :
    let b := p.wt.bridges.get f
    let e1 := sighted p k s e
    let corr := correction p f k s e
    let q := retire (replaceEntry e1 p)
    let own : List Change := [{ before := some e.zone, after := some e1.zone, cull := e.cull }]
    (corr = 0 → e.zone = e1.zone → matchJoint f k s e p = handOver [] q) ∧
    (corr = 0 → e.zone ≠ e1.zone → matchJoint f k s e p = checkGrades s (handOver own q)) ∧
    (corr ≠ 0 → e.zone = e1.zone → matchJoint f k s e p = kChanged f [] none (setBridgeRec q f { b with k := b.k + corr })) ∧
    (corr ≠ 0 → e.zone ≠ e1.zone → matchJoint f k s e p = kChanged f own (some s) (setBridgeRec q f { b with k := b.k + corr })) := by
  dsimp only
  simp only [matchJoint, clampInt_correction, zoneChange]
  refine ⟨fun c z => ?_, fun c z => ?_, fun c z => ?_, fun c z => ?_⟩ <;> simp [c, z]

/-- A match leaves WT but for the list, the bridges' conditions and K, which takes the correction. -/
theorem webOf_matchJoint (f : Fin 2) (k : Nat) (s : Fin 5) (e : TrackEntry) (p : Part) :
    webOf (matchJoint f k s e p)
      = webOf (setBridgeRec p f { p.wt.bridges.get f with k := (p.wt.bridges.get f).k + correction p f k s e }) := by
  have placed : webOf (retire (replaceEntry (sighted p k s e) p)) = webOf p := by rw [webOf_retire, webOf_replaceEntry]
  obtain ⟨still, moved, corrected, both⟩ := matchJoint_cases p f k s e
  by_cases zero : correction p f k s e = 0
  · have same : ({ p.wt.bridges.get f with k := (p.wt.bridges.get f).k + correction p f k s e } : Bridge) = p.wt.bridges.get f := by
      rw [zero, Int.add_zero]
    rw [same, setBridgeRec_get_self]
    by_cases z : e.zone = (sighted p k s e).zone
    · rw [still zero z, webOf_handOver, placed]
    · rw [moved zero z, webOf_checkGrades, webOf_handOver, placed]
  · by_cases z : e.zone = (sighted p k s e).zone
    · rw [corrected zero z, webOf_kChanged, webOf_setBridgeRec_congr placed]
    · rw [both zero z, webOf_kChanged, webOf_setBridgeRec_congr placed]

theorem bridgeK_matchJoint (f : Fin 2) (k : Nat) (s : Fin 5) (e : TrackEntry) (p : Part) :
    bridgeK (matchJoint f k s e p) f = bridgeK p f + correction p f k s e := by
  rw [bridgeK_of_webOf (webOf_matchJoint f k s e p), bridgeK, bridges_setBridgeRec, if_pos rfl, bridgeK]

theorem bridgeK_matchJoint_ne {f g : Fin 2} (h : g ≠ f) (k : Nat) (s : Fin 5) (e : TrackEntry) (p : Part) :
    bridgeK (matchJoint f k s e p) g = bridgeK p g := by
  rw [bridgeK_of_webOf (webOf_matchJoint f k s e p), bridgeK, bridges_setBridgeRec, if_neg h, bridgeK]

/-- While no cut has been reported, no entry is retired (R37). -/
theorem retire_noCut (h : p.dec.kLast = none) : retire p = p := by simp only [retire, h]

/-- An entry of a list, replaced, stands in it with its new zone and binding. -/
theorem mem_replaceEntry {e e1 : TrackEntry} (m : e ∈ p.wt.track) (i : e1.id = e.id) (c : e1.kind = e.kind) (u : e1.cull = e.cull)
    (o : e1.origin = e.origin) : e1 ∈ (replaceEntry e1 p).wt.track := by
  refine mem_sortEntries.2 (List.mem_map.2 ⟨e, m, ?_⟩)
  rw [if_pos (decide_eq_true i.symm)]
  dsimp only
  rw [← i, ← c, ← u, ← o]

/-- A matched joint stands in the list, bound where it was seen, while no cut has been reported (R18). -/
theorem matchJoint_stands {e : TrackEntry} {s : Fin 5} {g : Nat} (m : e ∈ p.wt.track) (kind : e.kind = .spliceJoint s g)
    (n : p.dec.kLast = none) (ids : IdsDiffer p.wt.track) :
    ∃ y ∈ (matchJoint f k s e p).wt.track, y.id = e.id ∧ y.kind = e.kind ∧ y.isBound = true
      ∧ y.start = coord ((k : Int) - (standOf p s).preCull)
      ∧ ∀ w, e.binding.bind Binding.web = some w → ∃ n, y.extent = some n ∧ w - (-((k : Int) - (standOf p s).preCull)).toNat ≤ n := by
  have steady := steady_matchJoint f k s e p
  have noCut : (replaceEntry (sighted p k s e) p).dec.kLast = none := n
  rw [retire_noCut noCut] at steady
  have stay := steady.joints noCut ((Kept.refl p).thenReplaceEntry.track.ids ids)
  obtain ⟨y, my, id, yk, bound, start, extent⟩ :=
    stay (sighted p k s e) (mem_replaceEntry m rfl rfl rfl rfl) ⟨s, g, kind⟩ (sighted_isBound p k s e)
  refine ⟨y, my, id, yk, bound, start.trans (sighted_start p k s e), fun w hw => ?_⟩
  exact extent _ (by rw [sighted_extent, hw]; rfl)

/-- The part with a sight counter stored (R17). -/
def sightStored (f : Fin 2) (c : Byte) (p : Part) : Part := setBridgeRec p f { p.wt.bridges.get f with lastSight := some c }

section Sample

variable (h : p.mu.mode = .run) (u : feederInUse p f = true)
include h u

theorem sightSample_first (c : Byte) (n : (p.wt.bridges.get f).lastSight = none) :
    sightSample f c p = sightStored f c p := by
  unfold sightSample
  rw [inRun_run h, u, Bool.and_self, if_pos rfl]
  simp only [n, sightStored]

theorem sightSample_repeated (c : Byte) (l : (p.wt.bridges.get f).lastSight = some c) : sightSample f c p = p := by
  unfold sightSample
  rw [inRun_run h, u, Bool.and_self, if_pos rfl]
  simp only [l, if_true]

theorem sightSample_changed {c l : Byte} (hl : (p.wt.bridges.get f).lastSight = some l) (n : l ≠ c) :
    sightSample f c p = sighting f (posB p + offset p (.jointDet f)) (sightStored f c p) := by
  unfold sightSample
  rw [inRun_run h, u, Bool.and_self, if_pos rfl]
  simp only [hl, if_neg (Ne.symm n)]
  rfl

end Sample

theorem sightSample_unused (u : feederInUse p f = false) (c : Byte) : sightSample f c p = p := by
  unfold sightSample
  rw [u, Bool.and_false]
  rfl

/-- A sight counter stored leaves what a sighting reads. -/
theorem candidate_sightStored {c : Byte} {e : TrackEntry} {s : Fin 5} {d : Nat} :
    Candidate (sightStored f c p) f k e s d ↔ Candidate p f k e s d := by
  unfold Candidate sightStored
  rw [bridges_setBridgeRec, if_pos rfl]
  rfl

end Sightings

/-! ## Missed joints (R19) -/

/-- An unbound joint of a feeder in use that has passed its detector beyond the window (R19). -/
def Missed (p : Part) (e : TrackEntry) : Prop :=
  ∃ b s g, e.binding = some b ∧ b.bound = false ∧ e.kind = .spliceJoint s g ∧ feederInUse p b.feeder = true
    ∧ e.start + (standOf p s).preCull + (p.wt.bridges.get b.feeder).window < posB p + offset p (.jointDet b.feeder)

theorem jointMissed_iff {p : Part} {e : TrackEntry} : jointMissed p e = true ↔ Missed p e := by
  unfold jointMissed jointOf Missed boardPoint
  cases e.binding with
  | none => simp
  | some b =>
    cases e.kind with
    | spliceJoint s g =>
      simp only [Bool.and_eq_true, Bool.not_eq_true', decide_eq_true_eq, Option.some.injEq, EntryKind.spliceJoint.injEq]
      constructor
      · rintro ⟨⟨n, u⟩, far⟩
        exact ⟨b, s, g, rfl, n, ⟨rfl, rfl⟩, u, far⟩
      · rintro ⟨_, _, _, rfl, n, ⟨rfl, rfl⟩, u, far⟩
        exact ⟨⟨n, u⟩, far⟩
    | _ => simp

theorem missJoints_none {p : Part} (h : ∀ e ∈ p.wt.track, ¬Missed p e) : missJoints p = p := by
  have empty : p.wt.track.filter (jointMissed p) = [] := List.filter_eq_nil_iff.2 fun e m c => h e m (jointMissed_iff.1 c)
  simp only [missJoints, empty, List.isEmpty_nil, if_true]

/-- A latch made once for each entry of a list. -/
theorem posted_latches (w : Alarm) (l : List TrackEntry) (p : Part) : Posted p (l.foldl (fun q _ => latch w q) p) := by
  induction l generalizing p with
  | nil => exact .refl p
  | cons e l ih => exact (posted_latch w p).trans (ih _)

theorem alarmOf_retire (p : Part) (w : Alarm) : alarmOf (retire p) w = alarmOf p w := by
  have passed (l : List TrackEntry) (q : Part) : (l.foldl passJoint q).mu = q.mu := by
    induction l generalizing q with
    | nil => rfl
    | cons e l ih =>
      refine (ih _).trans ?_
      unfold passJoint
      split <;> rfl
  unfold retire
  split
  · rfl
  · exact congrArg (fun mu : Mu => mu.alarms.get w.idx) (passed _ p)

/-- The part with its missed joints bound where they stand (R19). -/
def missedBound (p : Part) : Part := { p with wt := { p.wt with track := modifyWhere (jointMissed p) TrackEntry.bind p.wt.track } }

/-- Missed joints are bound where they stand, with JOINT_MISSED latched (R19). -/
theorem missJoints_some {p : Part} {e : TrackEntry} (m : e ∈ p.wt.track) (h : Missed p e) :
    (alarmOf (missJoints p) .jointMissed).latch = true ∧
      (p.dec.kLast = none → ∀ x, x ∈ (missJoints p).wt.track ↔ ∃ y ∈ p.wt.track, (Missed p y ∧ x = y.bind) ∨ (¬Missed p y ∧ x = y)) := by
  obtain ⟨a, l, cons⟩ := List.exists_cons_of_ne_nil (List.ne_nil_of_mem (List.mem_filter.2 ⟨m, jointMissed_iff.2 h⟩))
  have eq : missJoints p = retire (l.foldl (fun q _ => latch .jointMissed q) (latch .jointMissed (missedBound p))) := by
    simp only [missJoints, cons, List.isEmpty_cons, Bool.false_eq_true, if_false, List.foldl_cons]
    rfl
  have posted := posted_latches .jointMissed l (latch .jointMissed (missedBound p))
  refine ⟨?_, fun n x => ?_⟩
  · rw [eq, alarmOf_retire]
    exact posted.latches _ (latch_sets _ _)
  · have noCut : (l.foldl (fun q _ => latch .jointMissed q) (latch .jointMissed (missedBound p))).dec.kLast = none := by
      rw [posted.dec, latch_dec]
      exact n
    rw [eq, retire_noCut noCut, posted.wt, latch_wt]
    show x ∈ p.wt.track.map _ ↔ _
    rw [List.mem_map]
    refine exists_congr fun y => and_congr_right fun _ => ?_
    by_cases c : Missed p y
    · simp [c, jointMissed_iff.2 c, eq_comm]
    · simp [c, Bool.eq_false_iff.2 (mt jointMissed_iff.1 c), eq_comm]

/-! ## Settling O23 -/

/-- ALIGN BRIDGE's answer and effects (R16). -/
theorem alignBridge_effects {s : State} {r : Request} {n raw : Nat} {f : Fin 2} (run : s.part.mu.mode = .run)
    (a : Asks s.part 64 [4, 8] [n, raw] r) (h : place 2 n = some f) (u : feederInUse s.part f = true) :
    let measured : Int := min ((s.part.wt.bridges.get f).capacity : Int) (max 0 (signedOf 8 raw))
    ∃ q : Part, exec .alignBridge s = Answered s r .ok (i64 (bridgeContent s.part f) ++ i64 (bridgeK q f)) q
      ∧ q = setK f (measured + posB s.part + (s.part.wt.bridges.get f).lfix - posF s.part f) (popRequest s.part)
      ∧ bridgeContent q f = measured
      ∧ posB q = posB s.part ∧ (∀ g, posF q g = posF s.part g) ∧ (∀ g, g ≠ f → bridgeK q g = bridgeK s.part g) := by
  dsimp only
  have taken : (Taken.only .run).allows s.part.mu.mode = true := by rw [run]; rfl
  have kept := fun k => (Kept.refl (popRequest s.part)).thenSetK (f := f) (x := k)
  refine ⟨_, ?_, rfl, bridgeContent_setK f _ (popRequest s.part), (kept _).board, (kept _).feeders, fun g d => bridgeK_setK_ne d _ _⟩
  rw [bridgeK_setK]
  exact onPart_serve_of_asks a taken (alignBridgeTo_ok (p := popRequest s.part) h u)

/-- Settles O23, each part by the lemma about its operation. -/
theorem alignBridgeSetsContent : Obligations.AlignBridgeSetsContent := by
  refine ⟨fun s r n raw f run a h u => alignBridge_effects run a h u, fun s r n raw run a h => ?_, fun p f c run u => ?_,
    fun p => ⟨missJoints_none, fun e m h => missJoints_some m h⟩, fun p f run u => checkBridge_effects run u, fun p f k => ⟨setK_same, setK_new⟩,
    fun k f e => ⟨fun b h n m => placedUnder_unbound h n m, placedUnder_other⟩, fun p f _ => ?_, kChanged_stands, matchJoint_cases,
    fun p f c h => ?_⟩
  · have taken : (Taken.only .run).allows s.part.mu.mode = true := by rw [run]; rfl
    exact onPart_serve_of_asks a taken (alignBridgeTo_refused (p := popRequest s.part) h)
  · refine ⟨sightSample_first run u c, sightSample_repeated run u c, fun l hl d => ⟨fun h => ?_, fun e m s x cand best => ?_⟩⟩
    · rw [sightSample_changed run u hl d]
      exact sighting_unexpected fun e m s x cand => h e m s x (candidate_sightStored.1 cand)
    · have t : sightSample f c p = matchJoint f (posB p + offset p (.jointDet f)) s e (sightStored f c p) := by
        rw [sightSample_changed run u hl d]
        exact sighting_matches (p := sightStored f c p) m (candidate_sightStored.2 cand) fun y my n t b cy => best y my n t b (candidate_sightStored.1 cy)
      obtain ⟨⟨g, kind⟩, _⟩ := cand
      dsimp only
      rw [t]
      refine ⟨rfl, sighted_isBound _ _ _ _, sighted_start _ _ _ _, ?_, fun g n => ?_, fun n ids => matchJoint_stands (p := sightStored f c p) m kind n ids⟩
      · rw [bridgeK_matchJoint, bridgeK, correction, sightStored, bridges_setBridgeRec, if_pos rfl]
        rfl
      · rw [bridgeK_matchJoint_ne n, bridgeK, sightStored, bridges_setBridgeRec, if_neg n, bridgeK]
  · exact ⟨rfl, perm_sortEntries _, pairwise_sortEntries _, movedZones_map _ _⟩
  · rcases h with config | single
    · exact sightSample_config config f c
    · exact sightSample_unused (feederInUse_single single) c

end Sys2Proof.Machine
end

section
/-! What every step keeps: a property that the commands which leave the mode keep, and that RUN entry, the end of a run, RESTART and reset keep too (R171,
R195 to R199). With it the capacities and the order of the lists. -/

namespace Sys2Proof.Machine

/-! ## Properties that every step keeps -/

/-- Each way in which a command can change the part keeps `P`: the commands that leave the mode, and the parts of the mode changes (R197 to R199) and of
the reset (R171). -/
structure Stable (P : Part → Prop) : Prop where
  sound : ∀ {p q}, Sound p q → P p → P q
  reset : ∀ straps, P (Part.reset straps)
  entry : ∀ {p}, p.mu.mode = .config → P p → P (enterRunMode p)
  runEnd : ∀ {p} record, p.mu.mode = .run → P p → P (endRun record p)
  standsEnd : ∀ {p}, p.mu.mode = .config → P p → P { p with rsc := p.rsc.ended }
  restart : ∀ {p}, p.mu.mode = .config → P p → P (restartClear p)

@[simp] theorem okWith_part (l : List Byte) (p : Part) : (okWith l p).part = p := rfl

section Steps

variable {P : Part → Prop} (k : Stable P)
include k

theorem Stable.replyTo {r : Request} {x : Answer} (h : P x.part) : P (Machine.replyTo r x) := k.sound (postReply_sound _ _ _ _) h

/-- A request keeps `P` where its owner's rule does, in the modes that take it. -/
theorem Stable.serve {code : Nat} {t : Taken} {ws : List Nat} {act : List Nat → Part → Answer} {p : Part} (h : P p)
    (rule : ∀ fs, t.allows p.mu.mode = true → P (popRequest p) → P (act fs (popRequest p)).part) : P (Machine.serve code t ws act p) := by
  rcases serve_cases code t ws act p with sound | ⟨taken, r, fs, e⟩
  · exact k.sound sound h
  · rw [e]
    exact k.replyTo (rule fs taken (k.sound (sound_popRequest p) h))

theorem Stable.enterRunRequest {fs : List Nat} {p : Part} (config : p.mu.mode = .config) (h : P p) : P (Machine.enterRunRequest fs p).part := by
  unfold Machine.enterRunRequest
  split
  · rw [okWith_part]
    exact k.entry config h
  · exact h

theorem Stable.enterConfigRequest {fs : List Nat} {p : Part} (run : p.mu.mode = .run) (h : P p) : P (Machine.enterConfigRequest fs p).part := by
  unfold Machine.enterConfigRequest
  split
  · exact h
  · rw [okWith_part]
    exact k.runEnd true run h

theorem Stable.restartRequest {fs : List Nat} {p : Part} (h : P p) : P (Machine.restartRequest fs p).part := by
  rw [Machine.restartRequest, okWith_part]
  cases mode : p.mu.mode with
  | run =>
    rw [inRun_run mode, if_pos rfl]
    exact k.restart (endRun_mode false) (k.runEnd false mode h)
  | config =>
    rw [inRun_config mode, if_neg Bool.false_ne_true]
    exact k.restart (p := { p with rsc := p.rsc.ended }) mode (k.standsEnd mode h)

theorem Stable.exec {c : Instr} {s t : State} (h : P s.part) (e : Machine.exec c s = .next t) : P t.part := by
  by_cases m : changesMode c = true
  · cases c with
    | powerOnReset straps => cases e; exact k.reset straps
    | enterRun => cases e; exact k.serve h fun fs taken => k.enterRunRequest (config_of_allows (p := s.part) taken)
    | enterConfig => cases e; exact k.serve h fun fs taken => k.enterConfigRequest (run_of_allows (p := s.part) taken)
    | restart => cases e; exact k.serve h fun fs _ => k.restartRequest
    | _ => cases m
  · obtain ⟨q, next, sound⟩ := exec_sound c s (Bool.eq_false_iff.2 m)
    cases next.symm.trans e
    exact k.sound sound h

/-- What each command keeps, every step keeps: the passing of a millisecond is sound too. -/
theorem Stable.step {s t : State} (h : P s.part) (e : Machine.step s = .next t) : P t.part := by
  unfold Machine.step at e
  split at e
  · rename_i c rest _
    exact k.exec (s := { s with pending := rest }) h e
  · split at e
    · exact k.exec h e
    · cases e
      exact k.sound (tick_sound s.part) h

end Steps

/-! ## Capacities -/

/-- Every collection is empty after reset. -/
theorem reset_caps (straps : Byte) : Capacities (Part.reset straps) where
  urgent := Nat.zero_le _
  normal := Nat.zero_le _
  forward := Nat.zero_le _
  roster := Nat.zero_le _
  requests := Nat.zero_le _
  orders := Nat.zero_le _
  regions := Nat.zero_le _
  records := Nat.zero_le _
  track := Nat.zero_le _
  cuts := Nat.zero_le _
  channels := Nat.zero_le _
  dbm := Nat.zero_le _
  changes := Nat.zero_le _
  diverts := Nat.zero_le _
  stackerCommands := Nat.zero_le _
  setpoints := fun _ => Nat.zero_le _

/-- RUN entry empties the tracking list, the regions and the cut queue, and leaves what waits (R40, R158, R197). -/
theorem enteredPart_caps {p : Part} (c : Capacities p) : Capacities (enteredPart p) :=
  { c with regions := Nat.zero_le _, track := Nat.zero_le _, cuts := Nat.zero_le _, dbm := Nat.zero_le _,
           channels := by
             show (p.si.inMap.map _).length + _ ≤ 96
             rw [List.length_map]
             exact c.channels }

theorem stable_capacities : Stable Capacities where
  sound := Sound.capacities
  reset := reset_caps
  entry := fun _ c => enterRunMode_kept.capacities (enteredPart_caps c)
  runEnd := fun record _ c => endRun_caps record c
  standsEnd := fun _ c => { c with }
  restart := fun _ c => { c with roster := Nat.zero_le _, records := Nat.zero_le _ }

/-- Settles O6: each way in which a command can change the part keeps the capacities. -/
theorem stepKeepsCapacities : Obligations.StepKeepsCapacities := fun _ _ => stable_capacities.step

/-! ## The order of the lists -/

/-- Outside RUN only the tracking list has an order to keep. -/
theorem ordered_config {p q : Part} (track : q.wt.track = p.wt.track) (config : q.mu.mode = .config) (o : Ordered p) : Ordered q :=
  ⟨by rw [track]; exact o.track, by rw [track]; exact o.ids, fun run => by rw [config] at run; cases run⟩

theorem reset_ordered (straps : Byte) : Ordered (Part.reset straps) := ⟨.nil, .nil, nofun⟩

theorem stable_ordered : Stable Ordered where
  sound := Sound.ordered
  reset := reset_ordered
  entry := fun _ _ => enterRunMode_ordered _
  runEnd := fun record _ _ => endRun_ordered record
  standsEnd := fun {p} config o => ordered_config (p := p) rfl config o
  restart := fun {p} config o => ordered_config (p := p) rfl config o

theorem entryBefore_iff {a b : TrackEntry} : entryBefore a b = true ↔ a.start < b.start ∨ (a.start = b.start ∧ a.id < b.id) := by
  simp [entryBefore]

/-- In a list without equal ids the strict order is the order of R22. -/
theorem entryBefore_of_inOrder {a b : TrackEntry} (h : inOrder a b) (d : a.id ≠ b.id) : entryBefore a b = true := by
  rw [entryBefore_iff]
  unfold inOrder at h
  omega


/-- An entry of another id than those of a list in strict order, put at its place, leaves it so (R22). -/
theorem pairwise_entryBefore_insertEntry {e : TrackEntry} {l : List TrackEntry} (d : ∀ x ∈ l, x.id ≠ e.id)
    (h : l.Pairwise (fun a b => entryBefore a b = true)) : (insertEntry e l).Pairwise (fun a b => entryBefore a b = true) := by
  induction l with
  | nil => exact List.pairwise_singleton _ _
  | cons y l ih =>
    obtain ⟨first, rest⟩ := List.pairwise_cons.1 h
    rw [insertEntry]
    split
    · rename_i before
      refine List.pairwise_cons.2 ⟨fun z hz => ?_, h⟩
      rcases List.mem_cons.1 hz with rfl | hz
      · exact before
      · have after := first z hz
        rw [entryBefore_iff] at before after ⊢
        omega
    · rename_i behind
      refine List.pairwise_cons.2 ⟨fun z hz => ?_, ih (fun x m => d x (List.mem_cons_of_mem y m)) rest⟩
      rcases mem_insertEntry.1 hz with rfl | hz
      · exact entryBefore_of_inOrder (inOrder_of_not_entryBefore behind) (d y List.mem_cons_self)
      · exact first z hz

/-- Settles O25: an insertion puts its entry at its place, and each way in which a command can change the part keeps the order, the ids and the links. -/
theorem insertionKeepsOrder : Obligations.InsertionKeepsOrder :=
  ⟨fun e l d h => ⟨pairwise_entryBefore_insertEntry d h, perm_insertEntry e l⟩, fun _ _ => stable_ordered.step⟩

end Sys2Proof.Machine
end

section
/-! The rules of the tracking list: what a place is and who takes it, the union of spans, and what a DEFECT entry absorbs (R21, R27, R28, R33). -/

namespace Sys2Proof.Machine

/-! ## Places and insertions (R21, R27) -/

theorem hasPlace_iff {k : EntryKind} {p : Part} :
    hasPlace k p = true ↔ p.wt.track.length < 64 ∧ (k.isDbm = true → dbmCount p < 40) := by
  have free : 0 < freePlaces p ↔ p.wt.track.length < 64 := Nat.sub_pos_iff_lt
  rw [hasPlace, Bool.and_eq_true, decide_eq_true_eq, free, Bool.or_eq_true, Bool.not_eq_true', decide_eq_true_eq]
  cases k.isDbm <;> simp [Config.dbmCap]

theorem dbmCount_eq_countP (p : Part) :
    dbmCount p = p.wt.track.countP (fun e => match e.kind with | .defect => true | .bond => true | .mark _ => true | _ => false) := by
  rw [dbmCount, ← List.countP_eq_length_filter]
  refine List.countP_congr fun e _ => ?_
  cases e.kind <;> simp [EntryKind.isDbm]

/-- The next id is held by no entry of a list with a free place (R21). -/
theorem newId_ne {p : Part} (h : p.wt.track.length < 64) : ∀ e ∈ p.wt.track, e.id ≠ newId p :=
  fun _ m same => newId_fresh h.le (List.mem_map.2 ⟨_, m, same⟩)

theorem zoneChange_ne {c : Bool} {z w : Zone} (h : z ≠ w) :
    zoneChange c (some z) (some w) = [{ before := some z, after := some w, cull := c }] :=
  if_neg fun same => h (Option.some.inj same)

@[simp] theorem zoneChange_self (c : Bool) (z : Option Zone) : zoneChange c z z = [] := if_pos rfl

/-! ## Spans (R26, R33) -/

/-- A DEFECT entry whose zone overlaps [s, t) (R26). -/
def DefectOn (s t : Nat) (e : TrackEntry) : Prop := e.kind = .defect ∧ e.start < t ∧ s < e.start + e.extent.getD 0

theorem defectOverlaps_iff {s t : Nat} {e : TrackEntry} : defectOverlaps s t e = true ↔ DefectOn s t e := by
  rw [defectOverlaps, spansOverlap, Bool.and_eq_true, Bool.and_eq_true, decide_eq_true_eq, decide_eq_true_eq, decide_eq_true_eq]
  rfl

theorem DefectOn.mono {s t a b : Nat} {e : TrackEntry} (h : DefectOn s t e) (lo : a ≤ s) (hi : t ≤ b) : DefectOn a b e := by
  obtain ⟨kind, below, above⟩ := h
  exact ⟨kind, by omega, by omega⟩

/-- The span [lo, hi) is the union of [s, t) and of the zones of `l`, where they join to one span: it covers them, and each of its ends is one of
theirs. -/
structure UnionOf (s t : Nat) (l : List TrackEntry) (lo hi : Nat) : Prop where
  low : lo ≤ s
  high : t ≤ hi
  covers : ∀ e ∈ l, lo ≤ e.start ∧ e.start + e.extent.getD 0 ≤ hi
  lowEnd : lo = s ∨ ∃ e ∈ l, lo = e.start
  highEnd : hi = t ∨ ∃ e ∈ l, hi = e.start + e.extent.getD 0

theorem unionSpan_cons (s t : Nat) (e : TrackEntry) (l : List TrackEntry) :
    unionSpan s t (e :: l) = unionSpan (min s e.start) (max t e.stop) l := rfl

theorem unionOf_unionSpan (s t : Nat) (l : List TrackEntry) : UnionOf s t l (unionSpan s t l).1 (unionSpan s t l).2 := by
  induction l generalizing s t with
  | nil => exact ⟨Nat.le_refl _, Nat.le_refl _, nofun, .inl rfl, .inl rfl⟩
  | cons e l ih =>
    obtain ⟨low, high, covers, lowEnd, highEnd⟩ := ih (min s e.start) (max t e.stop)
    rw [unionSpan_cons]
    generalize (unionSpan (min s e.start) (max t e.stop) l).1 = lo at low covers lowEnd ⊢
    generalize (unionSpan (min s e.start) (max t e.stop) l).2 = hi at high covers highEnd ⊢
    refine ⟨low.trans (min_le_left _ _), (le_max_left _ _).trans high, fun x m => ?_, ?_, ?_⟩
    · rcases List.mem_cons.1 m with rfl | m
      · exact ⟨low.trans (min_le_right _ _), (le_max_right _ _).trans high⟩
      · exact covers x m
    · rcases lowEnd with first | ⟨x, m, at'⟩
      · rcases min_choice s e.start with c | c <;> rw [c] at first
        · exact .inl first
        · exact .inr ⟨e, List.mem_cons_self, first⟩
      · exact .inr ⟨x, List.mem_cons_of_mem _ m, at'⟩
    · rcases highEnd with first | ⟨x, m, at'⟩
      · rcases max_choice t e.stop with c | c <;> rw [c] at first
        · exact .inl first
        · exact .inr ⟨e, List.mem_cons_self, first⟩
      · exact .inr ⟨x, List.mem_cons_of_mem _ m, at'⟩

/-- Entries that lie within the span add nothing to the union. -/
theorem unionSpan_filter {c : TrackEntry → Bool} {s t : Nat} {l : List TrackEntry}
    (within : ∀ e ∈ l, c e = false → s ≤ e.start ∧ e.stop ≤ t) : unionSpan s t (l.filter c) = unionSpan s t l := by
  induction l generalizing s t with
  | nil => rfl
  | cons e l ih =>
    have rest : ∀ a b, a ≤ s → t ≤ b → ∀ x ∈ l, c x = false → a ≤ x.start ∧ x.stop ≤ b := fun a b lo hi x m n => by
      have := within x (List.mem_cons_of_mem e m) n
      omega
    cases h : c e with
    | true =>
      rw [List.filter_cons_of_pos h, unionSpan_cons, unionSpan_cons]
      exact ih (rest _ _ (min_le_left _ _) (le_max_left _ _))
    | false =>
      obtain ⟨lo, hi⟩ := within e List.mem_cons_self h
      rw [List.filter_cons_of_neg (by simp [h]), unionSpan_cons, min_eq_left lo, max_eq_left hi]
      exact ih (rest s t (Nat.le_refl _) (Nat.le_refl _))

/-! ## Absorption (R28, R33) -/

/-- The entries that `d` absorbs as it takes the zone [s, t): the other DEFECT entries on it. -/
def goneInto (d : TrackEntry) (s t : Nat) (l : List TrackEntry) : List TrackEntry :=
  l.filter (fun e => defectOverlaps s t e && !decide (e.id = d.id))

/-- The zone that `d` then has: the union. -/
def grownSpan (d : TrackEntry) (s t : Nat) (l : List TrackEntry) : Nat × Nat := unionSpan s t (goneInto d s t l)

/-- The entry `d` grown to that zone. -/
def grown (d : TrackEntry) (s t : Nat) (l : List TrackEntry) : TrackEntry :=
  { d with start := (grownSpan d s t l).1, extent := some ((grownSpan d s t l).2 - (grownSpan d s t l).1) }

section Absorption

variable {d x : TrackEntry} {s t : Nat} {l : List TrackEntry} {p : Part}

theorem mem_goneInto : x ∈ goneInto d s t l ↔ x ∈ l ∧ DefectOn s t x ∧ x.id ≠ d.id := by
  simp [goneInto, List.mem_filter, defectOverlaps_iff]

theorem unionOf_grownSpan (d : TrackEntry) (s t : Nat) (l : List TrackEntry) :
    UnionOf s t (goneInto d s t l) (grownSpan d s t l).1 (grownSpan d s t l).2 := unionOf_unionSpan _ _ _

theorem grown_stop (h : s ≤ t) : (grown d s t l).start + (grown d s t l).extent.getD 0 = (grownSpan d s t l).2 := by
  obtain ⟨low, high, -⟩ := unionOf_grownSpan d s t l
  show (grownSpan d s t l).1 + ((grownSpan d s t l).2 - (grownSpan d s t l).1) = _
  omega

/-- An entry after `d` has absorbed: one that was not absorbed, in the new zone where it has the id of `d`. -/
theorem mem_absorbInto :
    x ∈ (absorbInto d s t p).1.wt.track ↔ ∃ y ∈ p.wt.track, ¬(DefectOn s t y ∧ y.id ≠ d.id)
      ∧ (if y.id = d.id then { y with start := (grown d s t p.wt.track).start, extent := (grown d s t p.wt.track).extent } else y) = x := by
  have kept (y : TrackEntry) :
      y ∈ p.wt.track.filter (fun e => !(defectOverlaps s t e && !decide (e.id = d.id)))
        ↔ y ∈ p.wt.track ∧ ¬(DefectOn s t y ∧ y.id ≠ d.id) := by
    rw [List.mem_filter, ← defectOverlaps_iff]
    cases defectOverlaps s t y <;> simp
  refine mem_sortEntries.trans (List.mem_map.trans (exists_congr fun y => ?_))
  rw [kept, and_assoc]
  simp only [decide_eq_true_eq]
  rfl

/-- An entry of another id stays where it is not absorbed. -/
theorem mem_absorbInto_other (h : x.id ≠ d.id) :
    x ∈ (absorbInto d s t p).1.wt.track ↔ x ∈ p.wt.track ∧ ¬DefectOn s t x := by
  rw [mem_absorbInto]
  constructor
  · rintro ⟨y, m, stays, rfl⟩
    split at h
    · exact absurd ‹y.id = d.id› h
    · rw [if_neg h]
      exact ⟨m, fun on => stays ⟨on, h⟩⟩
  · rintro ⟨m, off⟩
    exact ⟨x, m, fun gone => off gone.1, if_neg h⟩

/-- The absorbing entry stands in the list in its new zone. -/
theorem grown_mem (m : d ∈ p.wt.track) : grown d s t p.wt.track ∈ (absorbInto d s t p).1.wt.track :=
  mem_absorbInto.2 ⟨d, m, fun gone => gone.2 rfl, if_pos rfl⟩

end Absorption

end Sys2Proof.Machine
end

section
/-! MARK, DEFECT samples and the defect credit (R31 to R34, R36). -/

namespace Sys2Proof.Machine

/-! ## MARK (R36) -/

/-- A mark placed now at a station, before it has its id (R36). -/
def markNow (st : Station) (cull : Bool) (number : Nat) (p : Part) : TrackEntry :=
  { id := 0, kind := .mark number, start := markPoint p st, extent := some 0, cull := cull, origin := st, binding := none }

section Mark

variable {p : Part} {st : Station} {n c number : Nat}

theorem markAt_placed (known : stationOf n = some st) (board : st.onFeeder = false) (cull : c ≤ 1) (small : number ≤ 65535)
    (h : hasPlace (.mark number) p = true) :
    markAt [n, c, number] p = okWith (w32 (newId p) ++ w64 (markPoint p st))
      (handOver [{ before := none, after := some { start := markPoint p st, extent := some 0 }, cull := decide (c = 1) }]
        (addEntry (markNow st (decide (c = 1)) number p) p).1) := by
  have taken : (st.onFeeder || decide (1 < c) || decide (65535 < number)) = false := by simp [board, cull, small]
  simp only [markAt, known, taken, Bool.false_eq_true, if_false, placeMark, h, if_true]
  rfl

theorem markAt_full (known : stationOf n = some st) (board : st.onFeeder = false) (cull : c ≤ 1) (small : number ≤ 65535)
    (h : hasPlace (.mark number) p = false) : markAt [n, c, number] p = refuse .full p := by
  have taken : (st.onFeeder || decide (1 < c) || decide (65535 < number)) = false := by simp [board, cull, small]
  simp only [markAt, known, taken, Bool.false_eq_true, if_false, placeMark, h]

theorem markAt_refused (h : stationOf n = none ∨ (∃ st, stationOf n = some st ∧ st.onFeeder = true) ∨ 1 < c ∨ 65535 < number) :
    markAt [n, c, number] p = refuse .badArg p := by
  cases known : stationOf n with
  | none => simp only [markAt, known]
  | some st =>
    have malformed : (st.onFeeder || decide (1 < c) || decide (65535 < number)) = true := by
      rw [known] at h
      simpa [or_assoc] using h
    simp only [markAt, known, malformed, if_true]

theorem markPoint_noCut (h : p.dec.kLast = none) : markPoint p st = posB p + offset p st := by
  rw [markPoint, h]
  exact Nat.max_eq_left (Nat.zero_le _)

theorem markPoint_cut {k : Nat} (h : p.dec.kLast = some k) : markPoint p st = max (posB p + offset p st) k := by
  rw [markPoint, h]
  rfl

end Mark

/-- MARK with a place, and without one (R27, R36). -/
theorem mark_effects {s : State} {r : Request} {n c number : Nat} {st : Station} (run : s.part.mu.mode = .run)
    (a : Asks s.part 65 [4, 4, 4] [n, c, number] r) (known : stationOf n = some st) (board : st.onFeeder = false) (cull : c ≤ 1)
    (small : number ≤ 65535) :
    (hasPlace (.mark number) s.part = true → exec .mark s
      = Answered s r .ok (w32 (newId s.part) ++ w64 (markPoint s.part st))
          (handOver [{ before := none, after := some { start := markPoint s.part st, extent := some 0 }, cull := decide (c = 1) }]
            (addEntry (markNow st (decide (c = 1)) number s.part) (popRequest s.part)).1)) ∧
    (hasPlace (.mark number) s.part = false → exec .mark s = Answered s r .full [] (popRequest s.part)) := by
  have taken : (Taken.only .run).allows s.part.mu.mode = true := by rw [run]; rfl
  exact ⟨fun h => onPart_serve_of_asks a taken (markAt_placed (p := popRequest s.part) known board cull small h),
    fun h => onPart_serve_of_asks a taken (markAt_full (p := popRequest s.part) known board cull small h)⟩

/-- Feeder stations are the stands 1 to 4 and the glue units 1 and 2 (R2, R71, R108). -/
theorem onFeeder_iff (st : Station) : st.onFeeder = true ↔ (∃ i : Fin 5, st = .stand i ∧ i.val < 4) ∨ st = .glue 0 ∨ st = .glue 1 := by
  cases st with
  | stand i =>
    have fed : (standFeeder i).isSome = true ↔ i.val < 4 := by revert i; decide
    simp [Station.onFeeder, fed]
  | glue g =>
    have first : decide (g.val < 2) = true ↔ g = 0 ∨ g = 1 := by revert g; decide
    rw [Station.onFeeder, first]
    simp
  | _ => simp [Station.onFeeder]

/-! ## DEFECT samples (R31) -/

/-- The part with a defect counter stored (R31). -/
def counterStored (d : Fin 4) (c : Byte) (p : Part) : Part := { p with wt := { p.wt with defectLast := upd p.wt.defectLast d (some c) } }

section Defect

variable {p : Part} {d : Fin 4} {extent : Nat} {c : Byte}

theorem defectSample_first (h : p.mu.mode = .run) (n : p.wt.defectLast.get d = none) : defectSample d extent c p = counterStored d c p := by
  simp only [defectSample, inRun_run h, if_true, n, counterStored]

theorem defectSample_repeated (h : p.mu.mode = .run) (l : p.wt.defectLast.get d = some c) : defectSample d extent c p = p := by
  simp only [defectSample, inRun_run h, if_true, l]

theorem defectSample_changed (h : p.mu.mode = .run) {l : Byte} (hl : p.wt.defectLast.get d = some l) (n : l ≠ c) :
    defectSample d extent c p = takeDefect d (min 50000 (max 1 extent)) (counterStored d c p) := by
  simp only [defectSample, inRun_run h, if_true, hl, if_neg (Ne.symm n), counterStored, clamp]

/-! ## Taken defects (R33, R34) -/

theorem find_defectOverlaps_eq_none {s t : Nat} {l : List TrackEntry} (h : ∀ e ∈ l, ¬DefectOn s t e) : l.find? (defectOverlaps s t) = none :=
  List.find?_eq_none.2 fun e m on => h e m (defectOverlaps_iff.1 on)

/-- A defect on no entry takes a place of its own for one credit. -/
theorem takeDefect_placed (off : ∀ e ∈ p.wt.track, ¬DefectOn (boardPoint p (.defect d)) (boardPoint p (.defect d) + extent) e)
    (credit : 0 < p.wt.credit) (place : hasPlace .defect p = true) :
    takeDefect d extent p
      = handOver [{ before := none, after := some { start := boardPoint p (.defect d), extent := some extent }, cull := true }]
          { (addEntry (defectEntry d (boardPoint p (.defect d)) extent) p).1 with
              wt := { (addEntry (defectEntry d (boardPoint p (.defect d)) extent) p).1.wt with credit := p.wt.credit - 1 } } := by
  simp only [takeDefect, find_defectOverlaps_eq_none off, credit, place, and_self, if_true]
  rfl

/-- A defect on no entry and without a credit or a place. -/
theorem takeDefect_unplaced (off : ∀ e ∈ p.wt.track, ¬DefectOn (boardPoint p (.defect d)) (boardPoint p (.defect d) + extent) e)
    (h : p.wt.credit = 0 ∨ hasPlace .defect p = false) :
    takeDefect d extent p = mergeLatest (boardPoint p (.defect d)) (boardPoint p (.defect d) + extent) p := by
  have none' : ¬(0 < p.wt.credit ∧ hasPlace .defect p = true) := by
    rintro ⟨credit, place⟩
    rcases h with h | h
    · omega
    · rw [h] at place
      cases place
  simp only [takeDefect, find_defectOverlaps_eq_none off, if_neg none']

/-- A defect is merged into the first entry it is on. -/
theorem takeDefect_on {before after : List TrackEntry} {e : TrackEntry} (l : p.wt.track = before ++ e :: after)
    (off : ∀ x ∈ before, ¬DefectOn (boardPoint p (.defect d)) (boardPoint p (.defect d) + extent) x)
    (on : DefectOn (boardPoint p (.defect d)) (boardPoint p (.defect d) + extent) e) :
    takeDefect d extent p
      = handOn (absorbInto e (min (boardPoint p (.defect d)) e.start) (max (boardPoint p (.defect d) + extent) e.stop) p) := by
  have found : p.wt.track.find? (defectOverlaps (boardPoint p (.defect d)) (boardPoint p (.defect d) + extent)) = some e := by
    rw [l, List.find?_append, find_defectOverlaps_eq_none off, Option.none_or, List.find?_cons_of_pos (defectOverlaps_iff.2 on)]
  simp only [takeDefect, found]

theorem mergeLatest_none {s t : Nat} (h : ∀ e ∈ p.wt.track, e.kind ≠ .defect) : mergeLatest s t p = dropDefect p := by
  have nobody : p.wt.track.filter isDefect = [] := List.filter_eq_nil_iff.2 fun e m k => h e m (of_decide_eq_true k)
  simp only [mergeLatest, nobody, List.getLast?_nil]

/-- What the latest DEFECT entry would absorb with a defect makes with them the union that R34 limits: the entry itself adds nothing to it. -/
theorem unionSpan_latest {e : TrackEntry} {l : List TrackEntry} {s t : Nat} (ids : IdsDiffer l) (m : e ∈ l) (lo : s ≤ e.start) (hi : e.stop ≤ t) :
    unionSpan s t (l.filter (defectOverlaps s t)) = grownSpan e s t l := by
  rw [grownSpan, goneInto, show (fun x => defectOverlaps s t x && !decide (x.id = e.id)) = fun x => !decide (x.id = e.id) && defectOverlaps s t x from
    funext fun x => Bool.and_comm _ _, ← List.filter_filter]
  refine (unionSpan_filter fun x mx same => ?_).symm
  have : x = e := eq_of_id ids (List.mem_filter.1 mx).1 m (by simpa using same)
  rw [this]
  exact ⟨lo, hi⟩

/-- A defect that finds no place is merged into the latest DEFECT entry, or dropped where the union is too long (R34). -/
theorem mergeLatest_latest {before after : List TrackEntry} {e : TrackEntry} {s t : Nat} (l : p.wt.track = before ++ e :: after)
    (kind : e.kind = .defect) (last : ∀ x ∈ after, x.kind ≠ .defect) (ids : IdsDiffer p.wt.track) :
    let u := grownSpan e (min s e.start) (max t e.stop) p.wt.track
    mergeLatest s t p
      = if 1000000 < u.2 - u.1 then dropDefect p else latch .defectMerge (handOn (absorbInto e (min s e.start) (max t e.stop) p)) := by
  have latest : (p.wt.track.filter isDefect).getLast? = some e := by
    have none' : after.filter isDefect = [] := List.filter_eq_nil_iff.2 fun x m k => last x m (of_decide_eq_true k)
    rw [l, List.filter_append, List.filter_cons_of_pos (p := isDefect) (decide_eq_true kind), none', List.getLast?_concat]
  have m : e ∈ p.wt.track := l ▸ List.mem_append_right _ List.mem_cons_self
  simp only [mergeLatest, latest, unionSpan_latest ids m (min_le_right _ _) (le_max_right _ _)]
  rfl

end Defect

/-! ## The refill of the credit (R32) -/

section Refill

variable {p : Part} {adv : Nat}

theorem refillCredit_full (h : p.wt.bucketSize ≤ p.wt.credit) : refillCredit adv p = { p with wt := { p.wt with remainder := 0 } } := if_pos h

theorem refillCredit_fills (h : p.wt.credit < p.wt.bucketSize)
    (fills : p.wt.bucketSize ≤ p.wt.credit + (p.wt.remainder + adv) / p.wt.refillLength) :
    refillCredit adv p = { p with wt := { p.wt with credit := p.wt.bucketSize, remainder := 0 } } := by
  simp only [refillCredit, if_neg (Nat.not_le.2 h), if_pos fills]

theorem refillCredit_adds (less : p.wt.credit + (p.wt.remainder + adv) / p.wt.refillLength < p.wt.bucketSize) :
    refillCredit adv p
      = { p with wt := { p.wt with credit := p.wt.credit + (p.wt.remainder + adv) / p.wt.refillLength,
                                   remainder := (p.wt.remainder + adv) % p.wt.refillLength } } := by
  have h : p.wt.credit < p.wt.bucketSize := Nat.lt_of_le_of_lt (Nat.le_add_right _ _) less
  simp only [refillCredit, if_neg (Nat.not_le.2 h), if_neg (Nat.not_le.2 less)]

theorem refillCredit_effects (long : 0 < p.wt.refillLength) :
    let travel := p.wt.remainder + adv
    let w := (refillCredit adv p).wt
    refillCredit adv p = { p with wt := { p.wt with credit := w.credit, remainder := w.remainder } } ∧
    (p.wt.bucketSize ≤ p.wt.credit → w.credit = p.wt.credit ∧ w.remainder = 0) ∧
    (p.wt.credit < p.wt.bucketSize →
      w.credit ≤ p.wt.bucketSize ∧ (w.credit = p.wt.bucketSize → w.remainder = 0 ∧ (p.wt.bucketSize - p.wt.credit) * p.wt.refillLength ≤ travel) ∧
      (w.credit < p.wt.bucketSize → w.remainder < p.wt.refillLength ∧ travel = (w.credit - p.wt.credit) * p.wt.refillLength + w.remainder
        ∧ p.wt.credit ≤ w.credit)) := by
  dsimp only
  by_cases full : p.wt.bucketSize ≤ p.wt.credit
  · rw [refillCredit_full full]
    exact ⟨rfl, fun _ => ⟨rfl, rfl⟩, fun less => absurd full (Nat.not_le.2 less)⟩
  · by_cases fills : p.wt.bucketSize ≤ p.wt.credit + (p.wt.remainder + adv) / p.wt.refillLength
    · rw [refillCredit_fills (Nat.not_le.1 full) fills]
      refine ⟨rfl, fun c => absurd c full, fun _ => ⟨Nat.le_refl _, fun _ => ⟨rfl, ?_⟩, fun less => absurd less (Nat.lt_irrefl _)⟩⟩
      exact (Nat.mul_le_mul_right _ (Nat.sub_le_iff_le_add'.2 fills)).trans (Nat.div_mul_le_self _ _)
    · rw [refillCredit_adds (Nat.not_le.1 fills)]
      refine ⟨rfl, fun c => absurd c full, fun _ => ⟨(Nat.not_le.1 fills).le, fun c => absurd c.ge fills, fun _ => ?_⟩⟩
      dsimp only
      refine ⟨Nat.mod_lt _ long, ?_, Nat.le_add_right _ _⟩
      rw [Nat.add_sub_cancel_left]
      exact (Nat.div_add_mod' _ _).symm

end Refill

end Sys2Proof.Machine
end

section
/-! What each kind of DEFECT sample leaves, and O24 (R31 to R34, R36). -/

namespace Sys2Proof.Machine

/-! ## Merges (R33, R34) -/

section Merges

variable {p : Part} {before after : List TrackEntry} {e : TrackEntry} {s t : Nat}

/-- A merge into the latest DEFECT entry, by the union of the two and of every DEFECT entry that they then overlap (R34). -/
theorem mergeLatest_effects (track : p.wt.track = before ++ e :: after) (kind : e.kind = .defect) (last : ∀ x ∈ after, x.kind ≠ .defect)
    (ids : IdsDiffer p.wt.track) :
    let a := min s e.start
    let b := max t (e.start + e.extent.getD 0)
    ∃ lo hi : Nat, lo ≤ a ∧ b ≤ hi
      ∧ (∀ x ∈ p.wt.track, DefectOn a b x → lo ≤ x.start ∧ x.start + x.extent.getD 0 ≤ hi)
      ∧ (lo = a ∨ ∃ x ∈ p.wt.track, DefectOn a b x ∧ lo = x.start)
      ∧ (hi = b ∨ ∃ x ∈ p.wt.track, DefectOn a b x ∧ hi = x.start + x.extent.getD 0)
      ∧ (1000000 < hi - lo → mergeLatest s t p = dropDefect p)
      ∧ (hi - lo ≤ 1000000 →
          ∃ (r : Part) (changes : List Change), mergeLatest s t p = latch .defectMerge (handOn (r, changes))
            ∧ (∃ x ∈ r.wt.track, x = { e with start := lo, extent := some (hi - lo) })
            ∧ (∀ x ∈ p.wt.track, x.id ≠ e.id → (x ∈ r.wt.track ↔ ¬DefectOn a b x)) ∧ r.wt.credit = p.wt.credit ∧ r.os = p.os) := by
  dsimp only
  have m : e ∈ p.wt.track := track ▸ List.mem_append_right _ List.mem_cons_self
  have merged := mergeLatest_latest (s := s) (t := t) track kind last ids
  obtain ⟨low, high, covers, lowEnd, highEnd⟩ := unionOf_grownSpan e (min s e.start) (max t (e.start + e.extent.getD 0)) p.wt.track
  refine ⟨_, _, low, high, fun x mx on => ?_, ?_, ?_, fun long => merged.trans (if_pos long), fun short => ?_⟩
  · by_cases same : x.id = e.id
    · rw [eq_of_id ids mx m same]
      exact ⟨low.trans (min_le_right _ _), (le_max_right _ _).trans high⟩
    · exact covers x (mem_goneInto.2 ⟨mx, on, same⟩)
  · refine lowEnd.imp_right fun ⟨x, gone, at'⟩ => ?_
    obtain ⟨mx, on, -⟩ := mem_goneInto.1 gone
    exact ⟨x, mx, on, at'⟩
  · refine highEnd.imp_right fun ⟨x, gone, at'⟩ => ?_
    obtain ⟨mx, on, -⟩ := mem_goneInto.1 gone
    exact ⟨x, mx, on, at'⟩
  · exact ⟨_, _, merged.trans (if_neg (Nat.not_lt.2 short)), ⟨_, grown_mem m, rfl⟩,
      fun x mx other => (mem_absorbInto_other other).trans (and_iff_right mx), rfl, rfl⟩

/-- A merge into an entry that the defect overlaps: one entry covers the defect and every entry it overlaps (R33). -/
theorem absorbInto_covers (m : e ∈ p.wt.track) (wide : s < t) (on : DefectOn s t e) :
    let r := (absorbInto e (min s e.start) (max t (e.start + e.extent.getD 0)) p).1
    (∃ x ∈ r.wt.track, x.kind = .defect ∧ x.id = e.id ∧ x.start ≤ s ∧ t ≤ x.start + x.extent.getD 0
        ∧ (∀ y ∈ p.wt.track, DefectOn s t y → y = e ∨ y.id ≠ e.id → x.start ≤ y.start ∧ y.start + y.extent.getD 0 ≤ x.start + x.extent.getD 0))
      ∧ (∀ y ∈ r.wt.track, DefectOn s t y → y.id = e.id)
      ∧ (∀ y ∈ p.wt.track, y.kind ≠ .defect → y.id ≠ e.id → y ∈ r.wt.track) := by
  dsimp only
  have within {y : TrackEntry} (h : DefectOn s t y) : DefectOn (min s e.start) (max t (e.start + e.extent.getD 0)) y :=
    h.mono (min_le_left _ _) (le_max_left _ _)
  have nonempty : min s e.start ≤ max t (e.start + e.extent.getD 0) := (min_le_left _ _).trans (wide.le.trans (le_max_left _ _))
  obtain ⟨low, high, covers, -, -⟩ := unionOf_grownSpan e (min s e.start) (max t (e.start + e.extent.getD 0)) p.wt.track
  refine ⟨⟨_, grown_mem m, on.1, rfl, low.trans (min_le_left _ _), ?_, fun y my hy which => ?_⟩, fun y my hy => ?_, fun y my other differs => ?_⟩
  · rw [grown_stop nonempty]
    exact (le_max_left _ _).trans high
  · rw [grown_stop nonempty]
    rcases which with rfl | differs
    · exact ⟨low.trans (min_le_right _ _), (le_max_right _ _).trans high⟩
    · exact covers y (mem_goneInto.2 ⟨my, within hy, differs⟩)
  · by_contra differs
    exact ((mem_absorbInto_other differs).1 my).2 (within hy)
  · exact (mem_absorbInto_other differs).2 ⟨my, fun h => other h.1⟩

end Merges

/-! ## Samples (R31) -/

section Samples

variable {p : Part} {d : Fin 4} {extent : Nat} {c : Byte}

theorem defect_nonempty (s extent : Nat) : s < s + min 50000 (max 1 extent) := by omega

/-- Without a free place or a place for its kind, a defect has no place (R27). -/
theorem hasPlace_defect_eq_false (h : 64 ≤ p.wt.track.length ∨ 40 ≤ dbmCount p) : hasPlace .defect p = false := by
  rw [← Bool.not_eq_true, hasPlace_iff]
  rintro ⟨free, dbm⟩
  have := dbm rfl
  omega

theorem no_place_of_full (h : p.wt.credit = 0 ∨ 64 ≤ p.wt.track.length ∨ 40 ≤ dbmCount p) :
    p.wt.credit = 0 ∨ hasPlace .defect p = false := h.imp_right hasPlace_defect_eq_false

variable (run : p.mu.mode = .run) {l : Byte} (hl : p.wt.defectLast.get d = some l) (changed : l ≠ c)
include run hl changed

/-- A defect of its own is inserted, and costs one credit (R33). -/
theorem defectSample_placed
    (off : ∀ e ∈ p.wt.track, ¬DefectOn (posB p + offset p (.defect d)) (posB p + offset p (.defect d) + min 50000 (max 1 extent)) e)
    (credit : 0 < p.wt.credit) (free : p.wt.track.length < 64) (dbm : dbmCount p < 40) :
    let s := posB p + offset p (.defect d)
    let t := s + min 50000 (max 1 extent)
    ∃ (r : Part) (id : Nat), (∀ e ∈ p.wt.track, e.id ≠ id)
      ∧ defectSample d extent c p
        = handOver [{ before := none, after := some { start := s, extent := some (t - s) }, cull := true }] r
      ∧ r.wt.track = insertEntry
          { id := id, kind := .defect, start := s, extent := some (t - s), cull := true, origin := .defect d, binding := none } p.wt.track
      ∧ r.wt.credit = p.wt.credit - 1 ∧ r.wt.defectLast = (counterStored d c p).wt.defectLast ∧ r.os = p.os ∧ r.rif = p.rif := by
  dsimp only
  have place : hasPlace .defect (counterStored d c p) = true := hasPlace_iff.2 ⟨free, fun _ => dbm⟩
  rw [Nat.add_sub_cancel_left]
  rw [defectSample_changed run hl changed, takeDefect_placed (p := counterStored d c p) off credit place]
  exact ⟨_, newId p, newId_ne free, rfl, rfl, rfl, rfl, rfl, rfl⟩

/-- A defect without a place or a credit is dropped where there is no DEFECT entry (R34). -/
theorem defectSample_dropped (none' : ∀ e ∈ p.wt.track, e.kind ≠ .defect)
    (full : p.wt.credit = 0 ∨ 64 ≤ p.wt.track.length ∨ 40 ≤ dbmCount p) : defectSample d extent c p = dropDefect (counterStored d c p) := by
  rw [defectSample_changed run hl changed, takeDefect_unplaced (p := counterStored d c p) (fun e m on => none' e m on.1) (no_place_of_full full),
    mergeLatest_none (p := counterStored d c p) none']

/-- A defect without a place or a credit is merged into the latest DEFECT entry (R34). -/
theorem defectSample_unplaced
    (off : ∀ e ∈ p.wt.track, ¬DefectOn (posB p + offset p (.defect d)) (posB p + offset p (.defect d) + min 50000 (max 1 extent)) e)
    (full : p.wt.credit = 0 ∨ 64 ≤ p.wt.track.length ∨ 40 ≤ dbmCount p) :
    defectSample d extent c p = mergeLatest (posB p + offset p (.defect d)) (posB p + offset p (.defect d) + min 50000 (max 1 extent))
      (counterStored d c p) := by
  rw [defectSample_changed run hl changed, takeDefect_unplaced (p := counterStored d c p) off (no_place_of_full full)]
  rfl

/-- A defect on a DEFECT entry is merged into the first such entry (R33). -/
theorem defectSample_on {before after : List TrackEntry} {e : TrackEntry} (track : p.wt.track = before ++ e :: after)
    (off : ∀ x ∈ before, ¬DefectOn (posB p + offset p (.defect d)) (posB p + offset p (.defect d) + min 50000 (max 1 extent)) x)
    (on : DefectOn (posB p + offset p (.defect d)) (posB p + offset p (.defect d) + min 50000 (max 1 extent)) e) :
    defectSample d extent c p = handOn (absorbInto e (min (posB p + offset p (.defect d)) e.start)
      (max (posB p + offset p (.defect d) + min 50000 (max 1 extent)) (e.start + e.extent.getD 0)) (counterStored d c p)) := by
  rw [defectSample_changed run hl changed, takeDefect_on (p := counterStored d c p) track off on]
  rfl

end Samples

/-! ## Settling O24 -/

/-- Settles O24, each part by the lemma about its operation. -/
theorem markIsPlacedOrFull : Obligations.MarkIsPlacedOrFull := by
  refine ⟨fun s r n c number st run a known board cull small => ?_, fun s r n c number run a h => ?_, dbmCount_eq_countP,
    fun p st => ⟨markPoint_noCut, fun k => markPoint_cut⟩, onFeeder_iff, fun p d extent c run => ?_, fun p adv => refillCredit_effects,
    fun p d extent c config => defectSample_config config d extent c⟩
  · obtain ⟨placed, full⟩ := mark_effects run a known board cull small
    refine ⟨fun free dbm => ⟨_, newId s.part, placed (hasPlace_iff.2 ⟨free, fun _ => dbm⟩), newId_ne free, rfl, rfl, rfl, rfl, rfl⟩,
      fun h => full ?_⟩
    rw [← Bool.not_eq_true, hasPlace_iff]
    rintro ⟨free, dbm⟩
    have := dbm rfl
    omega
  · have taken : (Taken.only .run).allows s.part.mu.mode = true := by rw [run]; rfl
    exact onPart_serve_of_asks a taken (markAt_refused h)
  · refine ⟨defectSample_first run, defectSample_repeated run, fun l hl changed => ⟨?_, ?_, ?_, ?_⟩⟩
    · exact defectSample_placed run hl changed
    · exact defectSample_dropped run hl changed
    · intro before e after track kind last ids off full
      dsimp only
      rw [defectSample_unplaced run hl changed off full]
      exact mergeLatest_effects (p := counterStored d c p) track kind last ids
    · intro before e after track off on
      dsimp only
      rw [defectSample_on run hl changed track off on]
      have m : e ∈ p.wt.track := track ▸ List.mem_append_right _ List.mem_cons_self
      exact ⟨_, _, rfl, rfl, absorbInto_covers (p := counterStored d c p) m (defect_nonempty _ extent) on⟩

end Sys2Proof.Machine
end

section
/-! Zones and cuts, retirement, the fallback, the binding of bonds and the closing of zones (R23 to R28, R37, R38). -/

namespace Sys2Proof.Machine

/-! ## A zone and a cut (R26) -/

section Meets

variable {z : Zone} {x y : Nat}

theorem meets_open (h : z.extent = none) : z.meets x y = true ↔ z.start < y := by
  simp only [Zone.meets, h, decide_eq_true_eq]

theorem meets_point (h : z.extent = some 0) : z.meets x y = true ↔ x ≤ z.start ∧ z.start < y := by
  simp only [Zone.meets, h, if_true, Bool.and_eq_true, decide_eq_true_eq]

theorem meets_closed {e : Nat} (h : z.extent = some e) (long : 0 < e) : z.meets x y = true ↔ z.start < y ∧ x < z.start + e := by
  simp only [Zone.meets, h, if_neg (Nat.ne_of_gt long), Bool.and_eq_true, decide_eq_true_eq]

end Meets

/-! ## What an entry is (R21, R23, R25) -/

section Entry

variable {e : TrackEntry}

theorem isBound_iff : e.isBound = true ↔ ∀ b, e.binding = some b → b.bound = true := by
  cases h : e.binding <;> simp [TrackEntry.isBound, h]

theorem isMark_iff : e.kind.isMark = true ↔ ∃ n, e.kind = .mark n := by
  cases h : e.kind <;> simp [EntryKind.isMark]

theorem isMark_eq_false : e.kind.isMark = false ↔ ∀ n, e.kind ≠ .mark n := by
  rw [← Bool.not_eq_true, isMark_iff, not_exists]

end Entry

/-! ## Retirement (R37, R38) -/

/-- What the test for retirement looks for, once the last reported cut ends at `k` (R37). -/
def Retires (k : Nat) (e : TrackEntry) : Prop :=
  (∀ b, e.binding = some b → b.bound = true) ∧ (∀ n, e.kind ≠ .mark n) ∧ ∃ n, e.extent = some n ∧ e.start + n ≤ k

theorem retires_iff {k : Nat} {e : TrackEntry} : retires k e = true ↔ Retires k e := by
  have ended : e.closed = true ∧ e.stop ≤ k ↔ ∃ n, e.extent = some n ∧ e.start + n ≤ k := by
    cases h : e.extent <;> simp [TrackEntry.closed, TrackEntry.stop, h]
  rw [Retires, ← isBound_iff, ← isMark_eq_false, ← ended]
  simp only [retires, Bool.and_eq_true, Bool.not_eq_true', decide_eq_true_eq]
  tauto

theorem mem_retire {p : Part} {k : Nat} (h : p.dec.kLast = some k) (e : TrackEntry) :
    e ∈ (retire p).wt.track ↔ e ∈ p.wt.track ∧ ¬Retires k e := by
  have track : (retire p).wt.track = p.wt.track.filter (fun e => !retires k e) := by
    simp only [retire, h]
    exact congrArg (fun w : Wt => w.track.filter _) (passJoints_wt _ p).1
  rw [track, List.mem_filter, ← retires_iff, Bool.not_eq_true', Bool.not_eq_true]

theorem mem_passMarks {p : Part} {y : Nat} {e : TrackEntry} :
    e ∈ (passMarks y p).wt.track ↔ e ∈ p.wt.track ∧ ¬((∃ n, e.kind = .mark n) ∧ e.start < y) := by
  refine List.mem_filter.trans (and_congr_right fun _ => ?_)
  rw [Bool.not_eq_true', ← Bool.not_eq_true, Bool.and_eq_true, isMark_iff, decide_eq_true_eq]

/-! ## The fallback (R28) -/

/-- An entry that may cover a zone from `start` on, of a joint of feeder `f` or of a board-origin zone (R28). -/
def Eligible (f : Option (Fin 2)) (start : Nat) (e : TrackEntry) : Prop :=
  e.cull = true ∧ e.extent.isSome ∧ (∀ n, e.kind ≠ .mark n) ∧ e.start ≤ start ∧ ∀ b, e.binding = some b → b.bound = true ∨ f = some b.feeder

section Cover

variable {f : Option (Fin 2)} {start stop : Nat} {p : Part} {e : TrackEntry}

theorem mayCover_iff : mayCover f start e = true ↔ Eligible f start e := by
  have bound : (e.isBound || (match f with | some g => e.unboundOf g | none => false)) = true
      ↔ ∀ b, e.binding = some b → b.bound = true ∨ f = some b.feeder := by
    cases h : e.binding with
    | none => simp [TrackEntry.isBound, h]
    | some b =>
      cases f with
      | none => simp [TrackEntry.isBound, h]
      | some g => cases c : b.bound <;> simp [TrackEntry.isBound, TrackEntry.unboundOf, h, c, eq_comm (a := g)]
  rw [Eligible, ← bound, ← isMark_eq_false]
  simp only [mayCover, Bool.and_eq_true, Bool.not_eq_true', decide_eq_true_eq, TrackEntry.closed]
  tauto

theorem coveringEntry_none (h : ∀ e ∈ p.wt.track, ¬Eligible f start e) : coveringEntry f start p = none := by
  rw [coveringEntry, List.filter_eq_nil_iff.2 fun e m c => h e m (mayCover_iff.1 c), List.getLast?_nil]

/-- The last eligible entry of a list in its order is the eligible one with the greatest start, and the highest id among equal starts. -/
theorem coveringEntry_last (o : p.wt.track.Pairwise inOrder) (m : e ∈ p.wt.track) (h : Eligible f start e)
    (last : ∀ x ∈ p.wt.track, Eligible f start x → x ≠ e → x.start < e.start ∨ (x.start = e.start ∧ x.id < e.id)) :
    coveringEntry f start p = some e := by
  obtain ⟨before, x, l⟩ := List.eq_nil_or_concat' (p.wt.track.filter (mayCover f start)) |>.resolve_left
    (List.ne_nil_of_mem (List.mem_filter.2 ⟨m, mayCover_iff.2 h⟩))
  have found : coveringEntry f start p = some x := by rw [coveringEntry, l, List.getLast?_concat]
  rw [found]
  by_contra other
  have differs : x ≠ e := fun same => other (congrArg some same)
  have mx := List.mem_filter.1 (l ▸ List.mem_append_right before List.mem_cons_self : x ∈ p.wt.track.filter (mayCover f start))
  have me : e ∈ before := by
    have : e ∈ before ++ [x] := l ▸ List.mem_filter.2 ⟨m, mayCover_iff.2 h⟩
    rcases List.mem_append.1 this with b | b
    · exact b
    · exact absurd (List.mem_singleton.1 b).symm differs
  have sorted : inOrder e x := by
    have all := o.filter (mayCover f start)
    rw [l, List.pairwise_append] at all
    exact all.2.2 e me x List.mem_cons_self
  have behind := last x mx.1 (mayCover_iff.1 mx.2) differs
  unfold inOrder at sorted
  omega

theorem coveringEntry_latch (w : Alarm) : coveringEntry f start (latch w p) = coveringEntry f start p := by
  rw [coveringEntry, latch_wt, coveringEntry]

theorem coverZone_none (h : coveringEntry f start p = none) : coverZone f start stop p = (latch .trackOverflow p, []) := by
  simp only [coverZone, coveringEntry_latch, h]

theorem coverZone_within (h : coveringEntry f start p = some e) (within : stop ≤ e.stop) :
    coverZone f start stop p = (latch .trackOverflow p, []) := by
  simp only [coverZone, coveringEntry_latch, h, within, if_true]

theorem coverZone_raised (h : coveringEntry f start p = some e) (beyond : e.stop < stop) (kind : e.kind ≠ .defect) :
    coverZone f start stop p
      = (replaceEntry (raiseEnd stop e) (latch .trackOverflow p), zoneChange e.cull (some e.zone) (some (raiseEnd stop e).zone)) := by
  simp only [coverZone, coveringEntry_latch, h, if_neg (Nat.not_le.2 beyond), kind, if_false]

theorem coverZone_absorbs (h : coveringEntry f start p = some e) (beyond : e.stop < stop) (kind : e.kind = .defect) :
    coverZone f start stop p = absorbInto e e.start stop (latch .trackOverflow p) := by
  simp only [coverZone, coveringEntry_latch, h, if_neg (Nat.not_le.2 beyond), kind, if_true]

/-- TRACK_OVERFLOW is latched, whatever covers the zone. -/
theorem coverZone_latches (f : Option (Fin 2)) (start stop : Nat) (p : Part) :
    (alarmOf (coverZone f start stop p).1 .trackOverflow).latch = true := by
  have latched : (coverZone f start stop p).1.mu = (latch .trackOverflow p).mu := by
    unfold coverZone
    dsimp only
    split
    · rfl
    · split
      · rfl
      · split <;> rfl
  rw [alarmOf, latched]
  exact latch_sets .trackOverflow p

/-- A covering entry that is no DEFECT takes the end of the zone, and every other entry stays. -/
theorem coverZone_raised_effects (h : coveringEntry f start p = some e) (m : e ∈ p.wt.track) (beyond : e.stop < stop) (kind : e.kind ≠ .defect) :
    (∃ x ∈ (coverZone f start stop p).1.wt.track,
        x.id = e.id ∧ x.start = e.start ∧ x.extent = some (stop - e.start) ∧ x.kind = e.kind ∧ x.cull = e.cull)
      ∧ (∀ x ∈ p.wt.track, x.id ≠ e.id → x ∈ (coverZone f start stop p).1.wt.track)
      ∧ (coverZone f start stop p).2
        = [{ before := some e.zone, after := some { start := e.start, extent := some (stop - e.start) }, cull := e.cull }] := by
  have raised : e.zone ≠ (raiseEnd stop e).zone := fun same => by
    have extent : e.extent = some (stop - e.start) := congrArg Zone.extent same
    rw [TrackEntry.stop, extent, Option.getD_some] at beyond
    omega
  rw [coverZone_raised h beyond kind]
  refine ⟨⟨raiseEnd stop e, mem_replaceEntry (e := e) ?_ rfl rfl rfl rfl, rfl, rfl, rfl, rfl, rfl⟩, fun x mx other => ?_, zoneChange_ne raised⟩
  · rw [latch_wt]
    exact m
  · refine mem_sortEntries.2 (List.mem_map.2 ⟨x, ?_, if_neg fun same => other (of_decide_eq_true same)⟩)
    rw [latch_wt]
    exact mx

/-- A covering DEFECT absorbs every other DEFECT that its raised zone overlaps. -/
theorem coverZone_absorbs_effects (h : coveringEntry f start p = some e) (m : e ∈ p.wt.track) (beyond : e.stop < stop) (kind : e.kind = .defect)
    (ids : IdsDiffer p.wt.track) :
    let track := (coverZone f start stop p).1.wt.track
    (∃ x ∈ track, x.id = e.id ∧ x.kind = .defect ∧ x.cull = e.cull ∧ x.start ≤ e.start ∧ stop ≤ x.start + x.extent.getD 0
        ∧ (∀ y ∈ p.wt.track, DefectOn e.start stop y → x.start ≤ y.start ∧ y.start + y.extent.getD 0 ≤ x.start + x.extent.getD 0)
        ∧ (x.start = e.start ∨ ∃ y ∈ p.wt.track, DefectOn e.start stop y ∧ x.start = y.start)
        ∧ (x.start + x.extent.getD 0 = stop
          ∨ ∃ y ∈ p.wt.track, DefectOn e.start stop y ∧ x.start + x.extent.getD 0 = y.start + y.extent.getD 0))
      ∧ (∀ y ∈ p.wt.track, y.id ≠ e.id → (y ∈ track ↔ ¬DefectOn e.start stop y)) := by
  dsimp only
  rw [coverZone_absorbs h beyond kind]
  have wt : (latch .trackOverflow p).wt = p.wt := latch_wt _ _
  have forward : e.start ≤ stop := (Nat.le_add_right _ _).trans beyond.le
  obtain ⟨low, high, covers, lowEnd, highEnd⟩ := unionOf_grownSpan e e.start stop p.wt.track
  have stands : grown e e.start stop p.wt.track ∈ (absorbInto e e.start stop (latch .trackOverflow p)).1.wt.track := by
    have := grown_mem (d := e) (s := e.start) (t := stop) (p := latch .trackOverflow p) (by rw [wt]; exact m)
    rwa [wt] at this
  refine ⟨⟨_, stands, rfl, kind, rfl, low, ?_, fun y my on => ?_, ?_, ?_⟩, fun y my other => ?_⟩
  · rw [grown_stop forward]
    exact high
  · rw [grown_stop forward]
    by_cases same : y.id = e.id
    · rw [eq_of_id ids my m same]
      exact ⟨low, beyond.le.trans high⟩
    · exact covers y (mem_goneInto.2 ⟨my, on, same⟩)
  · refine lowEnd.imp_right fun ⟨y, gone, at'⟩ => ?_
    obtain ⟨my, on, -⟩ := mem_goneInto.1 gone
    exact ⟨y, my, on, at'⟩
  · rw [grown_stop forward]
    refine highEnd.imp_right fun ⟨y, gone, at'⟩ => ?_
    obtain ⟨my, on, -⟩ := mem_goneInto.1 gone
    exact ⟨y, my, on, at'⟩
  · rw [mem_absorbInto_other other, wt]
    exact and_iff_right my

end Cover

/-! ## The binding of bonds (R24) -/

/-- An unbound BOND entry whose start the point at its web's joint detector has passed (R24). -/
def BondPassed (p : Part) (e : TrackEntry) : Prop :=
  e.kind = .bond ∧ ∃ b, e.binding = some b ∧ b.bound = false ∧ e.start < posB p + offset p (.jointDet b.feeder)

section Bonds

variable {p : Part}

theorem bondPassed_iff {e : TrackEntry} : bondPassed p e = true ↔ BondPassed p e := by
  cases h : e.binding with
  | none => simp [bondPassed, BondPassed, h]
  | some b =>
    simp only [bondPassed, BondPassed, h, Bool.and_eq_true, Bool.not_eq_true', decide_eq_true_eq, Option.some.injEq, exists_eq_left']
    rfl

theorem bindBonds_none (h : ∀ e ∈ p.wt.track, ¬BondPassed p e) : bindBonds p = p := by
  have nobody : p.wt.track.any (bondPassed p) = false := List.any_eq_false.2 fun e m c => h e m (bondPassed_iff.1 c)
  simp only [bindBonds, nobody, Bool.false_eq_true, if_false]

theorem bindBonds_some (h : ∃ e ∈ p.wt.track, BondPassed p e) :
    ∃ l, bindBonds p = retire { p with wt := { p.wt with track := l } } ∧
      List.Forall₂ (fun e x => (BondPassed p e → x = { e with binding := e.binding.map (fun b => { b with bound := true }) })
        ∧ (¬BondPassed p e → x = e)) p.wt.track l := by
  obtain ⟨e, m, passed⟩ := h
  have somebody : p.wt.track.any (bondPassed p) = true := List.any_eq_true.2 ⟨e, m, bondPassed_iff.2 passed⟩
  refine ⟨modifyWhere (bondPassed p) TrackEntry.bind p.wt.track, by simp only [bindBonds, somebody, if_true], ?_⟩
  rw [modifyWhere, List.forall₂_map_right_iff, List.forall₂_same]
  intro x _
  exact ⟨fun y => if_pos (bondPassed_iff.2 y), fun n => if_neg fun c => n (bondPassed_iff.1 c)⟩

end Bonds

/-! ## The closing of a zone (R23, R25) -/

/-- The zone that a closing with a travel above 0 gives: an unbound entry's from its feeder start and K on (R23, R25). -/
def closedZone (p : Part) (e : TrackEntry) (n : Nat) : Zone :=
  match e.binding with
  | some b =>
    if b.bound then { start := e.start, extent := some n }
    else { start := (b.start + bridgeK p b.feeder).toNat, extent := some (n - (-(b.start + bridgeK p b.feeder)).toNat) }
  | none => { start := e.start, extent := some n }

/-- The entry closed with a travel above 0. -/
def closedEntry (p : Part) (e : TrackEntry) (n : Nat) : TrackEntry :=
  { e with start := (closedZone p e n).start, extent := (closedZone p e n).extent, binding := e.binding.map (fun b => { b with web := some n }) }

section Close

variable {p : Part} {id n : Nat} {e : TrackEntry}

theorem entryById_eq_some (h : entryById p id = some e) : e ∈ p.wt.track ∧ e.id = id := by
  unfold entryById at h
  exact ⟨List.mem_of_find?_eq_some h, by simpa using List.find?_some h⟩

theorem closedZone_unbound {b : Binding} (h : e.binding = some b) (free : b.bound = false) :
    closedZone p e n
      = { start := (b.start + bridgeK p b.feeder).toNat, extent := some (n - (-(b.start + bridgeK p b.feeder)).toNat) } := by
  simp only [closedZone, h, free, Bool.false_eq_true, if_false]

theorem closedZone_bound (h : ¬∃ b, e.binding = some b ∧ b.bound = false) : closedZone p e n = { start := e.start, extent := some n } := by
  cases b : e.binding with
  | none => simp only [closedZone, b]
  | some x =>
    have bound : x.bound = true := by
      by_contra free
      exact h ⟨x, b, by simpa using free⟩
    simp only [closedZone, b, bound, if_true]

theorem closeZone_missing (h : entryById p id = none) : closeZone id n p = (p, []) := by
  simp only [closeZone, h]

theorem closeZone_zero (h : entryById p id = some e) :
    closeZone id 0 p = ({ p with wt := { p.wt with track := p.wt.track.filter (fun x => !decide (x.id = id)) } },
      [{ before := some e.zone, after := none, cull := e.cull }]) := by
  simp only [closeZone, h, if_true]
  rfl

theorem closeZone_closes (h : entryById p id = some e) (travel : 0 < n) :
    closeZone id n p = (retire (replaceEntry (closedEntry p e n) p), zoneChange e.cull (some e.zone) (some (closedZone p e n))) := by
  simp only [closeZone, h, if_neg (Nat.ne_of_gt travel)]
  cases b : e.binding with
  | none => simp only [closedEntry, closedZone, b]; rfl
  | some x =>
    cases bound : x.bound
    · simp only [closedEntry, closedZone, b, bound, placeZone_eq, Bool.false_eq_true, if_false]; rfl
    · simp only [closedEntry, closedZone, b, bound, if_true]; rfl

/-- A closed entry in the list: it takes its zone, its binding keeps the travel as its web, and every other entry stays. -/
theorem perm_closed (h : entryById p id = some e) (ids : IdsDiffer p.wt.track) :
    (replaceEntry (closedEntry p e n) p).wt.track.Perm (p.wt.track.map (fun x => if x.id = id then closedEntry p e n else x)) := by
  obtain ⟨m, rfl⟩ := entryById_eq_some h
  refine (perm_sortEntries _).trans (List.Perm.of_eq (List.map_congr_left fun x mx => ?_))
  show (if decide (x.id = e.id) = true then _ else x) = _
  by_cases same : x.id = e.id
  · rw [if_pos same, if_pos (decide_eq_true same), eq_of_id ids mx m same]
    rfl
  · rw [if_neg same, if_neg fun c => same (of_decide_eq_true c)]

theorem closeZone_effects (h : entryById p id = some e) (travel : 0 < n) (ids : IdsDiffer p.wt.track) :
    let unbound := ∃ b, e.binding = some b ∧ b.bound = false
    ∃ (q : Part) (z : Zone),
      (closeZone id n p).1 = retire q ∧ q = { p with wt := { p.wt with track := q.wt.track } }
      ∧ (e.zone ≠ z → (closeZone id n p).2 = [{ before := some e.zone, after := some z, cull := e.cull }])
      ∧ (e.zone = z → (closeZone id n p).2 = [])
      ∧ (¬ unbound → z = { start := e.start, extent := some n })
      ∧ (∀ b, e.binding = some b → b.bound = false →
          let x := b.start + bridgeK p b.feeder
          z = { start := x.toNat, extent := some (n - (-x).toNat) })
      ∧ q.wt.track.Pairwise inOrder
      ∧ q.wt.track.Perm (p.wt.track.map (fun x => if x.id = id then
          { e with start := z.start, extent := z.extent, binding := e.binding.map (fun b => { b with web := some n }) } else x)) := by
  rw [closeZone_closes h travel]
  refine ⟨_, closedZone p e n, rfl, rfl, zoneChange_ne, fun same => ?_, closedZone_bound, fun b hb free => closedZone_unbound hb free,
    pairwise_sortEntries _, perm_closed h ids⟩
  dsimp only
  rw [same, zoneChange_self]

end Close

end Sys2Proof.Machine
end

section
/-! The stretches that the grade check finds, what it does with a stand's OFF_GRADE entries, and O26 (R26, R29, R85 to R89). -/

namespace Sys2Proof.Machine

/-! ## Stretches (R85 to R87) -/

section Stretches

variable {p : Part} {s : Fin 5} {r : Region} {o : Order} {x : Nat}

/-- The stretches of a region that requires a grade of the stand, none where it ends before B. -/
theorem regionOff_requires (h : r.order = some o) (need : o.grades.get s ≠ 0) :
    regionOff p s r = if below (max (posB p) r.start) r.stop then
      (offStretches (o.grades.get s) r.stop (jointsOf p s) (max (posB p) r.start) (standOf p s).g0 none).map (fun z => (z.1, z.2, o.tag)) else [] := by
  simp only [regionOff, h, if_neg need]

theorem regionOff_none (h : r.order = none) : regionOff p s r = [] := by
  simp only [regionOff, h]

theorem regionOff_free (h : r.order = some o) (free : o.grades.get s = 0) : regionOff p s r = [] := by
  simp only [regionOff, h, if_pos free]

theorem regionOff_tag (h : r.order = some o) : ∀ z ∈ regionOff p s r, z.2.2 = o.tag := by
  intro z m
  by_cases free : o.grades.get s = 0
  · rw [regionOff_free h free] at m
    cases m
  · rw [regionOff_requires h free] at m
    split at m
    · obtain ⟨y, -, rfl⟩ := List.mem_map.1 m
      rfl
    · cases m

/-- A coordinate of the region, at B or beyond it, lies in one of the stretches where its web grade is not the one required. -/
theorem regionOff_covers (sorted : p.wt.track.Pairwise inOrder) (h : r.order = some o) (b : posB p ≤ x) (start : r.start ≤ x)
    (stop : ∀ e, r.stop = some e → x < e) :
    (∃ z ∈ regionOff p s r, z.1 ≤ x ∧ (∀ e, z.2.1 = some e → x < e)) ↔ o.grades.get s ≠ 0 ∧ webGrade p s x ≠ o.grades.get s := by
  have from' : max (posB p) r.start ≤ x := max_le b start
  by_cases free : o.grades.get s = 0
  · simp [regionOff_free h free, free]
  · have inside : below (max (posB p) r.start) r.stop = true := by
      cases e : r.stop with
      | none => rfl
      | some y => exact decide_eq_true (Nat.lt_of_le_of_lt from' (stop y e))
    have covered := covered_offStretches (need := o.grades.get s) (cur := (standOf p s).g0) (from? := none) (jointsOf p s) (jointsOf_rising s sorted)
      (x := max (posB p) r.start) nofun stop
    have somewhere : (∃ z ∈ regionOff p s r, z.1 ≤ x ∧ (∀ e, z.2.1 = some e → x < e))
        ↔ Covered (offStretches (o.grades.get s) r.stop (jointsOf p s) (max (posB p) r.start) (standOf p s).g0 none) x := by
      rw [regionOff_requires h free, if_pos inside]
      simp only [List.mem_map, exists_exists_and_eq_and, Covered]
    rw [somewhere, covered]
    simp [from', free, webGrade]

/-- The last stretch starts no lower than the coordinate reached, or than the stretch that has reached it. -/
theorem le_of_mem_last {need m : Nat} {stop : Option Nat} {x cur : Nat} {from? : Option Nat} (lo : m ≤ x) (reached : ∀ a, from? = some a → m ≤ a) :
    ∀ z ∈ (if cur = need then (match (generalizing := false) from? with | some a => [(a, some x)] | none => []) else [(from?.getD x, stop)]),
      m ≤ z.1 := by
  intro z mem
  cases from? with
  | none =>
    split at mem
    · cases mem
    · exact List.mem_singleton.1 mem ▸ lo
  | some a =>
    split at mem
    · exact List.mem_singleton.1 mem ▸ reached a rfl
    · exact List.mem_singleton.1 mem ▸ reached a rfl

/-- No stretch starts before the coordinate from which it is looked for. -/
theorem le_of_mem_offStretches {need m : Nat} {stop : Option Nat} (js : List (Nat × Nat)) {x cur : Nat} {from? : Option Nat} (lo : m ≤ x)
    (reached : ∀ a, from? = some a → m ≤ a) : ∀ z ∈ offStretches need stop js x cur from?, m ≤ z.1 := by
  induction js generalizing x cur from? with
  | nil => exact le_of_mem_last lo reached
  | cons j js ih =>
    obtain ⟨j, g⟩ := j
    simp only [offStretches]
    split
    · exact ih lo reached
    · rename_i beyond
      have next : m ≤ j := lo.trans (Nat.le_of_not_le beyond)
      split
      · exact le_of_mem_last lo reached
      · split
        · cases from? with
          | none => exact ih next nofun
          | some a => exact List.forall_mem_cons.2 ⟨reached a rfl, ih next nofun⟩
        · refine ih next fun a same => ?_
          cases from? with
          | none => exact Option.some.inj same ▸ lo
          | some b => exact Option.some.inj same ▸ reached b rfl

theorem posB_le_of_mem_computedOff : ∀ z ∈ computedOff p s, posB p ≤ z.1 := by
  intro z m
  obtain ⟨r, -, m⟩ := List.mem_flatMap.1 m
  cases h : r.order with
  | none =>
    rw [regionOff_none h] at m
    cases m
  | some o =>
    by_cases free : o.grades.get s = 0
    · rw [regionOff_free h free] at m
      cases m
    · rw [regionOff_requires h free] at m
      split at m
      · obtain ⟨y, my, rfl⟩ := List.mem_map.1 m
        exact le_of_mem_offStretches _ (le_max_left _ _) (from? := none) (nofun) y my
      · cases m

end Stretches

/-! ## The insertion of a stretch (R29, R87) -/

/-- The OFF_GRADE entry of a stretch, before it has its id (R87). -/
def stretchEntry (s : Fin 5) (c : Nat × Option Nat × Nat) : TrackEntry :=
  { id := 0, kind := .offGrade s c.2.2, start := c.1, extent := c.2.1.map (fun t => t - c.1), cull := true, origin := .stand s, binding := none }

section Insert

variable {p : Part} {s : Fin 5} {c : Nat × Option Nat × Nat}

/-- OFF_GRADE entries have no bound of their own (R27). -/
theorem hasPlace_stretch : hasPlace (stretchEntry s c).kind p = true ↔ p.wt.track.length < 64 := by
  rw [hasPlace_iff]
  exact and_iff_left fun dbm => by cases dbm

theorem insertOff_placed (free : p.wt.track.length < 64) :
    insertOff s c p = ((addEntry (stretchEntry s c) p).1, [{ before := none, after := some (stretchEntry s c).zone, cull := true }]) := by
  obtain ⟨start, stop, tag⟩ := c
  have place := hasPlace_stretch (s := s) (c := (start, stop, tag)).2 free
  cases stop with
  | none =>
    show ((insertOpen (stretchEntry s (start, none, tag)) p).1, (insertOpen (stretchEntry s (start, none, tag)) p).2.2) = _
    rw [insertOpen, if_pos place]
    rfl
  | some t =>
    show ((insertOrCover none (stretchEntry s (start, some t, tag)) p).1, (insertOrCover none (stretchEntry s (start, some t, tag)) p).2.2) = _
    rw [insertOrCover, if_pos place]
    rfl

theorem insertOff_open (full : 64 ≤ p.wt.track.length) (h : c.2.1 = none) : insertOff s c p = (latch .trackOverflow p, []) := by
  obtain ⟨start, stop, tag⟩ := c
  cases h
  have place : ¬hasPlace (stretchEntry s (start, none, tag)).kind p = true := fun place => Nat.not_lt.2 full (hasPlace_stretch.1 place)
  show ((insertOpen (stretchEntry s (start, none, tag)) p).1, (insertOpen (stretchEntry s (start, none, tag)) p).2.2) = _
  rw [insertOpen, if_neg place]

theorem insertOff_closed (full : 64 ≤ p.wt.track.length) {t : Nat} (h : c.2.1 = some t) :
    insertOff s c p = coverZone none c.1 (c.1 + (t - c.1)) p := by
  obtain ⟨start, stop, tag⟩ := c
  cases h
  have place : ¬hasPlace (stretchEntry s (start, some t, tag)).kind p = true := fun place => Nat.not_lt.2 full (hasPlace_stretch.1 place)
  show ((insertOrCover none (stretchEntry s (start, some t, tag)) p).1, (insertOrCover none (stretchEntry s (start, some t, tag)) p).2.2) = _
  rw [insertOrCover, if_neg place]
  rfl

end Insert

/-! ## The grade check (R87 to R89) -/

/-- The entry stands for the stretch: its start, its end and its region's tag. -/
def sameStretch (s : Fin 5) (c : Nat × Option Nat × Nat) (e : TrackEntry) : Bool :=
  decide (e.kind = .offGrade s c.2.2) && decide (e.start = c.1) && decide (e.extent = c.2.1.map (fun t => t - c.1))

/-- An OFF_GRADE entry of the stand. -/
def ofStand (s : Fin 5) (e : TrackEntry) : Bool :=
  match e.kind with
  | .offGrade t _ => decide (t = s)
  | _ => false

/-- The entries that a check removes: the stand's from B on that stand for no stretch. -/
def goesOff (s : Fin 5) (p : Part) (e : TrackEntry) : Bool :=
  ofStand s e && decide (posB p ≤ e.start) && !((computedOff p s).any (fun c => sameStretch s c e))

/-- The entries that a check ends at B: the stand's open ones from before B. -/
def endsOff (s : Fin 5) (p : Part) (e : TrackEntry) : Bool := ofStand s e && decide (e.start < posB p) && e.extent.isNone

def endedOff (s : Fin 5) (p : Part) (e : TrackEntry) : TrackEntry := if endsOff s p e then { e with extent := some (posB p - e.start) } else e

/-- The stand has an open OFF_GRADE entry. -/
def openOff (s : Fin 5) (p : Part) : Bool := p.wt.track.any (fun e => ofStand s e && e.extent.isNone)

/-- The stretches that no entry stands for. -/
def missingOff (s : Fin 5) (p : Part) : List (Nat × Option Nat × Nat) :=
  (computedOff p s).filter (fun c => !(p.wt.track.any (fun e => decide (posB p ≤ e.start) && sameStretch s c e)))

/-- The part with the stand's entries removed and ended. -/
def cutOff (s : Fin 5) (p : Part) : Part :=
  { p with wt := { p.wt with track := (p.wt.track.filter (fun e => !goesOff s p e)).map (endedOff s p) } }

/-- What the removals and the ends hand to OS. -/
def changesOff (s : Fin 5) (p : Part) : List Change :=
  (p.wt.track.filter (goesOff s p)).map (fun e => { before := some e.zone, after := none, cull := e.cull })
    ++ (p.wt.track.filter (endsOff s p)).map (fun e => { before := some e.zone, after := some (endedOff s p e).zone, cull := e.cull })

/-- The part before the insertions, with the test for retirement where an entry was ended. -/
def startOff (s : Fin 5) (p : Part) : Part := if p.wt.track.any (endsOff s p) then retire (cutOff s p) else cutOff s p

/-- The insertion of stretches, one after the other. -/
def insertAllOff (s : Fin 5) (l : List (Nat × Option Nat × Nat)) (acc : Part × List Change) : Part × List Change :=
  l.foldl (fun acc c => ((insertOff s c acc.1).1, acc.2 ++ (insertOff s c acc.1).2)) acc

section Check

variable {p : Part} {s : Fin 5}

theorem offTag_isSome (s : Fin 5) (e : TrackEntry) : (e.offTag s).isSome = ofStand s e := by
  unfold TrackEntry.offTag ofStand
  cases e.kind with
  | offGrade t tag => by_cases h : t = s <;> simp [h]
  | _ => rfl

theorem sameOff_eq (s : Fin 5) (c : Nat × Option Nat × Nat) (e : TrackEntry) : sameOff s c e = sameStretch s c e := by
  have tag : e.offTag s = some c.2.2 ↔ e.kind = .offGrade s c.2.2 := by
    unfold TrackEntry.offTag
    cases e.kind with
    | offGrade t tag => by_cases h : t = s <;> simp [h]
    | _ => simp
  rw [sameOff, sameStretch, decide_eq_decide.2 tag]

theorem not_closed (e : TrackEntry) : (!e.closed) = e.extent.isNone := Option.not_isSome e.extent

theorem sameStretch_iff {c : Nat × Option Nat × Nat} {e : TrackEntry} :
    sameStretch s c e = true ↔ e.kind = .offGrade s c.2.2 ∧ e.start = c.1 ∧ e.extent = c.2.1.map (fun t => t - c.1) := by
  rw [sameStretch, Bool.and_eq_true, Bool.and_eq_true, decide_eq_true_eq, decide_eq_true_eq, decide_eq_true_eq, and_assoc]

theorem ofStand_of_sameStretch {c : Nat × Option Nat × Nat} {e : TrackEntry} (h : sameStretch s c e = true) : ofStand s e = true := by
  obtain ⟨kind, -, -⟩ := sameStretch_iff.1 h
  simp [ofStand, kind]

theorem endsOff_iff {e : TrackEntry} : endsOff s p e = true ↔ ofStand s e = true ∧ e.start < posB p ∧ e.extent = none := by
  simp [endsOff, and_assoc]

theorem endedOff_of_ends {e : TrackEntry} (h : endsOff s p e = true) : endedOff s p e = { e with extent := some (posB p - e.start) } := if_pos h

theorem endedOff_of_not_ends {e : TrackEntry} (h : ¬endsOff s p e = true) : endedOff s p e = e := if_neg h

/-- A check in RUN of a stand in use: the removals and the ends, the test for retirement, the insertions, and the latch. -/
theorem gradeCheck_run (run : p.mu.mode = .run) (use : standInUse p s = true) :
    let r := insertAllOff s (missingOff s p) (startOff s p, changesOff s p)
    gradeCheck s p = (if openOff s r.1 && !openOff s p then latch .offGrade r.1 else r.1, r.2) := by
  have model : gradeCheck s p =
      let r := insertAllOff s
        ((computedOff p s).filter (fun c =>
          !((p.wt.track.filter (fun e => !goesOff s p e)).any (fun e => decide (posB p ≤ e.start) && sameStretch s c e))))
        (if (p.wt.track.filter (endsOff s p)).isEmpty then cutOff s p else retire (cutOff s p),
         (p.wt.track.filter (goesOff s p)).map (fun e => { before := some e.zone, after := none, cull := e.cull })
          ++ (p.wt.track.filter (endsOff s p)).map (fun e =>
            { before := some e.zone, after := some { start := e.start, extent := some (posB p - e.start) }, cull := e.cull }))
      (if openOff s r.1 && !openOff s p then latch .offGrade r.1 else r.1, r.2) := by
    unfold gradeCheck
    rw [inRun_run run, use, Bool.and_self, if_pos rfl]
    simp only [offTag_isSome, sameOff_eq, not_closed, hasOpenOff]
    rfl
  have missing : (computedOff p s).filter (fun c =>
      !((p.wt.track.filter (fun e => !goesOff s p e)).any (fun e => decide (posB p ≤ e.start) && sameStretch s c e))) = missingOff s p := by
    refine List.filter_congr fun c mc => congrArg Bool.not (Bool.eq_iff_iff.2 ?_)
    rw [List.any_eq_true, List.any_eq_true]
    refine exists_congr fun e => and_congr_left fun h => ?_
    have stays : (!goesOff s p e) = true := by
      have stands : (computedOff p s).any (fun c => sameStretch s c e) = true := List.any_eq_true.2 ⟨c, mc, (Bool.and_eq_true_iff.1 h).2⟩
      simp [goesOff, stands]
    rw [List.mem_filter, and_iff_left stays]
  have start : (if (p.wt.track.filter (endsOff s p)).isEmpty then cutOff s p else retire (cutOff s p)) = startOff s p := by
    have some' : (p.wt.track.filter (endsOff s p)).isEmpty = !p.wt.track.any (endsOff s p) := by
      rw [Bool.eq_iff_iff, List.isEmpty_iff, List.filter_eq_nil_iff, Bool.not_eq_true', List.any_eq_false]
    rw [some', startOff]
    cases p.wt.track.any (endsOff s p) <;> rfl
  have changes : (p.wt.track.filter (endsOff s p)).map (fun e =>
      ({ before := some e.zone, after := some { start := e.start, extent := some (posB p - e.start) }, cull := e.cull } : Change))
      = (p.wt.track.filter (endsOff s p)).map (fun e => { before := some e.zone, after := some (endedOff s p e).zone, cull := e.cull }) :=
    List.map_congr_left fun e m => by rw [endedOff_of_ends (List.mem_filter.1 m).2]; rfl
  rw [model, missing, start, changes]
  rfl

theorem gradeCheck_unused (unused : standInUse p s = false) : gradeCheck s p = (p, []) := by
  rw [gradeCheck, unused, Bool.and_false]
  rfl

/-- A check that finds nothing to do changes nothing. -/
theorem gradeCheck_idle (run : p.mu.mode = .run) (use : standInUse p s = true)
    (still : ∀ e ∈ p.wt.track, goesOff s p e = false ∧ endsOff s p e = false) (all : missingOff s p = []) : gradeCheck s p = (p, []) := by
  have stays : p.wt.track.filter (fun e => !goesOff s p e) = p.wt.track := List.filter_eq_self.2 fun e m => by rw [(still e m).1]; rfl
  have same : p.wt.track.map (endedOff s p) = p.wt.track :=
    (List.map_congr_left fun e m => endedOff_of_not_ends (by rw [(still e m).2]; exact Bool.false_ne_true)).trans (List.map_id _)
  have cut : cutOff s p = p := by rw [cutOff, stays, same]
  have start : startOff s p = p := by rw [startOff, cut, List.any_eq_false.2 fun e m => by rw [(still e m).2]; exact Bool.false_ne_true]; rfl
  have changes : changesOff s p = [] := by
    rw [changesOff, List.filter_eq_nil_iff.2 fun e m => by rw [(still e m).1]; exact Bool.false_ne_true,
      List.filter_eq_nil_iff.2 fun e m => by rw [(still e m).2]; exact Bool.false_ne_true]
    rfl
  rw [gradeCheck_run run use, all, start, changes]
  show (if openOff s p && !openOff s p then latch .offGrade p else p, _) = _
  rw [Bool.and_not_self]
  rfl

/-! ## A check with room in the list -/

/-- Stretches inserted with room for them: every entry stays, every stretch has its entry, and there is no other. -/
structure InsertedOff (s : Fin 5) (l : List (Nat × Option Nat × Nat)) (before after : List TrackEntry) : Prop where
  stay : ∀ e ∈ before, e ∈ after
  stand : ∀ c ∈ l, ∃ e ∈ after, sameStretch s c e = true
  only : ∀ e ∈ after, e ∈ before ∨ ∃ c ∈ l, sameStretch s c e = true

theorem insertedOff_insertAll (l : List (Nat × Option Nat × Nat)) (acc : Part × List Change) (room : acc.1.wt.track.length + l.length ≤ 64) :
    InsertedOff s l acc.1.wt.track (insertAllOff s l acc).1.wt.track := by
  induction l generalizing acc with
  | nil => exact ⟨fun _ => id, nofun, fun _ => Or.inl⟩
  | cons c l ih =>
    rw [List.length_cons] at room
    have placed := insertOff_placed (s := s) (c := c) (p := acc.1) (by omega)
    have track : (insertOff s c acc.1).1.wt.track = insertEntry { stretchEntry s c with id := newId acc.1 } acc.1.wt.track := by rw [placed]; rfl
    have next := ih ((insertOff s c acc.1).1, acc.2 ++ (insertOff s c acc.1).2) (by rw [track, length_insertEntry]; omega)
    rw [track] at next
    have own : sameStretch s c { stretchEntry s c with id := newId acc.1 } = true := sameStretch_iff.2 ⟨rfl, rfl, rfl⟩
    refine ⟨fun e m => next.stay e (mem_insertEntry.2 (Or.inr m)), fun x m => ?_, fun e m => ?_⟩
    · rcases List.mem_cons.1 m with rfl | m
      · exact ⟨_, next.stay _ (mem_insertEntry.2 (Or.inl rfl)), own⟩
      · exact next.stand x m
    · rcases next.only e m with old | ⟨x, mx, h⟩
      · rcases mem_insertEntry.1 old with rfl | old
        · exact Or.inr ⟨c, List.mem_cons_self, own⟩
        · exact Or.inl old
      · exact Or.inr ⟨x, List.mem_cons_of_mem c mx, h⟩

theorem mem_cutOff {e : TrackEntry} : e ∈ (cutOff s p).wt.track ↔ ∃ y ∈ p.wt.track, goesOff s p y = false ∧ endedOff s p y = e := by
  show e ∈ (p.wt.track.filter _).map _ ↔ _
  simp [List.mem_map, List.mem_filter, and_assoc]

/-- While no cut has been reported and there is room, a check leaves an entry for each stretch, ends what is before B, and leaves every other entry. -/
theorem gradeCheck_room (run : p.mu.mode = .run) (use : standInUse p s = true) (noCut : p.dec.kLast = none)
    (room : p.wt.track.length + (computedOff p s).length ≤ 64) :
    (∀ c ∈ computedOff p s, ∃ e ∈ (gradeCheck s p).1.wt.track, sameStretch s c e = true) ∧
    (∀ e ∈ (gradeCheck s p).1.wt.track, ofStand s e = true → posB p ≤ e.start → ∃ c ∈ computedOff p s, sameStretch s c e = true) ∧
    (∀ e ∈ (gradeCheck s p).1.wt.track, ofStand s e = true → e.start < posB p → e.extent.isSome) ∧
    (∀ e, ofStand s e = false → (e ∈ (gradeCheck s p).1.wt.track ↔ e ∈ p.wt.track)) := by
  have start : startOff s p = cutOff s p := by
    rw [startOff, retire_noCut (p := cutOff s p) noCut, ite_self]
  have track : (gradeCheck s p).1.wt.track = (insertAllOff s (missingOff s p) (cutOff s p, changesOff s p)).1.wt.track := by
    rw [gradeCheck_run run use, start]
    dsimp only
    split
    · rw [latch_wt]
    · rfl
  have fits : (cutOff s p).wt.track.length + (missingOff s p).length ≤ 64 := by
    have cut : (cutOff s p).wt.track.length ≤ p.wt.track.length := (List.length_map _).trans_le (List.length_filter_le _ _)
    have missing : (missingOff s p).length ≤ (computedOff p s).length := List.length_filter_le _ _
    omega
  obtain ⟨stay, stand, only⟩ := insertedOff_insertAll (s := s) (missingOff s p) (cutOff s p, changesOff s p) fits
  rw [← track] at stay stand only
  have computed : ∀ c ∈ missingOff s p, c ∈ computedOff p s := fun c m => (List.mem_filter.1 m).1
  refine ⟨fun c mc => ?_, fun e me own b => ?_, fun e me own before => ?_, fun e other => ?_⟩
  · by_cases m : c ∈ missingOff s p
    · exact stand c m
    · have kept : p.wt.track.any (fun e => decide (posB p ≤ e.start) && sameStretch s c e) = true := by
        by_contra none'
        exact m (List.mem_filter.2 ⟨mc, by simpa using none'⟩)
      obtain ⟨e, me, h⟩ := List.any_eq_true.1 kept
      obtain ⟨b, same⟩ := Bool.and_eq_true_iff.1 h
      have beyond : posB p ≤ e.start := of_decide_eq_true b
      have stands : (computedOff p s).any (fun c => sameStretch s c e) = true := List.any_eq_true.2 ⟨c, mc, same⟩
      refine ⟨e, stay e (mem_cutOff.2 ⟨e, me, by simp [goesOff, stands], endedOff_of_not_ends fun ends => ?_⟩), same⟩
      obtain ⟨-, before, -⟩ := endsOff_iff.1 ends
      omega
  · rcases only e me with cut | ⟨c, mc, same⟩
    · obtain ⟨y, my, stays, rfl⟩ := mem_cutOff.1 cut
      by_cases ends : endsOff s p y = true
      · obtain ⟨-, before, -⟩ := endsOff_iff.1 ends
        rw [endedOff_of_ends ends] at b
        exact absurd b (Nat.not_le.2 before)
      · rw [endedOff_of_not_ends ends] at own b ⊢
        have stands : (computedOff p s).any (fun c => sameStretch s c y) = true := by simpa [goesOff, own, b] using stays
        exact List.any_eq_true.1 stands
    · exact ⟨c, computed c mc, same⟩
  · rcases only e me with cut | ⟨c, mc, same⟩
    · obtain ⟨y, my, stays, rfl⟩ := mem_cutOff.1 cut
      by_cases ends : endsOff s p y = true
      · rw [endedOff_of_ends ends]
        rfl
      · rw [endedOff_of_not_ends ends] at own before ⊢
        by_contra isOpen
        exact ends (endsOff_iff.2 ⟨own, before, by simpa using isOpen⟩)
    · obtain ⟨-, at', -⟩ := sameStretch_iff.1 same
      have := posB_le_of_mem_computedOff c (computed c mc)
      omega
  · constructor
    · intro me
      rcases only e me with cut | ⟨c, mc, same⟩
      · obtain ⟨y, my, stays, rfl⟩ := mem_cutOff.1 cut
        by_cases ends : endsOff s p y = true
        · obtain ⟨own, -, -⟩ := endsOff_iff.1 ends
          rw [endedOff_of_ends ends] at other
          exact absurd (own.symm.trans other) Bool.noConfusion
        · rw [endedOff_of_not_ends ends]
          exact my
      · rw [ofStand_of_sameStretch same] at other
        cases other
    · intro me
      refine stay e (mem_cutOff.2 ⟨e, me, by simp [goesOff, other], endedOff_of_not_ends fun ends => ?_⟩)
      obtain ⟨own, -, -⟩ := endsOff_iff.1 ends
      exact absurd (own.symm.trans other) Bool.noConfusion

end Check

/-! ## Settling O26 -/

/-- Settles O26, each part by the lemma about its operation. -/
theorem zoneMeetsCut : Obligations.ZoneMeetsCut := by
  refine ⟨fun z x y => ⟨fun e => meets_closed, meets_point, meets_open⟩, fun p => ⟨retire_noCut, fun k => mem_retire⟩, fun p y e => mem_passMarks,
    fun f start stop p sorted => ⟨coverZone_latches f start stop p, fun nobody => coverZone_none (coveringEntry_none nobody), fun e m eligible last => ?_⟩,
    fun p s r o x sorted h b start stop => ⟨regionOff_covers sorted h b start stop, regionOff_tag h⟩, fun p => ⟨bindBonds_none, bindBonds_some⟩,
    fun p id n => ⟨closeZone_missing, fun e h zero => zero ▸ closeZone_zero h, fun e => closeZone_effects⟩,
    fun p s => ⟨fun idle => ?_, rfl, fun run use => ?_⟩,
    fun p s start tag stop => ⟨fun free => ?_, fun full isOpen => insertOff_open full isOpen, fun t full closed => insertOff_closed full closed⟩⟩
  · have covering := coveringEntry_last sorted m eligible last
    exact ⟨coverZone_within covering, coverZone_raised_effects covering m, coverZone_absorbs_effects covering m⟩
  · rcases idle with config | unused
    · exact gradeCheck_config config s
    · exact gradeCheck_unused unused
  · exact ⟨gradeCheck_run run use, gradeCheck_idle run use, gradeCheck_room run use⟩
  · dsimp only
    rw [insertOff_placed free]
    exact ⟨newId p, newId_ne free, rfl, rfl, rfl, rfl⟩

end Sys2Proof.Machine
end

section
/-! The facts that the requests for orders share: where a tag is held, whether a slot is LOADED, an order's ranges, the references to a slot (R41 to R44). -/

namespace Sys2Proof.Machine

/-! ## Where a tag is held (R42, R43) -/

section Tags

variable {p : Part} {tag : Nat}

/-- The order found is the first of the queue with the tag. -/
theorem queuedAt_eq_some {i : Nat} {o : Order} :
    queuedAt p tag = some (i, o) ↔
      p.os.queue[i]? = some o ∧ o.tag = tag ∧ ∀ j x, j < i → p.os.queue[j]? = some x → x.tag ≠ tag := by
  unfold queuedAt
  cases found : p.os.queue.findIdx? (fun o => decide (o.tag = tag)) with
  | none =>
    rw [List.findIdx?_eq_none_iff] at found
    simp only [reduceCtorEq, false_iff]
    rintro ⟨here, tagged, -⟩
    exact of_decide_eq_false (found o (List.mem_of_getElem? here)) tagged
  | some k =>
    obtain ⟨inside, tagged, before⟩ := List.findIdx?_eq_some_iff_getElem.1 found
    simp only [List.getElem?_eq_getElem inside, Option.map_some, Option.some.injEq, Prod.mk.injEq]
    constructor
    · rintro ⟨rfl, rfl⟩
      refine ⟨List.getElem?_eq_getElem inside, of_decide_eq_true tagged, fun j x lt here => ?_⟩
      obtain ⟨_, rfl⟩ := List.getElem?_eq_some_iff.1 here
      simpa using before j lt
    · rintro ⟨here, isTag, first⟩
      have same : k = i := by
        rcases Nat.lt_trichotomy k i with lt | eq | gt
        · exact absurd (of_decide_eq_true tagged) (first k _ lt (List.getElem?_eq_getElem inside))
        · exact eq
        · obtain ⟨_, rfl⟩ := List.getElem?_eq_some_iff.1 here
          exact absurd isTag (by simpa using before i gt)
      subst same
      exact ⟨rfl, by simpa [List.getElem?_eq_getElem inside] using here⟩

theorem queuedAt_eq_none : queuedAt p tag = none ↔ ∀ o ∈ p.os.queue, o.tag ≠ tag := by
  unfold queuedAt
  cases found : p.os.queue.findIdx? (fun o => decide (o.tag = tag)) with
  | none => simpa using List.findIdx?_eq_none_iff.1 found
  | some k =>
    obtain ⟨inside, tagged, -⟩ := List.findIdx?_eq_some_iff_getElem.1 found
    simp only [List.getElem?_eq_getElem inside, Option.map_some, reduceCtorEq, false_iff]
    exact fun absent => absent _ (List.getElem_mem inside) (of_decide_eq_true tagged)

/-- The region found is the first of the list with the tag. -/
theorem regionOf_eq_some {x : Region} :
    regionOf p tag = some x ↔ ∃ before after, p.os.regions = before ++ x :: after ∧ x.order.map Order.tag = some tag
      ∧ ∀ y ∈ before, y.order.map Order.tag ≠ some tag := by
  rw [regionOf, List.find?_eq_some_iff_append, decide_eq_true_eq]
  constructor
  · rintro ⟨tagged, before, after, list, others⟩
    exact ⟨before, after, list, tagged, fun y m => by simpa using others y m⟩
  · rintro ⟨before, after, list, tagged, others⟩
    exact ⟨tagged, before, after, list, fun y m => by simpa using others y m⟩

theorem regionOf_isSome : (regionOf p tag).isSome = true ↔ ∃ x ∈ p.os.regions, x.order.map Order.tag = some tag := by
  simp only [regionOf, List.find?_isSome, decide_eq_true_eq]

/-- A region found by a tag belongs to an order with the tag. -/
theorem order_of_regionOf {x : Region} (h : regionOf p tag = some x) : ∃ o, x.order = some o ∧ o.tag = tag := by
  obtain ⟨_, _, -, tagged, -⟩ := regionOf_eq_some.1 h
  exact Option.map_eq_some_iff.1 tagged

theorem tagHeld_iff :
    tagHeld p tag = true ↔ (∃ x ∈ p.os.queue, x.tag = tag) ∨ ∃ x ∈ p.os.regions, x.order.map Order.tag = some tag := by
  simp only [tagHeld, Bool.or_eq_true, List.any_eq_true, decide_eq_true_eq, regionOf_isSome]

theorem tagHeld_eq_false : tagHeld p tag = false ↔ queuedAt p tag = none ∧ regionOf p tag = none := by
  simp only [tagHeld, Bool.or_eq_false_iff, List.any_eq_false, decide_eq_true_eq, queuedAt_eq_none, Option.isSome_eq_false_iff,
    Option.isNone_iff_eq_none, ne_eq]

end Tags

/-- Only the head of the queue can be NEXT (R43, R45). -/
theorem isNext_iff {p : Part} {i : Nat} : isNext p i = true ↔ i = 0 ∧ p.os.next.isSome = true := by
  rw [isNext, Bool.and_eq_true, decide_eq_true_eq]

theorem isNext_eq_false {p : Part} {i : Nat} : isNext p i = false ↔ i ≠ 0 ∨ p.os.next = none := by
  rw [isNext, Bool.and_eq_false_iff, decide_eq_false_iff_not, Option.isSome_eq_false_iff, Option.isNone_iff_eq_none]

/-! ## Ranges (R41) -/

theorem inRange_iff (o : Order) :
    o.inRange = true ↔
      1 ≤ o.slot ∧ o.slot ≤ 32 ∧ (∀ i, o.grades.get i ≤ 65535) ∧ 1 ≤ o.outs ∧ o.outs ≤ 8 ∧ 2000 ≤ o.length ∧ o.length ≤ 60000 ∧ 1 ≤ o.quantity
        ∧ o.quantity ≤ 999999 ∧ 1 ≤ o.stackHeight ∧ o.stackHeight ≤ 500 ∧ 1 ≤ o.profile ∧ o.profile ≤ 999 ∧ o.overrun ≤ 200 := by
  have grades : o.grades.toList.all (fun g => decide (g ≤ 65535)) = true ↔ ∀ i, o.grades.get i ≤ 65535 := by
    rw [List.all_eq_true]
    constructor
    · intro h i
      exact of_decide_eq_true (h _ (by simp [Vector.get_eq_getElem]))
    · intro h g m
      obtain ⟨i, lt, rfl⟩ := List.getElem_of_mem m
      exact decide_eq_true (by simpa [Vector.get_eq_getElem] using h ⟨i, by simpa using lt⟩)
  simp only [Order.inRange, Bool.and_eq_true, within_iff, decide_eq_true_eq, grades, and_assoc]

/-! ## References to a slot (R44) -/

theorem slotLoaded_of_place {p : Part} {n : Nat} {i : Fin 32} (h : place 32 n = some i) :
    slotLoaded p n = (p.bc.slots.get i).recipe.isSome := by
  simp only [slotLoaded, recipeIn, h]

theorem addRef_of_place {p : Part} {n : Nat} {i : Fin 32} (h : place 32 n = some i) :
    addRef n p = setSlot p i { p.bc.slots.get i with refs := (p.bc.slots.get i).refs + 1 } := by
  simp only [addRef, changeRefs, h, setSlot]

theorem dropRef_of_place {p : Part} {n : Nat} {i : Fin 32} (h : place 32 n = some i) :
    dropRef n p = setSlot p i { p.bc.slots.get i with refs := (p.bc.slots.get i).refs - 1 } := by
  simp only [dropRef, changeRefs, h, setSlot]

@[simp] theorem changeRefs_os (f : Nat → Nat) (n : Nat) (p : Part) : (changeRefs f n p).os = p.os := by
  unfold changeRefs
  split <;> rfl

@[simp] theorem changeRefs_mu (f : Nat → Nat) (n : Nat) (p : Part) : (changeRefs f n p).mu = p.mu := by
  unfold changeRefs
  split <;> rfl

@[simp] theorem changeRefs_dec (f : Nat → Nat) (n : Nat) (p : Part) : (changeRefs f n p).dec = p.dec := by
  unfold changeRefs
  split <;> rfl

@[simp] theorem changeRefs_wt (f : Nat → Nat) (n : Nat) (p : Part) : (changeRefs f n p).wt = p.wt := by
  unfold changeRefs
  split <;> rfl

@[simp] theorem changeRefs_sc (f : Nat → Nat) (n : Nat) (p : Part) : (changeRefs f n p).sc = p.sc := by
  unfold changeRefs
  split <;> rfl

theorem moveRef_same (n : Nat) (p : Part) : moveRef n n p = p := if_pos rfl

theorem moveRef_ne {p : Part} {old new : Nat} {i j : Fin 32} (hi : place 32 old = some i) (hj : place 32 new = some j) (ne : old ≠ new) :
    moveRef old new p
      = setSlot (setSlot p i { p.bc.slots.get i with refs := (p.bc.slots.get i).refs - 1 }) j
          { p.bc.slots.get j with refs := (p.bc.slots.get j).refs + 1 } := by
  have apart : j ≠ i := by
    rintro rfl
    exact ne ((place_eq_some.1 hi).trans (place_eq_some.1 hj).symm)
  rw [moveRef, if_neg ne, dropRef_of_place hi, addRef_of_place hj, setSlot_slots, get_upd_ne _ _ apart]

end Sys2Proof.Machine
end

section
/-! APPEND ORDER: its checks in their order, its effect, and O27 (R41, R42). -/

namespace Sys2Proof.Machine

/-- APPEND ORDER of an order, with the hold as it was sent (R42). -/
def appendAnswer (hold : Nat) (o : Order) (p : Part) : Answer :=
  if 1 < hold ∨ o.inRange = false then refuse .badArg p
  else if slotLoaded p o.slot = false then refuse .notFound p
  else if tagHeld p o.tag then refuse .conflict p
  else if Config.orderCap ≤ p.os.queue.length then refuse .full p
  else okWith (w32 p.os.queue.length) (appendAccepted o p)

section Append

variable {p : Part} {o : Order} {hold : Nat} {tag slot outs g1 g2 g3 g4 g5 len qty stack profile overrun : Nat}

theorem appendOrderOf_eq (p : Part) :
    appendOrderOf [tag, slot, outs, hold, g1, g2, g3, g4, g5, len, qty, stack, profile, overrun] p
      = appendAnswer hold
          { tag := tag, revision := 0, slot := slot, grades := #v[g1, g2, g3, g4, g5], outs := outs, length := len, quantity := qty,
            stackHeight := stack, profile := profile, overrun := overrun, hold := decide (hold = 1) } p := rfl

theorem appendAnswer_illegal (h : ¬(hold ≤ 1 ∧ o.inRange = true)) : appendAnswer hold o p = refuse .badArg p := by
  refine if_pos ?_
  rwa [not_and_or, Nat.not_le, Bool.not_eq_true] at h

/-- Past the ranges, the checks of the slot, the tag and the queue. -/
theorem appendAnswer_legal (h : hold ≤ 1 ∧ o.inRange = true) :
    appendAnswer hold o p =
      if slotLoaded p o.slot = false then refuse .notFound p
      else if tagHeld p o.tag then refuse .conflict p
      else if Config.orderCap ≤ p.os.queue.length then refuse .full p
      else okWith (w32 p.os.queue.length) (appendAccepted o p) := by
  refine if_neg ?_
  rw [h.2]
  simpa using h.1

theorem appendAnswer_empty (h : hold ≤ 1 ∧ o.inRange = true) (empty : slotLoaded p o.slot = false) :
    appendAnswer hold o p = refuse .notFound p := by
  rw [appendAnswer_legal h, if_pos empty]

theorem appendAnswer_held (h : hold ≤ 1 ∧ o.inRange = true) (loaded : slotLoaded p o.slot = true) (held : tagHeld p o.tag = true) :
    appendAnswer hold o p = refuse .conflict p := by
  rw [appendAnswer_legal h, if_neg (by simp [loaded]), if_pos held]

theorem appendAnswer_full (h : hold ≤ 1 ∧ o.inRange = true) (loaded : slotLoaded p o.slot = true) (free : ¬tagHeld p o.tag = true)
    (full : 24 ≤ p.os.queue.length) : appendAnswer hold o p = refuse .full p := by
  rw [appendAnswer_legal h, if_neg (by simp [loaded]), if_neg free]
  exact if_pos full

theorem appendAnswer_accepted (h : hold ≤ 1 ∧ o.inRange = true) (loaded : slotLoaded p o.slot = true) (free : ¬tagHeld p o.tag = true)
    (room : p.os.queue.length < 24) : appendAnswer hold o p = okWith (w32 p.os.queue.length) (appendAccepted o p) := by
  rw [appendAnswer_legal h, if_neg (by simp [loaded]), if_neg free]
  exact if_neg (Nat.not_le.2 room)

theorem appendAccepted_of_place {i : Fin 32} (h : place 32 o.slot = some i) :
    appendAccepted o p = nextSelection (setSlot (setOrders p (p.os.queue ++ [o])) i
      { p.bc.slots.get i with refs := (p.bc.slots.get i).refs + 1 }) := by
  rw [appendAccepted, addRef_of_place h, setOrders_bc]

end Append

/-- Settles O27: the checks of APPEND ORDER one by one, then its effect. -/
theorem appendOrderJoinsQueue : Obligations.AppendOrderJoinsQueue := by
  refine ⟨?_, inRange_iff, fun p => nextSelection_config⟩
  intro s r tag slot outs hold g1 g2 g3 g4 g5 len qty stack profile overrun a o legal held
  have answered {st : Status} {l : List Byte} {q : Part} (h : appendAnswer hold o (popRequest s.part) = { part := q, status := st, results := l }) :
      exec .appendOrder s = Answered s r st l q := onPart_serve_of_asks a rfl ((appendOrderOf_eq _).trans h)
  refine ⟨fun illegal => answered (appendAnswer_illegal illegal), fun i ok here => ⟨fun empty => ?_, fun loaded => ?_⟩⟩
  · exact answered (appendAnswer_empty ok (by rw [slotLoaded_of_place here]; exact Option.isSome_eq_false_iff.2 (by simp [empty])))
  · have full : slotLoaded (popRequest s.part) o.slot = true := (slotLoaded_of_place here).trans loaded
    refine ⟨fun is => answered (appendAnswer_held ok full (tagHeld_iff.2 is)),
      fun is long => answered (appendAnswer_full ok full (fun t => is (tagHeld_iff.1 t)) long), fun is short => ?_⟩
    have accepted := appendAnswer_accepted (p := popRequest s.part) ok full (fun t => is (tagHeld_iff.1 t)) short
    rw [appendAccepted_of_place here] at accepted
    exact answered accepted

end Sys2Proof.Machine
end

section
/-! AMEND ORDER: its checks in their order, its effect on a QUEUED, a NEXT and a RUNNING order, and O28 (R60 to R62). -/

namespace Sys2Proof.Machine

/-! ## The profile of the NEXT order and the slitter's inactive station (R46, R123) -/

section Profile

variable {p : Part} {o : Order}

theorem compareProfile_active (h : p.dec.active = some o.profile) :
    compareProfile o p = { p with os := { p.os with next := some { ready := true, needsSwap := false } } } := if_pos h

theorem compareProfile_other (run : p.mu.mode = .run) (h : p.dec.active ≠ some o.profile) :
    compareProfile o p = postSetpoint (.preset o.profile)
      { p with os := { p.os with next := some { ready := false, needsSwap := true } }, dec := { p.dec with inactive := .presetting o.profile } } := by
  rw [compareProfile, if_neg h, presetStation]
  exact if_pos (inRun_run run)

theorem releaseStation_run (run : p.mu.mode = .run) : releaseStation p = { p with dec := { p.dec with inactive := .free } } :=
  if_pos (inRun_run run)

end Profile

/-! ## The checks (R60) -/

/-- AMEND ORDER with the fields `n`, the expected revision and the hold as it was sent (R60). -/
def amendAnswer (expected hold : Nat) (n : Order) (p : Part) : Answer :=
  match queuedAt p n.tag with
  | some (i, o) => amendFound o n expected hold false (amendInQueue i o n) p
  | none =>
    match regionOf p n.tag with
    | none => refuse .notFound p
    | some r =>
      match r.order with
      | none => refuse .notFound p
      | some o => if r.stop.isSome then refuse .state p else amendFound o n expected hold true (amendRunning o n) p

section Checks

variable {p : Part} {o n : Order} {r : Region} {expected hold i : Nat} {running : Bool} {act : Part → Part}

theorem amendOrderBy_eq {tag slot g1 g2 g3 g4 g5 outs len qty stack profile overrun : Nat} (p : Part) :
    amendOrderBy [tag, expected, slot, g1, g2, g3, g4, g5, outs, len, qty, stack, profile, overrun, hold] p
      = amendAnswer expected hold
          { tag := tag, revision := 0, slot := slot, grades := #v[g1, g2, g3, g4, g5], outs := outs, length := len, quantity := qty,
            stackHeight := stack, profile := profile, overrun := overrun, hold := decide (hold = 1) } p := rfl

theorem amendAnswer_unheld (h : tagHeld p n.tag = false) : amendAnswer expected hold n p = refuse .notFound p := by
  obtain ⟨queue, regions⟩ := tagHeld_eq_false.1 h
  simp only [amendAnswer, queue, regions]

theorem amendAnswer_queued (h : queuedAt p n.tag = some (i, o)) :
    amendAnswer expected hold n p = amendFound o n expected hold false (amendInQueue i o n) p := by
  simp only [amendAnswer, h]

theorem amendAnswer_committed (h : queuedAt p n.tag = none) (found : regionOf p n.tag = some r) (committed : r.stop.isSome = true) :
    amendAnswer expected hold n p = refuse .state p := by
  obtain ⟨o, order, -⟩ := order_of_regionOf found
  simp only [amendAnswer, h, found, order, committed, if_true]

theorem amendAnswer_running (h : queuedAt p n.tag = none) (found : regionOf p n.tag = some r) (order : r.order = some o) (opened : r.stop = none) :
    amendAnswer expected hold n p = amendFound o n expected hold true (amendRunning o n) p := by
  simp only [amendAnswer, h, found, order, opened, Option.isSome_none, Bool.false_eq_true, if_false]

/-- The fields that a RUNNING order keeps are as they were (R60). -/
def SameFixed (o n : Order) : Prop :=
  o.slot = n.slot ∧ o.grades = n.grades ∧ o.outs = n.outs ∧ o.length = n.length ∧ o.profile = n.profile ∧ o.hold = n.hold

theorem changesFixed_eq_false : o.changesFixed n = false ↔ SameFixed o n := by
  simp only [Order.changesFixed, Bool.not_eq_false', Bool.and_eq_true, decide_eq_true_eq, SameFixed, and_assoc]

theorem amendFound_conflict (h : o.revision ≠ expected) : amendFound o n expected hold running act p = refuse .conflict p := by
  simp only [amendFound, amendChecks, if_pos h]

theorem amendFound_last (h : o.revision = expected) (last : o.revision = 255) :
    amendFound o n expected hold running act p = refuse .state p := by
  simp only [amendFound, amendChecks, if_neg (not_not.2 h), if_pos last]

section Revision

variable (rev : o.revision = expected) (more : o.revision ≠ 255)
include rev more

theorem amendFound_illegal (h : 1 < hold ∨ n.inRange = false) : amendFound o n expected hold running act p = refuse .badArg p := by
  simp only [amendFound, amendChecks, if_neg (not_not.2 rev), if_neg more, if_pos h]

variable (small : hold ≤ 1) (legal : n.inRange = true)
include small legal

theorem amendChecks_legal :
    amendChecks o n expected hold running p =
      if slotLoaded p n.slot = false then some .notFound else if running && o.changesFixed n then some .state else none := by
  have ok : ¬(1 < hold ∨ n.inRange = false) := by simp [small, legal]
  simp only [amendChecks, if_neg (not_not.2 rev), if_neg more, if_neg ok]

theorem amendFound_empty (empty : slotLoaded p n.slot = false) : amendFound o n expected hold running act p = refuse .notFound p := by
  simp only [amendFound, amendChecks_legal rev more small legal, if_pos empty]

theorem amendFound_fixed (loaded : slotLoaded p n.slot = true) (runs : running = true) (changes : ¬SameFixed o n) :
    amendFound o n expected hold running act p = refuse .state p := by
  rw [← changesFixed_eq_false, Bool.not_eq_false] at changes
  simp only [amendFound, amendChecks_legal rev more small legal, loaded, Bool.true_eq_false, if_false, runs, changes, Bool.and_self, if_true]

theorem amendFound_accepted (loaded : slotLoaded p n.slot = true) (free : running = false ∨ SameFixed o n) :
    amendFound o n expected hold running act p = okWith (w32 (o.revision + 1)) (act p) := by
  have kept : (running && o.changesFixed n) = false := by rwa [Bool.and_eq_false_iff, changesFixed_eq_false]
  simp only [amendFound, amendChecks_legal rev more small legal, loaded, kept, Bool.true_eq_false, Bool.false_eq_true, if_false]

end Revision

end Checks

/-! ## The effects (R61, R62) -/

section Effects

variable {p : Part} {o n : Order} {i : Nat}

theorem amendQueued_released (held : o.hold = true) (released : n.hold = false) : amendQueued o n p = nextSelection p :=
  if_pos (by rw [held, released]; rfl)

theorem amendQueued_else (h : o.hold = false ∨ n.hold = true) : amendQueued o n p = p := by
  refine if_neg ?_
  rcases h with h | h <;> simp [h]

theorem amendNext_same (h : o.profile = n.profile) : amendNext o n p = p := if_pos h

theorem amendNext_active (run : p.mu.mode = .run) (h : o.profile ≠ n.profile) (active : p.dec.active = some n.profile) :
    amendNext o n p = commitCheck { p with os := { p.os with next := some { ready := true, needsSwap := false } },
                                           dec := { p.dec with inactive := .free } } := by
  rw [amendNext, if_neg h, if_pos active, releaseStation_run run, compareProfile_active (p := { p with dec := { p.dec with inactive := .free } }) active]

theorem amendNext_other (run : p.mu.mode = .run) (h : o.profile ≠ n.profile) (other : p.dec.active ≠ some n.profile) :
    amendNext o n p = commitCheck (postSetpoint (.preset n.profile)
      { p with os := { p.os with next := some { ready := false, needsSwap := true } }, dec := { p.dec with inactive := .presetting n.profile } }) := by
  rw [amendNext, if_neg h, if_neg other, compareProfile_other run other]

@[simp] theorem moveRef_mu (old new : Nat) (p : Part) : (moveRef old new p).mu = p.mu := by
  unfold moveRef
  split
  · rfl
  · rw [addRef, dropRef, changeRefs_mu, changeRefs_mu]

@[simp] theorem moveRef_dec (old new : Nat) (p : Part) : (moveRef old new p).dec = p.dec := by
  unfold moveRef
  split
  · rfl
  · rw [addRef, dropRef, changeRefs_dec, changeRefs_dec]

/-- The queue with the amended order in its place, and the slot's reference moved (R61). -/
def amendedInQueue (i : Nat) (o n : Order) (p : Part) : Part := moveRef o.slot n.slot (setOrders p (p.os.queue.set i (o.amended n)))

theorem amendInQueue_next (h : isNext p i = true) : amendInQueue i o n p = amendNext o (o.amended n) (amendedInQueue i o n p) := if_pos h

theorem amendInQueue_queued (h : isNext p i = false) : amendInQueue i o n p = amendQueued o (o.amended n) (amendedInQueue i o n p) :=
  if_neg (by simp [h])

@[simp] theorem amendedInQueue_mode (i : Nat) (o n : Order) (p : Part) : (amendedInQueue i o n p).mu.mode = p.mu.mode := by
  rw [amendedInQueue, moveRef_mu, setOrders_mu]

@[simp] theorem amendedInQueue_active (i : Nat) (o n : Order) (p : Part) : (amendedInQueue i o n p).dec.active = p.dec.active := by
  rw [amendedInQueue, moveRef_dec, setOrders_dec]

theorem modifyRegion_eq (tag : Nat) (f : Region → Region) (p : Part) :
    modifyRegion tag f p = setRegions p (p.os.regions.map (fun y => if y.order.map Order.tag = some tag then f y else y)) := by
  simp only [modifyRegion, modifyWhere, decide_eq_true_eq, setRegions]

theorem amendRunning_eq (o n : Order) (p : Part) :
    amendRunning o n p = commitCheck (computeChange (setRegions p (p.os.regions.map (fun y =>
      if y.order.map Order.tag = some o.tag then
        { y with order := some (o.amended n), countdown := max 1 (n.stackHeight - (o.stackHeight - y.countdown)) }
      else y)))) := by
  rw [amendRunning, modifyRegion_eq]
  rfl

end Effects

/-- Settles O28: the checks once for both kinds of order, then the effect on each. -/
theorem amendOrderChecksAndEffects : Obligations.AmendOrderChecksAndEffects := by
  refine ⟨?_, fun old new p i j hi hj => ⟨fun same => same ▸ moveRef_same old p, moveRef_ne hi hj⟩⟩
  intro s r tag expected slot g1 g2 g3 g4 g5 outs len qty stack profile overrun hold a fields refused checked
  let n : Order :=
    { tag := tag, revision := 0, slot := slot, grades := #v[g1, g2, g3, g4, g5], outs := outs, length := len, quantity := qty,
      stackHeight := stack, profile := profile, overrun := overrun, hold := decide (hold = 1) }
  have answered {st : Status} {l : List Byte} {q : Part}
      (h : amendAnswer expected hold n (popRequest s.part) = { part := q, status := st, results := l }) :
      exec .amendOrder s = Answered s r st l q := onPart_serve_of_asks a rfl ((amendOrderBy_eq _).trans h)
  have check {o : Order} {running : Bool} {act : Part → Part} {accepted : Prop}
      (found : amendAnswer expected hold n (popRequest s.part) = amendFound o n expected hold running act (popRequest s.part))
      (effect : hold ≤ 1 → exec .amendOrder s = Answered s r .ok (w32 (o.revision + 1)) (act (popRequest s.part)) → accepted) :
      checked o running accepted := by
    refine ⟨fun other => answered (found.trans (amendFound_conflict other)), fun rev last => answered (found.trans (amendFound_last rev last)),
      fun rev more => ⟨fun illegal => answered (found.trans (amendFound_illegal rev more illegal)), fun small legal =>
        ⟨fun empty => ?_, fun loaded runs changes => ?_, fun loaded free => ?_⟩⟩⟩
    · exact answered (found.trans (amendFound_empty rev more small legal empty))
    · exact answered (found.trans (amendFound_fixed rev more small legal loaded runs changes))
    · exact effect small (answered (found.trans (amendFound_accepted rev more small legal loaded free)))
  refine ⟨fun unheld => answered (amendAnswer_unheld unheld), fun x queue found committed => answered (amendAnswer_committed queue found committed),
    fun i o queue => ?_, fun x o queue found order opened => ?_⟩
  · refine check (amendAnswer_queued queue) fun small accepted => ⟨fun queued => ?_, fun run head next => ?_⟩
    · rw [amendInQueue_queued (p := popRequest s.part) (isNext_eq_false.2 queued)] at accepted
      refine ⟨fun held released => ?_, fun stays => ?_⟩
      · rwa [amendQueued_released held (decide_eq_false (by omega))] at accepted
      · rwa [amendQueued_else (stays.imp id decide_eq_true)] at accepted
    · rw [amendInQueue_next (p := popRequest s.part) (isNext_iff.2 ⟨head, next⟩)] at accepted
      have running : (amendedInQueue i o n (popRequest s.part)).mu.mode = .run := (amendedInQueue_mode _ _ _ _).trans run
      have same := amendedInQueue_active i o n (popRequest s.part)
      refine ⟨fun kept => ?_, fun changed active => ?_, fun changed other => ?_⟩
      · rwa [amendNext_same (n := o.amended n) kept] at accepted
      · rwa [amendNext_active (n := o.amended n) running changed (same.trans active)] at accepted
      · rwa [amendNext_other (n := o.amended n) running changed (same ▸ other)] at accepted
  · obtain ⟨o', order', tagged⟩ := order_of_regionOf found
    obtain rfl : o' = o := Option.some.inj (order'.symm.trans order)
    subst tagged
    refine check (amendAnswer_running queue found order opened) fun _ accepted => ?_
    rwa [amendRunning_eq] at accepted

end Sys2Proof.Machine
end

section
/-! WITHDRAW ORDER, HOLD ORDER and RELEASE ORDER by where the order stands, and O29 (R63 to R65). -/

namespace Sys2Proof.Machine

section Requests

variable {p : Part} {tag i : Nat} {o : Order} {r : Region} {hold : Bool} {after : Part → Part}

/-! ## WITHDRAW ORDER (R63, R64) -/

theorem withdrawOrderOf_queued (h : queuedAt p tag = some (i, o)) : withdrawOrderOf [tag] p = okWith [] (withdrawFromQueue i o p) := by
  simp only [withdrawOrderOf, h]

theorem withdrawOrderOf_committed (h : queuedAt p tag = none) (found : regionOf p tag = some r) (committed : r.stop.isSome = true) :
    withdrawOrderOf [tag] p = refuse .state p := by
  simp only [withdrawOrderOf, h, found, committed, if_true]

theorem withdrawOrderOf_running (h : queuedAt p tag = none) (found : regionOf p tag = some r) (opened : r.stop = none) :
    withdrawOrderOf [tag] p = okWith [] (commitCheck (setRegions p (p.os.regions.map
      (fun y => if y.order.map Order.tag = some tag then { y with withdrawn := true } else y)))) := by
  simp only [withdrawOrderOf, h, found, opened, Option.isSome_none, Bool.false_eq_true, if_false, modifyRegion_eq]

theorem withdrawOrderOf_unheld (h : tagHeld p tag = false) : withdrawOrderOf [tag] p = refuse .notFound p := by
  obtain ⟨queue, regions⟩ := tagHeld_eq_false.1 h
  simp only [withdrawOrderOf, queue, regions]

/-- The queue without the order, and the slot's reference dropped (R63). -/
def leftQueue (i : Nat) (o : Order) (p : Part) : Part := dropRef o.slot (setOrders p (p.os.queue.eraseIdx i))

theorem leftQueue_mode (i : Nat) (o : Order) (p : Part) : (leftQueue i o p).mu.mode = p.mu.mode := by
  rw [leftQueue, dropRef, changeRefs_mu, setOrders_mu]

theorem withdrawFromQueue_queued (h : isNext p i = false) : withdrawFromQueue i o p = nextSelection (leftQueue i o p) := by
  simp only [withdrawFromQueue, h, Bool.false_eq_true, if_false, leftQueue]

theorem withdrawFromQueue_next (run : p.mu.mode = .run) (h : isNext p i = true) :
    withdrawFromQueue i o p = nextSelection
      { leftQueue i o p with os := { (leftQueue i o p).os with next := none }, dec := { (leftQueue i o p).dec with inactive := .free } } := by
  have running : ({ leftQueue i o p with os := { (leftQueue i o p).os with next := none } } : Part).mu.mode = .run :=
    (leftQueue_mode i o p).trans run
  rw [withdrawFromQueue, h]
  exact congrArg nextSelection (releaseStation_run running)

/-! ## HOLD ORDER and RELEASE ORDER (R65) -/

theorem setHold_queued (h : queuedAt p tag = some (i, o)) (queued : isNext p i = false) :
    setHold hold after [tag] p = okWith [] (after (setOrders p (p.os.queue.set i { o with hold := hold }))) := by
  simp only [setHold, h, queued, Bool.false_eq_true, if_false]

theorem setHold_next (h : queuedAt p tag = some (i, o)) (next : isNext p i = true) : setHold hold after [tag] p = refuse .state p := by
  simp only [setHold, h, next, if_true]

theorem setHold_region (h : queuedAt p tag = none) (found : regionOf p tag = some r) : setHold hold after [tag] p = refuse .state p := by
  simp only [setHold, h, found]

theorem setHold_unheld (h : tagHeld p tag = false) : setHold hold after [tag] p = refuse .notFound p := by
  obtain ⟨queue, regions⟩ := tagHeld_eq_false.1 h
  simp only [setHold, queue, regions]

end Requests

/-! ## The three requests' answers (R195) -/

section Answers

variable {s : State} {r : Request} {tag : Nat} {st : Status} {l : List Byte} {q : Part}

theorem withdrawOrder_answered (a : Asks s.part 38 [4] [tag] r)
    (h : withdrawOrderOf [tag] (popRequest s.part) = { part := q, status := st, results := l }) :
    exec .withdrawOrder s = Answered s r st l q := onPart_serve_of_asks a rfl h

theorem holdOrder_answered (a : Asks s.part 39 [4] [tag] r)
    (h : setHold true id [tag] (popRequest s.part) = { part := q, status := st, results := l }) :
    exec .holdOrder s = Answered s r st l q := onPart_serve_of_asks a rfl h

theorem releaseOrder_answered (a : Asks s.part 40 [4] [tag] r)
    (h : setHold false nextSelection [tag] (popRequest s.part) = { part := q, status := st, results := l }) :
    exec .releaseOrder s = Answered s r st l q := onPart_serve_of_asks a rfl h

end Answers

/-- Settles O29: the three requests by where the order stands, in the queue, in the region list or nowhere. -/
theorem queuedOrderRequests : Obligations.QueuedOrderRequests := by
  refine ⟨fun s r tag => ⟨fun i o queue => ⟨fun queued => ?_, fun head next => ?_⟩, fun x queue found => ?_, fun unheld => ?_⟩,
    fun p slot i => dropRef_of_place, fun p tag => ⟨fun i o => queuedAt_eq_some, fun x => regionOf_eq_some, tagHeld_eq_false⟩,
    fun p => nextSelection_config⟩
  · have only : isNext (popRequest s.part) i = false := isNext_eq_false.2 queued
    refine ⟨fun a => withdrawOrder_answered a ?_, fun a => holdOrder_answered a (setHold_queued queue only),
      fun a => releaseOrder_answered a (setHold_queued queue only)⟩
    rw [withdrawOrderOf_queued (p := popRequest s.part) queue, withdrawFromQueue_queued only]
    rfl
  · have isNext : isNext (popRequest s.part) i = true := isNext_iff.2 ⟨head, next⟩
    refine ⟨fun run a => withdrawOrder_answered a ?_, fun a => holdOrder_answered a (setHold_next queue isNext),
      fun a => releaseOrder_answered a (setHold_next queue isNext)⟩
    rw [withdrawOrderOf_queued (p := popRequest s.part) queue, withdrawFromQueue_next (p := popRequest s.part) run isNext]
    rfl
  · refine ⟨fun a => ⟨fun committed => ?_, fun opened => ?_⟩, fun a => holdOrder_answered a (setHold_region queue found),
      fun a => releaseOrder_answered a (setHold_region queue found)⟩
    · exact withdrawOrder_answered a (withdrawOrderOf_committed queue found committed)
    · exact withdrawOrder_answered a (withdrawOrderOf_running queue found opened)
  · exact ⟨fun a => withdrawOrder_answered a (withdrawOrderOf_unheld unheld), fun a => holdOrder_answered a (setHold_unheld unheld),
      fun a => releaseOrder_answered a (setHold_unheld unheld)⟩

end Sys2Proof.Machine
end

section
/-! The change point: the cuts that a zone culls, the walk over them, and O31 (R52). -/

namespace Sys2Proof.Machine

/-! ## Division rounded up -/

theorem ceilDiv_le_iff {a b c : Nat} (pos : 0 < b) : ceilDiv a b ≤ c ↔ a ≤ c * b := by
  rw [ceilDiv, Nat.div_le_iff_le_mul_add_pred pos, Nat.mul_comm b c]
  omega

theorem lt_ceilDiv_iff {a b c : Nat} (pos : 0 < b) : c < ceilDiv a b ↔ c * b < a := by
  rw [← Nat.not_le, ceilDiv_le_iff pos, Nat.not_le]

/-! ## The cuts that meet a zone -/

/-- The first future grid cut that ends beyond a start. -/
def firstCut (g0 len start : Nat) : Nat := if start < g0 then 1 else (start - g0) / len + 1

theorem firstCut_mono {g0 len a b : Nat} (h : a ≤ b) : firstCut g0 len a ≤ firstCut g0 len b := by
  unfold firstCut
  split
  · split
    · exact Nat.le_refl 1
    · exact Nat.le_add_left 1 _
  · rw [if_neg (by omega)]
    exact Nat.succ_le_succ (Nat.div_le_div_right (by omega))

theorem firstCut_le_iff {g0 len start k : Nat} (pos : 0 < len) : firstCut g0 len start ≤ k + 1 ↔ start < g0 + (k + 1) * len := by
  unfold firstCut
  split
  · exact iff_of_true (by omega) (by omega)
  · rw [Nat.add_le_add_iff_right, ← Nat.lt_succ_iff, Nat.div_lt_iff_lt_mul pos, Nat.succ_eq_add_one]
    omega

theorem cutRange_closed {g0 len e : Nat} {z : Zone} (h : z.extent = some e) :
    cutRange g0 len z =
      if e = 0 then if z.start < g0 then none else some (firstCut g0 len z.start, firstCut g0 len z.start)
      else if z.start + e ≤ g0 then none else some (firstCut g0 len z.start, ceilDiv (z.start + e - g0) len) := by
  simp only [cutRange, h]
  rfl

theorem cutRange_first {g0 len : Nat} {z : Zone} {r : Nat × Nat} (h : cutRange g0 len z = some r) : r.1 = firstCut g0 len z.start := by
  cases extent : z.extent with
  | none => simp [cutRange, extent] at h
  | some e =>
    rw [cutRange_closed extent] at h
    split at h <;> split at h <;> cases h <;> rfl

/-- A closed zone meets the grid cut `k + 1` if its range of cuts holds the number. -/
theorem meets_iff_cutRange {g0 len k : Nat} {z : Zone} (pos : 0 < len) :
    (z.extent.isSome && z.meets (g0 + k * len) (g0 + (k + 1) * len)) = true ↔
      ∃ r, cutRange g0 len z = some r ∧ r.1 ≤ k + 1 ∧ k + 1 ≤ r.2 := by
  have first := firstCut_le_iff (g0 := g0) (len := len) (start := z.start) (k := k) pos
  cases extent : z.extent with
  | none => simp [cutRange, extent]
  | some e =>
    rw [Option.isSome_some, Bool.true_and]
    rcases Nat.eq_zero_or_pos e with rfl | long
    · rw [meets_point extent]
      by_cases before : z.start < g0
      · simp [cutRange_closed extent, before]
        omega
      · have range : cutRange g0 len z = some (firstCut g0 len z.start, firstCut g0 len z.start) := by
          rw [cutRange_closed extent, if_pos rfl, if_neg before]
        have last : k + 1 ≤ firstCut g0 len z.start ↔ g0 + k * len ≤ z.start := by
          rw [firstCut, if_neg before, Nat.add_le_add_iff_right, Nat.le_div_iff_mul_le pos]
          omega
        simp only [range, Option.some.injEq, exists_eq_left', first, last]
        exact and_comm
    · rw [meets_closed extent long]
      by_cases before : z.start + e ≤ g0
      · simp [cutRange_closed extent, before, long.ne']
        omega
      · have range : cutRange g0 len z = some (firstCut g0 len z.start, ceilDiv (z.start + e - g0) len) := by
          rw [cutRange_closed extent, if_neg long.ne', if_neg before]
        have last : k + 1 ≤ ceilDiv (z.start + e - g0) len ↔ g0 + k * len < z.start + e := by
          rw [Nat.succ_le_iff, lt_ceilDiv_iff pos]
          omega
        simp only [range, Option.some.injEq, exists_eq_left', first, last]

theorem foreseen_iff_range {g0 len k : Nat} {zones : List Zone} (pos : 0 < len) :
    foreseen g0 len zones (k + 1) = true ↔ ∃ r ∈ zones.filterMap (cutRange g0 len), r.1 ≤ k + 1 ∧ k + 1 ≤ r.2 := by
  simp only [foreseen, List.any_eq_true, Nat.add_sub_cancel, meets_iff_cutRange pos, List.mem_filterMap]
  constructor
  · rintro ⟨z, m, r, range, inside⟩
    exact ⟨r, ⟨z, m, range⟩, inside⟩
  · rintro ⟨r, ⟨z, m, range⟩, inside⟩
    exact ⟨z, m, r, range, inside⟩

/-- The ranges of zones in the list's order stand in rising order of their first cut. -/
theorem cutRanges_rising {g0 len : Nat} {zones : List Zone} (sorted : zones.Pairwise (fun a b => a.start ≤ b.start)) :
    (zones.filterMap (cutRange g0 len)).Pairwise (fun a b => a.1 ≤ b.1) := by
  refine sorted.filterMap _ fun a b le r hr s hs => ?_
  rw [cutRange_first hr, cutRange_first hs]
  exact firstCut_mono le

/-! ## The walk over the ranges -/

section Walk

variable {c : Nat → Prop} [DecidablePred c]

theorem count_add_of_all {n d : Nat} (h : ∀ j < d, c (n + j)) : Nat.count c (n + d) = Nat.count c n + d := by
  rw [Nat.count_add, Nat.count_of_forall (fun j => h j)]

theorem count_add_of_none {n d : Nat} (h : ∀ j < d, ¬c (n + j)) : Nat.count c (n + d) = Nat.count c n := by
  rw [Nat.count_add, Nat.count_of_forall_not (fun j => h j), Nat.add_zero]

/-- With `n` cuts walked, the walk ends behind the `need`-th cut from there on that no range covers; `c` says of `k` that no range covers
the cut `k + 1`. -/
theorem walkCuts_ends {rs : List (Nat × Nat)} {need n : Nat} (wanted : 0 < need) (rising : rs.Pairwise (fun a b => a.1 ≤ b.1))
    (uncovered : ∀ k, n ≤ k → (c k ↔ ∀ r ∈ rs, ¬(r.1 ≤ k + 1 ∧ k + 1 ≤ r.2))) :
    ∃ k, walkCuts rs need n = k + 1 ∧ c k ∧ Nat.count c k + 1 = Nat.count c n + need := by
  induction rs generalizing need n with
  | nil =>
    have all : ∀ j, c (n + j) := fun j => (uncovered _ (Nat.le_add_right n j)).2 (by simp)
    refine ⟨n + (need - 1), by rw [walkCuts]; omega, all _, ?_⟩
    rw [count_add_of_all fun j _ => all j]
    omega
  | cons r rs ih =>
    obtain ⟨lo, hi⟩ := r
    rw [List.pairwise_cons] at rising
    have ahead : ∀ j < lo - 1 - n, c (n + j) := by
      refine fun j lt => (uncovered _ (Nat.le_add_right n j)).2 fun s m => ?_
      have first : lo ≤ s.1 := by
        rcases List.mem_cons.1 m with rfl | m
        · exact Nat.le_refl _
        · exact rising.1 s m
      omega
    rw [walkCuts]
    split
    · rename_i enough
      refine ⟨n + (need - 1), by omega, ahead _ (by omega), ?_⟩
      rw [count_add_of_all fun j lt => ahead j (by omega)]
      omega
    · rename_i more
      have walked : n + (lo - 1 - n) = max n (lo - 1) := by omega
      have counted := count_add_of_all ahead
      rw [walked] at counted
      have covered : ∀ j < max (max n (lo - 1)) hi - max n (lo - 1), ¬c (max n (lo - 1) + j) := by
        intro j lt clear
        exact (uncovered _ (by omega)).1 clear (lo, hi) List.mem_cons_self ⟨by dsimp only; omega, by dsimp only; omega⟩
      have passed := count_add_of_none covered
      rw [Nat.add_sub_cancel' (Nat.le_max_left _ _)] at passed
      have beyond : ∀ k, max (max n (lo - 1)) hi ≤ k → (c k ↔ ∀ r ∈ rs, ¬(r.1 ≤ k + 1 ∧ k + 1 ≤ r.2)) := by
        intro k le
        rw [uncovered k (by omega), List.forall_mem_cons]
        exact and_iff_right (by omega)
      obtain ⟨k, ends, clear, count⟩ := ih (need := need - (lo - 1 - n)) (by omega) rising.2 beyond
      exact ⟨k, ends, clear, by omega⟩

end Walk

/-! ## The count of foreseen cuts -/

theorem foreseenCount_eq (g0 len : Nat) (zones : List Zone) (n : Nat) :
    Nat.count (fun k => foreseen g0 len zones (k + 1) = false) n + foreseenCount g0 len zones n = n := by
  induction n with
  | zero => rfl
  | succ n ih =>
    rw [Nat.count_succ, foreseenCount]
    cases foreseen g0 len zones (n + 1) <;> simp <;> omega

/-- Settles O31: the walk ends behind the last cut it needs, and fewer cuts leave one wanting. -/
theorem changePointIsLeast : Obligations.ChangePointIsLeast := by
  intro g0 len need zones pos sorted n
  have total := foreseenCount_eq g0 len zones
  rcases Nat.eq_zero_or_pos need with nothing | wanted
  · have stays : n = 0 := if_pos nothing
    rw [stays, nothing]
    exact ⟨Nat.le_refl 0, fun m lt => absurd lt (Nat.not_lt_zero m)⟩
  · have walk : n = walkCuts (zones.filterMap (cutRange g0 len)) need 0 := if_neg wanted.ne'
    obtain ⟨k, ends, clear, count⟩ := walkCuts_ends (c := fun k => foreseen g0 len zones (k + 1) = false) (n := 0) wanted
      (cutRanges_rising sorted) fun k _ => by
        rw [← Bool.not_eq_true, foreseen_iff_range pos]
        push Not
        rfl
    rw [walk, ends]
    rw [Nat.count_zero] at count
    refine ⟨?_, fun m lt => ?_⟩
    · have last : Nat.count (fun k => foreseen g0 len zones (k + 1) = false) (k + 1) = Nat.count (fun k => foreseen g0 len zones (k + 1) = false) k + 1 :=
        Nat.count_succ_eq_succ_count_iff.2 clear
      have := total (k + 1)
      omega
    · have fewer := Nat.count_monotone (fun k => foreseen g0 len zones (k + 1) = false) (Nat.le_of_lt_succ lt)
      have := total m
      omega

end Sys2Proof.Machine
end

section
/-! The open region: its target and its grid, its commitment with all it hands out, the deferral, C, the changes of one cause, and O30 (R30, R51 to R59). -/

namespace Sys2Proof.Machine

/-! ## Target, grid origin, foreseen cuts (R51, R52) -/

theorem ceilDiv_bounds {a b : Nat} (pos : 0 < b) : a ≤ b * ceilDiv a b ∧ b * ceilDiv a b < a + b := by
  refine ⟨Nat.mul_comm b _ ▸ (ceilDiv_le_iff pos).1 (Nat.le_refl _), ?_⟩
  have le : b * ceilDiv a b ≤ a + b - 1 := Nat.mul_div_le _ _
  omega

theorem cutsWanted_bounds {o : Order} (pos : 0 < o.outs) :
    o.outs * o.cutsWanted ≥ o.quantity ∧ o.outs * o.cutsWanted < o.quantity + o.outs := ceilDiv_bounds pos

theorem target_bounds (o : Order) :
    o.cutsWanted ≤ o.target ∧ 1000 * (o.target - o.cutsWanted) ≥ o.cutsWanted * o.overrun
      ∧ 1000 * (o.target - o.cutsWanted) < o.cutsWanted * o.overrun + 1000 := by
  have allowance : o.target - o.cutsWanted = ceilDiv (o.cutsWanted * o.overrun) 1000 := Nat.add_sub_cancel_left _ _
  rw [allowance]
  exact ⟨Nat.le_add_right _ _, ceilDiv_bounds (by omega)⟩

theorem gridOrigin_first {p : Part} {r : Region} {first : Nat} (h : r.first = some first) (fresh : r.attributed = 0) :
    gridOrigin p r = (r.start, first - 1) := by
  simp only [gridOrigin, if_pos fresh, h, Option.getD_some]

theorem gridOrigin_cut {p : Part} {r : Region} {c k : Nat} (cut : 0 < r.attributed) (hc : p.dec.cLast = some c) (hk : p.dec.kLast = some k) :
    gridOrigin p r = (k, c) := by
  simp only [gridOrigin, if_neg cut.ne', hc, hk, Option.getD_some]

theorem foreseen_iff {g0 len j : Nat} {zones : List Zone} :
    foreseen g0 len zones j = true ↔ ∃ z ∈ zones, z.extent.isSome ∧ z.meets (g0 + (j - 1) * len) (g0 + j * len) = true := by
  simp only [foreseen, List.any_eq_true, Bool.and_eq_true]

/-- The committed end is the least grid point, one cut or more on, at or beyond the target (R56). -/
theorem commitCuts_least {g0 len target : Nat} (pos : 0 < len) :
    1 ≤ commitCuts g0 len target ∧ target ≤ g0 + commitCuts g0 len target * len
      ∧ (1 < commitCuts g0 len target → g0 + (commitCuts g0 len target - 1) * len < target) := by
  have reach := (ceilDiv_le_iff pos).1 (Nat.le_max_right 1 (ceilDiv (target - g0) len))
  refine ⟨Nat.le_max_left _ _, by unfold commitCuts; omega, fun several => ?_⟩
  have cuts : commitCuts g0 len target = ceilDiv (target - g0) len := by unfold commitCuts at several ⊢; omega
  rw [cuts] at several ⊢
  have short := (lt_ceilDiv_iff pos).1 (Nat.sub_lt (Nat.lt_of_succ_lt several) Nat.one_pos)
  omega

/-! ## When a commitment is due (R54 to R56) -/

section Due

variable {p : Part} {r : Region}

theorem commitDue_iff :
    commitDue p r = true ↔ r.first.isSome ∧
      ((r.order = none ∧ ∃ n, p.os.next = some n ∧ n.ready = true) ∨
       (r.order.isSome ∧ (r.withdrawn = true ∨ ∃ c, r.change = some c ∧ c ≤ posB p + p.os.commitLead))) := by
  rw [commitDue, Bool.and_eq_true]
  refine and_congr_right fun _ => ?_
  cases r.order with
  | none => cases p.os.next <;> simp
  | some o => cases r.change <;> simp

theorem commitTarget_far (h : r.order = none ∨ r.withdrawn = true) : commitTarget p r = posB p + p.os.commitLead := by
  unfold commitTarget
  dsimp only
  split
  · rename_i order _
    rw [order] at h
    exact if_pos (h.resolve_left (by simp))
  · rfl

theorem commitTarget_change {c : Nat} (order : r.order.isSome) (stays : r.withdrawn = false) (h : r.change = some c) :
    commitTarget p r = if posB p + (offset p .slitter + 200000) ≤ c then c else posB p + p.os.commitLead := by
  obtain ⟨o, order⟩ := Option.isSome_iff_exists.1 order
  simp only [commitTarget, order, h, stays, Bool.false_eq_true, if_false]
  rfl

theorem commitRoom_iff : commitRoom p = true ↔ p.os.regions.length < 6 ∧ p.wt.track.length ≤ 58 := by
  rw [commitRoom, Bool.and_eq_true, decide_eq_true_eq, decide_eq_true_eq]
  refine and_congr_right fun _ => ?_
  rw [freePlaces, Config.commitPlaces, Config.trackCap]
  omega

end Due

/-! ## The open region (R48) -/

theorem modifyLast_append {α : Type} (f : α → α) (l : List α) (x : α) : modifyLast f (l ++ [x]) = l ++ [f x] := by
  induction l with
  | nil => rfl
  | cons a l ih => cases l <;> simp_all [modifyLast]

section Open

variable {p : Part} {before : List Region} {r : Region}

theorem openRegion_open (list : p.os.regions = before ++ [r]) (opened : r.stop = none) : openRegion p = some r := by
  simp only [openRegion, list, List.getLast?_concat, opened, Option.isNone_none, if_true]

theorem openRegion_committed (list : p.os.regions = before ++ [r]) (committed : r.stop.isSome = true) : openRegion p = none := by
  simp [openRegion, list, Option.isSome_iff_ne_none.1 committed]

theorem modifyOpen_eq (f : Region → Region) (list : p.os.regions = before ++ [r]) : modifyOpen f p = setRegions p (before ++ [f r]) := by
  rw [modifyOpen, list, modifyLast_append]

/-! ## The commitment check (R54, R55) -/

theorem commitCheck_open (run : p.mu.mode = .run) (list : p.os.regions = before ++ [r]) (opened : r.stop = none) :
    commitCheck p =
      if commitDue p r then if commitRoom p then commitTimes 6 (commit r p) else deferCommit r p else endDeferral r p := by
  simp only [commitCheck, inRun_run run, if_true, commitTimes, openRegion_open list opened, Config.regionCap]

theorem endDeferral_none (h : r.deferred = false) : endDeferral r p = p := if_neg (by simp [h])

theorem endDeferral_ends (list : p.os.regions = before ++ [r]) (h : r.deferred = true) :
    endDeferral r p = deactivate .orderWait (setRegions p (before ++ [{ r with deferred := false }])) := by
  rw [endDeferral, if_pos h, modifyOpen_eq _ list]

theorem deferCommit_deferred (h : r.deferred = true) : deferCommit r p = p := if_pos h

theorem deferCommit_begins (list : p.os.regions = before ++ [r]) (h : r.deferred = false) :
    deferCommit r p = activate .orderWait p.sg.crawl (latch .orderWait (setRegions p (before ++ [{ r with deferred := true }]))) := by
  rw [deferCommit, if_neg (by simp [h]), modifyOpen_eq _ list]

theorem fixEnd_deferred (list : p.os.regions = before ++ [r]) (h : r.deferred = true) :
    (fixEnd r p).1 = deactivate .orderWait (setRegions p (before ++ [fixedOpen r p r])) := by
  rw [← modifyOpen_eq _ list]
  exact if_pos h

theorem fixEnd_prompt (list : p.os.regions = before ++ [r]) (h : r.deferred = false) :
    (fixEnd r p).1 = setRegions p (before ++ [fixedOpen r p r]) := by
  rw [← modifyOpen_eq _ list]
  exact if_neg (by simp [h])

theorem fixEnd_queue (r : Region) (p : Part) : (fixEnd r p).1.os.queue = p.os.queue := by
  rw [fixEnd_os]
  rfl

theorem fixEnd_next (r : Region) (p : Part) : (fixEnd r p).1.os.next = p.os.next := by
  rw [fixEnd_os]
  rfl

/-- The region list of a commitment, but for C and the grade-late flags (R57). -/
theorem commit_regions (list : p.os.regions = before ++ [r]) :
    (commit r p).os.regions.map bare
      = (before ++ [fixedOpen r p r, (appendRegion r.length (fixEnd r p).2.1 (fixEnd r p).2.2 (fixEnd r p).1).2]).map bare := by
  rw [(bare_commit r p).regs, appendRegion_regions, fixEnd_regions p r before list, List.append_assoc]
  rfl

/-! ## C (R52, R53) and the changes of one cause (R30) -/

theorem computeChange_none (list : p.os.regions = before ++ [r]) (h : r.stop.isSome = true ∨ r.order = none) : computeChange p = p := by
  cases stop : r.stop with
  | some e => simp only [computeChange, openRegion_committed list (by simp [stop])]
  | none =>
    have waste : r.order = none := h.resolve_left (by simp [stop])
    simp only [computeChange, openRegion_open list stop, waste]

theorem computeChange_order (list : p.os.regions = before ++ [r]) {o : Order} (opened : r.stop = none) (order : r.order = some o) :
    computeChange p = setRegions p (before ++ [{ r with change := some (changePoint p r o) }]) := by
  simp only [computeChange, openRegion_open list opened, order, modifyOpen_eq _ list]

/-- The zone is closed and meets the span from the grid origin to C (R53). -/
def MeetsSpan (g0 c : Nat) (z : Option Zone) : Prop := ∃ w, z = some w ∧ w.extent.isSome ∧ w.meets g0 c = true

/-- A change of the list is of an entry with cull yes that met the span, or meets it now (R53). -/
def SpanChanged (g0 c : Nat) (changes : List Change) : Prop :=
  ∃ x ∈ changes, x.cull = true ∧ (MeetsSpan g0 c x.before ∨ MeetsSpan g0 c x.after)

theorem any_changeMatters {g0 c : Nat} {changes : List Change} : changes.any (changeMatters g0 c) = true ↔ SpanChanged g0 c changes := by
  have meets : ∀ z : Option Zone, (match z with | some z => z.extent.isSome && z.meets g0 c | none => false) = true ↔ MeetsSpan g0 c z := by
    intro z
    cases z <;> simp [MeetsSpan]
  rw [List.any_eq_true]
  refine exists_congr fun x => and_congr_right fun _ => ?_
  rw [changeMatters, Bool.and_eq_true, Bool.or_eq_true]
  exact and_congr_right fun _ => or_congr (meets x.before) (meets x.after)

theorem handOver_matters {c : Nat} {changes : List Change} (list : p.os.regions = before ++ [r]) (opened : r.stop = none) (h : r.change = some c)
    (matters : SpanChanged (gridOrigin p r).1 c changes) : handOver changes p = commitCheck (computeChange p) := by
  simp only [handOver, takeChanges, openRegion_open list opened, h, any_changeMatters.2 matters, if_true]

theorem handOver_else {changes : List Change} (list : p.os.regions = before ++ [r])
    (h : r.stop.isSome = true ∨ r.change = none ∨ ∃ c, r.change = some c ∧ ¬SpanChanged (gridOrigin p r).1 c changes) :
    handOver changes p = commitCheck p := by
  cases stop : r.stop with
  | some e => simp only [handOver, takeChanges, openRegion_committed list (by simp [stop])]
  | none =>
    rcases h with committed | absent | ⟨c, present, still⟩
    · simp [stop] at committed
    · simp only [handOver, takeChanges, openRegion_open list stop, absent]
    · simp only [handOver, takeChanges, openRegion_open list stop, present, if_neg (any_changeMatters.not.2 still)]

end Open

/-! ## What a commitment hands out (R57, R58) -/

section HandsOut

variable {p : Part} {len start : Nat}

theorem appendRegion_ready {o : Order} {rest : List Order} {n : NextOrder} (stop last : Nat) (queue : p.os.queue = o :: rest)
    (next : p.os.next = some n) (ready : n.ready = true) :
    appendRegion len stop last p
      = ({ p with os := { p.os with queue := rest, next := none,
                                    regions := p.os.regions ++ [newRegion (some o) stop o.length (last + 1) n.needsSwap] } },
         newRegion (some o) stop o.length (last + 1) n.needsSwap) := by
  simp only [appendRegion, queue, next, ready, if_true]

theorem appendRegion_waste (stop last : Nat) (h : p.os.queue = [] ∨ ∀ n, p.os.next = some n → n.ready = false) :
    appendRegion len stop last p
      = (setRegions p (p.os.regions ++ [newRegion none stop len (last + 1) false]), newRegion none stop len (last + 1) false) := by
  unfold appendRegion
  split
  · rename_i n queue next
    rcases h with empty | unready
    · rw [empty] at queue
      cases queue
    · rw [unready n next]
      rfl
  · rfl

theorem swapExtent_bounds (p : Part) :
    2000 ≤ swapExtent p ∧ swapExtent p ≤ 200000
      ∧ (2000 < swapExtent p → 1000 * (swapExtent p - 1) < lineSpeed p * p.os.swapTime)
      ∧ (swapExtent p < 200000 → lineSpeed p * p.os.swapTime ≤ 1000 * swapExtent p) := by
  have travel := ceilDiv_bounds (a := lineSpeed p * p.os.swapTime) (b := 1000) (by omega)
  simp only [swapExtent, clamp]
  omega

theorem postChange_unbound {n : Option Nat} (h : outEntry p .knife = none) : postChange len n p = p := by
  have unbound : outEntry p (Command.changeLength len n).output = none := h
  rw [postChange, postLimited, postSequence, unbound]
  rfl

theorem onItsWay_postChange {n : Option Nat} {e : OutEntry} (h : outEntry p .knife = some e) (room : (changeList p).length < 4) :
    OnItsWay (postChange len n p) (.command (.changeLength len n) e.node e.channel) := by
  have fits : decide (Config.changeCap ≤ (changeList p).length) = false := decide_eq_false (Nat.not_le.2 room)
  rw [postChange, postLimited, fits, Bool.and_false]
  exact onItsWay_postSequence (c := .changeLength len n) h

/-- A CHANGE LENGTH that waits keeps the next one from entering the queue (R180). -/
theorem canEnter_of_changes (h : 0 < (changeList p).length) : canEnter p true = false := by
  have waits : (waitOf p true).isEmpty = false := by
    rw [List.isEmpty_eq_false_iff, ← List.length_pos_iff]
    exact h.trans_le (List.length_filter_le _ _)
  rw [canEnter, waits, Bool.and_false]

theorem postChange_late {n : Option Nat} {e : OutEntry} (h : outEntry p .knife = some e) (full : 4 ≤ (changeList p).length) :
    postChange len n p = latch .knifeCommandLate p := by
  have bound : (outEntry p (Command.changeLength len n).output).isSome = true := Option.isSome_of_eq_some h
  have waits : canEnter p (Command.changeLength len n).urgent = false := canEnter_of_changes (by omega)
  refine if_pos ?_
  rw [bound, waits]
  exact decide_eq_true full

/-- The closed SWAP_ZONE entry of a commitment (R58). -/
def swapEntry (p : Part) (start id : Nat) : TrackEntry :=
  { id := id, kind := .swapZone, start := start, extent := some (swapExtent p), cull := true, origin := .slitter, binding := none }

/-- DEC's record with the swap of a commitment asked for (R58, R125). -/
def swapGiven (p : Part) (start extent : Nat) (id : Option Nat) : Dec :=
  { p.dec with swap := .none, swapRec := some { start := start, entry := id, extent := extent, late := false } }

theorem insertSwap_eq (start : Nat) (p : Part) :
    insertSwap start p =
      { (insertOrCover none (swapEntry p start 0) p).1 with
          dec := swapGiven (insertOrCover none (swapEntry p start 0) p).1 start (swapExtent p) (insertOrCover none (swapEntry p start 0) p).2.1 } := rfl

theorem hasPlace_swap : hasPlace .swapZone p = true ↔ p.wt.track.length < 64 :=
  hasPlace_iff.trans (and_iff_left fun dbm => by cases dbm)

theorem insertSwap_placed (room : p.wt.track.length < 64) :
    (insertSwap start p).wt.track = insertEntry (swapEntry p start (newId p)) p.wt.track
      ∧ (insertSwap start p).dec = swapGiven p start (swapExtent p) (some (newId p))
      ∧ (insertSwap start p).os = p.os ∧ (insertSwap start p).rif = p.rif := by
  have placed : insertOrCover none (swapEntry p start 0) p = ((addEntry (swapEntry p start 0) p).1, some (newId p), _) :=
    if_pos (hasPlace_swap.2 room)
  rw [insertSwap_eq, placed]
  exact ⟨rfl, rfl, rfl, rfl⟩

theorem coverZone_frame (f : Option (Fin 2)) (start stop : Nat) (p : Part) :
    (coverZone f start stop p).1.dec = p.dec ∧ (coverZone f start stop p).1.os = p.os := by
  unfold coverZone
  dsimp only
  split
  · exact ⟨latch_dec _ _, latch_os _ _⟩
  · split
    · exact ⟨latch_dec _ _, latch_os _ _⟩
    · split <;> exact ⟨latch_dec _ _, latch_os _ _⟩

theorem insertSwap_full (full : 64 ≤ p.wt.track.length) :
    (insertSwap start p).dec = swapGiven p start (swapExtent p) none ∧ (alarmOf (insertSwap start p) .trackOverflow).latch = true
      ∧ (insertSwap start p).os = p.os := by
  obtain ⟨dec, os⟩ := coverZone_frame none start (swapEntry p start 0).stop p
  have covered : insertOrCover none (swapEntry p start 0) p
      = ((coverZone none start (swapEntry p start 0).stop p).1, none, (coverZone none start (swapEntry p start 0).stop p).2) :=
    if_neg (hasPlace_swap.not.2 (Nat.not_lt.2 full))
  rw [insertSwap_eq, covered]
  refine ⟨?_, coverZone_latches none start _ p, os⟩
  simp only [swapGiven, dec]

end HandsOut

/-- Settles O30, each part by the lemma about its operation. -/
theorem targetAndGridOrigin : Obligations.TargetAndGridOrigin := by
  refine ⟨fun o pos => ⟨cutsWanted_bounds pos, target_bounds o⟩, fun p r first h => ⟨gridOrigin_first h, fun c k => gridOrigin_cut⟩,
    fun g0 len j zones _ => foreseen_iff, fun g0 len target => commitCuts_least, ?due, ?check, fun p len stop last => ⟨?ready, appendRegion_waste stop last⟩,
    swapExtent_bounds, ?commits, fun p len n => ⟨fun e h => ⟨onItsWay_postChange h, postChange_late h⟩, postChange_unbound⟩, ?swaps, ?changes⟩
  case due =>
    intro p r far
    exact ⟨commitDue_iff, commitTarget_far, fun c => commitTarget_change⟩
  case check =>
    intro p r before run list opened room
    have checks := commitCheck_open run list opened
    refine ⟨fun idle prompt => ?_, fun idle deferred => ?_, fun due full deferred => ?_, fun due full prompt => ?_, fun due free => ?_, ?_⟩
    · rw [checks, idle]
      exact endDeferral_none prompt
    · rw [checks, idle]
      exact endDeferral_ends list deferred
    · rw [checks, if_pos due, if_neg (commitRoom_iff.not.2 full)]
      exact deferCommit_deferred deferred
    · rw [checks, if_pos due, if_neg (commitRoom_iff.not.2 full)]
      exact deferCommit_begins list prompt
    · rw [checks, if_pos due, if_pos (commitRoom_iff.2 free)]
    · exact ⟨rfl, fixEnd_regions p r before list, fixEnd_queue r p, fixEnd_next r p, fixEnd_deferred list, fixEnd_prompt list⟩
  case ready => exact fun o rest n => appendRegion_ready stop last
  case commits =>
    intro p r before list _
    exact ⟨rfl, commit_regions list⟩
  case swaps =>
    intro p start
    refine ⟨fun room => ⟨newId p, newId_ne room, insertSwap_placed room⟩, insertSwap_full⟩
  case changes =>
    intro p before r list
    exact ⟨computeChange_none list, fun o => computeChange_order list, fun changes => ⟨fun c => handOver_matters list, handOver_else list⟩⟩

end Sys2Proof.Machine
end

section
/-! READ ORDER, READ QUEUE and READ COMPLETION, the completion of regions, and O32 (R66 to R69). -/

namespace Sys2Proof.Machine

/-! ## Fields (R193; log 8) -/

/-- A set of flags is the sum of their places' powers of two. -/
theorem bitsOf_eq_sum (l : List Bool) : bitsOf l = (l.zipIdx.map (fun b => if b.1 then 2 ^ b.2 else 0)).sum := by
  have shifted : ∀ (l : List Bool) (k : Nat), 2 ^ k * bitsOf l = ((l.zipIdx k).map (fun b => if b.1 then 2 ^ b.2 else 0)).sum := by
    intro l
    induction l with
    | nil => intro k; rfl
    | cons b l ih =>
      intro k
      rw [List.zipIdx_cons, List.map_cons, List.sum_cons, ← ih, bitsOf, Nat.mul_add, ← Nat.mul_assoc, ← Nat.pow_succ]
      cases b <;> simp [codeBool]
  simpa using shifted l 0

theorem queueState_eq (p : Part) (i : Nat) : queueState p i = if i = 0 ∧ p.os.next.isSome then 2 else 1 := by
  simp only [queueState, isNext_iff]

/-! ## READ ORDER (R68) -/

section ReadOrder

variable {p : Part} {tag page i : Nat} {o : Order} {r : Region}

theorem readOrderOf_noPage (h : 2 < page) : readOrderOf [tag, page] p = refuse .badArg p := if_pos h

theorem readOrderOf_unheld (small : page ≤ 2) (h : tagHeld p tag = false) : readOrderOf [tag, page] p = refuse .notFound p := by
  obtain ⟨queue, regions⟩ := tagHeld_eq_false.1 h
  simp only [readOrderOf, if_neg (Nat.not_lt.2 small), queue, regions]

theorem readOrderOf_queued (h : queuedAt p tag = some (i, o)) :
    readOrderOf [tag, 0] p = okWith (orderFields o (queueState p i) ++ nextFields p i) p := by
  simp only [readOrderOf, h]
  rfl

theorem readOrderOf_queued_page (h : queuedAt p tag = some (i, o)) (later : page = 1 ∨ page = 2) :
    readOrderOf [tag, page] p = refuse .state p := by
  have small : ¬2 < page := by omega
  have notFirst : page ≠ 0 := by omega
  simp only [readOrderOf, if_neg small, h, if_neg notFirst]

theorem readOrderOf_region (h : queuedAt p tag = none) (found : regionOf p tag = some r) (order : r.order = some o) (small : page ≤ 2) :
    readOrderOf [tag, page] p =
      if page = 0 then okWith (orderFields o (regionState r) ++ opt32 none ++ opt32 none) p
      else if page = 1 then okWith (regionPage r o) p
      else okWith (r.culled.toList.flatMap w32) p := by
  simp only [readOrderOf, if_neg (Nat.not_lt.2 small), h, found, order]

theorem regionPage_eq (r : Region) (o : Order) :
    regionPage r o = w64 r.start ++ opt64 r.stop ++ present32 r.first ++ present32 r.last ++ flag r.swap ++ w32 r.countdown
      ++ w32 (bitsOf [r.short, r.withdrawn, r.gradeLate]) ++ w32 r.attributed ++ w32 r.good ++ w32 r.stacked ++ w32 r.missing
      ++ opt32 (if r.stop = none then some o.target else none) ++ opt64 (if r.stop = none then r.change else none)
      ++ opt32 (if r.stop = none then some (codeBool r.deferred) else none) := by
  simp only [regionPage, Option.isNone_iff_eq_none]

end ReadOrder

/-! ## READ QUEUE and READ COMPLETION (R67, R69) -/

section ReadQueue

variable {p : Part} {i n : Nat} {o : Order}

theorem readQueuePart_orders_beyond (h : 23 < i) : readQueuePart [0, i] p = refuse .badArg p := if_pos h

theorem readQueuePart_none (small : i ≤ 23) (h : p.os.queue.length ≤ i) :
    readQueuePart [0, i] p = okWith (w32 p.os.queue.length ++ opt32 none) p := by
  simp only [readQueuePart, if_neg (Nat.not_lt.2 small), List.getElem?_eq_none h]

theorem readQueuePart_order (small : i ≤ 23) (h : p.os.queue[i]? = some o) :
    readQueuePart [0, i] p
      = okWith (w32 p.os.queue.length ++ orderFields o (queueState p i) ++ opt32 (nextIndex i 1 p.os.queue.length)) p := by
  simp only [readQueuePart, if_neg (Nat.not_lt.2 small), h]

theorem readQueuePart_regions_beyond (h : 5 < i) : readQueuePart [1, i] p = refuse .badArg p := if_pos h

theorem readQueuePart_regions (small : i ≤ 5) :
    readQueuePart [1, i] p = okWith (w32 p.os.regions.length ++ ((p.os.regions.drop i).take 2).flatMap regionSummary
      ++ opt32 (nextIndex i ((p.os.regions.drop i).take 2).length p.os.regions.length)) p := if_neg (Nat.not_lt.2 small)

theorem readQueuePart_unknown (h : 1 < n) : readQueuePart [n, i] p = refuse .badArg p := by
  unfold readQueuePart
  split
  · rename_i e
    cases e
    omega
  · rename_i e
    cases e
    omega
  · rfl

theorem takeCompletion_oldest {c : Completion} {rest : List Completion} (h : p.os.log = c :: rest) :
    takeCompletion [] p = okWith (completionFields c) { p with os := { p.os with log := rest } } := by
  simp only [takeCompletion, h]

theorem takeCompletion_empty (h : p.os.log = []) : takeCompletion [] p = refuse .notFound p := by
  simp only [takeCompletion, h]

end ReadQueue

/-! ## Completion (R66, R67) -/

section Complete

variable {p : Part} {r : Region} {rest : List Region} {o : Order}

theorem queued_eq_false : queued p r = false ↔ ∀ o, r.order = some o → ∀ c ∈ p.sc.cuts, c.tag ≠ o.tag := by
  unfold queued
  cases r.order <;> simp

theorem queued_iff : queued p r = true ↔ ∃ o, r.order = some o ∧ ∃ c ∈ p.sc.cuts, c.tag = o.tag := by
  unfold queued
  cases r.order <;> simp

theorem completeRegions_stays (list : p.os.regions = r :: rest) (h : r.ended = false ∨ queued p r = true) : completeRegions p = p := by
  have stays : (r.ended && !queued p r) = false := by
    rcases h with h | h <;> simp [h]
  simp only [completeRegions, list, List.length_cons, completeTimes, stays, Bool.false_eq_true, if_false]

/-- The log with a record behind the latest ones (R67). -/
def logWith (c : Completion) (l : List Completion) : List Completion := (if 16 ≤ l.length then l.tail else l) ++ [c]

theorem logWith_eq (c : Completion) (l : List Completion) : logWith c l = (if l.length < 16 then l else l.tail) ++ [c] := by
  simp only [logWith, ← Nat.not_lt, ite_not]

theorem writeRecord_eq (c : Completion) (p : Part) :
    writeRecord c p = postNotice (.orderDone c.tag c.short c.withdrawn c.gradeLate c.aborted)
      (if 16 ≤ p.os.log.length then latch .completionLost { p with os := { p.os with log := logWith c p.os.log } }
       else { p with os := { p.os with log := logWith c p.os.log } }) := by
  by_cases full : 16 ≤ p.os.log.length
  · have isFull : decide (Config.completionCap ≤ p.os.log.length) = true := decide_eq_true full
    simp only [writeRecord, isFull, logWith, if_pos full, if_true]
  · have notFull : decide (Config.completionCap ≤ p.os.log.length) = false := decide_eq_false full
    simp only [writeRecord, notFull, logWith, if_neg full, Bool.false_eq_true, if_false]

/-- A record in the log, but for the posts (R66, R67). -/
theorem posted_writeRecord (c : Completion) (p : Part) :
    Posted { p with os := { p.os with log := logWith c p.os.log } } (writeRecord c p) := by
  rw [writeRecord_eq]
  split
  · exact (posted_latch _ _).trans (posted_postNotice _ _)
  · exact posted_postNotice _ _

theorem writeRecord_latches (c : Completion) (full : 16 ≤ p.os.log.length) : (alarmOf (writeRecord c p) .completionLost).latch = true := by
  rw [writeRecord_eq, if_pos full]
  exact (posted_postNotice _ _).latches _ (latch_sets _ _)

theorem completeFirst_waste (waste : r.order = none) : completeFirst r rest p = setRegions p rest := by
  simp only [completeFirst, waste]

theorem completeFirst_order {stop : Nat} (order : r.order = some o) (ended : r.stop = some stop) :
    completeFirst r rest p = writeRecord (recordOf r o (stop - r.start) false) (dropRef o.slot (setRegions p rest)) := by
  simp only [completeFirst, order, ended, Option.getD_some]

theorem completeFirst_regions (r : Region) (rest : List Region) (p : Part) : (completeFirst r rest p).os.regions = rest := by
  unfold completeFirst
  split
  · rfl
  · rw [(posted_writeRecord _ _).os]
    exact congrArg Os.regions (changeRefs_os _ _ _)

theorem lookupAll_regions (p : Part) : (lookupAll p).os.regions.length = p.os.regions.length := by
  simpa using congrArg List.length (Bare.refl p).thenLookupAll.regs

/-- A removal starts the test for the next region, and then the commitment check (R54, R66). -/
theorem completeRegions_removes (list : p.os.regions = r :: rest) (ended : r.ended = true) (gone : queued p r = false) :
    completeRegions p = commitCheck (completeRegions (lookupAll (completeFirst r rest p))) := by
  have removes : (r.ended && !queued p r) = true := by rw [ended, gone]; rfl
  have left : (lookupAll (completeFirst r rest p)).os.regions.length = rest.length := by rw [lookupAll_regions, completeFirst_regions]
  simp only [completeRegions, list, List.length_cons, completeTimes, removes, if_true, left]

/-- What the completion of an ORDER region leaves (R44, R66, R67). -/
theorem completeFirst_effects {stop : Nat} (order : r.order = some o) (ended : r.stop = some stop) :
    let t := completeFirst r rest p
    let record := recordOf r o (stop - r.start) false
    t.os.regions = rest ∧ t.os.log = logWith record p.os.log
      ∧ (16 ≤ p.os.log.length → (alarmOf t .completionLost).latch = true) ∧ t.bc = (dropRef o.slot (setRegions p rest)).bc
      ∧ t.wt = p.wt ∧ t.sc = p.sc ∧ t.dec = p.dec ∧ t.os.queue = p.os.queue := by
  intro t record
  have written : t = writeRecord record (dropRef o.slot (setRegions p rest)) := completeFirst_order order ended
  have posted := posted_writeRecord record (dropRef o.slot (setRegions p rest))
  have os : (dropRef o.slot (setRegions p rest)).os = { p.os with regions := rest } := changeRefs_os _ _ _
  refine ⟨completeFirst_regions r rest p, ?_, fun full => ?_, ?_, ?_, ?_, ?_, ?_⟩
  · rw [written, posted.os, os]
  · rw [written]
    exact writeRecord_latches record (by rw [os]; exact full)
  · rw [written, posted.bc]
  · rw [written, posted.wt]
    exact changeRefs_wt _ _ _
  · rw [written, posted.sc]
    exact changeRefs_sc _ _ _
  · rw [written, posted.dec]
    exact changeRefs_dec _ _ _
  · rw [written, posted.os, os]

end Complete

/-! ## Settling O32 -/

section Answers

variable {s : State} {r : Request} {a b : Nat} {st : Status} {l : List Byte} {q : Part}

theorem readOrder_answered (asks : Asks s.part 41 [4, 4] [a, b] r)
    (h : readOrderOf [a, b] (popRequest s.part) = { part := q, status := st, results := l }) :
    exec .readOrder s = Answered s r st l q := onPart_serve_of_asks asks rfl h

theorem readQueue_answered (asks : Asks s.part 42 [4, 4] [a, b] r)
    (h : readQueuePart [a, b] (popRequest s.part) = { part := q, status := st, results := l }) :
    exec .readQueue s = Answered s r st l q := onPart_serve_of_asks asks rfl h

theorem readCompletion_answered (asks : Asks s.part 43 [] [] r)
    (h : takeCompletion [] (popRequest s.part) = { part := q, status := st, results := l }) :
    exec .readCompletion s = Answered s r st l q := onPart_serve_of_asks asks rfl h

end Answers

/-- Settles O32: the three reads by what is asked for, then the test for completion and one removal. -/
theorem orderReads : Obligations.OrderReads := by
  refine ⟨?reads, fun p x rest list => ⟨fun stays => completeRegions_stays list (stays.imp id queued_iff.2), fun ended gone => completeRegions_removes list ended (queued_eq_false.2 gone)⟩,
    fun p x rest => ⟨completeFirst_waste, ?removal⟩⟩
  case reads =>
    intro s r p orderRecord ofNext more summary flags page1 completion
    refine ⟨fun tag page asks => ⟨fun large => ?_, fun small unheld => ?_, fun i o queue => ⟨fun first => ?_, fun later => ?_⟩,
      fun x o queue found order => ⟨fun first => ?_, fun second => ?_, fun third => ?_⟩⟩, ?orders, ?regions,
      fun n i large asks => readQueue_answered asks (readQueuePart_unknown large), fun c rest asks log => ?oldest,
      fun asks empty => readCompletion_answered asks (takeCompletion_empty empty)⟩
    · exact readOrder_answered asks (readOrderOf_noPage large)
    · exact readOrder_answered asks (readOrderOf_unheld small unheld)
    · subst first
      refine readOrder_answered asks ((readOrderOf_queued (p := popRequest s.part) queue).trans ?_)
      rw [queueState_eq]
      rfl
    · exact readOrder_answered asks (readOrderOf_queued_page queue later)
    · subst first
      exact readOrder_answered asks (readOrderOf_region queue found order (Nat.zero_le 2))
    · subst second
      refine readOrder_answered asks ((readOrderOf_region (p := popRequest s.part) queue found order (Nat.le_succ 1)).trans ?_)
      rw [regionPage_eq, bitsOf_eq_sum]
      rfl
    · subst third
      exact readOrder_answered asks (readOrderOf_region queue found order (Nat.le_refl 2))
    case orders =>
      intro i asks total
      refine ⟨fun large => ?_, fun small beyond => ?_, fun o small here => ?_⟩
      · exact readQueue_answered asks (readQueuePart_orders_beyond large)
      · exact readQueue_answered asks (readQueuePart_none small beyond)
      · refine readQueue_answered asks ((readQueuePart_order (p := popRequest s.part) small here).trans ?_)
        rw [queueState_eq]
        rfl
    case regions =>
      intro i asks items
      exact ⟨fun large => readQueue_answered asks (readQueuePart_regions_beyond large), fun small => readQueue_answered asks (readQueuePart_regions small)⟩
    case oldest =>
      refine readCompletion_answered asks ((takeCompletion_oldest (p := popRequest s.part) log).trans ?_)
      rw [completionFields, bitsOf_eq_sum]
      rfl
  case removal =>
    intro o stop order ended t record
    obtain ⟨regions, log, latches, bc, wt, sc, dec, queue⟩ := completeFirst_effects (p := p) (rest := rest) order ended
    refine ⟨regions, log.trans (logWith_eq _ _), latches, fun i place => ?_, wt, sc, dec, queue, ?_⟩
    · show t.bc = _
      rw [bc, dropRef_of_place place]
      rfl
    · have os : (dropRef o.slot (setRegions p rest)).os = { p.os with regions := rest } := changeRefs_os _ _ _
      show t = _
      rw [show t = _ from completeFirst_order order ended, writeRecord_eq, os]
      rfl

end Sys2Proof.Machine
end

section
/-! The stands: their feeders and numbers, their settings, what remains of a running reel and the run-out standing, and O33 and O35 (R71, R72, R77 to R81). -/

namespace Sys2Proof.Machine

/-! ## The stands' numbers (R71) -/

section Numbers

variable {p : Part} {s : Fin 5}

theorem place_eq_none {n k : Nat} : place n k = none ↔ k < 1 ∨ n < k := by
  unfold place
  split
  · simp only [reduceCtorEq, false_iff]
    omega
  · simp only [true_iff]
    omega

theorem standInUse_iff : standInUse p s = true ↔ p.wt.line = .double ∨ s = 0 ∨ s = 1 ∨ s = 4 := by
  have numbers : s.val < 2 ∨ s.val = 4 ↔ s = 0 ∨ s = 1 ∨ s = 4 := by
    revert s
    decide
  simp only [standInUse, Bool.or_eq_true, decide_eq_true_eq, or_assoc, numbers]

/-- Stands 1 and 2 stand at feeder 1, stands 3 and 4 at feeder 2. -/
theorem standFeeder_eq (s : Fin 5) : standFeeder s = if s = 0 ∨ s = 1 then some 0 else if s = 2 ∨ s = 3 then some 1 else none := by
  revert s
  decide

theorem standRef_eq (p : Part) (s : Fin 5) : standRef p s = if s = 0 ∨ s = 1 then posF p 0 else if s = 2 ∨ s = 3 then posF p 1 else posB p := by
  rw [standRef, standFeeder_eq]
  split_ifs <;> rfl

/-- A stand's point and speed where it has a feeder (R3, R71). -/
theorem standPoint_feeder {f : Fin 2} (h : standFeeder s = some f) :
    standPoint p s = ((posF p f : Int) + offset p (.stand s) + bridgeK p f).toNat ∧ standSpeed p s = (p.wt.feeders.get f).speed := by
  simp only [standPoint, standSpeed, h, coord, and_self]

/-- Stand 5 stands at the board (R71). -/
theorem standPoint_board (h : standFeeder s = none) : standPoint p s = posB p + offset p (.stand s) ∧ standSpeed p s = lineSpeed p := by
  simp only [standPoint, standSpeed, h, boardPoint, and_self]

end Numbers

/-! ## SET STAND (R72) -/

section Settings

variable {p : Part} {n time speed reserve arming pre post margin : Nat}

/-- A stand with its settings stored, each clamped to its range. -/
def Stand.configure (st : Stand) (time speed reserve arming pre post margin : Nat) : Stand :=
  { st with
      spliceTime := min 20000 (max 500 time), maxSpeed := min 100000 (max 5000 speed), reserve := min 5000000 reserve,
      arming := min 10000000 arming, preCull := min 50000 pre, postCull := min 50000 post, margin := min 1000000 margin }

/-- A stand's settings as the reply of SET STAND gives them. -/
def Stand.settings (st : Stand) : List Byte :=
  w32 st.spliceTime ++ w32 st.maxSpeed ++ w32 st.reserve ++ w32 st.arming ++ w32 st.preCull ++ w32 st.postCull ++ w32 st.margin

theorem setStandSettings_ok {s : Fin 5} (h : place 5 n = some s) :
    setStandSettings [n, time, speed, reserve, arming, pre, post, margin] p
      = okWith ((standOf p s).configure time speed reserve arming pre post margin).settings
          (setStandRec p s ((standOf p s).configure time speed reserve arming pre post margin)) := by
  simp only [setStandSettings, h]
  rfl

theorem setStandSettings_refused (h : place 5 n = none) :
    setStandSettings [n, time, speed, reserve, arming, pre, post, margin] p = refuse .badArg p := by
  simp only [setStandSettings, h]

end Settings

/-- Settles O33: the rule's answer for one of the five stands, and for any other number. -/
theorem standSettingsAreClamped : Obligations.StandSettingsAreClamped := by
  intro s r n time speed reserve arming pre post margin config asks
  have taken : (Taken.only .config).allows s.part.mu.mode = true := by rw [config]; rfl
  exact ⟨fun outside => onPart_serve_of_asks asks taken (setStandSettings_refused (place_eq_none.2 outside)),
    fun i known => ⟨(standOf s.part i).configure time speed reserve arming pre post margin,
      onPart_serve_of_asks asks taken (setStandSettings_ok known), rfl⟩⟩

/-! ## The remaining length (R77 to R79) -/

section Remaining

variable {p : Part} {s : Fin 5}

theorem meanNat_nil : meanNat [] = none := rfl

theorem meanNat_of_ne {l : List Nat} (h : l ≠ []) : meanNat l = some (l.sum / l.length) := by
  rw [meanNat, if_neg (by simpa using h)]

theorem Stand.remaining_empty {st : Stand} (h : st.history = []) : st.remaining = none := by
  unfold Stand.remaining
  rw [h, meanNat_nil]
  cases st.running <;> rfl

theorem Stand.remaining_known {st : Stand} {w : Arm} {core caliper : Nat} (running : st.running = some w) (c : (st.arm w).core = some core)
    (k : (st.arm w).caliper = some caliper) (h : st.history ≠ []) :
    st.remaining = some (reelLength (st.history.sum / st.history.length) core caliper) := by
  simp only [Stand.remaining, running, meanNat_of_ne h, c, k]

theorem effective_fresh (h : inputStale p (.standDia s) = false) : effective p s = (standOf p s).remaining := by
  simp only [effective, h, Bool.false_eq_true, if_false]

theorem effective_stale (h : inputStale p (.standDia s) = true) :
    effective p s = (standOf p s).reckon.map (fun x => x.1 - (standRef p s - x.2)) := by
  simp only [effective, h, if_true]
  cases (standOf p s).reckon <;> rfl

end Remaining

/-! ## The run-out standing (R81) -/

section RunOut

variable {p : Part} {s : Fin 5} {x : Nat}

theorem standing_unknown (h : effective p s = none) : standing p s = .unknown := by
  simp only [standing, h]

theorem standing_known (h : effective p s = some x) :
    standing p s = if x ≤ (standOf p s).reserve + lead p s then .due
      else if x ≤ (standOf p s).reserve + lead p s + (standOf p s).arming then .near else .far := by
  simp only [standing, h]

theorem standing_far_iff (h : effective p s = some x) :
    standing p s = .far ↔ (standOf p s).reserve + lead p s + (standOf p s).arming < x := by
  rw [standing_known h]
  split_ifs <;> simp only [false_iff, true_iff] <;> omega

theorem standing_near_iff (h : effective p s = some x) :
    standing p s = .near ↔ (standOf p s).reserve + lead p s < x ∧ x ≤ (standOf p s).reserve + lead p s + (standOf p s).arming := by
  rw [standing_known h]
  split_ifs <;> simp only [false_iff, true_iff] <;> omega

theorem standing_due_iff (h : effective p s = some x) : standing p s = .due ↔ x ≤ (standOf p s).reserve + lead p s := by
  rw [standing_known h]
  split_ifs <;> simp only [false_iff, true_iff] <;> omega

end RunOut

/-- Settles O35: the lead is rounded up, and the three standings divide the lengths that remain. -/
theorem runOutStanding : Obligations.RunOutStanding := by
  intro p s
  exact ⟨ceilDiv_bounds (by decide), standing_unknown, fun x known => ⟨standing_far_iff known, standing_near_iff known, standing_due_iff known⟩⟩

end Sys2Proof.Machine
end

section
/-! The stand evaluation stage by stage, the plans, the GO and the SPLICE contribution, and O36 (R80, R82 to R84, R90 to R92, R95). -/

namespace Sys2Proof.Machine

/-! ## The stages of an evaluation (R80, R82, R91, R92) -/

section Stages

variable {p : Part} {s : Fin 5}

theorem evalStand_run (run : p.mu.mode = .run) (used : standInUse p s = true) :
    evalStand s p = writeSplice s (settleSplice s
      (decideGo s (testTrigger s (testHopeless s (testExhausted s p))).2 (testTrigger s (testHopeless s (testExhausted s p))).1)) := by
  unfold evalStand
  rw [inRun_run run, used, Bool.and_self, if_pos rfl]

theorem evalStand_unused (unused : standInUse p s = false) : evalStand s p = p := by
  unfold evalStand
  rw [unused, Bool.and_false]
  rfl

theorem testExhausted_first (h : effective p s = some 0 ∧ (standOf p s).exhausted = false) :
    testExhausted s p = latch .reelExhausted (setStandRec p s { standOf p s with exhausted := true }) := by
  unfold testExhausted
  rw [if_pos (by simpa using h)]

theorem testExhausted_else (h : ¬(effective p s = some 0 ∧ (standOf p s).exhausted = false)) : testExhausted s p = p := by
  unfold testExhausted
  rw [if_neg (by simpa using h)]

theorem testHopeless_none (h : (standOf p s).plan = none) : testHopeless s p = p := by
  simp only [testHopeless, h]

theorem testTrigger_none (h : (standOf p s).plan = none) : testTrigger s p = (p, false) := by
  simp only [testTrigger, h]

section Planned

variable {pl : Plan} (held : (standOf p s).plan = some pl)
include held

theorem testHopeless_cancels (h : hopeless p s pl = true) :
    testHopeless s p = latch .gradeNotReady (setGradeLate pl.tag (setStandRec p s { standOf p s with plan := none })) := by
  simp only [testHopeless, held, h, if_true]

theorem testHopeless_keeps (h : hopeless p s pl = false) : testHopeless s p = p := by
  simp only [testHopeless, held, h, Bool.false_eq_true, if_false]

theorem testTrigger_reaches (waiting : pl.reached = false) (h : pl.target ≤ standPoint p s + lead p s) :
    testTrigger s p = (setStandRec p s { standOf p s with plan := some { pl with reached := true } }, true) := by
  simp only [testTrigger, held, waiting, triggerReached, decide_eq_true h, Bool.not_false, Bool.and_self, if_true]

theorem testTrigger_else (h : pl.reached = true ∨ standPoint p s + lead p s < pl.target) : testTrigger s p = (p, false) := by
  have rests : (!pl.reached && triggerReached p s pl) = false := by
    simpa [triggerReached, or_iff_not_imp_left] using h
  simp only [testTrigger, held, rests, Bool.false_eq_true, if_false]

end Planned

/-- A plan is hopeless once no region has its order's tag, or the first that has is committed to an end the stand has reached (R92). -/
theorem hopeless_iff {pl : Plan} :
    hopeless p s pl = true ↔ (∀ x ∈ p.os.regions, x.order.map Order.tag ≠ some pl.tag) ∨
      ∃ before x after e, p.os.regions = before ++ x :: after ∧ (∀ y ∈ before, y.order.map Order.tag ≠ some pl.tag)
        ∧ x.order.map Order.tag = some pl.tag ∧ x.stop = some e ∧ e ≤ standPoint p s := by
  have absent : regionOf p pl.tag = none ↔ ∀ x ∈ p.os.regions, x.order.map Order.tag ≠ some pl.tag := by
    simp [regionOf]
  have ended : hopeless p s pl = true ↔ regionOf p pl.tag = none ∨ ∃ x e, regionOf p pl.tag = some x ∧ x.stop = some e ∧ e ≤ standPoint p s := by
    unfold hopeless
    cases regionOf p pl.tag with
    | none => simp
    | some x => cases h : x.stop <;> simp [h]
  rw [ended, absent]
  refine or_congr_right ⟨?_, ?_⟩
  · rintro ⟨x, e, found, stop, le⟩
    obtain ⟨before, after, list, tagged, others⟩ := regionOf_eq_some.1 found
    exact ⟨before, x, after, e, list, others, tagged, stop, le⟩
  · rintro ⟨before, x, after, e, list, others, tagged, stop, le⟩
    exact ⟨x, e, regionOf_eq_some.2 ⟨before, after, list, tagged, others⟩, stop, le⟩

theorem setGradeLate_eq (tag : Nat) (p : Part) :
    setGradeLate tag p
      = setRegions p (p.os.regions.map (fun x => if x.order.map Order.tag = some tag then { x with gradeLate := true } else x)) :=
  modifyRegion_eq tag _ p

theorem standing_close_iff {x : Standing} : x.close = true ↔ x = .near ∨ x = .due := by
  simp only [Standing.close, Bool.or_eq_true, decide_eq_true_eq]

theorem settleSplice_armed (rests : (standOf p s).splice = .idle ∨ (standOf p s).splice = .armed)
    (h : standing p s = .near ∨ standing p s = .due ∨ (standOf p s).plan.isSome = true) :
    settleSplice s p = setStandRec p s { standOf p s with splice := .armed } := by
  have close : ((standing p s).close || (standOf p s).plan.isSome) = true := by
    rwa [Bool.or_eq_true, standing_close_iff, or_assoc]
  simp only [settleSplice, if_pos rests, if_pos close]

theorem settleSplice_idle (rests : (standOf p s).splice = .idle ∨ (standOf p s).splice = .armed)
    (h : ¬(standing p s = .near ∨ standing p s = .due ∨ (standOf p s).plan.isSome = true)) :
    settleSplice s p = setStandRec p s { standOf p s with splice := .idle } := by
  have far : ¬((standing p s).close || (standOf p s).plan.isSome) = true := by
    rwa [Bool.or_eq_true, standing_close_iff, or_assoc]
  simp only [settleSplice, if_pos rests, if_neg far]

theorem settleSplice_inFlight (h : (standOf p s).splice = .sent ∨ (standOf p s).splice = .active) : settleSplice s p = p := by
  unfold settleSplice
  dsimp only
  rw [if_neg]
  rcases h with h | h <;> simp [h]

end Stages

/-! ## Arming a plan (R90) -/

section Arm

variable {p : Part} {s : Fin 5} {o : Order} {start : Nat}

/-- The web of a stand in use does not have, at the region's start, the grade that the order requires. -/
def WrongGrade (p : Part) (s : Fin 5) (o : Order) (start : Nat) : Prop :=
  o.grades.get s ≠ 0 ∧ webGrade p s start ≠ o.grades.get s ∧ standInUse p s = true

theorem armPlan_right (h : ¬WrongGrade p s o start) : armPlan s o start p = p := if_neg h

theorem armPlan_arms (h : WrongGrade p s o start) (free : (standOf p s).plan = none) :
    armPlan s o start p = evalStand s (setStandRec p s
      { standOf p s with
          plan := some { grade := o.grades.get s, tag := o.tag, target := start - (standOf p s).margin, reached := false } }) := by
  unfold WrongGrade at h
  unfold armPlan
  dsimp only
  rw [if_pos h, free]

theorem armPlan_late (h : WrongGrade p s o start) (held : (standOf p s).plan.isSome = true) :
    armPlan s o start p = setGradeLate o.tag (latch .gradeNotReady p) := by
  obtain ⟨pl, e⟩ := Option.isSome_iff_exists.1 held
  unfold WrongGrade at h
  unfold armPlan
  dsimp only
  rw [if_pos h, e]

end Arm

/-! ## The GO (R83, R95) -/

section Go

variable {p : Part} {s : Fin 5} {w : Arm}

theorem Stand.readyArm_eq_some {st : Stand} {w : Arm} : st.readyArm = some w ↔ ∃ v, st.running = some v ∧ w = v.other := by
  simp only [Stand.readyArm, Option.map_eq_some_iff, eq_comm (a := w)]

theorem goArm_eq_some {st : Stand} {w : Arm} :
    goArm st = some w ↔ (st.splice = .idle ∨ st.splice = .armed) ∧ st.awaiting = false ∧ (∃ v, st.running = some v ∧ w = v.other)
      ∧ (st.arm w).state = .prepared := by
  rw [← Stand.readyArm_eq_some]
  unfold goArm
  cases st.readyArm with
  | none => simp
  | some v =>
    simp only [Option.ite_none_right_eq_some, Option.some.injEq]
    constructor
    · rintro ⟨⟨free, told⟩, prepared, rfl⟩
      exact ⟨free, told, rfl, prepared⟩
    · rintro ⟨free, told, rfl, prepared⟩
      exact ⟨⟨free, told⟩, prepared, rfl⟩

theorem plannedGo_iff {st : Stand} {w : Arm} :
    plannedGo st w = true ↔ ∃ pl, st.plan = some pl ∧ pl.reached = true ∧ (st.arm w).grade = pl.grade := by
  unfold plannedGo
  cases st.plan <;> simp

/-- The part as a decision finds it, with SPLICE_NOT_READY latched where the trigger has just been reached (R91). -/
def firstReached (first : Bool) (p : Part) : Part := if first = true then latch .spliceNotReady p else p

theorem posted_firstReached (first : Bool) (p : Part) : Posted p (firstReached first p) := by
  unfold firstReached
  split
  · exact posted_latch _ p
  · exact .refl p

theorem standing_firstReached (first : Bool) (p : Part) (s : Fin 5) : standing (firstReached first p) s = standing p s :=
  (posted_firstReached first p).sameStand.standing

theorem decideGo_none (first : Bool) (h : goArm (standOf p s) = none) : decideGo s first p = firstReached first p := by
  simp only [decideGo, h, firstReached]

section Named

variable (named : goArm (standOf p s) = some w)
include named

theorem decideGo_planned (first : Bool) (h : plannedGo (standOf p s) w = true) : decideGo s first p = postGo s w p := by
  simp only [decideGo, named, h, if_true]

theorem decideGo_unplanned (first : Bool) (h : ¬plannedGo (standOf p s) w = true) :
    decideGo s first p = if standing p s = .due then postGo s w (firstReached first p) else firstReached first p := by
  have same : decideGo s first p
      = if standing (firstReached first p) s = .due then postGo s w (firstReached first p) else firstReached first p := by
    simp only [decideGo, named, if_neg h]
    rfl
  rw [same, standing_firstReached]

end Named

/-- The stand's record as a GO to an arm leaves it, but for the ACCEPTED limit (R95). -/
def Stand.sendGo (st : Stand) (w : Arm) : Stand :=
  { st with splice := .sent, nextSeq := st.nextSeq + 1, acceptBy := none, doneBy := none,
            recent := some { seq := st.nextSeq, arm := w, grade := (st.arm w).grade, isOpen := true } }

/-- A GO's post, in the part whose stand has sent it. -/
def postedGo (s : Fin 5) (w : Arm) (p : Part) : Part × Placed :=
  postSequence (.go s w (standOf p s).nextSeq) (setStandRec p s ((standOf p s).sendGo w))

/-- A posted GO waits for the urgent queue, or the ACCEPTED limit runs (R95). -/
theorem postGo_cases (s : Fin 5) (w : Arm) (p : Part) :
    (postedGo s w p).2 = .waiting ∧ postGo s w p = (postedGo s w p).1 ∨
      (postedGo s w p).2 ≠ .waiting ∧ postGo s w p
        = setStandRec (postedGo s w p).1 s { standOf (postedGo s w p).1 s with acceptBy := some (p.time + 200) } := by
  unfold postGo
  dsimp only
  split
  · rename_i waits
    exact .inl ⟨waits, rfl⟩
  · rename_i sent
    exact .inr ⟨sent, rfl⟩

theorem postedGo_stand (s : Fin 5) (w : Arm) (p : Part) :
    standOf (postedGo s w p).1 s = { (standOf p s).sendGo w with acceptBy := (standOf (postedGo s w p).1 s).acceptBy } := by
  have kept := (posted_postSequence (.go s w (standOf p s).nextSeq) (setStandRec p s ((standOf p s).sendGo w))).stands s
  rwa [standOf_setStandRec_same] at kept

theorem postGo_stand (s : Fin 5) (w : Arm) (p : Part) : ∃ limit, standOf (postGo s w p) s = { (standOf p s).sendGo w with acceptBy := limit } := by
  rcases postGo_cases s w p with ⟨_, e⟩ | ⟨_, e⟩
  · exact ⟨_, e ▸ postedGo_stand s w p⟩
  · refine ⟨some (p.time + 200), ?_⟩
    rw [e, standOf_setStandRec_same, postedGo_stand]

theorem onItsWay_postGo {e : OutEntry} (h : outEntry p (.splicer s) = some e) :
    OnItsWay (postGo s w p) (.command (.go s w (standOf p s).nextSeq) e.node e.channel) := by
  have sent : OnItsWay (postedGo s w p).1 (.command (.go s w (standOf p s).nextSeq) e.node e.channel) := onItsWay_postSequence h
  rcases postGo_cases s w p with ⟨_, same⟩ | ⟨_, same⟩
  · rwa [same]
  · rw [same]
    exact sent.rif rfl rfl

theorem postGo_unbound (h : outEntry p (.splicer s) = none) :
    (standOf (postGo s w p) s).acceptBy = some (p.time + 200) ∧ (postGo s w p).rif = p.rif := by
  have discarded : postedGo s w p = (setStandRec p s ((standOf p s).sendGo w), .discarded) := by
    have unbound : outEntry (setStandRec p s ((standOf p s).sendGo w)) (Command.go s w (standOf p s).nextSeq).output = none := h
    simp only [postedGo, postSequence, unbound]
  rcases postGo_cases s w p with ⟨waits, _⟩ | ⟨_, same⟩
  · rw [discarded] at waits
    cases waits
  · rw [same, discarded]
    exact ⟨by rw [standOf_setStandRec_same], rfl⟩

end Go

/-! ## An evaluation that sends (R83) -/

section Sends

variable {p : Part} {s : Fin 5}

/-- The part as an evaluation's decision on a GO finds it, and whether the trigger has just been reached. -/
def tested (s : Fin 5) (p : Part) : Part × Bool := testTrigger s (testHopeless s (testExhausted s p))

theorem sameStand_tested (s : Fin 5) (p : Part) : SameStand s p (tested s p).1 :=
  ((sameStand_testExhausted s p).1.trans (sameStand_testHopeless s _).1).trans (sameStand_testTrigger s _).1

/-- A REACHED plan that the tests leave was held before them, is not hopeless, and was REACHED or has reached its trigger now (R91, R92). -/
theorem plan_of_tested {pl : Plan} (h : (standOf (tested s p).1 s).plan = some pl) (reached : pl.reached = true) :
    ∃ x, (standOf p s).plan = some x ∧ hopeless p s x = false ∧ x.grade = pl.grade
      ∧ (x.reached = true ∨ x.target ≤ standPoint p s + lead p s) := by
  obtain ⟨kept, samePlan, sameOs⟩ := sameStand_testExhausted s p
  obtain ⟨left, hopeful⟩ := sameStand_testHopeless s (testExhausted s p)
  obtain ⟨x, before, grade, -, trigger⟩ := (sameStand_testTrigger s (testHopeless s (testExhausted s p))).2 pl h
  obtain ⟨plan, notLate⟩ := hopeful x before
  refine ⟨x, samePlan ▸ plan, ?_, grade.symm, ?_⟩
  · rwa [hopeless_congr kept.wt sameOs] at notLate
  · rw [← (kept.trans left).standPoint, ← (kept.trans left).lead]
    exact trigger reached

/-- An evaluation that leaves the stand SENT has posted a GO, for a run-out that is DUE or for a plan at its trigger (R83). -/
theorem evalStand_sends (before : (standOf p s).splice ≠ .sent) (after : (standOf (evalStand s p) s).splice = .sent) :
    ∃ w, goArm (standOf p s) = some w
      ∧ (standOf (evalStand s p) s).recent
          = some { seq := (standOf p s).nextSeq, arm := w, grade := ((standOf p s).arm w).grade, isOpen := true }
      ∧ (standing p s = .due ∨ ∃ pl, (standOf p s).plan = some pl ∧ hopeless p s pl = false ∧ ((standOf p s).arm w).grade = pl.grade
          ∧ (pl.reached = true ∨ pl.target ≤ standPoint p s + lead p s)) := by
  by_cases evaluates : (inRun p && standInUse p s) = true
  case neg => exact absurd (by rwa [evalStand, if_neg evaluates] at after) before
  have stages : evalStand s p = writeSplice s (settleSplice s (decideGo s (tested s p).2 (tested s p).1)) := if_pos evaluates
  rw [stages, (splice_writeSplice s _).1] at after
  rw [stages, (splice_writeSplice s _).2, (splice_settleSplice s _).2]
  have same := sameStand_tested s p
  obtain ⟨exhausted, plan, acceptBy, crawling, kept⟩ := same.stand
  obtain ⟨w, named, recent, reason⟩ := sent_decideGo (by rw [kept]; exact before) ((splice_settleSplice s _).1 after)
  have arm : (standOf (tested s p).1 s).arm w = (standOf p s).arm w := by
    rw [kept]
    cases w <;> rfl
  refine ⟨w, same.goArm ▸ named, ?_, ?_⟩
  · rw [recent, arm, kept]
  · rcases reason with planned | due
    · obtain ⟨pl, held, reached, grade⟩ := plannedGo_iff.1 planned
      obtain ⟨x, plan, hopeful, sameGrade, trigger⟩ := plan_of_tested held reached
      exact .inr ⟨x, plan, hopeful, by rw [← arm, grade, sameGrade], trigger⟩
    · exact .inl (same.standing ▸ due)

end Sends

/-! ## The SPLICE contribution (R84) -/

section Contribution

variable {p : Part} {s : Fin 5}

theorem inFlight_iff {st : Stand} : st.inFlight = true ↔ st.splice = .sent ∨ st.splice = .active := by
  simp only [Stand.inFlight, Bool.or_eq_true, decide_eq_true_eq]

theorem readyPrepared_iff {st : Stand} : st.readyPrepared = true ↔ ∃ v, st.running = some v ∧ (st.arm v.other).state = .prepared := by
  unfold Stand.readyPrepared Stand.readyArm
  cases st.running <;> simp

theorem planNear_iff :
    planNear p s = true ↔
      ∃ pl, (standOf p s).plan = some pl ∧ (pl.reached = true ∨ pl.target ≤ standPoint p s + lead p s + (standOf p s).arming) := by
  unfold planNear
  cases (standOf p s).plan <;> simp

theorem crawlCase_iff :
    crawlCase p s = true ↔ standing p s = .due ∧ ¬((standOf p s).splice = .sent ∨ (standOf p s).splice = .active)
      ∧ (standOf p s).awaiting = false ∧ ¬∃ v, (standOf p s).running = some v ∧ ((standOf p s).arm v.other).state = .prepared := by
  rw [← inFlight_iff, ← readyPrepared_iff]
  simp only [crawlCase, Bool.and_eq_true, decide_eq_true_eq, Bool.not_eq_true', Bool.not_eq_true, and_assoc]

theorem holdCase_iff :
    holdCase p s = true ↔ standing p s = .near ∨ standing p s = .due
      ∨ (∃ pl, (standOf p s).plan = some pl ∧ (pl.reached = true ∨ pl.target ≤ standPoint p s + lead p s + (standOf p s).arming))
      ∨ ((standOf p s).splice = .sent ∨ (standOf p s).splice = .active) ∨ (standOf p s).awaiting = true := by
  rw [← inFlight_iff, ← planNear_iff]
  simp only [holdCase, Bool.or_eq_true, standing_close_iff, or_assoc]

/-- The stand crawls: its contribution is the crawl speed, and SPLICE_NOT_READY is latched where it did not crawl before. -/
theorem writeSplice_crawls (h : crawlCase p s = true) :
    (writeSplice s p).sg.slots.get (Slot.splice s).idx = { active := true, value := min p.sg.crawl p.sg.lineMax }
      ∧ ((standOf p s).crawling = false → (alarmOf (writeSplice s p) .spliceNotReady).latch = true) := by
  unfold writeSplice
  dsimp only
  rw [if_pos h]
  cases crawled : (standOf p s).crawling with
  | true => exact ⟨(slotWritten_activate _ _ _).get, nofun⟩
  | false =>
    refine ⟨?_, fun _ => (slotWritten_activate _ _ _).latches _ (latch_sets _ _)⟩
    have written := (slotWritten_activate (.splice s) p.sg.crawl
      (latch .spliceNotReady (setStandRec p s { standOf p s with crawling := true }))).get
    rwa [latch_sg] at written

theorem writeSplice_holds (moves : ¬crawlCase p s = true) (h : holdCase p s = true) :
    (writeSplice s p).sg.slots.get (Slot.splice s).idx = { active := true, value := min (standOf p s).maxSpeed p.sg.lineMax } := by
  unfold writeSplice
  dsimp only
  rw [if_neg moves, if_pos h]
  exact (slotWritten_activate _ _ _).get

theorem writeSplice_free (moves : ¬crawlCase p s = true) (h : ¬holdCase p s = true) :
    (writeSplice s p).sg.slots.get (Slot.splice s).idx = { active := false, value := 0 } := by
  unfold writeSplice
  dsimp only
  rw [if_neg moves, if_neg h]
  exact (slotWritten_deactivate _ _).get

end Contribution

/-- Settles O36, each part by the lemma about its operation. -/
theorem goOnlyToPreparedReadyArm : Obligations.GoOnlyToPreparedReadyArm := by
  refine ⟨?points, fun st w => goArm_eq_some, fun p s before after => evalStand_sends before after,
    fun p s w => ⟨postGo_stand s w p, fun e bound => onItsWay_postGo bound, postGo_unbound⟩, ?contribution,
    fun p s o start => ⟨armPlan_right, armPlan_arms, armPlan_late⟩, fun p tag => setGradeLate_eq tag p, ?evaluation,
    fun p s => ⟨testExhausted_first, testExhausted_else⟩, ?plans, ?decision, fun p s => ⟨fun rests => ⟨settleSplice_armed rests, settleSplice_idle rests⟩, settleSplice_inFlight⟩⟩
  case points =>
    refine fun p s => ⟨fun first => standPoint_feeder ?_, fun second => standPoint_feeder ?_, fun last => ?_⟩
    · rw [standFeeder_eq, if_pos first]
    · rcases second with rfl | rfl <;> rfl
    · subst last
      exact standPoint_board rfl
  case contribution =>
    intro p s
    dsimp only
    rw [← crawlCase_iff, ← holdCase_iff]
    exact ⟨writeSplice_crawls, writeSplice_holds, writeSplice_free⟩
  case evaluation =>
    refine fun p s => ⟨evalStand_run, fun h => ?_⟩
    rcases h with config | unused
    · exact evalStand_config config s
    · exact evalStand_unused unused
  case plans =>
    refine fun p s => ⟨fun free => ⟨testHopeless_none free, testTrigger_none free⟩, fun pl held => ?_⟩
    refine ⟨hopeless_iff, fun late => testHopeless_cancels held (hopeless_iff.2 late), fun notLate => ?_, testTrigger_reaches held, testTrigger_else held⟩
    exact testHopeless_keeps held (Bool.eq_false_iff.2 (hopeless_iff.not.2 notLate))
  case decision =>
    intro p s first
    refine ⟨decideGo_none first, fun w named => ⟨fun planned => decideGo_planned named first (plannedGo_iff.2 planned), fun unplanned due => ?_,
      fun unplanned far => ?_⟩⟩
    · rw [decideGo_unplanned named first (plannedGo_iff.not.2 unplanned), if_pos due]
      rfl
    · rw [decideGo_unplanned named first (plannedGo_iff.not.2 unplanned), if_neg far]
      rfl

end Sys2Proof.Machine
end

section
/-! ASSIGN REEL, diameters, the arm reports and the GOs that they withdraw, and O34 (R73 to R79, R95). -/

namespace Sys2Proof.Machine

/-! ## ASSIGN REEL (R74) -/

section Assign

variable {p : Part} {n a present reel grade caliper core : Nat}

/-- An optional field that is absent, or within its range. -/
def OptionalWithin (lo hi v : Nat) : Prop := lo ≤ v ∧ v ≤ hi ∨ v = 4294967295

theorem optionalField_eq (lo hi v : Nat) :
    optionalField lo hi v = if v = 4294967295 then some none else if within lo hi v then some (some v) else none := rfl

theorem optionalField_ok {lo hi v : Nat} (h : OptionalWithin lo hi v) :
    optionalField lo hi v = some (if v = 4294967295 then none else some v) := by
  rw [optionalField_eq]
  split
  · rfl
  · rename_i given
    rw [if_pos (within_iff.2 (h.resolve_right given))]

theorem optionalField_refused {lo hi v : Nat} (h : ¬OptionalWithin lo hi v) : optionalField lo hi v = none := by
  obtain ⟨outside, given⟩ := not_or.1 h
  rw [optionalField_eq, if_neg given, if_neg (within_iff.not.2 outside)]

/-- The fields of an ASSIGN REEL are in range. -/
def ReelRanges (present grade caliper core : Nat) : Prop :=
  OptionalWithin 80 800 caliper ∧ OptionalWithin 800 2500 core ∧ present ≤ 1 ∧ grade ≤ 65535

/-- An arm's record with the reel of an ASSIGN REEL. -/
def ArmRecord.assigned (r : ArmRecord) (present reel grade caliper core : Nat) : ArmRecord :=
  { state := r.state, reel := if present = 1 then some reel else none, grade := grade,
    caliper := if caliper = 4294967295 then none else some caliper, core := if core = 4294967295 then none else some core }

/-- A legal ASSIGN REEL rests on the arm's state alone. -/
theorem assignReelTo_legal {s : Fin 5} {w : Arm} (stand : place 5 n = some s) (arm : armOf a = some w)
    (legal : ReelRanges present grade caliper core) :
    assignReelTo [n, a, present, reel, grade, caliper, core] p
      = if ((standOf p s).arm w).state = .running then refuse .state p
        else okWith [] (evalStand s (setStandRec p s ((standOf p s).setArm w
          (((standOf p s).arm w).assigned present reel grade caliper core)))) := by
  obtain ⟨caliperOk, coreOk, presentOk, gradeOk⟩ := legal
  have inRange : ¬(1 < present ∨ 65535 < grade) := by omega
  simp only [assignReelTo, stand, arm, optionalField_ok caliperOk, optionalField_ok coreOk, if_neg inRange]
  rfl

theorem assignReelTo_refused (h : place 5 n = none ∨ armOf a = none ∨ ¬ReelRanges present grade caliper core) :
    assignReelTo [n, a, present, reel, grade, caliper, core] p = refuse .badArg p := by
  unfold assignReelTo
  dsimp only
  split
  · rename_i s w c d stand arm caliperOk coreOk
    have bad : 1 < present ∨ 65535 < grade := by
      by_contra inRange
      rcases h with h | h | h
      · rw [stand] at h
        cases h
      · rw [arm] at h
        cases h
      · refine h ⟨?_, ?_, by omega, by omega⟩
        · by_contra outside
          rw [optionalField_refused outside] at caliperOk
          cases caliperOk
        · by_contra outside
          rw [optionalField_refused outside] at coreOk
          cases coreOk
    rw [if_pos bad]
  · rfl

end Assign

/-! ## Diameters (R77, R78) -/

section Diameter

variable {p : Part} {s : Fin 5} {v : Int}

theorem enter8_eq {α : Type} (l : List α) (x : α) : enter8 l x = (if l.length < 8 then l else l.tail) ++ [x] := by
  simp only [enter8, ← Nat.not_lt, ite_not]

/-- The history that a diameter enters: none of it where the running arm has changed or the input was stale (R77). -/
def Stand.freshHistory (st : Stand) : List Nat := if st.staleSince = true ∨ st.historyArm ≠ st.running then [] else st.history

theorem enterDiameter_eq (st : Stand) (d : Nat) :
    st.enterDiameter d
      = { st with history := (if st.freshHistory.length < 8 then st.freshHistory else st.freshHistory.tail) ++ [d],
                  historyArm := st.running, staleSince := false } := by
  have kept : (if (st.staleSince || !decide (st.historyArm = st.running)) = true then [] else st.history) = st.freshHistory := by
    simp [Stand.freshHistory]
  simp only [Stand.enterDiameter, kept, enter8_eq]

/-- The stand with R as the reckoning reference, where R is known (R78). -/
def Stand.reckonFrom (st : Stand) (ref : Nat) : Stand :=
  { st with reckon := match st.remaining with | some x => some (x, ref) | none => st.reckon }

theorem diameterSample_run (run : p.mu.mode = .run) (used : standInUse p s = true) :
    diameterSample s v p
      = evalStand s (setStandRec p s (((standOf p s).enterDiameter (min 18000 (max 0 v)).toNat).reckonFrom (standRef p s))) := by
  unfold diameterSample
  rw [inRun_run run, used, Bool.and_self, if_pos rfl]
  simp only [Stand.reckonFrom, clampInt]
  cases ((standOf p s).enterDiameter (min 18000 (max 0 v)).toNat).remaining <;> rfl

theorem diameterSample_unused (unused : standInUse p s = false) : diameterSample s v p = p := by
  unfold diameterSample
  rw [unused, Bool.and_false]
  rfl

end Diameter

/-! ## Held GOs (R95) -/

section Held

variable {p : Part} {s : Fin 5}

/-- The most recent GO of the stand waits, and its arm is not PREPARED. -/
def Spoiled (p : Part) (s : Fin 5) (g : GoRecord) : Prop :=
  (standOf p s).recent = some g ∧
    ∃ w ∈ p.rif.urgentWait, ∃ arm node ch, w.msg = .command (.go s arm g.seq) node ch ∧ ((standOf p s).arm arm).state ≠ .prepared

theorem goSpoiled_iff : goSpoiled p s = true ↔ ∃ g, Spoiled p s g := by
  unfold goSpoiled Spoiled
  cases (standOf p s).recent with
  | none => simp
  | some g => simp only [List.any_eq_true, decide_eq_true_eq, spoiledGo_eq_some, Option.some.injEq, exists_eq_left']

theorem testHeldGo_kept (h : ∀ g, ¬Spoiled p s g) : testHeldGo s p = withdrawGo s p := by
  unfold testHeldGo
  dsimp only
  rw [if_neg (goSpoiled_iff.not.2 (not_exists.2 h))]

theorem testHeldGo_spoiled {g : GoRecord} (h : Spoiled p s g) :
    testHeldGo s p = setStandRec (withdrawGo s p) s
      { standOf p s with splice := .idle, recent := some { g with isOpen := false }, acceptBy := none, doneBy := none } := by
  have stand : standOf (withdrawGo s p) s = standOf p s := rfl
  unfold testHeldGo
  dsimp only
  rw [if_pos (goSpoiled_iff.2 ⟨g, h⟩), stand, Stand.close, h.1]
  rfl

/-- A frame that waits is none of the stand's GOs to an arm that is not PREPARED. -/
def stillWaits (s : Fin 5) (st : Stand) (w : Waiting) : Bool :=
  match w.msg with
  | .command (.go x arm _) _ _ => !(decide (x = s) && !decide ((st.arm arm).state = .prepared))
  | _ => true

theorem spoiledGo_isNone (p : Part) (s : Fin 5) (w : Waiting) : (spoiledGo p s w).isNone = stillWaits s (standOf p s) w := by
  obtain ⟨message, late⟩ := w
  cases message with
  | command c node ch =>
    cases c with
    | go x arm seq =>
      show (if x = s ∧ ((standOf p s).arm arm).state ≠ .prepared then some seq else none).isNone
        = !(decide (x = s) && !decide (((standOf p s).arm arm).state = .prepared))
      split
      · rename_i lost
        simp [lost]
      · rename_i kept
        simpa [imp_iff_not_or] using kept
    | _ => rfl
  | _ => rfl

theorem withdrawGo_eq (s : Fin 5) (p : Part) :
    withdrawGo s p = { p with rif := { p.rif with urgentWait := p.rif.urgentWait.filter (stillWaits s (standOf p s)) } } := by
  unfold withdrawGo
  simp only [spoiledGo_isNone]
  rfl

theorem testHeldGo_mode (s : Fin 5) (p : Part) : (testHeldGo s p).mu.mode = p.mu.mode := by
  unfold testHeldGo
  dsimp only
  split
  · rfl
  · rfl

end Held

/-! ## Arm reports (R75, R76) -/

section Reports

variable {p : Part} {s : Fin 5} {a b run : Nat}

/-- The reported states fit the running arm named. -/
def ArmsFit (run : Nat) (x y : ArmState) : Prop :=
  (run = 0 ∧ x ≠ .running ∧ y ≠ .running) ∨ (run = 1 ∧ x = .running ∧ y ≠ .running) ∨ (run = 2 ∧ y = .running ∧ x ≠ .running)

theorem armsConsistent_iff {x y : ArmState} : armsConsistent x y run = true ↔ ArmsFit run x y := by
  unfold armsConsistent ArmsFit
  split
  · simp
  · simp
  · simp
  · simp_all

/-- The stand's record with the arms as reported and the awaited report in (R75). -/
def Stand.reported (st : Stand) (x y : ArmState) : Stand := { st with armA := st.armA.report x, armB := st.armB.report y, awaiting := false }

theorem Stand.rearmed_eq (st : Stand) (joints : List (Nat × Nat)) :
    st.rearmed joints.isEmpty
      = { st with history := [], historyArm := none, reckon := none, exhausted := false,
                  g0 := if joints = [] then st.runningGrade else st.g0 } := by
  simp only [Stand.rearmed, List.isEmpty_iff]

theorem takeArms_eq (x y : ArmState) :
    takeArms s x y p
      = (let new := (standOf p s).reported x y
         let changed := !decide (new.running = (standOf p s).running)
         let q := testHeldGo s (setStandRec p s (if changed then new.rearmed (jointsOf p s).isEmpty else new))
         evalStand s (if changed && inRun q then checkGrades s q else q)) := rfl

theorem takeArms_same {x y : ArmState} (same : ((standOf p s).reported x y).running = (standOf p s).running) :
    takeArms s x y p = evalStand s (testHeldGo s (setStandRec p s ((standOf p s).reported x y))) := by
  rw [takeArms_eq]
  simp only [same, decide_true, Bool.not_true, Bool.false_eq_true, Bool.false_and, if_false]

theorem takeArms_changed {x y : ArmState} (changed : ((standOf p s).reported x y).running ≠ (standOf p s).running) :
    takeArms s x y p
      = evalStand s (if p.mu.mode = .run then
          checkGrades s (testHeldGo s (setStandRec p s (((standOf p s).reported x y).rearmed (jointsOf p s).isEmpty)))
        else testHeldGo s (setStandRec p s (((standOf p s).reported x y).rearmed (jointsOf p s).isEmpty))) := by
  rw [takeArms_eq]
  simp only [changed, decide_false, Bool.not_false, Bool.true_and, if_true, inRun, testHeldGo_mode, setStandRec_mu, decide_eq_true_eq]

section Taken

variable (taken : p.mu.mode = .config ∨ standInUse p s = true)
include taken

/-- A stand's report is taken in CONFIG, and in RUN where the stand is in use (R71). -/
theorem report_taken : (inRun p && !standInUse p s) = false := by
  rcases taken with config | used
  · rw [inRun_config config, Bool.false_and]
  · rw [used, Bool.not_true, Bool.and_false]

theorem armSample_fits {x y : ArmState} (ha : armStateOf a = some x) (hb : armStateOf b = some y) (fits : ArmsFit run x y) :
    armSample s a b run p = takeArms s x y p := by
  unfold armSample
  rw [report_taken taken, if_neg Bool.false_ne_true, ha, hb]
  exact if_pos (armsConsistent_iff.2 fits)

theorem armSample_unfit (h : ∀ x y, armStateOf a = some x → armStateOf b = some y → ¬ArmsFit run x y) :
    armSample s a b run p = latch .badSample p := by
  unfold armSample
  rw [report_taken taken, if_neg Bool.false_ne_true]
  split
  · rename_i x y ha hb
    rw [if_neg (armsConsistent_iff.not.2 (h x y ha hb))]
  · rfl

end Taken

theorem armSample_unused (h : p.mu.mode = .run) (unused : standInUse p s = false) : armSample s a b run p = p := by
  unfold armSample
  rw [inRun_run h, unused]
  rfl

end Reports

/-- Settles O34, each part by the lemma about its operation. -/
theorem assignReelAndReports : Obligations.AssignReelAndReports := by
  refine ⟨?assigns, ?reports, ?diameters, ?remains, fun p s => ⟨effective_fresh, effective_stale⟩, ?held, ?discards, fun p s => standInUse_iff,
    standRef_eq⟩
  case assigns =>
    intro s r n a present reel grade caliper core asks
    refine ⟨fun bad => onPart_serve_of_asks asks rfl (assignReelTo_refused bad), fun i w stand arm legal => ⟨fun idle => ?_, fun running => ?_⟩⟩
    · have taken := (assignReelTo_legal (p := popRequest s.part) (reel := reel) stand arm legal).trans (if_neg idle)
      refine ⟨fun config => ?_, fun _ => onPart_serve_of_asks asks rfl taken⟩
      rw [evalStand_config (p := setStandRec (popRequest s.part) i _) config] at taken
      exact onPart_serve_of_asks asks rfl taken
    · exact onPart_serve_of_asks asks rfl ((assignReelTo_legal stand arm legal).trans (if_pos running))
  case reports =>
    intro p s a b run
    refine ⟨armSample_unused, fun taken => ⟨fun unfit => armSample_unfit taken fun x y ha hb fit => unfit x y ⟨ha, hb, fit⟩,
      fun x y ⟨ha, hb, fit⟩ => ?_⟩⟩
    rw [armSample_fits taken ha hb fit]
    refine ⟨takeArms_same, fun changed run => ?_, fun changed config => ?_⟩
    · rw [takeArms_changed changed, if_pos run, Stand.rearmed_eq]
      rfl
    · rw [takeArms_changed changed, if_neg (by simp [config]), Stand.rearmed_eq]
      rfl
  case diameters =>
    intro p s v run used
    rw [diameterSample_run run used, enterDiameter_eq]
    rfl
  case remains =>
    intro st w core caliper running c k
    exact ⟨Stand.remaining_empty, Stand.remaining_known running c k⟩
  case held =>
    intro p s
    dsimp only
    refine ⟨fun kept => ?_, fun g spoiled => ?_⟩
    · exact (testHeldGo_kept kept).trans (withdrawGo_eq s p)
    · exact (testHeldGo_spoiled spoiled).trans (by rw [withdrawGo_eq]; rfl)
  case discards =>
    intro p s v h
    rcases h with config | unused
    · exact diameterSample_config config s v
    · exact diameterSample_unused unused

end Sys2Proof.Machine
end

section
/-! The two splice limits, the splicer's reports, the joint of a DONE, the end of a plan, and O37 (R92 to R100). -/

namespace Sys2Proof.Machine

/-! ## The splice limits (R96, R97) -/

section Limits

variable {p : Part} {s : Fin 5} {g : GoRecord} {d : Nat}

/-- The part once a limit of the stand has expired on a GO: ABORT posted, the stand IDLE without limits, SPLICE_TIMEOUT latched, the stand evaluated. -/
def timedOut (s : Fin 5) (g : GoRecord) (p : Part) : Part :=
  let q := (postSequence (.abort s g.seq) p).1
  evalStand s (latch .spliceTimeout (setStandRec q s { standOf q s with splice := .idle, acceptBy := none, doneBy := none }))

theorem spliceTimeout_eq (h : (standOf p s).recent = some g) : spliceTimeout s p = timedOut s g p := by
  simp only [spliceTimeout, h, timedOut]

theorem due_some (h : d ≤ p.time) : due p.time (some d) = true := decide_eq_true h

theorem acceptedExpiry_due (recent : (standOf p s).recent = some g) (sent : (standOf p s).splice = .sent)
    (limit : (standOf p s).acceptBy = some d) (h : d ≤ p.time) : acceptedExpiry s p = timedOut s g p := by
  rw [← spliceTimeout_eq recent]
  exact if_pos ⟨sent, limit ▸ due_some h⟩

theorem doneExpiry_due (recent : (standOf p s).recent = some g) (active : (standOf p s).splice = .active)
    (limit : (standOf p s).doneBy = some d) (h : d ≤ p.time) : doneExpiry s p = timedOut s g p := by
  rw [← spliceTimeout_eq recent]
  exact if_pos ⟨active, limit ▸ due_some h⟩

theorem exec_acceptedTimeout {n : Nat} (h : place 5 n = some s) (x : State) :
    exec (.acceptedTimeout n) x = .next { x with part := acceptedExpiry s x.part } := by
  show execAcceptedTimeout n x = _
  simp only [execAcceptedTimeout, onPart, h]

theorem exec_doneTimeout {n : Nat} (h : place 5 n = some s) (x : State) :
    exec (.doneTimeout n) x = .next { x with part := doneExpiry s x.part } := by
  show execDoneTimeout n x = _
  simp only [execDoneTimeout, onPart, h]

end Limits

/-! ## The splicer's reports (R94, R96, R98 to R100) -/

section Reports

variable {p : Part} {s : Fin 5} {code seq : Nat}

theorem splicerSample_unused (run : p.mu.mode = .run) (unused : standInUse p s = false) : splicerSample s code seq p = p := by
  unfold splicerSample
  rw [inRun_run run, unused]
  rfl

section Taken

variable (taken : p.mu.mode = .config ∨ standInUse p s = true)
include taken

theorem splicerSample_unknown (h : code < 1 ∨ 6 < code) : splicerSample s code seq p = latch .badSample p := by
  unfold splicerSample
  rw [report_taken taken, if_neg Bool.false_ne_true, if_pos h]

theorem splicerSample_other (known : ¬(code < 1 ∨ 6 < code))
    (h : ∀ g, (standOf p s).recent = some g → g.isOpen = true → seq ≠ g.seq.toNat) : splicerSample s code seq p = p := by
  unfold splicerSample
  rw [report_taken taken, if_neg Bool.false_ne_true, if_neg known]
  split
  · rfl
  · rename_i g recent
    rw [if_neg fun mine => h g recent mine.2 mine.1]

section Codes

variable {g : GoRecord} (recent : (standOf p s).recent = some g) (opened : g.isOpen = true) (mine : seq = g.seq.toNat)
include recent opened mine

/-- A report for the open transaction is taken by its code. -/
theorem splicerSample_mine (known : ¬(code < 1 ∨ 6 < code)) :
    splicerSample s code seq p
      = if code = 1 then takeAccepted s p else if code = 2 then takeDone s g p else if code = 3 then takeAborted s g.seq p
        else takeFault s (decide (code = 5)) p := by
  unfold splicerSample
  rw [report_taken taken, if_neg Bool.false_ne_true, if_neg known, recent]
  exact if_pos ⟨mine, opened⟩

theorem splicerSample_accepted : splicerSample s 1 seq p = takeAccepted s p := by
  rw [splicerSample_mine taken recent opened mine (by decide), if_pos rfl]

theorem splicerSample_done : splicerSample s 2 seq p = takeDone s g p := by
  rw [splicerSample_mine taken recent opened mine (by decide), if_neg (by decide), if_pos rfl]

theorem splicerSample_aborted : splicerSample s 3 seq p = takeAborted s g.seq p := by
  rw [splicerSample_mine taken recent opened mine (by decide), if_neg (by decide), if_neg (by decide), if_pos rfl]

theorem splicerSample_fault (h : 3 < code) (known : code ≤ 6) : splicerSample s code seq p = takeFault s (decide (code = 5)) p := by
  rw [splicerSample_mine taken recent opened mine (by omega), if_neg (by omega), if_neg (by omega), if_neg (by omega)]

end Codes

end Taken

theorem takeAccepted_sent (h : (standOf p s).splice = .sent) :
    takeAccepted s p = setStandRec p s
      { standOf p s with splice := .active, acceptBy := none, doneBy := some (p.time + 2 * (standOf p s).spliceTime) } := if_pos h

theorem takeAccepted_else (h : (standOf p s).splice ≠ .sent) : takeAccepted s p = p := if_neg h

/-- The stand with the transaction of its most recent GO closed and both limits stopped. -/
def Stand.closed (st : Stand) (g : GoRecord) : Stand := { st with recent := some { g with isOpen := false }, acceptBy := none, doneBy := none }

theorem Stand.close_eq {st : Stand} {g : GoRecord} (h : st.recent = some g) : st.close = st.closed g := by
  simp only [Stand.close, h, Option.map_some, Stand.closed]

section Mine

variable {g : GoRecord} (recent : (standOf p s).recent = some g)
include recent

theorem dropSplice_eq : dropSplice s p = setStandRec p s { (standOf p s).closed g with splice := .idle } := by
  rw [dropSplice, Stand.close_eq recent]

theorem takeDone_eq :
    takeDone s g p
      = (let p1 := withdrawAbort s g.seq (setStandRec p s ((standOf p s).closed g))
         let j := jointEntry p1 s g.grade
         let i := insertOrCover (standFeeder s) j.2 p1
         let p2 := raise (.splices s) 1 (handOver i.2.2 i.1)
         evalStand s (checkGrades s (satisfyPlan s g.grade j.1
           (setStandRec p2 s { standOf p2 s with awaiting := true, splice := .idle })))) := by
  unfold takeDone
  rw [Stand.close_eq recent]

section InFlight

variable (inFlight : (standOf p s).splice = .sent ∨ (standOf p s).splice = .active)
include inFlight

theorem takeAborted_inFlight (seq : Byte) :
    takeAborted s seq p = evalStand s (latch .spliceFault (setStandRec p s { (standOf p s).closed g with splice := .idle })) := by
  rw [takeAborted, if_pos (inFlight_iff.2 inFlight), dropSplice_eq recent]

theorem takeFault_inFlight :
    takeFault s false p = evalStand s (latch .spliceFault (setStandRec p s { (standOf p s).closed g with splice := .idle })) := by
  rw [takeFault, if_pos (inFlight_iff.2 inFlight), if_neg Bool.false_ne_true, dropSplice_eq recent]

theorem takeFault_breaks :
    takeFault s true p
      = evalStand s (activate .webBreak 0 (latch .webBreak (setStandRec p s { (standOf p s).closed g with splice := .idle }))) := by
  rw [takeFault, if_pos (inFlight_iff.2 inFlight), if_pos rfl, webBroken, dropSplice_eq recent]

end InFlight

section AtRest

variable (atRest : ¬((standOf p s).splice = .sent ∨ (standOf p s).splice = .active))
include atRest

theorem takeAborted_atRest (seq : Byte) : takeAborted s seq p = withdrawAbort s seq (setStandRec p s ((standOf p s).closed g)) := by
  rw [takeAborted, if_neg (inFlight_iff.not.2 atRest), Stand.close_eq recent]

theorem takeFault_atRest : takeFault s false p = setStandRec p s ((standOf p s).closed g) := by
  rw [takeFault, if_neg (inFlight_iff.not.2 atRest), Stand.close_eq recent]
  rfl

theorem takeFault_breaks_atRest :
    takeFault s true p = activate .webBreak 0 (latch .webBreak (setStandRec p s ((standOf p s).closed g))) := by
  rw [takeFault, if_neg (inFlight_iff.not.2 atRest), Stand.close_eq recent]
  rfl

end AtRest

end Mine

end Reports

/-! ## The joint of a DONE (R98) -/

section Joint

variable {p : Part} {s : Fin 5} {grade : Nat}

theorem jointEntry_kind (p : Part) (s : Fin 5) (grade : Nat) :
    (jointEntry p s grade).2.kind = .spliceJoint s grade ∧ (jointEntry p s grade).2.cull = true ∧ (jointEntry p s grade).2.origin = .stand s := by
  unfold jointEntry
  dsimp only
  split <;> exact ⟨rfl, rfl, rfl⟩

/-- At a feeder the joint's zone goes with its web, and what of it lies below 0 is cut off. -/
theorem jointEntry_feeder {f : Fin 2} (h : standFeeder s = some f) :
    let st := standOf p s
    let x : Int := (posF p f : Int) + offset p (.stand s)
    let e := (jointEntry p s grade).2
    (jointEntry p s grade).1 = coord (x + bridgeK p f) ∧ e.start = coord (x - st.preCull + bridgeK p f)
      ∧ e.extent = some (st.preCull + st.postCull - (-(x - st.preCull + bridgeK p f)).toNat)
      ∧ e.binding = some { feeder := f, start := x - st.preCull, bound := false, web := some (st.preCull + st.postCull) } := by
  simp only [jointEntry, h, placeZone_eq, coord, Option.map_some, and_self]

/-- At stand 5 the joint's zone is fixed at the board. -/
theorem jointEntry_board (h : standFeeder s = none) :
    let st := standOf p s
    let x := posB p + offset p (.stand s)
    let e := (jointEntry p s grade).2
    (jointEntry p s grade).1 = x ∧ e.start = x - st.preCull ∧ e.extent = some (st.preCull + st.postCull - (st.preCull - x))
      ∧ e.binding = none := by
  simp only [jointEntry, h, placeZone_eq, boardPoint, Option.map_some, Int.neg_sub, Int.toNat_sub, and_self]

end Joint

/-! ## The end of a plan (R92, R93) -/

section Satisfied

variable {p : Part} {s : Fin 5} {grade j : Nat}

theorem satisfyPlan_stays (h : ∀ pl, (standOf p s).plan = some pl → pl.grade ≠ grade) : satisfyPlan s grade j p = p := by
  unfold satisfyPlan
  dsimp only
  split
  · rfl
  · rename_i pl held
    rw [if_neg (h pl held)]

section Leaves

variable {pl : Plan} (held : (standOf p s).plan = some pl) (same : pl.grade = grade)
include held same

theorem satisfyPlan_late {x : Region} (region : regionOf p pl.tag = some x) (h : x.start ≤ j) :
    satisfyPlan s grade j p = setGradeLate pl.tag (setStandRec p s { standOf p s with plan := none }) := by
  have found : regionOf (setStandRec p s { standOf p s with plan := none }) pl.tag = some x := region
  simp only [satisfyPlan, held, if_pos same, found, if_pos h]

theorem satisfyPlan_timely (h : ∀ x, regionOf p pl.tag = some x → j < x.start) :
    satisfyPlan s grade j p = setStandRec p s { standOf p s with plan := none } := by
  simp only [satisfyPlan, held, if_pos same]
  split
  · rename_i x region
    rw [if_neg (Nat.not_le.2 (h x region))]
  · rfl

end Leaves

end Satisfied

/-- Settles O37, each part by the lemma about its operation. -/
theorem spliceTimeoutsAbort : Obligations.SpliceTimeoutsAbort := by
  refine ⟨?limits, ?reports, fun p s grade => ?joint, fun p s grade j => ⟨satisfyPlan_stays, fun pl held same =>
    ⟨fun x => satisfyPlan_late held same, satisfyPlan_timely held same⟩⟩, fun p s code seq => splicerSample_unused⟩
  case limits =>
    intro s n i g d number recent passed
    refine ⟨fun sent limit => ?_, fun active limit => ?_⟩
    · rw [exec_acceptedTimeout number, acceptedExpiry_due recent sent limit passed]
      rfl
    · rw [exec_doneTimeout number, doneExpiry_due recent active limit passed]
      rfl
  case reports =>
    intro p s code seq taken
    refine ⟨splicerSample_unknown taken, fun low high => ?_⟩
    have known : ¬(code < 1 ∨ 6 < code) := by omega
    refine ⟨splicerSample_other taken known, fun g recent opened mine => ?_⟩
    intro st closed dropped inFlight
    have fault (h : code = 4 ∨ code = 6) : splicerSample s code seq p = takeFault s false p := by
      rw [splicerSample_fault taken recent opened mine (by omega) high, decide_eq_false (by omega)]
    refine ⟨?accepted, ?acceptedLate, ?done, ?aborted, ?abortedLate, fun h flies => (fault h).trans (takeFault_inFlight recent flies),
      fun h rests => (fault h).trans (takeFault_atRest recent rests), ?broken, ?brokenLate⟩
    case accepted =>
      rintro rfl sent
      exact (splicerSample_accepted taken recent opened mine).trans (takeAccepted_sent sent)
    case acceptedLate =>
      rintro rfl notSent
      exact (splicerSample_accepted taken recent opened mine).trans (takeAccepted_else notSent)
    case done =>
      rintro rfl
      exact (splicerSample_done taken recent opened mine).trans (takeDone_eq recent)
    case aborted =>
      rintro rfl flies
      exact (splicerSample_aborted taken recent opened mine).trans (takeAborted_inFlight recent flies g.seq)
    case abortedLate =>
      rintro rfl rests
      exact (splicerSample_aborted taken recent opened mine).trans (takeAborted_atRest recent rests g.seq)
    case broken =>
      rintro rfl flies
      exact (splicerSample_fault taken recent opened mine (by decide) high).trans (takeFault_breaks recent flies)
    case brokenLate =>
      rintro rfl rests
      exact (splicerSample_fault taken recent opened mine (by decide) high).trans (takeFault_breaks_atRest recent rests)
  case joint =>
    obtain ⟨kind, cull, origin⟩ := jointEntry_kind p s grade
    exact ⟨kind, cull, origin, fun f => jointEntry_feeder, jointEntry_board⟩

end Sys2Proof.Machine
end

section
/-! The setpoints that BC computes: the gaps, the wraps and the targets, each posted where it differs from the last posted one, and O39 and O40 (R111, R112, R116, R118). -/

namespace Sys2Proof.Machine

/-! ## Gaps (R112, R113) -/

section Gap

variable {p : Part} {g : Fin 3} {r : Recipe}

/-- The gap of a recipe is never below 0, so the conversion to a natural number loses nothing. -/
theorem gapAt_eq (base : Nat) (slope : Int) (v lo hi : Nat) :
    (gapAt base slope v lo hi : Int) = min (hi : Int) (max (lo : Int) ((base : Int) + slope * (toMpm v : Int) / 100)) :=
  Int.toNat_of_nonneg (le_min (Int.natCast_nonneg hi) (le_max_of_le_left (Int.natCast_nonneg lo)))

theorem computeGlue_none (h : recipeIn p (p.bc.glue.get g).requested = none) : computeGlue g p = p := by
  simp only [computeGlue, h]

theorem computeGlue_some (h : recipeIn p (p.bc.glue.get g).requested = some r) :
    let gap := gapAt (r.baseGap.get g) (r.slope.get g) (lineSpeed p) (p.bc.minGap.get g) (p.bc.maxGap.get g)
    computeGlue g p = if (p.bc.glue.get g).last = some gap then p
      else postSetpoint (.glueSet g gap) (setGlue p g
        { p.bc.glue.get g with last := some gap, testSet := some gap, testTol := some r.glueTol,
                               settleBy := if p.bc.settleTime = 0 then none else some (p.time + p.bc.settleTime) }) := by
  simp only [computeGlue, h]

end Gap

/-- Settles O39, by the clamped line that a requested recipe gives. -/
theorem glueGapIsClampedLine : Obligations.GlueGapIsClampedLine := by
  intro p g r h
  have computed := computeGlue_some h
  exact ⟨_, gapAt_eq _ _ _ _ _, fun same => computed.trans (if_pos same), fun differs => computed.trans (if_neg differs)⟩

/-! ## Wraps (R116) -/

section Wrap

/-- On the line between two breakpoints no wrap is below 0. -/
theorem wrapBetween_nonneg {lo hi : Nat × Nat} {v : Nat} (above : lo.1 ≤ v) (under : v < hi.1) : 0 ≤ wrapBetween lo hi v := by
  have run : (0 : Int) < (hi.1 : Int) - lo.1 := by omega
  have fall : 0 ≤ (hi.2 : Int) * ((v : Int) - lo.1) + lo.2 * ((hi.1 : Int) - v) :=
    add_nonneg (mul_nonneg (by omega) (by omega)) (mul_nonneg (by omega) (by omega))
  have steep : -(lo.2 : Int) ≤ ((hi.2 : Int) - lo.2) * ((v : Int) - lo.1) / ((hi.1 : Int) - lo.1) :=
    Int.le_ediv_of_mul_le run (by linarith)
  rw [wrapBetween]
  omega

variable {p : Part} {w : Fin 3} {r : Recipe} {bp : Vector (Nat × Nat) 4} {v : Nat}

theorem wrapAt_first (h : v < (bp.get 0).1) : wrapAt bp v = (bp.get 0).2 := if_pos h

variable (rising : ∀ i : Fin 3, (bp.get i.castSucc).1 < (bp.get i.succ).1)
include rising

theorem wrapAt_last (h : (bp.get 3).1 ≤ v) : wrapAt bp v = (bp.get 3).2 := by
  have first : (bp.get 0).1 < (bp.get 1).1 := rising 0
  have second : (bp.get 1).1 < (bp.get 2).1 := rising 1
  have third : (bp.get 2).1 < (bp.get 3).1 := rising 2
  rw [wrapAt, if_neg (by omega), if_neg (by omega), if_neg (by omega), if_neg (by omega)]

theorem wrapAt_between (i : Fin 3) (above : (bp.get i.castSucc).1 ≤ v) (under : v < (bp.get i.succ).1) :
    (wrapAt bp v : Int) = wrapBetween (bp.get i.castSucc) (bp.get i.succ) v := by
  have first : (bp.get 0).1 < (bp.get 1).1 := rising 0
  have second : (bp.get 1).1 < (bp.get 2).1 := rising 1
  have line : wrapAt bp v = (wrapBetween (bp.get i.castSucc) (bp.get i.succ) v).toNat := by
    match i with
    | 0 =>
      have above : (bp.get 0).1 ≤ v := above
      exact (if_neg (by omega)).trans (if_pos under)
    | 1 =>
      have above : (bp.get 1).1 ≤ v := above
      exact (if_neg (by omega)).trans ((if_neg (by omega)).trans (if_pos under))
    | 2 =>
      have above : (bp.get 2).1 ≤ v := above
      exact (if_neg (by omega)).trans ((if_neg (by omega)).trans ((if_neg (by omega)).trans (if_pos under)))
  rw [line, Int.toNat_of_nonneg (wrapBetween_nonneg above under)]

omit rising

theorem computeWrap_none (h : recipeIn p (p.bc.wraps.get w).requested = none) : computeWrap w p = p := by
  simp only [computeWrap, h]

theorem computeWrap_some (h : recipeIn p (p.bc.wraps.get w).requested = some r) :
    let x := wrapAt (r.wraps.get w) (toMpm (lineSpeed p))
    computeWrap w p = if (p.bc.wraps.get w).last = some x then p
      else postSetpoint (.wrapSet w x) (setWrap p w { p.bc.wraps.get w with last := some x }) := by
  simp only [computeWrap, h]

end Wrap

/-- Settles O40, each stretch of the speeds by the lemma about it. -/
theorem wrapFollowsBreakpoints : Obligations.WrapFollowsBreakpoints := by
  intro p w r h bp v u rising
  have computed := computeWrap_some h
  exact ⟨_, wrapAt_first, wrapAt_last rising, wrapAt_between rising, fun same => computed.trans (if_pos same),
    fun differs => computed.trans (if_neg differs)⟩

/-! ## Targets (R111, R118) -/

section Target

variable {p : Part} {z : Fin 8} {r : Recipe}

theorem computeZone_none (h : recipeIn p (p.bc.zones.get z).requested = none) : computeZone z p = p := by
  simp only [computeZone, h]

theorem computeZone_some (h : recipeIn p (p.bc.zones.get z).requested = some r) :
    computeZone z p = if (p.bc.zones.get z).last = some (r.zoneTarget.get z) then p
      else postSetpoint (.zoneSet z (r.zoneTarget.get z)) (setZone p z { p.bc.zones.get z with last := some (r.zoneTarget.get z) }) := by
  simp only [computeZone, h]

end Target

end Sys2Proof.Machine
end

section
/-! The plate zones: the state, the deficit and the HEAT contribution of a zone, and what the steps that follow a change of its recipes leave as it was (R110, R117 to
R120). -/

namespace Sys2Proof.Machine

/-! ## The average and the state (R117, R118) -/

section Averages

variable {p : Part} {z : Fin 8} {r : Recipe}

theorem meanInt_of_ne_nil {l : List Int} (h : l ≠ []) : meanInt l = some (l.sum / (l.length : Int)) := by
  rw [meanInt, if_neg (by simpa using h)]

theorem zoneInUse_iff : zoneInUse p z = true ↔ z.val < p.bc.zoneCount := decide_eq_true_iff

theorem zoneInUse_unused (h : p.bc.zoneCount ≤ z.val) : zoneInUse p z = false := decide_eq_false (Nat.not_lt.2 h)

theorem zoneState_stale (h : inputStale p (.zoneTemp z) = true) : zoneState p z = .stale := if_pos h

theorem zoneState_unset (fresh : inputStale p (.zoneTemp z) = false)
    (h : (p.bc.zones.get z).history = [] ∨ recipeIn p (p.bc.zones.get z).requested = none) : zoneState p z = .unset := by
  simp only [zoneState, fresh, Bool.false_eq_true, if_false]
  rcases h with empty | absent
  · rw [empty]
    cases recipeIn p (p.bc.zones.get z).requested <;> rfl
  · rw [absent]

theorem zoneState_measured (fresh : inputStale p (.zoneTemp z) = false) (measured : (p.bc.zones.get z).history ≠ [])
    (h : recipeIn p (p.bc.zones.get z).requested = some r) :
    zoneState p z
      = if ((p.bc.zones.get z).history.sum / (p.bc.zones.get z).history.length - r.zoneTarget.get z).natAbs ≤ r.zoneTol then .settled
        else .tracking := by
  simp only [zoneState, fresh, Bool.false_eq_true, if_false, h, meanInt_of_ne_nil measured]

/-! ## The deficit (R119) -/

theorem deficit_none (h : (p.bc.zones.get z).history = [] ∨ recipeIn p (p.bc.zones.get z).acting = none) : deficit p z = none := by
  rw [deficit]
  rcases h with empty | absent
  · rw [empty]
    cases recipeIn p (p.bc.zones.get z).acting <;> rfl
  · rw [absent]

theorem deficit_some (measured : (p.bc.zones.get z).history ≠ []) (h : recipeIn p (p.bc.zones.get z).acting = some r) :
    deficit p z
      = some ((r.zoneTarget.get z : Int) - r.zoneTol - (p.bc.zones.get z).history.sum / (p.bc.zones.get z).history.length) := by
  simp only [deficit, h, meanInt_of_ne_nil measured]

end Averages

/-! ## The HEAT contribution (R119, R120) -/

section Heat

variable {p : Part} {z : Fin 8} {r : Recipe}

/-- The HEAT value is never below 0, so the conversion to a natural number loses nothing. -/
theorem heatValue_eq (r : Recipe) (d : Int) (crawl lineMax : Nat) :
    (heatValue r d crawl lineMax : Int) = min (lineMax : Int) (max (crawl : Int) ((r.maxSpeed * 10000 / 60 : Nat) - r.derate * d)) :=
  Int.toNat_of_nonneg (le_min (Int.natCast_nonneg lineMax) (le_max_of_le_left (Int.natCast_nonneg crawl)))

theorem heatValue_le (r : Recipe) (d : Int) (crawl lineMax : Nat) : heatValue r d crawl lineMax ≤ lineMax := by
  have value := heatValue_eq r d crawl lineMax
  have low := min_le_left (lineMax : Int) (max (crawl : Int) ((r.maxSpeed * 10000 / 60 : Nat) - r.derate * d))
  omega

theorem writeHeat_unused (h : p.bc.zoneCount ≤ z.val) : writeHeat z p = p := by
  rw [writeHeat, zoneInUse_unused h, Bool.and_false]
  rfl

/-- The zone with its mark of a deficit set to `b`. -/
def markDeficit (z : Fin 8) (b : Bool) (p : Part) : Part := setZone p z { p.bc.zones.get z with byDeficit := b }

variable (run : p.mu.mode = .run) (used : z.val < p.bc.zoneCount)
include run used

theorem writeHeat_stale (h : inputStale p (.zoneTemp z) = true) :
    writeHeat z p = activate (.heat z) p.sg.crawl (markDeficit z false p) := by
  simp only [writeHeat, inRun_run run, zoneInUse_iff.2 used, h, Bool.and_self, if_true, markDeficit]

variable (fresh : inputStale p (.zoneTemp z) = false)
include fresh

theorem writeHeat_unknown (h : (p.bc.zones.get z).history = [] ∨ recipeIn p (p.bc.zones.get z).acting = none) :
    writeHeat z p = deactivate (.heat z) (markDeficit z false p) := by
  simp only [writeHeat, inRun_run run, zoneInUse_iff.2 used, fresh, deficit_none h, Bool.and_self, if_true, Bool.false_eq_true, if_false, markDeficit]

theorem writeHeat_warm {d : Int} (h : deficit p z = some d) (acting : recipeIn p (p.bc.zones.get z).acting = some r) (enough : d ≤ 0) :
    writeHeat z p = deactivate (.heat z) (markDeficit z false p) := by
  simp only [writeHeat, inRun_run run, zoneInUse_iff.2 used, fresh, h, acting, Bool.and_self, if_true, Bool.false_eq_true, if_false, markDeficit,
    if_neg (Int.not_lt.2 enough)]

theorem writeHeat_deficient {d : Int} (h : deficit p z = some d) (acting : recipeIn p (p.bc.zones.get z).acting = some r) (short : 0 < d) :
    writeHeat z p = activate (.heat z) (heatValue r d p.sg.crawl p.sg.lineMax)
      (if (p.bc.zones.get z).byDeficit then markDeficit z true p else latch .zoneDeficient (markDeficit z true p)) := by
  simp only [writeHeat, inRun_run run, zoneInUse_iff.2 used, fresh, h, acting, Bool.and_self, if_true, Bool.false_eq_true, if_false, markDeficit,
    if_pos short]

/-- By a deficit the contribution is the derated speed, and ZONE_DEFICIENT is latched where the deficit begins. -/
theorem writeHeat_deficient_effects {d : Int} (h : deficit p z = some d) (acting : recipeIn p (p.bc.zones.get z).acting = some r) (short : 0 < d) :
    (writeHeat z p).sg.slots.get (Slot.heat z).idx = { active := true, value := heatValue r d p.sg.crawl p.sg.lineMax }
      ∧ ((p.bc.zones.get z).byDeficit = false → (alarmOf (writeHeat z p) .zoneDeficient).latch = true) := by
  have clamped : min (heatValue r d p.sg.crawl p.sg.lineMax) p.sg.lineMax = heatValue r d p.sg.crawl p.sg.lineMax :=
    min_eq_left (heatValue_le _ _ _ _)
  rw [writeHeat_deficient run used fresh h acting short]
  cases begun : (p.bc.zones.get z).byDeficit with
  | true =>
    have written := (slotWritten_activate (.heat z) (heatValue r d p.sg.crawl p.sg.lineMax) (markDeficit z true p)).get
    exact ⟨written.trans (congrArg (Contribution.mk true) clamped), nofun⟩
  | false =>
    have written := slotWritten_activate (.heat z) (heatValue r d p.sg.crawl p.sg.lineMax) (latch .zoneDeficient (markDeficit z true p))
    refine ⟨written.get.trans ?_, fun _ => written.latches _ (latch_sets _ _)⟩
    rw [latch_sg]
    exact congrArg (Contribution.mk true) clamped

end Heat

/-! ## What follows a change of a zone's recipes (R110) -/

/-- Steps of a zone leave WT, OS, the recipe slots, the other units, and which recipes the zone has. -/
structure ZoneKept (z : Fin 8) (p q : Part) : Prop where
  wt : q.wt = p.wt
  os : q.os = p.os
  slots : q.bc.slots = p.bc.slots
  glue : q.bc.glue = p.bc.glue
  wraps : q.bc.wraps = p.bc.wraps
  others : ∀ k, k ≠ z → q.bc.zones.get k = p.bc.zones.get k
  acting : (q.bc.zones.get z).acting = (p.bc.zones.get z).acting
  requested : (q.bc.zones.get z).requested = (p.bc.zones.get z).requested

section Kept

variable {z : Fin 8} {p q r : Part}

theorem ZoneKept.refl (z : Fin 8) (p : Part) : ZoneKept z p p := ⟨rfl, rfl, rfl, rfl, rfl, fun _ _ => rfl, rfl, rfl⟩

theorem ZoneKept.trans (a : ZoneKept z p q) (b : ZoneKept z q r) : ZoneKept z p r where
  wt := b.wt.trans a.wt
  os := b.os.trans a.os
  slots := b.slots.trans a.slots
  glue := b.glue.trans a.glue
  wraps := b.wraps.trans a.wraps
  others := fun k other => (b.others k other).trans (a.others k other)
  acting := b.acting.trans a.acting
  requested := b.requested.trans a.requested

/-- An update that leaves WT, OS and BC. -/
theorem ZoneKept.same (a : ZoneKept z p q) (wt : r.wt = q.wt) (os : r.os = q.os) (bc : r.bc = q.bc) : ZoneKept z p r := by
  refine a.trans ⟨wt, os, ?_, ?_, ?_, fun _ _ => ?_, ?_, ?_⟩ <;> rw [bc]

theorem ZoneKept.thenPosted (a : ZoneKept z p q) (b : Posted q r) : ZoneKept z p r := a.same b.wt b.os b.bc

theorem ZoneKept.thenSlot {x : Slot} {c : Contribution} (a : ZoneKept z p q) (b : SlotWritten x c q r) : ZoneKept z p r :=
  a.same b.posted.wt b.posted.os b.posted.bc

/-- The zone's record takes values of its other fields. -/
theorem zoneKept_setZone {u : ZoneUnit} (acting : u.acting = (p.bc.zones.get z).acting) (requested : u.requested = (p.bc.zones.get z).requested) :
    ZoneKept z p (setZone p z u) where
  wt := rfl
  os := rfl
  slots := rfl
  glue := rfl
  wraps := rfl
  others := fun _ other => get_upd_ne _ _ other
  acting := by rw [setZone_zones, get_upd_same, acting]
  requested := by rw [setZone_zones, get_upd_same, requested]

theorem zoneKept_markDeficit (b : Bool) : ZoneKept z p (markDeficit z b p) := zoneKept_setZone rfl rfl

theorem zoneKept_setZoneState : ZoneKept z p (setZoneState z p) := zoneKept_setZone rfl rfl

theorem zoneKept_computeZone : ZoneKept z p (computeZone z p) := by
  cases h : recipeIn p (p.bc.zones.get z).requested with
  | none => rw [computeZone_none h]; exact .refl z p
  | some r =>
    rw [computeZone_some h]
    split
    · exact .refl z p
    · refine ZoneKept.thenPosted ?_ (posted_postSetpoint _ _)
      exact zoneKept_setZone rfl rfl

theorem zoneKept_writeHeat : ZoneKept z p (writeHeat z p) := by
  cases mode : p.mu.mode with
  | config => rw [writeHeat_config mode]; exact .refl z p
  | run =>
    by_cases used : z.val < p.bc.zoneCount
    case neg => rw [writeHeat_unused (Nat.not_lt.1 used)]; exact .refl z p
    cases stale : inputStale p (.zoneTemp z) with
    | true =>
      rw [writeHeat_stale mode used stale]
      exact (zoneKept_markDeficit _).thenSlot (slotWritten_activate _ _ _)
    | false =>
      by_cases unknown : (p.bc.zones.get z).history = [] ∨ recipeIn p (p.bc.zones.get z).acting = none
      case pos =>
        rw [writeHeat_unknown mode used stale unknown]
        exact (zoneKept_markDeficit _).thenSlot (slotWritten_deactivate _ _)
      obtain ⟨measured, known⟩ := not_or.1 unknown
      obtain ⟨r, acting⟩ := Option.ne_none_iff_exists'.1 known
      obtain ⟨d, deficient⟩ : ∃ d, deficit p z = some d := ⟨_, deficit_some measured acting⟩
      rcases lt_or_ge 0 d with short | enough
      · rw [writeHeat_deficient mode used stale deficient acting short]
        refine ZoneKept.thenSlot ?_ (slotWritten_activate _ _ _)
        split
        · exact zoneKept_markDeficit _
        · exact (zoneKept_markDeficit _).thenPosted (posted_latch _ _)
      · rw [writeHeat_warm mode used stale deficient acting enough]
        exact (zoneKept_markDeficit _).thenSlot (slotWritten_deactivate _ _)

theorem zoneChanged_eq (z : Fin 8) (req act : Bool) (p : Part) :
    zoneChanged z req act p
      = if act then writeHeat z (if req then setZoneState z (computeZone z p) else p) else if req then setZoneState z (computeZone z p) else p := rfl

theorem zoneKept_zoneChanged (req act : Bool) : ZoneKept z p (zoneChanged z req act p) := by
  have told : ZoneKept z p (if req then setZoneState z (computeZone z p) else p) := by
    split
    · exact zoneKept_computeZone.trans zoneKept_setZoneState
    · exact .refl z p
  rw [zoneChanged_eq]
  split
  · exact told.trans zoneKept_writeHeat
  · exact told

end Kept

end Sys2Proof.Machine
end

section
/-! The fields of a recipe: their ranges, the rise of the breakpoint speeds, and the packed form in which READ RECIPE sends back what LOAD RECIPE took (R103; log 7). -/

namespace Sys2Proof.Machine

/-! ## Tables as lists -/

theorem all_toList_iff {α : Type} {n : Nat} {v : Vector α n} {c : α → Bool} : v.toList.all c = true ↔ ∀ i, c (v.get i) = true := by
  rw [List.all_eq_true]
  constructor
  · exact fun all i => all _ (by simp [Vector.get_eq_getElem])
  · intro all x m
    obtain ⟨i, bound, rfl⟩ := List.mem_iff_getElem.1 m
    simpa [Vector.get_eq_getElem] using all ⟨i, by simpa using bound⟩

/-! ## Ranges (R103) -/

theorem recipe_inRange_iff (x : Recipe) :
    x.inRange = true ↔ (∀ g, 50 ≤ x.baseGap.get g ∧ x.baseGap.get g ≤ 1000) ∧ (∀ g, -500 ≤ x.slope.get g ∧ x.slope.get g ≤ 500)
      ∧ 1 ≤ x.glueTol ∧ x.glueTol ≤ 500 ∧ (∀ w k, ((x.wraps.get w).get k).1 ≤ 600 ∧ ((x.wraps.get w).get k).2 ≤ 1000)
      ∧ (∀ z, x.zoneTarget.get z ≤ 3000) ∧ 1 ≤ x.zoneTol ∧ x.zoneTol ≤ 500 ∧ x.derate ≤ 10000 ∧ 10 ≤ x.maxSpeed ∧ x.maxSpeed ≤ 600 := by
  simp only [Recipe.inRange, Bool.and_eq_true, all_toList_iff, within_iff, decide_eq_true_eq, and_assoc]

/-- The speeds of a list of breakpoints rise where each is below the next. -/
theorem rises_iff_isChain {l : List (Nat × Nat)} : rises l = true ↔ l.IsChain (fun a b => a.1 < b.1) := by
  induction l with
  | nil => simp [rises]
  | cons a l ih =>
    cases l with
    | nil => simp [rises]
    | cons b l => rw [rises, Bool.and_eq_true, decide_eq_true_eq, ih, List.isChain_cons_cons]

theorem recipe_rising_iff (x : Recipe) :
    x.rising = true ↔ ∀ (w : Fin 3) (k : Fin 3), ((x.wraps.get w).get k.castSucc).1 < ((x.wraps.get w).get k.succ).1 := by
  rw [Recipe.rising, all_toList_iff]
  refine forall_congr' fun w => ?_
  rw [rises_iff_isChain, List.isChain_iff_getElem]
  constructor
  · exact fun chain k => by simpa [Vector.get_eq_getElem] using chain k.val (by rw [Vector.length_toList]; omega)
  · intro rising i bound
    rw [Vector.length_toList] at bound
    simpa [Vector.get_eq_getElem] using rising ⟨i, by omega⟩

/-! ## The order of the fields (R103; log 7) -/

theorem recipeOf_fields (packed : Bool) (fs : List Nat) :
    let f (k : Nat) : Nat := fs.getD k 0
    let x := recipeOf packed fs
    (∀ g : Fin 3, x.baseGap.get g = f g ∧ x.slope.get g = signedOf (if packed then 2 else 4) (f (3 + g))) ∧ x.glueTol = f 6 ∧
    (∀ (w : Fin 3) (k : Fin 4), (x.wraps.get w).get k = (f (7 + 8 * w + 2 * k), f (8 + 8 * w + 2 * k))) ∧
    (∀ z : Fin 8, x.zoneTarget.get z = f (31 + z)) ∧ x.zoneTol = f 39 ∧ x.derate = f 40 ∧ x.maxSpeed = f 41 := by
  refine ⟨fun g => ⟨Vector.get_ofFn _ g, (Vector.get_ofFn _ g).trans ?_⟩, rfl, fun w k => ?_, fun z => Vector.get_ofFn _ z, rfl, rfl, rfl⟩
  · cases packed <;> rfl
  · rw [recipeOf, Vector.get_ofFn, Vector.get_ofFn]
    rfl

/-! ## The packed form (log 7) -/

/-- Two bytes hold a number modulo 65,536, so a field read as a signed value goes back as it came. -/
theorem bytesOf_signedOf (n : Nat) : bytesOf 2 (signedOf 2 n % 65536).toNat = bytesOf 2 n := by
  have residue : (signedOf 2 n % 65536).toNat = n % 65536 := by
    unfold signedOf
    split <;> omega
  rw [residue]
  simp only [bytesOf, List.cons.injEq, and_true]
  exact ⟨BitVec.eq_of_toNat_eq (by simp only [BitVec.toNat_ofNat]; omega), BitVec.eq_of_toNat_eq (by simp only [BitVec.toNat_ofNat]; omega)⟩

/-- Field `k` of a payload's fields, in the packed form. -/
def packedField (fs : List Nat) (k : Nat) : List Byte := bytesOf 2 (fieldAt fs k)

/-- The fields of a table stand at consecutive places. -/
theorem flatMap_ofFn {α β : Type} {n : Nat} (g : α → List β) (f : Fin n → α) :
    (Vector.ofFn f).toList.flatMap g = (List.finRange n).flatMap (fun i => g (f i)) := by
  rw [Vector.toList_ofFn, List.ofFn_eq_map, List.flatMap_map]

theorem flatMap_eq_packedFields {fs : List Nat} (h : fs.length = 42) :
    fs.flatMap (bytesOf 2) = (List.range 42).flatMap (packedField fs) := by
  have fields : fs = (List.range 42).map (fieldAt fs) := by
    refine List.ext_getElem (by simp [h]) fun k bound _ => ?_
    simp [fieldAt, List.getElem?_eq_getElem bound]
  conv_lhs => rw [fields, List.flatMap_map]
  rfl

theorem recipeOf_bytes {fs : List Nat} (h : fs.length = 42) : (recipeOf true fs).bytes = fs.flatMap (bytesOf 2) := by
  have signed (k : Nat) : bytesOf 2 (recipeSigned true (fieldAt fs k) % 65536).toNat = packedField fs k := bytesOf_signedOf _
  rw [flatMap_eq_packedFields h]
  simp only [Recipe.bytes, recipeOf, flatMap_ofFn, signed]
  rfl

end Sys2Proof.Machine
end

section
/-! LOAD RECIPE, ERASE RECIPE and READ RECIPE, and O38 (R104 to R106). -/

namespace Sys2Proof.Machine

/-! ## LOAD RECIPE (R104; log 7) -/

section Load

/-- Fields that are read take up the payload. -/
theorem fieldsOf_length {ws fs : List Nat} {bs : List Byte} (h : fieldsOf ws bs = some fs) : bs.length = ws.sum := by
  induction ws generalizing bs fs with
  | nil =>
    cases bs with
    | nil => rfl
    | cons b bs => cases h
  | cons w ws ih =>
    rw [fieldsOf] at h
    split at h
    · cases h
    · rename_i enough
      obtain ⟨rest, read, -⟩ := Option.map_eq_some_iff.1 h
      have left := ih read
      rw [List.length_drop] at left
      rw [List.sum_cons]
      omega

/-- The payload's length tells which of the two layouts a LOAD RECIPE has. -/
theorem serveRecipe_of_asks {p : Part} {w : Nat} {fs : List Nat} {r : Request} (width : w = 2 ∨ w = 4)
    (a : Asks p 32 (4 :: List.replicate 42 w) fs r) : serveRecipe p = replyTo r (loadRecipeInto (decide (w = 2)) fs (popRequest p)) := by
  have length : r.args.length = 4 + 42 * w := by
    obtain ⟨-, -, -, fields⟩ := a
    rw [fieldsOf_length fields, List.sum_cons, List.sum_replicate, smul_eq_mul]
  have packed : r.args.length = 4 + 2 * recipeFields ↔ w = 2 := by
    rw [length, recipeFields]
    omega
  have widths : recipeWidths r.args.length = 4 :: List.replicate 42 w := by
    rw [recipeWidths, if_congr packed rfl rfl]
    rcases width with rfl | rfl <;> rfl
  simp only [serveRecipe, headRequest_of_asks a, widths, decide_eq_decide.2 packed]
  exact serve_of_asks a rfl

variable {p : Part} {packed : Bool} {n : Nat} {fs : List Nat}

theorem loadRecipeInto_refused (h : place 32 n = none) : loadRecipeInto packed (n :: fs) p = refuse .badArg p := by
  simp only [loadRecipeInto, h]

theorem loadRecipeInto_of_place {i : Fin 32} (h : place 32 n = some i) :
    loadRecipeInto packed (n :: fs) p
      = if (p.bc.slots.get i).recipe.isSome then refuse .slotLoaded p
        else if (recipeOf packed fs).inRange && (recipeOf packed fs).rising then
          okWith [] (setSlot p i { recipe := some (recipeOf packed fs), refs := 0 })
        else refuse .badArg p := by
  simp only [loadRecipeInto, h]

end Load

section LoadAnswers

variable {s : State} {r : Request} {n w : Nat} {fs : List Nat} (width : w = 2 ∨ w = 4)
  (asks : Asks s.part 32 (4 :: List.replicate 42 w) (n :: fs) r)
include width asks

/-- The request is answered as the rule for its slot and its recipe answers. -/
theorem loadRecipe_answered {st : Status} {q : Part}
    (h : loadRecipeInto (decide (w = 2)) (n :: fs) (popRequest s.part) = { part := q, status := st, results := [] }) :
    exec .loadRecipe s = Answered s r st [] q :=
  onPart_answered (by rw [serveRecipe_of_asks width asks, h, replyTo])

theorem loadRecipe_answers {i : Fin 32} (known : place 32 n = some i) :
    let x := recipeOf (decide (w = 2)) fs
    ((s.part.bc.slots.get i).recipe = none → x.inRange = true → x.rising = true →
      exec .loadRecipe s = Answered s r .ok [] (setSlot (popRequest s.part) i { recipe := some x, refs := 0 })) ∧
    ((s.part.bc.slots.get i).recipe = none → x.inRange = false ∨ x.rising = false →
      exec .loadRecipe s = Answered s r .badArg [] (popRequest s.part)) ∧
    ((s.part.bc.slots.get i).recipe.isSome → exec .loadRecipe s = Answered s r .slotLoaded [] (popRequest s.part)) := by
  have rule := loadRecipeInto_of_place (packed := decide (w = 2)) (fs := fs) (p := popRequest s.part) known
  refine ⟨fun empty ranges rising => ?_, fun empty bad => ?_, fun loaded => ?_⟩ <;> refine loadRecipe_answered width asks (rule.trans ?_)
  · rw [popRequest_bc, empty, ranges, rising]
    rfl
  · rw [popRequest_bc, empty, Bool.and_eq_false_iff.2 bad]
    rfl
  · rw [popRequest_bc, if_pos loaded]
    rfl

end LoadAnswers

/-! ## ERASE RECIPE (R105) -/

/-- What a fold over a table does to place `k`, where each step acts on its own place alone. -/
theorem get_forEach {α : Type} {n : Nat} (g : Fin n → Part → α) (step : α → α) {f : Fin n → Part → Part}
    (own : ∀ i p, g i (f i p) = step (g i p)) (other : ∀ i k p, k ≠ i → g k (f i p) = g k p) (k : Fin n) (p : Part) :
    g k (forEach f p) = step (g k p) := by
  have folded : ∀ (l : List (Fin n)) (p : Part), l.Nodup →
      g k (l.foldl (fun q i => f i q) p) = if k ∈ l then step (g k p) else g k p := by
    intro l
    induction l with
    | nil => intro p _; rfl
    | cons i l ih =>
      intro p distinct
      obtain ⟨fresh, distinct⟩ := List.nodup_cons.1 distinct
      rw [List.foldl_cons, ih _ distinct]
      by_cases here : k = i
      · subst here
        rw [if_neg fresh, if_pos List.mem_cons_self, own]
      · rw [other i k p here]
        simp only [List.mem_cons, here, false_or]
  exact (folded _ p (List.nodup_finRange n)).trans (if_pos (List.mem_finRange k))

section Erase

variable {p : Part} {n : Nat} {z : Fin 8} {i : Fin 32}

/-- A zone forgets an erased slot. A requested recipe that is forgotten gives no target, so only the state and HEAT follow. -/
theorem forgetZone_eq (n : Nat) (z : Fin 8) (p : Part) :
    let u := p.bc.zones.get z
    let t := setZone p z { u with acting := forget n u.acting, requested := forget n u.requested }
    let t1 := if u.requested = some n then setZone t z { t.bc.zones.get z with state := zoneState t z } else t
    forgetZone n z p = if u.acting = some n then writeHeat z t1 else t1 := by
  intro u t t1
  have told : (if decide (u.requested = some n) then setZoneState z (computeZone z t) else t) = t1 := by
    by_cases requested : u.requested = some n
    · have absent : (t.bc.zones.get z).requested = none := by
        rw [setZone_zones, get_upd_same]
        exact if_pos requested
      rw [computeZone_none (by rw [absent]; rfl), if_pos (decide_eq_true requested), setZoneState]
      exact (if_pos requested).symm
    · rw [if_neg (by simpa using requested)]
      exact (if_neg requested).symm
  rw [forgetZone, zoneChanged_eq, told]
  simp only [decide_eq_true_eq]
  rfl

/-- Beyond the recipes it forgets, the zone's steps leave what a change of a zone's recipes leaves. -/
theorem zoneKept_forgetZone (n : Nat) (z : Fin 8) (p : Part) :
    ZoneKept z (setZone p z { p.bc.zones.get z with acting := forget n (p.bc.zones.get z).acting, requested := forget n (p.bc.zones.get z).requested })
      (forgetZone n z p) := zoneKept_zoneChanged _ _

theorem forgetZone_acting (n : Nat) (z : Fin 8) (p : Part) :
    ((forgetZone n z p).bc.zones.get z).acting = forget n (p.bc.zones.get z).acting := by
  rw [(zoneKept_forgetZone n z p).acting, setZone_zones, get_upd_same]

theorem forgetZone_requested (n : Nat) (z : Fin 8) (p : Part) :
    ((forgetZone n z p).bc.zones.get z).requested = forget n (p.bc.zones.get z).requested := by
  rw [(zoneKept_forgetZone n z p).requested, setZone_zones, get_upd_same]

theorem forgetZone_others (n : Nat) (z k : Fin 8) (p : Part) (other : k ≠ z) : (forgetZone n z p).bc.zones.get k = p.bc.zones.get k := by
  rw [(zoneKept_forgetZone n z p).others k other, setZone_zones, get_upd_ne _ _ other]

theorem forgetZones_slots (n : Nat) (p : Part) : (forEach (n := 8) (forgetZone n) p).bc.slots = p.bc.slots :=
  forEach_keeps (fun q => q.bc.slots) (fun z q => (zoneKept_forgetZone n z q).slots) p

theorem forgetZones_glue (n : Nat) (p : Part) : (forEach (n := 8) (forgetZone n) p).bc.glue = p.bc.glue :=
  forEach_keeps (fun q => q.bc.glue) (fun z q => (zoneKept_forgetZone n z q).glue) p

theorem forgetZones_wraps (n : Nat) (p : Part) : (forEach (n := 8) (forgetZone n) p).bc.wraps = p.bc.wraps :=
  forEach_keeps (fun q => q.bc.wraps) (fun z q => (zoneKept_forgetZone n z q).wraps) p

theorem forgetZones_wt (n : Nat) (p : Part) : (forEach (n := 8) (forgetZone n) p).wt = p.wt :=
  forEach_keeps Part.wt (fun z q => (zoneKept_forgetZone n z q).wt) p

theorem forgetZones_os (n : Nat) (p : Part) : (forEach (n := 8) (forgetZone n) p).os = p.os :=
  forEach_keeps Part.os (fun z q => (zoneKept_forgetZone n z q).os) p

theorem forgetZones_acting (n : Nat) (z : Fin 8) (p : Part) :
    ((forEach (n := 8) (forgetZone n) p).bc.zones.get z).acting = forget n (p.bc.zones.get z).acting :=
  get_forEach (fun z q => (q.bc.zones.get z).acting) (forget n) (forgetZone_acting n)
    (fun z k q other => by rw [forgetZone_others n z k q other]) z p

theorem forgetZones_requested (n : Nat) (z : Fin 8) (p : Part) :
    ((forEach (n := 8) (forgetZone n) p).bc.zones.get z).requested = forget n (p.bc.zones.get z).requested :=
  get_forEach (fun z q => (q.bc.zones.get z).requested) (forget n) (forgetZone_requested n)
    (fun z k q other => by rw [forgetZone_others n z k q other]) z p

/-- The part with the slot EMPTY, which the glue units and the wraps have forgotten. -/
def slotErased (n : Nat) (i : Fin 32) (p : Part) : Part := forgetUnits n (setSlot p i { recipe := none, refs := 0 })

theorem eraseRecipeIn_refused (h : place 32 n = none) : eraseRecipeIn [n] p = refuse .badArg p := by
  simp only [eraseRecipeIn, h]

theorem eraseRecipeIn_empty (h : place 32 n = some i) (empty : (p.bc.slots.get i).recipe = none) : eraseRecipeIn [n] p = refuse .notFound p := by
  simp only [eraseRecipeIn, h, empty, Option.isNone_none, if_true]

theorem eraseRecipeIn_inUse (h : place 32 n = some i) (loaded : (p.bc.slots.get i).recipe.isSome) (used : 0 < (p.bc.slots.get i).refs) :
    eraseRecipeIn [n] p = refuse .inUse p := by
  simp only [eraseRecipeIn, h, Option.isNone_eq_false_iff.2 loaded, Bool.false_eq_true, if_false, if_pos used]

theorem eraseRecipeIn_erases (h : place 32 n = some i) (loaded : (p.bc.slots.get i).recipe.isSome) (unused : (p.bc.slots.get i).refs = 0) :
    eraseRecipeIn [n] p = okWith [] (forEach (n := 8) (forgetZone n) (slotErased n i p)) := by
  simp only [eraseRecipeIn, h, Option.isNone_eq_false_iff.2 loaded, Bool.false_eq_true, if_false, unused, Nat.lt_irrefl]
  rfl

end Erase

/-! ## READ RECIPE (R106; log 7) -/

section Read

variable {p : Part} {n : Nat} {i : Fin 32}

/-- The set of units whose acting recipe is the slot, or where `act` is false of those whose requested one is, as READ RECIPE sends it. -/
def usersOf (act : Bool) (n : Nat) (p : Part) : List Byte := w32 (bitsOf ((unitRecipes act p).map (fun u => decide (u = some n))))

theorem readRecipeFrom_refused (h : place 32 n = none) : readRecipeFrom [n] p = refuse .badArg p := by
  simp only [readRecipeFrom, h]

theorem readRecipeFrom_empty (h : place 32 n = some i) (empty : (p.bc.slots.get i).recipe = none) :
    readRecipeFrom [n] p = okWith (w32 0 ++ w32 (p.bc.slots.get i).refs ++ usersOf true n p ++ usersOf false n p) p := by
  simp only [readRecipeFrom, h, empty, usersOf]

theorem readRecipeFrom_loaded {x : Recipe} (h : place 32 n = some i) (loaded : (p.bc.slots.get i).recipe = some x) :
    readRecipeFrom [n] p = okWith (w32 1 ++ w32 (p.bc.slots.get i).refs ++ x.bytes ++ usersOf true n p ++ usersOf false n p) p := by
  simp only [readRecipeFrom, h, loaded, usersOf]

end Read

/-- Settles O38, each request by its rule's answer for the slot. -/
theorem recipeSlotRequests : Obligations.RecipeSlotRequests := by
  refine ⟨fun s r n i known => ⟨fun w fs width asks => loadRecipe_answers width asks known, fun asks => ?erase, fun asks => ?read⟩,
    fun s r n outside => ?refused, fun x => ⟨recipe_inRange_iff x, recipe_rising_iff x⟩, recipeOf_fields, fun fs => recipeOf_bytes⟩
  case erase =>
    refine ⟨fun empty => onPart_serve_of_asks asks rfl (eraseRecipeIn_empty known empty),
      fun loaded used => onPart_serve_of_asks asks rfl (eraseRecipeIn_inUse known loaded used), fun loaded unused => ?_⟩
    have slots := forgetZones_slots n (slotErased n i (popRequest s.part))
    refine ⟨forEach (n := 8) (forgetZone n) (slotErased n i (popRequest s.part)), onPart_serve_of_asks asks rfl (eraseRecipeIn_erases known loaded unused),
      by rw [slots]; exact congrArg RecipeSlot.recipe (get_upd_same _ i _), fun j other => by rw [slots]; exact get_upd_ne _ _ other,
      ⟨fun g => by rw [forgetZones_glue]; rfl, fun w => by rw [forgetZones_wraps]; rfl,
        fun z => ⟨forgetZones_acting n z _, forgetZones_requested n z _⟩, ?_⟩,
      forgetZones_wt n _, forgetZones_os n _⟩
    exact congrArg (fun f => forEach (n := 8) f _) (funext₂ (forgetZone_eq n))
  case read =>
    exact ⟨fun empty => onPart_serve_of_asks asks rfl (readRecipeFrom_empty known empty),
      fun x loaded => onPart_serve_of_asks asks rfl (readRecipeFrom_loaded known loaded)⟩
  case refused =>
    have unknown : place 32 n = none := place_eq_none.2 outside
    exact ⟨fun w fs width asks => loadRecipe_answered width asks (loadRecipeInto_refused unknown),
      fun asks => onPart_serve_of_asks asks rfl (eraseRecipeIn_refused unknown),
      fun asks => onPart_serve_of_asks asks rfl (readRecipeFrom_refused unknown)⟩

end Sys2Proof.Machine
end

section
/-! The glue feedback: when a measured gap is tested, the deviation that begins with its BOND entry, and the one that ends with the entry's travel (R25, R35, R113 to R115). -/

namespace Sys2Proof.Machine

/-! ## Which units are in use, and when a gap is tested (R108, R113) -/

section Tested

variable {p : Part} {g : Fin 3} {gap : Int}

theorem glueInUse_iff : glueInUse p g = true ↔ g ≠ 1 ∨ p.wt.line = .double := by
  simp only [glueInUse, Bool.or_eq_true, decide_eq_true_eq]

theorem glueInUse_single (h : g = 1 ∧ p.wt.line = .single) : glueInUse p g = false := by
  obtain ⟨rfl, single⟩ := h
  rw [glueInUse, single]
  rfl

theorem glueSample_unused (h : glueInUse p g = false) : glueSample g gap p = (p, []) := by
  simp only [glueSample, h, Bool.and_false, Bool.false_and, Bool.false_eq_true, if_false]

theorem glueSample_untested (h : (p.bc.glue.get g).settleBy.isSome ∨ (p.bc.glue.get g).testSet = none ∨ (p.bc.glue.get g).testTol = none) :
    glueSample g gap p = (p, []) := by
  unfold glueSample
  dsimp only
  split
  · rename_i tested
    have settled := Option.isNone_iff_eq_none.1 (Bool.and_eq_true_iff.1 tested).2
    split
    · rename_i posted tolerance
      simp [settled, posted, tolerance] at h
    · rfl
  · rfl

theorem glueSample_tested (run : p.mu.mode = .run) (used : g ≠ 1 ∨ p.wt.line = .double) {x tol : Nat}
    (settled : (p.bc.glue.get g).settleBy = none) (posted : (p.bc.glue.get g).testSet = some x) (tolerance : (p.bc.glue.get g).testTol = some tol) :
    glueSample g gap p
      = if tol < (gap - x).natAbs then (if (p.bc.glue.get g).deviation then (p, []) else beginDeviation g p)
        else if (p.bc.glue.get g).deviation then endDeviation g p else (p, []) := by
  simp only [glueSample, inRun_run run, glueInUse_iff.2 used, settled, posted, tolerance, Option.isNone_none, Bool.and_self, if_true]

end Tested

/-! ## A deviation begins (R35, R114) -/

section Begins

variable {p q : Part} {g : Fin 3} {f : Fin 2} {e : TrackEntry}

theorem glueFeeder_of_number (h : g.val = f.val) : glueFeeder g = some f := by
  revert g f
  decide

theorem bondEntry_congr (h : q.wt = p.wt) (g : Fin 3) : bondEntry q g = bondEntry p g := by
  simp only [bondEntry, posF, bridgeK, boardPoint, posB, offset, h]

theorem bondEntry_plain (p : Part) (g : Fin 3) :
    (bondEntry p g).kind = .bond ∧ (bondEntry p g).extent = none ∧ (bondEntry p g).cull = true ∧ (bondEntry p g).origin = .glue g := by
  unfold bondEntry
  split <;> exact ⟨rfl, rfl, rfl, rfl⟩

theorem bondEntry_start (p : Part) (g : Fin 3) :
    (bondEntry p g).start
      = if g = 0 then coord (posF p 0 + bridgeK p 0) else if g = 1 then coord (posF p 1 + bridgeK p 1) else posB p + offset p (.glue 2) := by
  match g with
  | 0 => rfl
  | 1 => rfl
  | 2 => rfl

theorem bondEntry_binding (h : glueFeeder g = some f) :
    (bondEntry p g).binding = some { feeder := f, start := posF p f, bound := false, web := none } := by
  simp only [bondEntry, h]

/-- An open entry that finds its place (R21, R27). -/
theorem insertOpen_placed (h : hasPlace e.kind p = true) :
    insertOpen e p = ((addEntry e p).1, some (newId p), [{ before := none, after := some e.zone, cull := e.cull }]) := if_pos h

theorem insertOpen_full (h : hasPlace e.kind p = false) : insertOpen e p = (latch .trackOverflow p, none, []) :=
  if_neg (by rw [h]; exact Bool.noConfusion)

theorem insertOpen_bc (e : TrackEntry) (p : Part) : (insertOpen e p).1.bc = p.bc := by
  cases h : hasPlace e.kind p with
  | true => rw [insertOpen_placed h]; rfl
  | false => rw [insertOpen_full h]; exact latch_bc _ p

theorem insertOpen_latches (e : TrackEntry) (p : Part) (w : Alarm) (l : (alarmOf p w).latch = true) :
    (alarmOf (insertOpen e p).1 w).latch = true := by
  cases h : hasPlace e.kind p with
  | true => rw [insertOpen_placed h]; exact l
  | false => rw [insertOpen_full h]; exact (posted_latch _ p).latches w l

/-- The part with the unit's deviation marked and GLUE_DEVIATION latched, before its entry is inserted. -/
def deviating (g : Fin 3) (p : Part) : Part := latch .glueDeviation (setGlue p g { p.bc.glue.get g with deviation := true })

theorem deviating_wt (g : Fin 3) (p : Part) : (deviating g p).wt = p.wt := latch_wt _ _

theorem deviating_unit (g : Fin 3) (p : Part) : (deviating g p).bc.glue.get g = { p.bc.glue.get g with deviation := true } := by
  rw [deviating, latch_bc, setGlue_glue, get_upd_same]

theorem hasPlace_bond (g : Fin 3) (p : Part) : hasPlace .bond (deviating g p) = true ↔ p.wt.track.length < 64 ∧ dbmCount p < 40 := by
  rw [hasPlace_iff, dbmCount, deviating_wt, ← dbmCount]
  exact and_congr_right fun _ => forall_prop_of_true rfl

theorem beginDeviation_eq (g : Fin 3) (p : Part) :
    beginDeviation g p
      = let r := insertOpen (bondEntry p g) (deviating g p)
        (setGlue r.1 g { p.bc.glue.get g with deviation := true, entry := r.2.1, openedAt := posB r.1 }, r.2.2) := by
  have unit : (insertOpen (bondEntry p g) (deviating g p)).1.bc.glue.get g = { p.bc.glue.get g with deviation := true } := by
    rw [insertOpen_bc, deviating_unit]
  have steps : beginDeviation g p
      = let r := insertOpen (bondEntry (deviating g p) g) (deviating g p)
        (setGlue r.1 g { r.1.bc.glue.get g with entry := r.2.1, openedAt := posB r.1 }, r.2.2) := rfl
  rw [steps, bondEntry_congr (deviating_wt g p)]
  dsimp only
  rw [unit]

/-- With or without a place for its entry, a deviation is marked and latched. -/
theorem beginDeviation_marks (g : Fin 3) (p : Part) :
    ((beginDeviation g p).1.bc.glue.get g).deviation = true ∧ (alarmOf (beginDeviation g p).1 .glueDeviation).latch = true := by
  rw [beginDeviation_eq]
  dsimp only
  rw [setGlue_glue, get_upd_same]
  exact ⟨rfl, insertOpen_latches _ _ _ (latch_sets _ _)⟩

theorem beginDeviation_placed (free : p.wt.track.length < 64) (dbm : dbmCount p < 40) :
    let t := beginDeviation g p
    let e := { bondEntry p g with id := newId (deviating g p) }
    e ∈ t.1.wt.track ∧ (t.1.bc.glue.get g).entry = some e.id ∧ (t.1.bc.glue.get g).openedAt = posB p
      ∧ t.2 = [{ before := none, after := some { start := e.start, extent := none }, cull := true }] := by
  obtain ⟨kind, extent, cull, -⟩ := bondEntry_plain p g
  have place : hasPlace (bondEntry p g).kind (deviating g p) = true := by
    rw [kind]
    exact (hasPlace_bond g p).2 ⟨free, dbm⟩
  rw [beginDeviation_eq, insertOpen_placed place]
  dsimp only
  rw [setGlue_glue, get_upd_same]
  exact ⟨mem_insertEntry.2 (.inl rfl), rfl, (congrArg (fun w : Wt => w.board.pos) (deviating_wt g p) :), by rw [TrackEntry.zone, extent, cull]⟩

theorem beginDeviation_full (h : p.wt.track.length = 64 ∨ dbmCount p = 40) :
    (beginDeviation g p).1.wt = p.wt ∧ ((beginDeviation g p).1.bc.glue.get g).entry = none
      ∧ (alarmOf (beginDeviation g p).1 .trackOverflow).latch = true := by
  have full : hasPlace (bondEntry p g).kind (deviating g p) = false := by
    rw [(bondEntry_plain p g).1, ← Bool.not_eq_true, hasPlace_bond]
    omega
  rw [beginDeviation_eq, insertOpen_full full]
  dsimp only
  rw [setGlue_glue, get_upd_same]
  exact ⟨(latch_wt _ _).trans (deviating_wt g p), rfl, latch_sets _ _⟩

end Begins

/-! ## A deviation ends (R25, R115) -/

section Ends

variable {p : Part} {g : Fin 3}

theorem retire_bc (p : Part) : (retire p).bc = p.bc := by
  have passed (l : List TrackEntry) (p : Part) : (l.foldl passJoint p).bc = p.bc := by
    induction l generalizing p with
    | nil => rfl
    | cons e l ih =>
      rw [List.foldl_cons, ih, passJoint]
      split <;> rfl
  unfold retire
  split
  · rfl
  · exact passed _ p

theorem closeZone_bc (id n : Nat) (p : Part) : (closeZone id n p).1.bc = p.bc := by
  cases h : entryById p id with
  | none => rw [closeZone_missing h]
  | some e =>
    cases n with
    | zero => rw [closeZone_zero h]
    | succ n => rw [closeZone_closes h (Nat.succ_pos n)]; exact retire_bc _

/-- The unit when its deviation has ended and its entry is let go. -/
def settledUnit (u : GlueUnit) : GlueUnit := { u with deviation := false, entry := none }

theorem endDeviation_noEntry (h : (p.bc.glue.get g).entry = none) : endDeviation g p = (setGlue p g (settledUnit (p.bc.glue.get g)), []) := by
  simp only [endDeviation, h, settledUnit]

theorem endDeviation_entry {id : Nat} (h : (p.bc.glue.get g).entry = some id) :
    endDeviation g p = closeZone id (glueTravel p g) (setGlue p g (settledUnit (p.bc.glue.get g))) := by
  simp only [endDeviation, h, settledUnit]

theorem endDeviation_unit (g : Fin 3) (p : Part) : (endDeviation g p).1.bc.glue.get g = settledUnit (p.bc.glue.get g) := by
  cases h : (p.bc.glue.get g).entry with
  | none => rw [endDeviation_noEntry h, setGlue_glue, get_upd_same]
  | some id => rw [endDeviation_entry h, closeZone_bc, setGlue_glue, get_upd_same]

theorem glueTravel_feeder {f : Fin 2} {id : Nat} {e : TrackEntry} {b : Binding} (number : g.val = f.val) (own : (p.bc.glue.get g).entry = some id)
    (found : entryById p id = some e) (binding : e.binding = some b) : glueTravel p g = ((posF p f : Int) - b.start).toNat := by
  simp only [glueTravel, glueFeeder_of_number number, own, Option.bind_some, found, binding, Option.map_some, Option.getD_some]

theorem glueTravel_board (p : Part) : glueTravel p 2 = posB p - (p.bc.glue.get 2).openedAt := rfl

end Ends

/-! ## The settle deadline (R113) -/

theorem settleExpires_due {p : Part} {g : Fin 3} {d : Nat} (deadline : (p.bc.glue.get g).settleBy = some d) (passed : d ≤ p.time) :
    settleExpires g p = setGlue p g { p.bc.glue.get g with settleBy := none } := by
  have reached : due p.time (p.bc.glue.get g).settleBy = true := by
    rw [deadline]
    exact decide_eq_true passed
  exact if_pos reached

end Sys2Proof.Machine
end

section
/-! The lookups: which recipe slot a point has, what a lookup of a glue unit, of a wrap and of a zone starts, and O41 (R108 to R110). -/

namespace Sys2Proof.Machine

/-! ## The region of a point (R109) -/

section Regions

variable {p : Part} {x : Nat} {old : Option Nat} {r : Region}

/-- The region contains the point. -/
def Region.HasPoint (r : Region) (x : Nat) : Prop := r.start ≤ x ∧ ∀ e, r.stop = some e → x < e

theorem below_iff {stop : Option Nat} : below x stop = true ↔ ∀ e, stop = some e → x < e := by
  cases stop <;> simp [below]

theorem hasPoint_iff : (decide (r.start ≤ x) && below x r.stop) = true ↔ r.HasPoint x := by
  rw [Bool.and_eq_true, decide_eq_true_eq, below_iff, Region.HasPoint]

theorem lookupAt_nowhere (h : ∀ r ∈ p.os.regions, ¬r.HasPoint x) : lookupAt p x old = old := by
  have none : regionAt p x = none := List.find?_eq_none.2 fun r m held => h r m (hasPoint_iff.1 held)
  simp only [lookupAt, none]

theorem regionAt_first {before after : List Region} (list : p.os.regions = before ++ r :: after) (first : ∀ q ∈ before, ¬q.HasPoint x)
    (here : r.HasPoint x) : regionAt p x = some r :=
  List.find?_eq_some_iff_append.2 ⟨hasPoint_iff.2 here, before, after, list, fun q m => by
    rw [Bool.not_eq_true', ← Bool.not_eq_true]
    exact fun held => first q m (hasPoint_iff.1 held)⟩

theorem lookupAt_order {o : Order} (found : regionAt p x = some r) (order : r.order = some o) : lookupAt p x old = some o.slot := by
  simp only [lookupAt, found, order]

theorem lookupAt_waste (found : regionAt p x = some r) (waste : r.order = none) : lookupAt p x old = old := by
  simp only [lookupAt, found, waste]

end Regions

/-! ## The lookups of the units (R109, R110) -/

section Lookups

variable {p : Part}

theorem lookupGlue_idle {g : Fin 3} (h : p.mu.mode = .config ∨ g = 1 ∧ p.wt.line = .single) : lookupGlue g p = p := by
  rcases h with config | unused
  · rw [lookupGlue, inRun_config config]
    rfl
  · rw [lookupGlue, glueInUse_single unused, Bool.and_false]
    rfl

theorem lookupGlue_run {g : Fin 3} (run : p.mu.mode = .run) (used : g ≠ 1 ∨ p.wt.line = .double) :
    let u := p.bc.glue.get g
    let found := lookupAt p (gluePoint p g) u.requested
    let q := setGlue p g { u with acting := found, requested := found }
    lookupGlue g p = if found = u.requested then q else computeGlue g q :=
  if_pos (Bool.and_eq_true_iff.2 ⟨inRun_run run, glueInUse_iff.2 used⟩)

theorem lookupWrap_config {w : Fin 3} (config : p.mu.mode = .config) : lookupWrap w p = p := by
  rw [lookupWrap, inRun_config config]
  rfl

theorem lookupWrap_run {w : Fin 3} (run : p.mu.mode = .run) :
    let u := p.bc.wraps.get w
    let x := posB p + offset p (.wrap w)
    let ahead := lookupAt p (x + p.bc.wrapLead.get w) u.requested
    let q := setWrap p w { u with acting := lookupAt p x u.acting, requested := ahead }
    lookupWrap w p = if ahead = u.requested then q else computeWrap w q :=
  if_pos (inRun_run run)

theorem lookupZone_idle {z : Fin 8} (h : p.mu.mode = .config ∨ p.bc.zoneCount ≤ z.val) : lookupZone z p = p := by
  rcases h with config | unused
  · rw [lookupZone, inRun_config config]
    rfl
  · rw [lookupZone, zoneInUse_unused unused, Bool.and_false]
    rfl

/-- The steps of a change of a zone's recipes, by what has not changed. -/
theorem zoneChanged_not (z : Fin 8) (q : Part) (a b : Prop) [Decidable a] [Decidable b] [Decidable ¬a] [Decidable ¬b] :
    zoneChanged z (decide ¬a) (decide ¬b) q
      = if b then (if a then q else setZoneState z (computeZone z q)) else writeHeat z (if a then q else setZoneState z (computeZone z q)) := by
  by_cases requested : a <;> by_cases acting : b <;> simp [zoneChanged_eq, requested, acting]

/-- A zone's lookup: the target and the state where the requested recipe changes, then HEAT where the acting one does. -/
theorem lookupZone_run {z : Fin 8} (run : p.mu.mode = .run) (used : z.val < p.bc.zoneCount) :
    let u := p.bc.zones.get z
    let x := posB p + offset p (.zone z)
    let here := lookupAt p x u.acting
    let ahead := lookupAt p (x + p.bc.zoneLead.get z) u.requested
    let q := setZone p z { u with acting := here, requested := ahead }
    let q1 := if ahead = u.requested then q else setZoneState z (computeZone z q)
    lookupZone z p = if here = u.acting then q1 else writeHeat z q1 :=
  (if_pos (Bool.and_eq_true_iff.2 ⟨inRun_run run, zoneInUse_iff.2 used⟩)).trans (zoneChanged_not z _ _ _)

end Lookups

/-! ## Temperatures (R117, R118, R120) -/

section Temperatures

variable {p : Part} {z : Fin 8} {x : Int}

theorem zoneTempSample_unused (h : p.bc.zoneCount ≤ z.val) : zoneTempSample z x p = p := by
  rw [zoneTempSample, zoneInUse_unused h, Bool.and_false]
  rfl

theorem zoneTempSample_run (run : p.mu.mode = .run) (used : z.val < p.bc.zoneCount) :
    let u := p.bc.zones.get z
    let old := if u.staleSince = true then [] else u.history
    zoneTempSample z x p = writeHeat z (setZoneState z
      (setZone p z { u with history := (if old.length < 8 then old else old.tail) ++ [x], staleSince := false })) := by
  simp only [zoneTempSample, inRun_run run, zoneInUse_iff.2 used, Bool.and_self, if_true, enter8_eq]

end Temperatures

/-- Settles O41, each part by the lemma about its operation. -/
theorem glueSettlePasses : Obligations.GlueSettlePasses := by
  refine ⟨?deadline, ?feedback, fun p => ⟨fun g f id e b => glueTravel_feeder, glueTravel_board p⟩,
    fun p x old => ⟨lookupAt_nowhere, fun before r after list first here =>
      ⟨fun o => lookupAt_order (regionAt_first list first here), lookupAt_waste (regionAt_first list first here)⟩⟩,
    fun p g => ⟨lookupGlue_idle, lookupGlue_run, computeGlue_none⟩, fun p w => ⟨lookupWrap_config, lookupWrap_run, computeWrap_none⟩,
    fun p z => ⟨lookupZone_idle, lookupZone_run, computeZone_none, fun r => computeZone_some⟩, fun p => rfl, ?heat, ?temperature, ?discarded⟩
  case deadline =>
    intro s n g d unit deadline passed
    have expires : exec (.glueSettleExpiry n) s = onPart (settleExpires g) s := by
      show execGlueSettleExpiry n s = _
      simp only [execGlueSettleExpiry, onPart, unit]
    rw [expires, onPart, settleExpires_due deadline passed]
  case feedback =>
    intro p g gap run used
    refine ⟨glueSample_untested, fun x tol settled posted tolerance => ?_⟩
    have tested := glueSample_tested (gap := gap) run used settled posted tolerance
    refine ⟨fun beyond deviates => ?_, fun inside steady => ?_, fun beyond steady => ?_, fun inside deviates => ?_⟩
    · rw [tested, if_pos beyond, if_pos deviates]
    · rw [tested, if_neg (Nat.not_lt.2 inside), steady]
      rfl
    · rw [tested, if_pos beyond, steady]
      obtain ⟨deviates, latched⟩ := beginDeviation_marks g p
      refine ⟨deviates, latched, fun free dbm => ?_, beginDeviation_full⟩
      obtain ⟨kind, extent, cull, origin⟩ := bondEntry_plain p g
      obtain ⟨listed, own, opened, changes⟩ := beginDeviation_placed (g := g) free dbm
      exact ⟨_, listed, own, kind, extent, cull, origin, bondEntry_start p g, fun f number => bondEntry_binding (glueFeeder_of_number number),
        fun third => ⟨by subst third; rfl, opened⟩, changes⟩
    · rw [tested, if_neg (Nat.not_lt.2 inside), deviates]
      have unit := endDeviation_unit g p
      refine ⟨congrArg GlueUnit.deviation unit, congrArg GlueUnit.entry unit, fun absent => ?_, fun id => endDeviation_entry⟩
      rw [if_pos rfl, endDeviation_noEntry absent]
      exact ⟨rfl, rfl⟩
  case heat =>
    intro p z
    refine ⟨zoneState_stale, zoneState_unset, fun r => zoneState_measured, fun run used => ⟨fun stale => ?_, fun fresh unknown => ?_, ?_⟩⟩
    · rw [writeHeat_stale run used stale]
      exact (slotWritten_activate _ _ _).get
    · rw [writeHeat_unknown run used fresh unknown]
      exact (slotWritten_deactivate _ _).get
    · intro r fresh measured acting
      have deficient := deficit_some measured acting
      refine ⟨fun enough => ?_, fun short => ?_⟩
      · rw [writeHeat_warm run used fresh deficient acting enough]
        exact (slotWritten_deactivate _ _).get
      · obtain ⟨slot, latches⟩ := writeHeat_deficient_effects run used fresh deficient acting short
        rw [slot]
        exact ⟨rfl, heatValue_eq _ _ _ _, latches⟩
  case temperature =>
    intro p z x
    refine ⟨fun idle => ?_, zoneTempSample_run⟩
    rcases idle with config | unused
    · exact zoneTempSample_config config z x
    · exact zoneTempSample_unused unused
  case discarded =>
    intro p g gap idle
    rcases idle with config | unused
    · exact glueSample_config config g gap
    · exact glueSample_unused (glueInUse_single unused)

end Sys2Proof.Machine
end

section
/-! The cull decision, what becomes of a cut, the marks that it meets, the changes that it overtakes and the regions that it ends, and O42 (R50, R130, R137 to R141). -/

namespace Sys2Proof.Machine

/-! ## The cull decision (R137) -/

section Causes

/-- `found` is the cause of the first condition of the table that holds, and none where no condition holds. -/
def IsFirstCause (causes : List (Prop × Cause)) (found : Option Cause) : Prop :=
  (found = none ↔ ∀ x ∈ causes, ¬x.1) ∧
    ∀ w, found = some w → ∃ before x after, causes = before ++ x :: after ∧ x.2 = w ∧ x.1 ∧ ∀ y ∈ before, ¬y.1

theorem IsFirstCause.nil : IsFirstCause [] none := ⟨by simp, nofun⟩

/-- A test in front of the others decides where it holds, and leaves the decision to them where it does not. -/
theorem IsFirstCause.cons {P Q : Prop} [Decidable Q] {w : Cause} {causes : List (Prop × Cause)} {found : Option Cause} (test : Q ↔ P)
    (rest : IsFirstCause causes found) : IsFirstCause ((P, w) :: causes) (if Q then some w else found) := by
  by_cases applies : Q
  · rw [if_pos applies]
    refine ⟨iff_of_false nofun fun none => none _ List.mem_cons_self (test.1 applies), fun v same => ?_⟩
    exact ⟨[], (P, w), causes, rfl, Option.some.inj same, test.1 applies, nofun⟩
  · have front : ¬P := test.not.1 applies
    rw [if_neg applies]
    refine ⟨rest.1.trans ⟨fun none => List.forall_mem_cons.2 ⟨front, none⟩, fun none => (List.forall_mem_cons.1 none).2⟩, fun v same => ?_⟩
    obtain ⟨before, x, after, split, cause, holds, first⟩ := rest.2 v same
    exact ⟨(P, w) :: before, x, after, by rw [split]; rfl, cause, holds, List.forall_mem_cons.2 ⟨front, first⟩⟩

variable {p : Part} {c : Cut}

theorem straddles_iff {tol b : Nat} : straddles tol b c = true ↔ c.start + tol < b ∧ b + tol < c.stop := by
  rw [straddles, Bool.and_eq_true, decide_eq_true_eq, decide_eq_true_eq]

/-- The span meets an entry of a kind, with cull yes (R26, R137). -/
def MeetsCull (p : Part) (c : Cut) (k : EntryKind → Prop) : Prop :=
  ∃ e ∈ p.wt.track, e.cull = true ∧ k e.kind ∧ e.zone.meets c.start c.stop = true

theorem meetsKind_iff {test : EntryKind → Bool} {k : EntryKind → Prop} (kinds : ∀ e : TrackEntry, test e.kind = true ↔ k e.kind) :
    meetsKind p c test = true ↔ MeetsCull p c k := by
  rw [meetsKind, List.any_eq_true]
  refine exists_congr fun e => and_congr_right fun _ => ?_
  rw [Bool.and_eq_true, Bool.and_eq_true, kinds, and_assoc]

/-- The measured length differs from the region's by more than the tolerance. -/
theorem lengthOff_iff (p : Part) (r : Region) (c : Cut) :
    (match c.measured with
      | some m => decide (p.dec.lengthTol < ((m : Int) - r.length).natAbs)
      | none => false) = true ↔ ∃ m, c.measured = some m ∧ p.dec.lengthTol < ((m : Int) - r.length).natAbs := by
  cases c.measured <;> simp

/-- A boundary of the region lies inside the span. -/
theorem straddlesRegion_iff (p : Part) (r : Region) (c : Cut) :
    (straddles p.dec.straddleTol r.start c
      || (match r.stop with | some e => straddles p.dec.straddleTol e c | none => false)) = true
      ↔ (c.start + p.dec.straddleTol < r.start ∧ r.start + p.dec.straddleTol < c.stop)
        ∨ ∃ e, r.stop = some e ∧ c.start + p.dec.straddleTol < e ∧ e + p.dec.straddleTol < c.stop := by
  rw [Bool.or_eq_true, straddles_iff]
  refine or_congr_right ?_
  cases r.stop <;> simp [straddles_iff]

theorem isSplice_iff (k : EntryKind) : (match k with | .spliceJoint _ _ => true | _ => false) = true ↔ ∃ s g, k = .spliceJoint s g := by
  cases k <;> simp

theorem isOffGrade_iff (k : EntryKind) : (match k with | .offGrade _ _ => true | _ => false) = true ↔ ∃ s t, k = .offGrade s t := by
  cases k <;> simp

/-- The table of causes, in its order, with what each applies to (R137). -/
def causeTable (p : Part) (r : Region) (c : Cut) : List (Prop × Cause) :=
  let inside (b : Nat) := c.start + p.dec.straddleTol < b ∧ b + p.dec.straddleTol < c.stop
  [(r.order = none, .noOrder), (c.measured = none, .untracked), (c.moved = true, .registration),
   (∃ m, c.measured = some m ∧ p.dec.lengthTol < ((m : Int) - r.length).natAbs, .length),
   (inside r.start ∨ ∃ e, r.stop = some e ∧ inside e, .straddle),
   (MeetsCull p c (fun k => k = .swapZone), .swap), (MeetsCull p c (fun k => ∃ s g, k = .spliceJoint s g), .splice),
   (MeetsCull p c (fun k => ∃ s t, k = .offGrade s t), .offGrade), (MeetsCull p c (fun k => k = .bond), .bond),
   (MeetsCull p c (fun k => k = .defect), .defect), (MeetsCull p c (fun k => ∃ n, k = .mark n), .mark)]

theorem cullCause_isFirst (p : Part) (r : Region) (c : Cut) : IsFirstCause (causeTable p r c) (cullCause p r c) :=
  .cons Option.isNone_iff_eq_none <| .cons Option.isNone_iff_eq_none <| .cons Iff.rfl <| .cons (lengthOff_iff p r c) <|
    .cons (straddlesRegion_iff p r c) <| .cons (meetsKind_iff fun _ => decide_eq_true_iff) <| .cons (meetsKind_iff fun e => isSplice_iff e.kind) <|
    .cons (meetsKind_iff fun e => isOffGrade_iff e.kind) <| .cons (meetsKind_iff fun _ => decide_eq_true_iff) <|
    .cons (meetsKind_iff fun _ => decide_eq_true_iff) <| .cons (meetsKind_iff fun _ => isMark_iff) .nil

end Causes

/-! ## The region of a cut and its counts (R50, R137, R138) -/

section Taken

variable {p : Part} {c : Cut}

/-- The region's numbers contain the run cut number (R50). -/
def Region.Contains (n : Nat) (r : Region) : Prop := ∃ a, r.first = some a ∧ a ≤ n ∧ ∀ l, r.last = some l → n ≤ l

theorem regionFor_none {n : Nat} (nowhere : ∀ r ∈ p.os.regions, ¬r.Contains n) : regionFor p n = none :=
  List.find?_eq_none.2 fun r m held => nowhere r m ((holds_iff n r).1 held)

theorem takeCut_nowhere (nowhere : ∀ r ∈ p.os.regions, ¬r.Contains c.number) :
    takeCut c p = endRegions c.number (handleMarks c false p) := by
  simp only [takeCut, regionFor_none nowhere]

theorem disposeCut_culled {r : Region} {w : Cause} (h : cullCause p r c = some w) : disposeCut r c p = (cullCut c.number w p, true) := by
  simp only [disposeCut, h]

theorem disposeCut_good {r : Region} {o : Order} (h : cullCause p r c = none) (order : r.order = some o) :
    disposeCut r c p = takeGood c.number r o p := by
  simp only [disposeCut, h, order]

section Listed

variable {before after : List Region} {r : Region}

theorem regionFor_first {n : Nat} (list : p.os.regions = before ++ r :: after) (first : ∀ x ∈ before, ¬x.Contains n) (here : r.Contains n) :
    regionFor p n = some r := by
  rw [regionFor, list]
  exact find?_holds first here

theorem modifyFor_first {n : Nat} (f : Region → Region) (list : p.os.regions = before ++ r :: after) (first : ∀ x ∈ before, ¬x.Contains n)
    (here : r.Contains n) : modifyFor n f p = setRegions p (before ++ f r :: after) := by
  rw [modifyFor, list, modifyFirst_holds f first here]

/-- The region with one cut more attributed to it (R137). -/
def Region.countOne (r : Region) : Region := { r with attributed := sat32 r.attributed 1 }

/-- A cut of the region is attributed, then disposed of (R142). -/
theorem takeCut_first (list : p.os.regions = before ++ r :: after) (first : ∀ x ∈ before, ¬x.Contains c.number) (here : r.Contains c.number) :
    takeCut c p
      = let d := disposeCut r c (setRegions p (before ++ r.countOne :: after))
        endRegions c.number (handleMarks c d.2 d.1) := by
  have attributed : attributeCut c.number p = setRegions p (before ++ r.countOne :: after) := modifyFor_first _ list first here
  simp only [takeCut, regionFor_first list first here, attributed]

/-- The counts of a culled cut rise in its region and among the live counters, then DIVERT is posted (R138). -/
theorem cullCut_first {n : Nat} {w : Cause} (first : ∀ x ∈ before, ¬x.Contains n) (here : r.Contains n) :
    cullCut n w (setRegions p (before ++ r :: after))
      = postDivert n (raise (.culled w) 1 (setRegions p (before ++ r.cullOne w :: after))) := by
  rw [cullCut, modifyFor_first _ (setRegions_regions _ _) first here]
  rfl

theorem takeCut_culled {w : Cause} (list : p.os.regions = before ++ r :: after) (first : ∀ x ∈ before, ¬x.Contains c.number)
    (here : r.Contains c.number) (h : cullCause p r c = some w) :
    takeCut c p = endRegions c.number (handleMarks c true
      (postDivert c.number (raise (.culled w) 1 (setRegions p (before ++ r.countOne.cullOne w :: after))))) := by
  have culled := disposeCut_culled (p := setRegions p (before ++ r.countOne :: after)) h
  rw [cullCut_first (r := r.countOne) first here] at culled
  rw [takeCut_first list first here, culled]

theorem takeCut_good {o : Order} (list : p.os.regions = before ++ r :: after) (first : ∀ x ∈ before, ¬x.Contains c.number)
    (here : r.Contains c.number) (h : cullCause p r c = none) (order : r.order = some o) :
    takeCut c p
      = let t := takeGood c.number r o (setRegions p (before ++ r.countOne :: after))
        endRegions c.number (handleMarks c t.2 t.1) := by
  have good := disposeCut_good (p := setRegions p (before ++ r.countOne :: after)) h order
  rw [takeCut_first list first here, good]

end Listed

end Taken

/-! ## DIVERT (R130, R138) -/

section Divert

variable {p : Part} {n : Nat}

theorem postDivert_unbound (h : outEntry p .rejectGate = none) : postDivert n p = p := by
  have unbound : outEntry p (Command.divert n).output = none := h
  rw [postDivert, postLimited, postSequence, unbound]
  rfl

theorem onItsWay_postDivert {e : OutEntry} (h : outEntry p .rejectGate = some e) (room : (divertList p).length < 16) :
    OnItsWay (postDivert n p) (.command (.divert n) e.node e.channel) := by
  have fits : decide (Config.divertCap ≤ (divertList p).length) = false := decide_eq_false (Nat.not_le.2 room)
  rw [postDivert, postLimited, fits, Bool.and_false]
  exact onItsWay_postSequence (c := .divert n) h

/-- A DIVERT that waits keeps the next one from entering the queue (R180). -/
theorem canEnter_of_diverts (h : 0 < (divertList p).length) : canEnter p true = false := by
  have waits : (waitOf p true).isEmpty = false := by
    rw [List.isEmpty_eq_false_iff, ← List.length_pos_iff]
    exact h.trans_le (List.length_filter_le _ _)
  rw [canEnter, waits, Bool.and_false]

theorem postDivert_lost {e : OutEntry} (h : outEntry p .rejectGate = some e) (full : 16 ≤ (divertList p).length) :
    postDivert n p = latch .divertLost p := by
  have bound : (outEntry p (Command.divert n).output).isSome = true := Option.isSome_of_eq_some h
  have waits : canEnter p (Command.divert n).urgent = false := canEnter_of_diverts (by omega)
  refine if_pos ?_
  rw [bound, waits]
  exact decide_eq_true full

end Divert

/-! ## The marks of a cut (R38, R54, R140) -/

section Marks

variable {p : Part} {c : Cut} {culled : Bool}

/-- One notice for each mark that the span meets, in list order (R140). -/
theorem markNotices_forall₂ (p : Part) (c : Cut) (culled : Bool) :
    List.Forall₂ (fun e n => ∃ k, e.kind = .mark k ∧ n = .mark k e.id c.number culled)
      (p.wt.track.filter (fun e => e.kind.isMark && e.zone.meets c.start c.stop)) (markNotices p c culled) := by
  unfold markNotices
  induction p.wt.track with
  | nil => exact .nil
  | cons e l ih =>
    rw [List.filter_cons, List.filterMap_cons]
    cases kind : e.kind with
    | mark k =>
      by_cases meets : e.zone.meets c.start c.stop = true
      · simp only [EntryKind.isMark, meets, Bool.and_self, if_true]
        exact .cons ⟨k, kind, rfl⟩ ih
      · simpa only [EntryKind.isMark, meets, Bool.and_false, Bool.false_eq_true, if_false] using ih
    | _ => exact ih

/-- The part with the notices of a cut's marks posted and the passed marks removed, before the check for the places freed. -/
def marksPassed (c : Cut) (culled : Bool) (p : Part) : Part :=
  passMarks c.stop ((markNotices p c culled).foldl (fun q n => postNotice n q) p)

theorem marksPassed_kLast : (marksPassed c culled p).dec.kLast = p.dec.kLast :=
  congrArg Dec.kLast (posted_notices (markNotices p c culled) p).dec

theorem marksPassed_track : (marksPassed c culled p).wt.track = p.wt.track.filter (fun e => !(e.kind.isMark && decide (e.start < c.stop))) :=
  congrArg (fun w : Wt => w.track.filter _) (posted_notices (markNotices p c culled) p).wt

theorem handleMarks_eq :
    handleMarks c culled p
      = if (marksPassed c culled p).wt.track.length < p.wt.track.length ∧ p.dec.kLast.isSome then commitCheck (marksPassed c culled p)
        else marksPassed c culled p := by
  rw [← marksPassed_kLast (c := c) (culled := culled)]
  rfl

/-- A place is freed where a mark lies below the end of the cut. -/
theorem marksPassed_shorter_iff :
    (marksPassed c culled p).wt.track.length < p.wt.track.length ↔ ∃ e ∈ p.wt.track, (∃ k, e.kind = .mark k) ∧ e.start < c.stop := by
  rw [marksPassed_track, List.length_filter_lt_length_iff_exists]
  refine exists_congr fun e => and_congr_right fun _ => ?_
  rw [Bool.not_eq_true', Bool.not_eq_false, Bool.and_eq_true, isMark_iff, decide_eq_true_eq]

theorem handleMarks_unfreed (h : (∀ e ∈ p.wt.track, (∃ k, e.kind = .mark k) → c.stop ≤ e.start) ∨ p.dec.kLast = none) :
    handleMarks c culled p = marksPassed c culled p := by
  rw [handleMarks_eq, if_neg]
  rintro ⟨shorter, cut⟩
  rcases h with beyond | uncut
  · obtain ⟨e, listed, mark, passed⟩ := marksPassed_shorter_iff.1 shorter
    exact Nat.not_le.2 passed (beyond e listed mark)
  · simp [uncut] at cut

theorem handleMarks_freed (h : ∃ e ∈ p.wt.track, (∃ k, e.kind = .mark k) ∧ e.start < c.stop) (cut : p.dec.kLast.isSome) :
    handleMarks c culled p = commitCheck (marksPassed c culled p) := by
  rw [handleMarks_eq, if_pos ⟨marksPassed_shorter_iff.2 h, cut⟩]

end Marks

/-! ## Late changes (R130) -/

section Changes

variable {p : Part} {n : Nat}

/-- A waiting CHANGE LENGTH whose cut the count has reached, and for which nothing has been latched (R130). -/
def Overdue (n : Nat) (w : Waiting) : Prop :=
  w.late = false ∧ ∃ len k node ch, w.msg = .command (.changeLength len (some k)) node ch ∧ k ≤ n

theorem changeOverdue_iff {w : Waiting} : changeOverdue n w = true ↔ Overdue n w := by
  rw [changeOverdue, Bool.and_eq_true, Bool.not_eq_true', Overdue]
  refine and_congr_right fun _ => ?_
  rcases w with ⟨⟨c, node, ch⟩ | _ | _, late⟩
  · cases c with
    | changeLength len after => cases after <;> simp
    | _ => simp
  · simp
  · simp

/-- The part with its overdue changes marked, before the latches. -/
def changesMarked (n : Nat) (p : Part) : Part :=
  setWait p true (modifyWhere (changeOverdue n) (fun w => { w with late := true }) p.rif.urgentWait)

theorem not_overdue_of_changesMarked {w : Waiting} (m : w ∈ (changesMarked n p).rif.urgentWait) : ¬Overdue n w := by
  obtain ⟨v, -, rfl⟩ := List.mem_map.1 m
  split
  · exact fun overdue => Bool.noConfusion overdue.1
  · rename_i early
    exact changeOverdue_iff.not.1 early

/-- A latch made once for each element of a list leaves fewer frames waiting. -/
theorem few_latches {α : Type} (w : Alarm) (l : List α) (p : Part) : WaitsFewer p (l.foldl (fun q _ => latch w q) p) := by
  induction l generalizing p with
  | nil => exact .eq rfl
  | cons a l ih => exact (few_latch w p).trans (ih _)

theorem latches_set {α : Type} (w : Alarm) (l : List α) (p : Part) (h : (alarmOf p w).latch = true) :
    (alarmOf (l.foldl (fun q _ => latch w q) p) w).latch = true := by
  induction l generalizing p with
  | nil => exact h
  | cons a l ih => exact ih _ (latch_sets w p)

theorem testChanges_early (h : ∀ w ∈ p.rif.urgentWait, ¬Overdue n w) : testChanges n p = p := by
  have early : ∀ w ∈ p.rif.urgentWait, ¬changeOverdue n w = true := fun w m => changeOverdue_iff.not.2 (h w m)
  have same : modifyWhere (changeOverdue n) (fun w => { w with late := true }) p.rif.urgentWait = p.rif.urgentWait :=
    (List.map_congr_left fun w m => if_neg (early w m)).trans (List.map_id _)
  simp only [testChanges, List.filter_eq_nil_iff.2 early, List.foldl_nil, same]
  rfl

theorem testChanges_latches (h : ∃ w ∈ p.rif.urgentWait, Overdue n w) : (alarmOf (testChanges n p) .knifeCommandLate).latch = true := by
  obtain ⟨w, listed, overdue⟩ := h
  obtain ⟨a, l, late⟩ := List.exists_cons_of_ne_nil (List.ne_nil_of_mem (List.mem_filter.2 ⟨listed, changeOverdue_iff.2 overdue⟩))
  simp only [testChanges, late, List.foldl_cons]
  exact latches_set _ _ _ (latch_sets _ _)

theorem not_overdue_of_testChanges {w : Waiting} (m : w ∈ (testChanges n p).rif.urgentWait) : ¬Overdue n w :=
  not_overdue_of_changesMarked (few_latches .knifeCommandLate (p.rif.urgentWait.filter (changeOverdue n)) (changesMarked n p) w m)

end Changes

/-! ## The regions that a cut ends (R50, R66, R141) -/

section Ends

variable {p : Part} {n : Nat}

theorem endRegions_unreached (h : ∀ r ∈ p.os.regions, Region.reachedBy n r = false) : endRegions n p = p := by
  have empty : p.os.regions.filter (Region.reachedBy n) = [] := List.filter_eq_nil_iff.2 fun r m => by rw [h r m]; exact Bool.noConfusion
  simp only [endRegions, empty, List.isEmpty_nil, if_true]

/-- The regions reached are marked, SC is told of each, and OS tests for completion. -/
theorem endRegions_reached (h : ∃ r ∈ p.os.regions, Region.reachedBy n r = true) :
    endRegions n p = completeRegions ((p.os.regions.filter (Region.reachedBy n)).foldl tellEnded
      (setRegions p (p.os.regions.map (fun r => if Region.reachedBy n r then { r with ended := true } else r)))) := by
  obtain ⟨r, listed, reached⟩ := h
  have nonempty : (p.os.regions.filter (Region.reachedBy n)).isEmpty = false :=
    List.isEmpty_eq_false_iff.2 (List.ne_nil_of_mem (List.mem_filter.2 ⟨listed, reached⟩))
  simp only [endRegions, nonempty, Bool.false_eq_true, if_false]
  rfl

end Ends

/-- Settles O42, each part by the lemma about its operation. -/
theorem cullCauseIsFirstThatApplies : Obligations.CullCauseIsFirstThatApplies := by
  refine ⟨cullCause_isFirst, fun p c => ⟨takeCut_nowhere, fun before r after list first here =>
      ⟨fun w => takeCut_culled list first here, fun o => takeCut_good list first here⟩⟩,
    fun p n => ⟨fun e bound => ⟨onItsWay_postDivert bound, postDivert_lost bound⟩, postDivert_unbound⟩,
    fun p c culled => ⟨markNotices p c culled, markNotices_forall₂ p c culled, handleMarks_unfreed, handleMarks_freed⟩,
    fun p n => ⟨testChanges_early, testChanges_latches, fun w => not_overdue_of_testChanges⟩,
    fun p n => ⟨endRegions_unreached, endRegions_reached⟩⟩

end Sys2Proof.Machine
end

section
/-! The slitter: its reports, the swap point, the late slitter and NEXT selection, and O44 (R45, R46, R122 to R128). -/

namespace Sys2Proof.Machine

/-! ## Slitter reports (R124, R126, R128) -/

section Reports

variable {p : Part} {code profile : Nat}

theorem slitterSample_bad (run : p.mu.mode = .run) (h : (code ≠ 1 ∧ code ≠ 2) ∨ profile < 1 ∨ 999 < profile) :
    slitterSample code profile p = latch .badSample p := by
  rw [slitterSample, if_pos (inRun_run run)]
  by_cases range : profile < 1 ∨ 999 < profile
  · rw [if_pos range]
  · obtain ⟨notDone, notSwapped⟩ := h.resolve_right range
    rw [if_neg range, if_neg notDone, if_neg notSwapped]

section Taken

variable (run : p.mu.mode = .run) (least : 1 ≤ profile) (most : profile ≤ 999)

include run least most

theorem slitterSample_done : slitterSample 1 profile p = presetDone profile p := by
  rw [slitterSample, if_pos (inRun_run run), if_neg (by omega), if_pos rfl]

theorem slitterSample_swapped : slitterSample 2 profile p = swapped profile p := by
  rw [slitterSample, if_pos (inRun_run run), if_neg (by omega), if_neg (by decide), if_pos rfl]

end Taken

theorem presetDone_presetting (h : p.dec.inactive = .presetting profile) :
    presetDone profile p = presetHandedOn profile { p with dec := { p.dec with inactive := .ready profile } } := by
  simp only [presetDone, h, if_true]

theorem presetDone_other {x : Nat} (h : p.dec.inactive = .presetting x) (other : x ≠ profile) : presetDone profile p = p := by
  simp only [presetDone, h, if_neg other]

theorem presetDone_free (h : p.dec.inactive = .free) : presetDone profile p = p := by
  simp only [presetDone, h]

theorem presetDone_ready {x : Nat} (h : p.dec.inactive = .ready x) : presetDone profile p = p := by
  simp only [presetDone, h]

/-- A profile that the NEXT order has makes it ready (R46). -/
theorem presetHandedOn_next {o : Order} {rest : List Order} {n : NextOrder} (queue : p.os.queue = o :: rest) (next : p.os.next = some n)
    (same : o.profile = profile) :
    presetHandedOn profile p = commitCheck { p with os := { p.os with next := some { n with ready := true } } } := by
  simp only [presetHandedOn, queue, next, if_pos same]

/-- The stations changed over to a profile, with the swap DONE (R126). -/
def swapDone (profile : Nat) (p : Part) : Part :=
  { p with dec := { p.dec with active := some profile, inactive := .free, swap := .done } }

theorem swapped_unrequested (h : p.dec.swap ≠ .requested) : swapped profile p = p := if_neg h

theorem swapped_requested (h : p.dec.swap = .requested) : swapped profile p = nextSelection (closeLateZone (swapDone profile p)) := if_pos h

theorem closeLateZone_none (h : p.dec.swapRec = none ∨ ∃ r, p.dec.swapRec = some r ∧ (r.late = false ∨ r.entry.bind (entryById p) = none)) :
    closeLateZone p = p := by
  rcases h with absent | ⟨r, record, timely | gone⟩
  · simp only [closeLateZone, absent]
  · simp only [closeLateZone, record, timely, Bool.false_eq_true, if_false]
  · simp only [closeLateZone, record, gone, ite_self]

theorem closeLateZone_late {r : SwapRecord} {id : Nat} {e : TrackEntry} (record : p.dec.swapRec = some r) (late : r.late = true)
    (entry : r.entry = some id) (listed : entryById p id = some e) :
    closeLateZone p = handOn (closeZone e.id (posB p + offset p .slitter - e.start) p) := by
  have found : r.entry.bind (entryById p) = some e := by rw [entry]; exact listed
  simp only [closeLateZone, record, late, found, if_true]
  rfl

end Reports

/-! ## The swap point and the late slitter (R125, R127) -/

section Swap

variable {p : Part} {r : SwapRecord}

theorem heldProfile_held {n : Nat} (h : p.dec.inactive = .ready n ∨ p.dec.inactive = .presetting n) : heldProfile p = n := by
  rcases h with h | h <;> simp only [heldProfile, h]

section Recorded

variable (record : p.dec.swapRec = some r)

include record

theorem testSwapPoint_reached (h : p.dec.swap = .none) (reached : r.start ≤ posB p + offset p .slitter) :
    testSwapPoint p = postSetpoint (.swap (heldProfile p)) { p with free := p.free + 1, dec := { p.dec with swap := .requested } } := by
  simp only [testSwapPoint, record]
  exact if_pos ⟨h, reached⟩

theorem testSwapPoint_else (h : p.dec.swap ≠ .none ∨ posB p + offset p .slitter < r.start) : testSwapPoint p = p := by
  simp only [testSwapPoint, record]
  exact if_neg fun both => h.elim (fun begun => begun both.1) fun short => Nat.not_le.2 short both.2

theorem testSlitterLate_timely (h : p.dec.swap ≠ .requested ∨ r.late = true ∨ posB p + offset p .slitter < r.start + r.extent) :
    testSlitterLate p = (p, []) := by
  simp only [testSlitterLate, record]
  refine if_neg fun ⟨requested, first, passed⟩ => ?_
  rcases h with unrequested | late | short
  · exact unrequested requested
  · exact Bool.noConfusion (late.symm.trans first)
  · exact Nat.not_le.2 short passed

end Recorded

/-- SLITTER_LATE latched, and the record marked (R127). -/
def slitterMarked (r : SwapRecord) (p : Part) : Part :=
  latch .slitterLate { p with dec := { p.dec with swapRec := some { r with late := true } } }

theorem entryById_slitterMarked : entryById (slitterMarked r p) = entryById p :=
  funext fun id => congrArg (fun w : Wt => w.track.find? (fun e : TrackEntry => decide (e.id = id))) (latch_wt _ _)

section Late

variable (record : p.dec.swapRec = some r) (requested : p.dec.swap = .requested) (first : r.late = false)
  (passed : r.start + r.extent ≤ posB p + offset p .slitter)

include record requested first passed

theorem testSlitterLate_passed :
    testSlitterLate p =
      match r.entry.bind (entryById p) with
      | some e => openZone e.id (slitterMarked r p)
      | none =>
        let i := insertOpen (lateZone (r.start + r.extent)) (slitterMarked r p)
        ({ i.1 with dec := { i.1.dec with swapRec := some { r with late := true, entry := i.2.1 } } }, i.2.2) := by
  rw [← entryById_slitterMarked (r := r)]
  simp only [testSlitterLate, record]
  exact if_pos ⟨requested, first, passed⟩

theorem testSlitterLate_opens {id : Nat} {e : TrackEntry} (entry : r.entry = some id) (listed : entryById p id = some e) :
    testSlitterLate p = openZone e.id (slitterMarked r p) := by
  have found : r.entry.bind (entryById p) = some e := by rw [entry]; exact listed
  rw [testSlitterLate_passed record requested first passed, found]

theorem testSlitterLate_inserts (gone : r.entry.bind (entryById p) = none) :
    testSlitterLate p =
      let i := insertOpen (lateZone (r.start + r.extent)) (slitterMarked r p)
      ({ i.1 with dec := { i.1.dec with swapRec := some { r with late := true, entry := i.2.1 } } }, i.2.2) := by
  rw [testSlitterLate_passed record requested first passed, gone]

end Late

end Swap

/-! ## NEXT selection (R45, R46) -/

section Next

variable {p : Part}

/-- Nothing but the queue stands against a selection: in RUN, no order is NEXT, and the inactive station is FREE with no swap pending (R45, R122). -/
def MaySelect (p : Part) : Prop :=
  p.mu.mode = .run ∧ p.os.next = none ∧ p.dec.inactive = .free ∧ (p.dec.swapRec = none ∨ p.dec.swap = .done)

theorem stationFree_iff : stationFree p = true ↔ p.dec.inactive = .free ∧ (p.dec.swapRec = none ∨ p.dec.swap = .done) := by
  simp only [stationFree, swapPending, Bool.and_eq_true, decide_eq_true_eq, Bool.not_eq_true', Bool.and_eq_false_iff, Option.isSome_eq_false_iff,
    Option.isNone_iff_eq_none, Bool.not_eq_false']

theorem selects_iff {o : Order} : (inRun p && p.os.next.isNone && !o.hold && stationFree p) = true ↔ MaySelect p ∧ o.hold = false := by
  rw [Bool.and_eq_true, Bool.and_eq_true, Bool.and_eq_true, stationFree_iff, inRun, decide_eq_true_eq, Option.isNone_iff_eq_none,
    Bool.not_eq_true', MaySelect]
  tauto

theorem selectNext_free {o : Order} {rest : List Order} (queue : p.os.queue = o :: rest) (ready : o.hold = false) (free : MaySelect p) :
    selectNext p = compareProfile o p := by
  simp only [selectNext, queue]
  exact if_pos (selects_iff.2 ⟨free, ready⟩)

theorem selectNext_else (h : p.os.queue = [] ∨ (∃ o rest, p.os.queue = o :: rest ∧ o.hold = true) ∨ ¬MaySelect p) : selectNext p = p := by
  cases queue : p.os.queue with
  | nil => simp only [selectNext, queue]
  | cons o rest =>
    simp only [selectNext, queue]
    refine if_neg fun selects => ?_
    obtain ⟨free, ready⟩ := selects_iff.1 selects
    rcases h with empty | ⟨head, tail, list, held⟩ | taken
    · simp [queue] at empty
    · obtain ⟨rfl, -⟩ := List.cons.inj (queue.symm.trans list)
      simp [ready] at held
    · exact taken free

end Next

/-- Settles O44, each part by the lemma about its operation. -/
theorem presetDoneReadiesStation : Obligations.PresetDoneReadiesStation := by
  refine ⟨?reports, ?swap, ?next, fun p code profile => ⟨slitterSample_bad, fun config => slitterSample_config config code profile⟩⟩
  case reports =>
    intro p profile run least most
    rw [slitterSample_done run least most, slitterSample_swapped run least most]
    refine ⟨fun o rest n presetting queue next same => ?_, fun x => presetDone_other, presetDone_free, fun x => presetDone_ready,
      swapped_unrequested, fun requested => ?_⟩
    · rw [presetDone_presetting presetting]
      exact presetHandedOn_next queue next same
    · rw [swapped_requested requested]
      exact ⟨fun none => congrArg nextSelection (closeLateZone_none (p := swapDone profile p) none), fun r id e record late entry listed =>
        congrArg nextSelection (closeLateZone_late (p := swapDone profile p) record late entry listed)⟩
  case swap =>
    intro p r record
    exact ⟨testSwapPoint_reached record, testSwapPoint_else record, fun n => heldProfile_held, testSlitterLate_timely record,
      fun requested first passed => ⟨fun id e => testSlitterLate_opens record requested first passed,
        testSlitterLate_inserts record requested first passed⟩⟩
  case next =>
    intro p
    refine ⟨rfl, fun o rest queue ready free => ?_, selectNext_else, releaseStation_run⟩
    rw [selectNext_free queue ready free]
    exact ⟨compareProfile_active, compareProfile_other free.1⟩

end Sys2Proof.Machine
end

section
/-! DEC beside the swap and the stations: the stand evaluation, the grade check, the lookups and retirement leave DEC as it is, and a commitment check
leaves the last cut's number and end (R54 to R59, R141). -/

namespace Sys2Proof.Machine

/-! ## Operations that leave DEC as it is -/

@[simp] theorem dec_activate (x : Slot) (v : Nat) (p : Part) : (activate x v p).dec = p.dec := (slotWritten_activate x v p).posted.dec

@[simp] theorem dec_deactivate (x : Slot) (p : Part) : (deactivate x p).dec = p.dec := (slotWritten_deactivate x p).posted.dec

@[simp] theorem dec_setGradeLate (t : Nat) (p : Part) : (setGradeLate t p).dec = p.dec := rfl

@[simp] theorem dec_postChange (n : Nat) (c : Option Nat) (p : Part) : (postChange n c p).dec = p.dec := (posted_postLimited _ _ _ _ p).dec

@[simp] theorem dec_postGo (s : Fin 5) (w : Arm) (p : Part) : (postGo s w p).dec = p.dec := by
  unfold postGo
  dsimp only
  split <;> simp

/-- Each stage of a stand evaluation writes the stand, a region's flag, a latch, a GO or a contribution (R82 to R84, R91, R92). -/
@[simp] theorem dec_evalStand (s : Fin 5) (p : Part) : (evalStand s p).dec = p.dec := by
  have exhausted (q : Part) : (testExhausted s q).dec = q.dec := by unfold testExhausted; split <;> simp
  have hopeless (q : Part) : (testHopeless s q).dec = q.dec := by
    unfold testHopeless
    split
    · rfl
    · split <;> simp
  have trigger (q : Part) : (testTrigger s q).1.dec = q.dec := by
    unfold testTrigger
    split
    · rfl
    · split <;> rfl
  have decided (b : Bool) (q : Part) : (decideGo s b q).dec = q.dec := by
    unfold decideGo
    split <;> simp only [apply_ite Part.dec, dec_postGo, latch_dec, ite_self]
  have settled (q : Part) : (settleSplice s q).dec = q.dec := by unfold settleSplice; dsimp only; split <;> rfl
  have written (q : Part) : (writeSplice s q).dec = q.dec := by unfold writeSplice; dsimp only; split <;> split <;> simp
  unfold evalStand
  split
  · rw [written, settled, decided, trigger, hopeless, exhausted]
  · rfl

@[simp] theorem dec_armPlan (s : Fin 5) (o : Order) (n : Nat) (p : Part) : (armPlan s o n p).dec = p.dec := by
  unfold armPlan
  dsimp only
  split
  · split <;> simp
  · rfl

@[simp] theorem dec_retire (p : Part) : (retire p).dec = p.dec := by
  unfold retire
  split
  · rfl
  · exact (passJoints_wt _ p).2.1

@[simp] theorem dec_insertOrCover (f : Option (Fin 2)) (e : TrackEntry) (p : Part) : (insertOrCover f e p).1.dec = p.dec := by
  unfold insertOrCover
  split
  · rfl
  · exact (coverZone_frame _ _ _ p).1

@[simp] theorem dec_insertOff (s : Fin 5) (c : Nat × Option Nat × Nat) (p : Part) : (insertOff s c p).1.dec = p.dec := by
  have opened (e : TrackEntry) : (insertOpen e p).1.dec = p.dec := by unfold insertOpen; split <;> simp [addEntry]
  unfold insertOff
  dsimp only
  split
  · exact dec_insertOrCover _ _ p
  · exact opened _

theorem dec_foldPair {α β : Type} {f : Part → α → Part × List β} (s : ∀ r a, (f r a).1.dec = r.dec) (l : List α) (b : List β) (p : Part) :
    (l.foldl (fun acc c => let i := f acc.1 c; (i.1, acc.2 ++ i.2)) (p, b)).1.dec = p.dec := by
  induction l generalizing p b with
  | nil => rfl
  | cons a l ih => exact (ih _ _).trans (s p a)

@[simp] theorem dec_gradeCheck (s : Fin 5) (p : Part) : (gradeCheck s p).1.dec = p.dec := by
  unfold gradeCheck
  split
  · dsimp only
    rw [apply_ite Part.dec, latch_dec, ite_self]
    refine (dec_foldPair (f := fun r c => insertOff s c r) (fun r c => dec_insertOff s c r) _ _ _).trans ?_
    split
    · rfl
    · exact dec_retire _
  · rfl

@[simp] theorem dec_gradeChecks (r : Region) (p : Part) : (gradeChecks r p).dec = p.dec := by
  refine forEach_keeps Part.dec (fun s q => ?_) p
  dsimp only
  split <;> simp

@[simp] theorem dec_lookupGlue (g : Fin 3) (p : Part) : (lookupGlue g p).dec = p.dec := by
  have computed (q : Part) : (computeGlue g q).dec = q.dec := by
    unfold computeGlue
    dsimp only
    split
    · rfl
    · split <;> simp
  unfold lookupGlue
  split
  · dsimp only
    split <;> simp [computed]
  · rfl

@[simp] theorem dec_lookupWrap (w : Fin 3) (p : Part) : (lookupWrap w p).dec = p.dec := by
  have computed (q : Part) : (computeWrap w q).dec = q.dec := by
    unfold computeWrap
    dsimp only
    split
    · rfl
    · split <;> simp
  unfold lookupWrap
  split
  · dsimp only
    split <;> simp [computed]
  · rfl

@[simp] theorem dec_writeHeat (z : Fin 8) (p : Part) : (writeHeat z p).dec = p.dec := by
  unfold writeHeat
  split
  · dsimp only
    split
    · simp
    · split
      · split
        · split <;> simp
        · simp
      · simp
  · rfl

@[simp] theorem dec_lookupZone (z : Fin 8) (p : Part) : (lookupZone z p).dec = p.dec := by
  have computed (q : Part) : (setZoneState z (computeZone z q)).dec = q.dec := by
    unfold computeZone
    dsimp only
    split
    · rfl
    · split <;> simp [setZoneState]
  unfold lookupZone zoneChanged
  simp [apply_ite Part.dec, computed]

@[simp] theorem dec_lookupAll (p : Part) : (lookupAll p).dec = p.dec :=
  (forEach_keeps Part.dec dec_lookupZone _).trans ((forEach_keeps Part.dec dec_lookupWrap _).trans (forEach_keeps Part.dec dec_lookupGlue p))

@[simp] theorem dec_computeChange (p : Part) : (computeChange p).dec = p.dec := by
  unfold computeChange
  split
  · rfl
  · split <;> rfl

@[simp] theorem dec_fixEnd (r : Region) (p : Part) : (fixEnd r p).1.dec = p.dec := by
  unfold fixEnd
  dsimp only
  split <;> simp

@[simp] theorem dec_appendRegion (len stop last : Nat) (p : Part) : (appendRegion len stop last p).1.dec = p.dec := by
  unfold appendRegion
  split
  · dsimp only
    split <;> rfl
  · rfl

/-! ## The last cut's number through a commitment check (R54, R141) -/

theorem cLast_selectNext (p : Part) : (selectNext p).dec.cLast = p.dec.cLast := by
  unfold selectNext compareProfile presetStation
  split
  · rfl
  · split
    · split
      · rfl
      · split <;> simp
    · rfl

/-- A commitment gives DEC a swap record, and may preset the station: the last cut's number stays (R58, R123). -/
theorem cLast_commit (r : Region) (p : Part) : (commit r p).dec.cLast = p.dec.cLast := by
  have swap (n : Nat) (q : Part) : (insertSwap n q).dec.cLast = q.dec.cLast := by
    show (insertOrCover none (swapEntry q n 0) q).1.dec.cLast = _
    rw [dec_insertOrCover]
  unfold commit
  dsimp only
  rw [cLast_selectNext, dec_computeChange, dec_lookupAll, dec_gradeChecks, apply_ite (fun q : Part => q.dec.cLast), swap, ite_self,
    apply_ite Part.dec, dec_postChange, ite_self, dec_appendRegion, dec_fixEnd]

theorem cLast_commitTimes (n : Nat) (p : Part) : (commitTimes n p).dec.cLast = p.dec.cLast := by
  have deferred (r : Region) (q : Part) : (deferCommit r q).dec = q.dec := by unfold deferCommit; split <;> simp
  have ended (r : Region) (q : Part) : (endDeferral r q).dec = q.dec := by unfold endDeferral; split <;> simp
  induction n generalizing p with
  | zero => rfl
  | succ n ih =>
    rw [commitTimes]
    split
    · rfl
    · split
      · split
        · rw [ih, cLast_commit]
        · rw [deferred]
      · rw [ended]

theorem cLast_commitCheck (p : Part) : (commitCheck p).dec.cLast = p.dec.cLast := by
  unfold commitCheck
  split
  · exact cLast_commitTimes _ p
  · rfl

end Sys2Proof.Machine
end

section
/-! Knife reports: how the cuts of a report are numbered and placed, the end of a report, and O43 (R50, R131 to R136, R141, R142). -/

namespace Sys2Proof.Machine

/-! ## The cuts of a report (R131 to R136) -/

section Report

variable {p : Part} {n : BitVec 16} {m c k : Nat}

theorem commandedLength_first {before after : List Region} {r : Region} {x : Nat} (list : p.os.regions = before ++ r :: after)
    (first : ∀ y ∈ before, ¬y.Contains x) (here : r.Contains x) : commandedLength p x = r.length := by
  simp only [commandedLength, regionFor_first list first here]

theorem knifeSample_repeated (hc : p.dec.cLast = some c) (hk : p.dec.kLast = some k) (same : n = BitVec.ofNat 16 c) : knifeSample n m p = p := by
  simp only [knifeSample, hc, hk, same, BitVec.sub_self, BitVec.toNat_ofNat, Nat.zero_mod, if_true, ite_self]

theorem knifeSample_later (run : p.mu.mode = .run) (hc : p.dec.cLast = some c) (hk : p.dec.kLast = some k)
    (moves : (n - BitVec.ofNat 16 c).toNat ≠ 0) :
    knifeSample n m p = laterReport (n - BitVec.ofNat 16 c).toNat c k (min m 120000) p := by
  simp only [knifeSample, inRun_run run, hc, hk, if_true, if_neg moves]

theorem knifeSample_first (run : p.mu.mode = .run) (hc : p.dec.cLast = none) :
    knifeSample n m p = firstReport n.toNat (min m 120000) p := by
  simp only [knifeSample, inRun_run run, hc, if_true]

/-- The reported cut `x` of length `len` laid from `start` on, with its end tested against B: the latch and the cut (R134). -/
theorem placed_cut {q : Part} (board : posB q = posB p) (x start len : Nat) :
    lastCut (placeCut q x start len) (latchMoved (placeCut q x start len) q)
      = if q.dec.regLimit < (((start + len : Nat) : Int) - posB p).natAbs then
          lastCut { number := x, start := min start (posB p), stop := posB p, measured := some len, moved := true } (latch .knifeRegistration q)
        else lastCut { number := x, start := start, stop := start + len, measured := some len, moved := false } q := by
  rw [placeCut, board]
  split <;> rfl

theorem laterReport_one :
    laterReport 1 c k m p = lastCut (placeCut p (c + 1) k m) (latchMoved (placeCut p (c + 1) k m) p) := rfl

theorem laterReport_gap {g : Nat} (least : 2 ≤ g) (most : g ≤ 64) :
    laterReport g c k m p =
      let s := synthesize (g - 1) (c + 1) k (latch .knifeSequence p)
      lastCut (placeCut s.1 (c + g) s.2 m) (latchMoved (placeCut s.1 (c + g) s.2 m) s.1) := by
  rw [laterReport, if_neg (by omega), if_pos most]

theorem laterReport_resync {g : Nat} (far : 64 < g) : laterReport g c k m p = lastCut (freshCut p (c + g) m) (latch .knifeSequence p) := by
  rw [laterReport, if_neg (by omega), if_neg (by omega)]

end Report

/-! ## The end of a report (R141, R142) -/

section Finish

variable {p : Part}

/-- The open region is the last of the list, and its numbers contain the cut's (R48, R50). -/
def OpenContains (n : Nat) (p : Part) : Prop :=
  ∃ before r a, p.os.regions = before ++ [r] ∧ r.stop = none ∧ r.first = some a ∧ a ≤ n ∧ ∀ l, r.last = some l → n ≤ l

theorem openRegion_eq_some {r : Region} : openRegion p = some r ↔ (∃ before, p.os.regions = before ++ [r]) ∧ r.stop = none := by
  constructor
  · intro h
    unfold openRegion at h
    split at h
    · rename_i x last
      split at h
      · rename_i opened
        obtain rfl := Option.some.inj h
        exact ⟨List.getLast?_eq_some_iff.1 last, Option.isNone_iff_eq_none.1 opened⟩
      · cases h
    · cases h
  · rintro ⟨⟨before, list⟩, opened⟩
    exact openRegion_open list opened

theorem openRegion_holds_iff {n : Nat} : (openRegion p).any (Region.holds n) = true ↔ OpenContains n p := by
  rw [Option.any_eq_true]
  simp only [openRegion_eq_some, holds_iff]
  constructor
  · rintro ⟨r, ⟨⟨before, list⟩, opened⟩, a, held⟩
    exact ⟨before, r, a, list, opened, held⟩
  · rintro ⟨before, r, a, list, opened, held⟩
    exact ⟨r, ⟨⟨before, list⟩, opened⟩, a, held⟩

/-- The part behind the last cut of a report: the cut kept as the last one, the waiting changes tested, zones retired (R142). -/
def reportKept (n y : Nat) (p : Part) : Part :=
  retire (testChanges n { p with dec := { p.dec with cLast := some n, kLast := some y } })

theorem finishReport_open {n y : Nat} (h : OpenContains n (reportKept n y p)) :
    finishReport n y p = commitCheck (computeChange (reportKept n y p)) :=
  congrArg commitCheck (if_pos (openRegion_holds_iff.2 h))

theorem finishReport_else {n y : Nat} (h : ¬OpenContains n (reportKept n y p)) : finishReport n y p = commitCheck (reportKept n y p) :=
  congrArg commitCheck (if_neg (openRegion_holds_iff.not.2 h))

theorem testChanges_dec (n : Nat) (p : Part) : (testChanges n p).dec = p.dec := by
  have latched (l : List Waiting) (q : Part) : (l.foldl (fun q _ => latch .knifeCommandLate q) q).dec = q.dec := by
    induction l generalizing q with
    | nil => rfl
    | cons w l ih => exact (ih _).trans (latch_dec _ q)
  exact latched _ _

theorem reportKept_dec (n y : Nat) (p : Part) : (reportKept n y p).dec = { p.dec with cLast := some n, kLast := some y } := by
  rw [reportKept, dec_retire, testChanges_dec]

/-- The last cut's number and end are kept (R141). -/
theorem lastCut_kept (c : Cut) (p : Part) : (lastCut c p).dec.cLast = some c.number ∧ (lastCut c p).dec.kLast = some c.stop := by
  have kept := reportKept_dec c.number c.stop (takeCut c p)
  have checked (q : Part) : (commitCheck q).dec.cLast = q.dec.cLast ∧ (commitCheck q).dec.kLast = q.dec.kLast :=
    ⟨cLast_commitCheck q, (Steady.refl q).thenCommitCheck.kLast⟩
  rw [lastCut]
  by_cases h : OpenContains c.number (reportKept c.number c.stop (takeCut c p))
  · rw [finishReport_open h, (checked _).1, (checked _).2, dec_computeChange, kept]
    exact ⟨rfl, rfl⟩
  · rw [finishReport_else h, (checked _).1, (checked _).2, kept]
    exact ⟨rfl, rfl⟩

theorem placeCut_number (p : Part) (n x m : Nat) : (placeCut p n x m).number = n := by
  unfold placeCut
  split <;> rfl

/-- A later report moves the count by its gap (R132). -/
theorem laterReport_cLast {g c k m : Nat} (p : Part) : (laterReport g c k m p).dec.cLast = some (c + g) := by
  unfold laterReport
  split
  · rename_i one
    rw [(lastCut_kept _ _).1, placeCut_number, one]
  · split
    · rw [(lastCut_kept _ _).1, placeCut_number]
    · exact (lastCut_kept _ _).1

end Finish

/-- Settles O43, each part by the lemma about its operation. -/
theorem knifeReportNumbersCuts : Obligations.KnifeReportNumbersCuts := by
  refine ⟨fun p n m c k => knifeSample_repeated, ?later, fun p n before after r => commandedLength_first, fun p c => ⟨finishReport_open, finishReport_else⟩,
    ?first, fun p n m config => knifeSample_config config n m⟩
  case later =>
    intro p n m g c k run hc hk gap moves
    subst gap
    rw [knifeSample_later run hc hk moves]
    generalize (n - BitVec.ofNat 16 c).toNat = g
    refine ⟨laterReport_cLast p, fun one => ?_, fun least most => ?_, laterReport_resync⟩
    · subst one
      rw [laterReport_one]
      exact placed_cut rfl _ _ _
    · obtain ⟨q, x, first, start, steps, cuts⟩ := synthesize_iterates (g - 1) (c + 1) k (latch .knifeSequence p)
      refine ⟨q, x, first, start, steps, ?_⟩
      have board : posB (q (g - 1)) = posB p := by
        rw [posB_synthesized q x (c + 1) (g - 1) fun i lt => (steps i lt).2, first, posB, latch_wt, posB]
      rw [laterReport_gap least most, cuts]
      exact placed_cut board _ _ _
  case first =>
    intro p n m run uncut
    rw [knifeSample_first run uncut, firstReport]
    refine ⟨(lastCut_kept _ _).1, (lastCut_kept _ _).2, fun r rest list => ?_⟩
    rw [list]
    rfl

end Sys2Proof.Machine
end

section
/-! The cuts of the stacker, and O8: whatever a command does in RUN keeps the count of R157, and outside RUN nothing is counted (R157, R158). -/

namespace Sys2Proof.Machine

/-- Outside RUN no cut is counted. -/
theorem conserved_config {p : Part} (config : p.mu.mode = .config) : Conserved p := fun run => by rw [config] at run; cases run

/-- RUN entry empties the cut queue and puts the run's counts to 0 (R158). -/
theorem enteredPart_conserved (p : Part) : Conserved (enteredPart p) := fun _ _ => rfl

theorem stable_conserved : Stable Conserved where
  sound := Sound.conserved
  reset := fun _ => conserved_config rfl
  entry := fun _ _ => enterRunMode_kept.conserved (enteredPart_conserved _)
  runEnd := fun record _ _ => conserved_config (endRun_mode record)
  standsEnd := fun config _ => conserved_config config
  restart := fun config _ => conserved_config config

/-- Settles O8: each way in which a command can change the part keeps the count of the cuts. -/
theorem stepConservesGoodCuts : Obligations.StepConservesGoodCuts := fun _ _ => stable_conserved.step

end Sys2Proof.Machine
end

section
/-! A completion clears no latch: neither the removal of a region, nor the lookups, commitments, grade checks and evaluations that it starts (R54 to R59,
R66, R201). -/

namespace Sys2Proof.Machine

/-- The latch of an alarm is set. -/
def Latched (w : Alarm) (p : Part) : Prop := (alarmOf p w).latch = true

section Latches

variable {w : Alarm} {p q : Part}

/-- An update of the other blocks leaves the latches. -/
theorem Latched.same (h : Latched w p) (mu : q.mu = p.mu := by rfl) : Latched w q := by
  rw [Latched, alarmOf, mu]
  exact h

theorem Latched.latch {v : Alarm} (h : Latched w p) : Latched w (latch v p) := (posted_latch v p).latches w h

theorem Latched.postSetpoint {c : Command} (h : Latched w p) : Latched w (postSetpoint c p) := (posted_postSetpoint c p).latches w h

theorem Latched.postLimited {c : Command} {held : Part → List Waiting} {cap : Nat} {lost : Alarm} (h : Latched w p) :
    Latched w (postLimited c held cap lost p) :=
  (posted_postLimited c held cap lost p).latches w h

theorem Latched.activate {x : Slot} {v : Nat} (h : Latched w p) : Latched w (activate x v p) := (slotWritten_activate x v p).latches w h

theorem Latched.deactivate {x : Slot} (h : Latched w p) : Latched w (deactivate x p) := (slotWritten_deactivate x p).latches w h

theorem Latched.ite {c : Prop} [Decidable c] {x y : Part} (a : Latched w x) (b : Latched w y) : Latched w (if c then x else y) := by
  split
  · exact a
  · exact b

theorem Latched.forEach {n : Nat} {f : Fin n → Part → Part} (s : ∀ i r, Latched w r → Latched w (f i r)) (h : Latched w p) :
    Latched w (forEach f p) :=
  List.foldlRecOn _ _ h fun r l i _ => s i r l

/-! ## RSC (R82 to R95) -/

theorem Latched.postGo {s : Fin 5} {arm : Arm} (h : Latched w p) : Latched w (postGo s arm p) := by
  have sent (c : Command) (x : Stand) : Latched w (postSequence c (setStandRec p s x)).1 := (posted_postSequence c _).latches w h.same
  unfold Machine.postGo
  dsimp only
  split
  · exact sent _ _
  · exact (sent _ _).same

theorem Latched.decideGo {s : Fin 5} {b : Bool} (h : Latched w p) : Latched w (decideGo s b p) := by
  have q : Latched w (if b = true then Machine.latch .spliceNotReady p else p) := .ite h.latch h
  unfold Machine.decideGo
  split
  · exact .ite h.postGo (.ite q.postGo q)
  · exact q

theorem Latched.writeSplice {s : Fin 5} (h : Latched w p) : Latched w (writeSplice s p) := by
  unfold Machine.writeSplice
  dsimp only
  split
  · exact Latched.activate (.ite h.same (Latched.latch h.same))
  · exact .ite (Latched.activate h.same) (Latched.deactivate h.same)

/-- The stages of a stand evaluation set latches, and write the stand, a GO and a contribution. -/
theorem Latched.evalStand {s : Fin 5} (h : Latched w p) : Latched w (evalStand s p) := by
  have exhausted : Latched w (testExhausted s p) := .ite (Latched.latch h.same) h
  have hopeless (q : Part) (l : Latched w q) : Latched w (testHopeless s q) := by
    unfold testHopeless
    split
    · exact l
    · exact .ite (Latched.latch l.same) l
  have trigger (q : Part) (l : Latched w q) : Latched w (testTrigger s q).1 := by
    unfold testTrigger
    split
    · exact l
    · split
      · exact l.same
      · exact l
  have settled (q : Part) (l : Latched w q) : Latched w (settleSplice s q) := .ite l.same l
  exact .ite (settled _ (trigger _ (hopeless _ exhausted)).decideGo).writeSplice h

/-! ## WT's list and the grade check (R28, R29, R87, R90) -/

theorem Latched.retire (h : Latched w p) : Latched w (retire p) := by
  rw [Latched, alarmOf_retire]
  exact h

theorem Latched.insertOpen {e : TrackEntry} (h : Latched w p) : Latched w (insertOpen e p).1 := insertOpen_latches e p w h

theorem Latched.insertOrCover {f : Option (Fin 2)} {e : TrackEntry} (h : Latched w p) : Latched w (insertOrCover f e p).1 := by
  have covered : Latched w (coverZone f e.start e.stop p).1 := by
    unfold coverZone
    dsimp only
    split
    · exact h.latch
    · split
      · exact h.latch
      · split <;> exact h.latch.same
  unfold Machine.insertOrCover
  split
  · exact h.same
  · exact covered

theorem Latched.insertOff {s : Fin 5} {c : Nat × Option Nat × Nat} (h : Latched w p) : Latched w (insertOff s c p).1 := by
  unfold Machine.insertOff
  dsimp only
  split
  · exact h.insertOrCover
  · exact h.insertOpen

theorem Latched.gradeCheck {s : Fin 5} (h : Latched w p) : Latched w (gradeCheck s p).1 := by
  have inserted (l : List (Nat × Option Nat × Nat)) (q : Part) (b : List Change) (k : Latched w q) :
      Latched w (l.foldl (fun acc c => let i := Machine.insertOff s c acc.1; (i.1, acc.2 ++ i.2)) (q, b)).1 :=
    List.foldlRecOn (motive := fun x : Part × List Change => Latched w x.1) l _ k fun _ k _ _ => k.insertOff
  unfold Machine.gradeCheck
  split
  · have found {c : Prop} [Decidable c] {q : Part} (k : Latched w q) : Latched w (if c then Machine.latch .offGrade q else q) := .ite k.latch k
    exact found (inserted _ _ _ (.ite h.same (Latched.retire h.same)))
  · exact h

theorem Latched.armPlan {s : Fin 5} {o : Order} {n : Nat} (h : Latched w p) : Latched w (armPlan s o n p) := by
  unfold Machine.armPlan
  dsimp only
  split
  · split
    · exact Latched.evalStand h.same
    · exact h.latch.same
  · exact h

theorem Latched.gradeChecks {r : Region} (h : Latched w p) : Latched w (gradeChecks r p) :=
  Latched.forEach (fun s q l => by
    dsimp only
    split
    · exact l.gradeCheck.armPlan
    · exact l.gradeCheck) h

/-! ## BC's lookups (R110) -/

theorem Latched.lookupGlue {g : Fin 3} (h : Latched w p) : Latched w (lookupGlue g p) := by
  have computed (q : Part) (l : Latched w q) : Latched w (computeGlue g q) := by
    unfold computeGlue
    dsimp only
    split
    · exact l
    · exact .ite l (Latched.postSetpoint l.same)
  exact .ite (.ite h.same (computed _ h.same)) h

theorem Latched.lookupWrap {i : Fin 3} (h : Latched w p) : Latched w (lookupWrap i p) := by
  have computed (q : Part) (l : Latched w q) : Latched w (computeWrap i q) := by
    unfold computeWrap
    dsimp only
    split
    · exact l
    · exact .ite l (Latched.postSetpoint l.same)
  exact .ite (.ite h.same (computed _ h.same)) h

theorem Latched.writeHeat {z : Fin 8} (h : Latched w p) : Latched w (writeHeat z p) := by
  unfold Machine.writeHeat
  split
  · dsimp only
    split
    · exact Latched.activate h.same
    · split
      · exact .ite (Latched.activate (.ite h.same (Latched.latch h.same))) (Latched.deactivate h.same)
      · exact Latched.deactivate h.same
  · exact h

theorem Latched.lookupZone {z : Fin 8} (h : Latched w p) : Latched w (lookupZone z p) := by
  have computed (q : Part) (l : Latched w q) : Latched w (computeZone z q) := by
    unfold computeZone
    dsimp only
    split
    · exact l
    · exact .ite l (Latched.postSetpoint l.same)
  have changed (a b : Bool) (q : Part) (l : Latched w q) : Latched w (zoneChanged z a b q) := by
    have stated : Latched w (if a = true then setZoneState z (computeZone z q) else q) := .ite (computed q l).same l
    exact .ite stated.writeHeat stated
  exact .ite (changed _ _ _ h.same) h

theorem Latched.lookupAll (h : Latched w p) : Latched w (lookupAll p) :=
  Latched.forEach (fun _ _ => .lookupZone) (Latched.forEach (fun _ _ => .lookupWrap) (Latched.forEach (fun _ _ => .lookupGlue) h))

/-! ## OS (R45, R54 to R59, R66) -/

theorem Latched.selectNext (h : Latched w p) : Latched w (selectNext p) := by
  have compared (o : Order) : Latched w (compareProfile o p) := .ite h.same (.ite (Latched.postSetpoint h.same) h.same)
  unfold Machine.selectNext
  split
  · exact h
  · exact .ite (compared _) h

theorem Latched.computeChange (h : Latched w p) : Latched w (computeChange p) := by
  unfold Machine.computeChange
  split
  · exact h
  · split
    · exact h
    · exact h.same

theorem Latched.appendRegion {len stop last : Nat} (h : Latched w p) : Latched w (appendRegion len stop last p).1 := by
  unfold Machine.appendRegion
  split
  · dsimp only
    split <;> exact h.same
  · exact h.same

theorem Latched.commit {r : Region} (h : Latched w p) : Latched w (commit r p) := by
  have fixed : Latched w (fixEnd r p).1 := .ite (Latched.deactivate h.same) h.same
  have appended := fixed.appendRegion (len := r.length) (stop := (fixEnd r p).2.1) (last := (fixEnd r p).2.2)
  have swapped (n : Nat) (q : Part) (k : Latched w q) : Latched w (insertSwap n q) :=
    Latched.same (p := (Machine.insertOrCover none (swapEntry q n 0) q).1) k.insertOrCover
  unfold Machine.commit
  refine Latched.selectNext (Latched.computeChange (Latched.lookupAll (Latched.gradeChecks ?_)))
  exact .ite (swapped _ _ (.ite appended appended.postLimited)) (.ite appended appended.postLimited)

theorem Latched.commitCheck (h : Latched w p) : Latched w (commitCheck p) := by
  have deferred (r : Region) (q : Part) (l : Latched w q) : Latched w (deferCommit r q) := .ite l (Latched.activate (Latched.latch l.same))
  have ended (r : Region) (q : Part) (l : Latched w q) : Latched w (endDeferral r q) := .ite (Latched.deactivate l.same) l
  have times (n : Nat) : ∀ q, Latched w q → Latched w (commitTimes n q) := by
    induction n with
    | zero => exact fun _ l => l
    | succ n ih =>
      intro q l
      rw [commitTimes]
      split
      · exact l
      · exact .ite (.ite (ih _ l.commit) (deferred _ _ l)) (ended _ _ l)
  exact .ite (times _ p h) h

theorem Latched.completeFirst {r : Region} {rest : List Region} (h : Latched w p) : Latched w (completeFirst r rest p) := by
  unfold Machine.completeFirst
  split
  · exact h.same
  · exact (posted_writeRecord _ _).latches w (h.same (changeRefs_mu _ _ _))

/-- What a completion starts clears no latch. -/
theorem Latched.completeRegions (h : Latched w p) : Latched w (completeRegions p) := by
  have times (n : Nat) : ∀ q, Latched w q → Latched w (completeTimes n q) := by
    induction n with
    | zero => exact fun _ l => l
    | succ n ih =>
      intro q l
      rw [completeTimes]
      split
      · exact l
      · exact .ite (ih _ l.completeFirst.lookupAll).commitCheck l
  exact times _ p h

end Latches

end Sys2Proof.Machine
end

section
/-! The cut queue: good cuts, order ends, arrivals, missing heads, SC's commands and the backlog flag, and O45 (R147 to R156). -/

namespace Sys2Proof.Machine

/-! ## The heads that leave (R154, R156) -/

section Heads

variable {p : Part} {w : Alarm}

theorem Latched.actFlags {e : CutEntry} (h : Latched w p) : Latched w (actFlags e p) := by
  have ejected : Latched w (if e.stackEnd = true then postEject e.tag p else p) := .ite h.postLimited h
  exact .ite ejected.postLimited ejected

theorem Latched.testBacklog (h : Latched w p) : Latched w (testBacklog p) :=
  .ite (Latched.activate h.same) (.ite (Latched.deactivate h.same) h)

/-- A head removed as missing latches STACKER_MISSING, and what follows does not clear it. -/
theorem latched_removeMissing (e : CutEntry) (rest : List CutEntry) (p : Part) : Latched .stackerMissing (removeMissing e rest p) :=
  Latched.completeRegions (Latched.actFlags (latch_sets _ _))

theorem latched_testHead (h : Latched .stackerMissing p) : Latched .stackerMissing (testHead p) := by
  have times (n : Nat) : ∀ q, Latched .stackerMissing q → Latched .stackerMissing (missingTimes n q) := by
    induction n with
    | zero => exact fun _ l => l
    | succ n ih =>
      intro q l
      rw [missingTimes]
      split
      · exact l
      · exact .ite (ih _ (latched_removeMissing _ _ _)) l
  exact (times _ p h).testBacklog

/-- The first `k` entries of a queue are overdue and the next one is not (R156). -/
structure FirstLate (time transit k : Nat) (l : List CutEntry) : Prop where
  late : ∀ x ∈ l.take k, x.knifeTime + transit ≤ time
  early : ∀ x, l[k]? = some x → time < x.knifeTime + transit

/-- Behind an overdue head leave the entries that are overdue, up to the first that is not, each counted missing. -/
theorem testHead_missing (rest : List CutEntry) (p : Part) (e : CutEntry) (list : p.sc.cuts = e :: rest)
    (overdue : e.knifeTime + p.sc.transit ≤ p.time) :
    ∃ k, FirstLate p.time p.sc.transit k rest ∧ (testHead p).sc = { p.sc with
      cuts := rest.drop k, missing := min (2 ^ 32 - 1) (p.sc.missing + 1 + min k rest.length), backlog := (testHead p).sc.backlog } := by
  induction rest generalizing p e with
  | nil =>
    refine ⟨0, ⟨nofun, nofun⟩, ?_⟩
    rw [testHead_overdue list overdue, testHead_empty (by rw [removeMissing_sc]), steady_testBacklog, removeMissing_sc]
    rfl
  | cons x rest ih =>
    have sc : (removeMissing e (x :: rest) p).sc = _ := removeMissing_sc e (x :: rest) p
    have time := (kept_removeMissing list).time
    have left : (removeMissing e (x :: rest) p).sc.cuts = x :: rest := by rw [sc]
    rw [testHead_overdue list overdue]
    rcases Nat.lt_or_ge p.time (x.knifeTime + p.sc.transit) with early | late
    · refine ⟨0, ⟨nofun, fun y first => ?_⟩, ?_⟩
      · cases first
        exact early
      · rw [testHead_early left (by rw [sc, time]; exact early), steady_testBacklog, sc]
        rfl
    · obtain ⟨k, first, tested⟩ := ih (removeMissing e (x :: rest) p) x left (by rw [sc, time]; exact late)
      rw [time, sc] at first
      refine ⟨k + 1, ⟨?_, first.early⟩, ?_⟩
      · rw [List.take_succ_cons]
        exact List.forall_mem_cons.2 ⟨late, first.late⟩
      · rw [tested, sc]
        simp only [List.drop_succ_cons, List.length_cons, sat32, Sc.mk.injEq, true_and, and_true]
        omega

theorem transitExpires_overdue {e : CutEntry} {rest : List CutEntry} (run : p.mu.mode = .run) (list : p.sc.cuts = e :: rest)
    (overdue : e.knifeTime + p.sc.transit ≤ p.time) : transitExpires p = testHead p := by
  have late : headOverdue p = true := by simp [headOverdue, list, overdue]
  rw [transitExpires, inRun_run run, late]
  rfl

theorem removeMissing_eq (e : CutEntry) (rest : List CutEntry) (p : Part) :
    removeMissing e rest p
      = let q := setRegions (setCuts p rest)
          (p.os.regions.map (fun x => if x.order.map Order.tag = some e.tag then { x with missing := min (2 ^ 32 - 1) (x.missing + 1) } else x))
        completeRegions (actFlags e (latch .stackerMissing { q with sc := { q.sc with missing := min (2 ^ 32 - 1) (p.sc.missing + 1) } })) := by
  unfold removeMissing
  rw [modifyRegion_eq]
  rfl

theorem removeStacked_eq {e : CutEntry} {rest : List CutEntry} {x : Region} {o : Order} (region : regionOf p e.tag = some x)
    (order : x.order = some o) :
    removeStacked e rest p
      = let q := setRegions (setCuts p rest)
          (p.os.regions.map (fun x => if x.order.map Order.tag = some e.tag then { x with stacked := min (2 ^ 32 - 1) (x.stacked + 1) } else x))
        let t := raise .goodSheets o.outs (raise .stackedCuts 1 q)
        completeRegions (actFlags e { t with sc := { t.sc with stacked := min (2 ^ 32 - 1) (p.sc.stacked + 1) } }) := by
  have outs : outsOf p e.tag = o.outs := by simp only [outsOf, region, order]
  unfold removeStacked
  dsimp only
  rw [outs, modifyRegion_eq]
  simp only [raise_sc]
  rfl

end Heads

/-! ## Good cuts (R147, R148) -/

section Good

variable {p : Part} {cut : Nat} {r : Region} {o : Order}

theorem takeGood_room (room : p.sc.cuts.length < 64) :
    takeGood cut r o p
      = (testBacklog (modifyRegion o.tag (Region.enterGood o)
          { p with sc := { p.sc with
              cuts := p.sc.cuts ++ [{ cut := cut, tag := o.tag, knifeTime := p.time, stackEnd := decide (r.countdown ≤ 1), orderEnd := false }],
              entered := sat32 p.sc.entered 1 } }), false) :=
  if_pos room

theorem takeGood_full (full : 64 ≤ p.sc.cuts.length) :
    takeGood cut r o p
      = (latch .backlog (postDivert cut (raise (.culled .backlog) 1 (modifyRegion o.tag (Region.cullOne .backlog) p))), true) :=
  if_neg (Nat.not_lt.2 full)

theorem outEntry_si {p q : Part} (si : q.si = p.si) (x : Output) : outEntry q x = outEntry p x := by rw [outEntry, si, outEntry]

end Good

/-! ## SC's commands (R152) -/

section Commands

variable {p : Part} {c : Command} {held : Part → List Waiting} {cap : Nat} {lost : Alarm}

theorem postLimited_unbound (unbound : outEntry p c.output = none) : postLimited c held cap lost p = p := by
  rw [postLimited, postSequence, unbound]
  rfl

theorem onItsWay_postLimited {e : OutEntry} (bound : outEntry p c.output = some e) (room : (held p).length < cap) :
    OnItsWay (postLimited c held cap lost p) (.command c e.node e.channel) := by
  have fits : decide (cap ≤ (held p).length) = false := decide_eq_false (Nat.not_le.2 room)
  rw [postLimited, fits, Bool.and_false]
  exact onItsWay_postSequence bound

theorem postLimited_lost {e : OutEntry} (bound : outEntry p c.output = some e) (waits : canEnter p c.urgent = false)
    (full : cap ≤ (held p).length) : postLimited c held cap lost p = latch lost p := by
  refine if_pos ?_
  rw [bound, waits]
  exact decide_eq_true full

/-- A command of SC that waits keeps the next one from entering the queue (R180). -/
theorem canEnter_of_stackerList (h : 0 < (stackerList p).length) : canEnter p true = false := by
  have waits : (waitOf p true).isEmpty = false := by
    rw [List.isEmpty_eq_false_iff, ← List.length_pos_iff]
    exact h.trans_le (List.length_filter_le _ _)
  rw [canEnter, waits, Bool.and_false]

end Commands

/-! ## Order ends (R150, R151) -/

section Ends

theorem modifyFirst_append {α : Type} {c : α → Bool} (f : α → α) {before after : List α} {x : α} (others : ∀ y ∈ before, c y = false)
    (here : c x = true) : modifyFirst c f (before ++ x :: after) = before ++ f x :: after := by
  induction before with
  | nil => rw [List.nil_append, modifyFirst, if_pos here]; rfl
  | cons y before ih =>
    obtain ⟨other, others⟩ := List.forall_mem_cons.1 others
    rw [List.cons_append, modifyFirst, other, if_neg Bool.false_ne_true, ih others]
    rfl

theorem modifyFinal_append {α : Type} {c : α → Bool} (f : α → α) {before after : List α} {x : α} (others : ∀ y ∈ after, c y = false)
    (here : c x = true) : modifyFinal c f (before ++ x :: after) = before ++ f x :: after := by
  have reversed : (before ++ x :: after).reverse = after.reverse ++ x :: before.reverse := by simp
  rw [modifyFinal, reversed, modifyFirst_append f (fun y m => others y (List.mem_reverse.1 m)) here]
  simp

variable {p : Part} {r : Region} {o : Order}

/-- An order that ends with no entry in the queue (R151). -/
theorem orderEnded_absent (absent : ∀ c ∈ p.sc.cuts, c.tag ≠ o.tag) :
    orderEnded r o p = postOrderEnd o.tag (if r.countdown ≠ o.stackHeight then postEject o.tag p else p) := by
  have unmarked : (p.sc.cuts.any fun c => decide (c.tag = o.tag)) = false := by simpa using absent
  simp only [orderEnded, unmarked, Bool.false_eq_true, if_false, decide_eq_true_eq]

/-- An order that ends marks its last entry in the queue (R150). -/
theorem orderEnded_queued {before after : List CutEntry} {c : CutEntry} (list : p.sc.cuts = before ++ c :: after) (tag : c.tag = o.tag)
    (others : ∀ x ∈ after, x.tag ≠ o.tag) :
    orderEnded r o p = setCuts p (before ++ c.flagged (decide (r.countdown ≠ o.stackHeight)) :: after) := by
  have found : (p.sc.cuts.any fun c => decide (c.tag = o.tag)) = true := by simp [list, tag]
  simp only [orderEnded, found, if_true]
  rw [list, modifyFinal_append _ (fun y m => decide_eq_false (others y m)) (decide_eq_true tag)]

end Ends

/-! ## The backlog flag (R149) -/

section Backlog

variable {p : Part}

theorem testBacklog_sets (clear : p.sc.backlog = false) (high : p.sc.watermark ≤ p.sc.cuts.length) :
    testBacklog p = activate .backlog p.sg.crawl { p with sc := { p.sc with backlog := true } } := by
  simp [testBacklog, clear, high]

theorem testBacklog_clears (flagged : p.sc.backlog = true) (low : p.sc.cuts.length ≤ p.sc.watermark - 8) :
    testBacklog p = deactivate .backlog { p with sc := { p.sc with backlog := false } } := by
  simp [testBacklog, flagged, low]

theorem testBacklog_keeps (h : (p.sc.backlog = false ∧ p.sc.cuts.length < p.sc.watermark)
    ∨ (p.sc.backlog = true ∧ p.sc.watermark - 8 < p.sc.cuts.length)) : testBacklog p = p := by
  rcases h with ⟨clear, low⟩ | ⟨flagged, high⟩
  · simp [testBacklog, clear, low]
  · simp [testBacklog, flagged, high]

end Backlog

/-! ## Arrivals (R153 to R155) -/

section Arrivals

variable {p : Part} {a : BitVec 16}

theorem stackerSample_first (run : p.mu.mode = .run) (fresh : p.sc.lastArrival = none) :
    stackerSample a p = { p with sc := { p.sc with lastArrival := some a } } := by
  simp only [stackerSample, inRun_run run, fresh, if_true]

theorem stackerSample_later {b : BitVec 16} (run : p.mu.mode = .run) (last : p.sc.lastArrival = some b) :
    stackerSample a p = takeArrivals (a - b).toNat { p with sc := { p.sc with lastArrival := some a } } := by
  simp only [stackerSample, inRun_run run, last, if_true]

theorem takeArrivals_phantom {n : Nat} (empty : p.sc.cuts = []) :
    takeArrivals (n + 1) p = latch .stackerPhantom { p with sc := { p.sc with phantom := sat32 p.sc.phantom (n + 1) } } := by
  simp only [takeArrivals, empty]

theorem takeArrivals_stacked {n : Nat} {e : CutEntry} {rest : List CutEntry} (list : p.sc.cuts = e :: rest) :
    takeArrivals (n + 1) p = takeArrivals n (testHead (removeStacked e rest p)) := by
  simp only [takeArrivals, list]

end Arrivals

/-- Settles O45, each part by the lemma about its operation. -/
theorem overdueHeadGoesMissing : Obligations.OverdueHeadGoesMissing := by
  refine ⟨?overdue, ?good, fun p a run => ⟨stackerSample_first run, fun b => stackerSample_later run⟩,
    fun p n => ⟨rfl, takeArrivals_phantom, fun e rest => takeArrivals_stacked⟩,
    fun p => ⟨testHead_empty, fun e rest list => ⟨testHead_early list, testHead_overdue list⟩⟩,
    fun p e rest => ⟨removeMissing_eq e rest p, fun x o => removeStacked_eq, rfl⟩, ?commands,
    fun p r o => ⟨orderEnded_absent, fun before c after => orderEnded_queued⟩, ?backlog, fun p a config => stackerSample_config config a⟩
  case overdue =>
    intro s e rest run list overdue
    obtain ⟨k, first, tested⟩ := testHead_missing rest s.part e list overdue
    refine ⟨testHead s.part, ?_, rfl, ?_, ⟨k, by rw [tested], by rw [tested], first.late, first.early⟩, by rw [tested], by rw [tested],
      (Kept.refl s.part).thenTestHead.board⟩
    · rw [← transitExpires_overdue run list overdue]
      rfl
    · rw [testHead_overdue list overdue]
      exact latched_testHead (latched_removeMissing e rest s.part)
  case good =>
    refine fun p cut r o => ⟨fun room => ?_, fun full => ?_⟩
    · rw [takeGood_room room, modifyRegion_eq]
      rfl
    · rw [takeGood_full full, modifyRegion_eq]
      refine ⟨rfl, ?_, latch_sets _ _, fun e bound more => OnItsWay.latch (onItsWay_postDivert ?_ more)⟩
      · rw [latch_sc, postDivert, (posted_postLimited _ _ _ _ _).sc, raise_sc, setRegions_sc]
      · rw [← bound]
        exact outEntry_si (raise_si _ _ _) _
  case commands =>
    refine fun p tag => ⟨fun e bound => ⟨fun room => ?_, fun full => ?_⟩, fun unbound => ?_⟩
    · exact ⟨onItsWay_postLimited (c := .eject tag) bound room, onItsWay_postLimited (c := .orderEnd tag) bound room⟩
    · have waits := canEnter_of_stackerList (p := p) (by omega)
      exact ⟨postLimited_lost (c := .eject tag) bound waits full, postLimited_lost (c := .orderEnd tag) bound waits full⟩
    · exact ⟨postLimited_unbound (c := .eject tag) unbound, postLimited_unbound (c := .orderEnd tag) unbound⟩
  case backlog =>
    refine fun p => ⟨fun clear high => ?_, fun flagged low => ?_, testBacklog_keeps⟩
    · rw [testBacklog_sets clear high]
      exact ⟨(slotWritten_activate _ _ _).posted.sc, (slotWritten_activate _ _ _).slots⟩
    · rw [testBacklog_clears flagged low]
      exact ⟨(slotWritten_deactivate _ _).posted.sc, (slotWritten_deactivate _ _).slots⟩

end Sys2Proof.Machine
end

section
/-! The effective ceiling: the least of the line max and the active contributions, and its invariant, which every step keeps (R161, R170), with O7; and the
state after reset, which meets the five invariants, with O10. -/

namespace Sys2Proof.Machine

/-! ## The least contribution (R161) -/

/-- The least so far, once a contribution is taken into account: an inactive one does not bind (R161). -/
def lowered (m : Nat) (c : Contribution) : Nat := if c.active then min m c.value else m

theorem ceilingOf_eq_foldl (g : Sg) : ceilingOf g = g.slots.toList.foldl lowered g.lineMax := rfl

theorem le_lowered_iff {n m : Nat} {c : Contribution} : n ≤ lowered m c ↔ n ≤ m ∧ (c.active = true → n ≤ c.value) := by
  unfold lowered
  split
  · rename_i active
    simp only [le_min_iff, active, true_imp_iff]
  · rename_i inactive
    exact ⟨fun h => ⟨h, fun active => absurd active inactive⟩, And.left⟩

theorem lowered_cases (m : Nat) (c : Contribution) : lowered m c = m ∨ c.active = true ∧ lowered m c = c.value := by
  unfold lowered
  split
  · rename_i active
    exact (min_choice m c.value).imp id fun least => ⟨active, least⟩
  · exact .inl rfl

theorem le_foldl_lowered_iff {n : Nat} (l : List Contribution) (m : Nat) :
    n ≤ l.foldl lowered m ↔ n ≤ m ∧ ∀ c ∈ l, c.active = true → n ≤ c.value := by
  induction l generalizing m with
  | nil => simp
  | cons c l ih => rw [List.foldl_cons, ih, le_lowered_iff, List.forall_mem_cons, and_assoc]

theorem foldl_lowered_cases (l : List Contribution) (m : Nat) :
    l.foldl lowered m = m ∨ ∃ c ∈ l, c.active = true ∧ l.foldl lowered m = c.value := by
  induction l generalizing m with
  | nil => exact .inl rfl
  | cons c l ih =>
    rw [List.foldl_cons]
    rcases ih (lowered m c) with first | ⟨d, mem, active, least⟩
    · rw [first]
      exact (lowered_cases m c).imp id fun least => ⟨c, List.mem_cons_self, least⟩
    · exact .inr ⟨d, List.mem_cons_of_mem c mem, active, least⟩

/-- The slots in the order of R159's table. -/
def slotTable : List Slot :=
  (List.finRange 8).map .heat ++ (List.finRange 5).map .splice ++ (List.finRange 2).map .bridge
    ++ [.orderWait, .backlog, .actuatorLost, .encoder, .webBreak, .operator]

theorem slotTable_complete : ∀ i : Fin 21, ∃ x ∈ slotTable, x.idx = i := by decide

/-- The contributions of the table are those of its slots (R159). -/
theorem mem_slots_iff {v : Vector Contribution 21} {c : Contribution} : c ∈ v.toList ↔ ∃ x : Slot, v.get x.idx = c := by
  rw [Vector.mem_toList_iff, Vector.mem_iff_getElem]
  constructor
  · rintro ⟨i, bound, rfl⟩
    obtain ⟨x, _, place⟩ := slotTable_complete ⟨i, bound⟩
    exact ⟨x, by rw [place]; rfl⟩
  · rintro ⟨x, rfl⟩
    exact ⟨x.idx, x.idx.isLt, rfl⟩

theorem leastCeiling_ceilingOf (g : Sg) : LeastCeiling g (ceilingOf g) := by
  rw [ceilingOf_eq_foldl]
  obtain ⟨max, slots⟩ := (le_foldl_lowered_iff g.slots.toList g.lineMax).1 (Nat.le_refl _)
  refine ⟨max, fun x => slots _ (mem_slots_iff.2 ⟨x, rfl⟩), (foldl_lowered_cases _ _).imp id ?_⟩
  rintro ⟨c, mem, active, least⟩
  obtain ⟨x, rfl⟩ := mem_slots_iff.1 mem
  exact ⟨x, active, least⟩

/-! ## What the mode changes leave of SG and of the GO records (R101, R165, R170) -/

/-- RUN entry empties the table and puts the effective ceiling at the line max (R165). -/
theorem enteredPart_governed (p : Part) : Governed (enteredPart p) :=
  (governed_run rfl).2 (congrArg some (ceilingOf_noSlots (enteredPart p).sg rfl).symm)

theorem reset_governed (straps : Byte) : Governed (Part.reset straps) :=
  (governed_config rfl).2 ⟨rfl, rfl, fun s => congrArg Stand.recent (Vector.get_replicate _ Stand.reset s)⟩

/-- A RESTART taken in CONFIG discards the records of the GOs (R101, R199). -/
theorem standsEnded_governed {p : Part} (config : p.mu.mode = .config) (g : Governed p) : Governed { p with rsc := p.rsc.ended } := by
  obtain ⟨absent, inactive, _⟩ := (governed_config config).1 g
  exact (governed_config (p := { p with rsc := p.rsc.ended }) config).2 ⟨absent, inactive, fun s => ended_recent s⟩

theorem restartClear_governed {p : Part} (config : p.mu.mode = .config) (g : Governed p) : Governed (restartClear p) :=
  (governed_config (p := restartClear p) config).2 ((governed_config config).1 g)

theorem stable_governed : Stable Governed where
  sound := Sound.governed
  reset := reset_governed
  entry := by
    intro p _ _
    have kept : Kept (enteredPart p) (enterRunMode p) := enterRunMode_kept
    -- `Governed` matches on the mode: with RUN entry named by a variable, Lean does not evaluate it to learn the mode.
    generalize enterRunMode p = q at kept
    exact kept.governed rfl (enteredPart_governed p)
  runEnd := fun record _ _ => endRun_governed record
  standsEnd := standsEnded_governed
  restart := restartClear_governed

/-- Settles O7: each way in which a command can change the part keeps the ceiling, and the model's ceiling is the least contribution. -/
theorem stepKeepsCeiling : Obligations.StepKeepsCeiling := ⟨fun _ _ => stable_governed.step, leastCeiling_ceilingOf⟩

/-! ## The state after reset -/

/-- The straps give a node number of 1 to 239 or none, and reset leaves CONFIG with no request (R171). -/
theorem reset_nodeLegal (straps : Byte) : NodeLegal (Part.reset straps) := by
  by_cases legal : 1 ≤ straps.toNat ∧ straps.toNat ≤ 239
  · have node : (Part.reset straps).node = some straps.toNat := if_pos legal
    rw [NodeLegal, node]
    exact legal
  · have node : (Part.reset straps).node = none := if_neg legal
    rw [NodeLegal, node]
    exact ⟨rfl, rfl⟩

/-- Settles O10: the five invariants hold after a reset with any straps. -/
theorem resetMeetsInvariants : Obligations.ResetMeetsInvariants :=
  ⟨reset_caps 1, reset_governed 1, conserved_config rfl, reset_nodeLegal 1, reset_ordered 1⟩

end Sys2Proof.Machine
end

section
/-! SG's operations: a write to a slot, the three requests that write one, and the refresh, with O46, O47 and O48 (R160, R161, R163, R164, R166 to R168). -/

namespace Sys2Proof.Machine

variable {p : Part} {x : Slot} {c : Contribution}

/-! ## A write to a slot (R160) -/

/-- SG's state with a contribution stored, before the effective ceiling is recorded. -/
def Sg.store (g : Sg) (x : Slot) (c : Contribution) : Sg := { g with slots := upd g.slots x.idx c }

theorem writeSlot_held (held : p.sg.slots.get x.idx = c) : writeSlot x c p = p := if_pos held

theorem writeSlot_sameCeiling (changed : p.sg.slots.get x.idx ≠ c) (same : p.sg.effective = some (ceilingOf (p.sg.store x c))) :
    writeSlot x c p = { p with sg := p.sg.store x c } := by
  have unposted : ¬ (inRun p && !decide (p.sg.effective = some (ceilingOf (p.sg.store x c)))) = true := by simp [same]
  exact (if_neg changed).trans (if_neg unposted)

/-- The post of R163 follows the record of the ceiling that it carries. -/
theorem writeSlot_newCeiling (run : p.mu.mode = .run) (changed : p.sg.slots.get x.idx ≠ c)
    (new : p.sg.effective ≠ some (ceilingOf (p.sg.store x c))) :
    writeSlot x c p = postSetpoint (.driveCeiling (ceilingOf (p.sg.store x c)))
      { p with sg := { p.sg.store x c with effective := some (ceilingOf (p.sg.store x c)),
                                           lastPosted := some (ceilingOf (p.sg.store x c)) } } := by
  have posted : (inRun p && !decide (p.sg.effective = some (ceilingOf (p.sg.store x c)))) = true := by simp [inRun_run run, new]
  exact (if_neg changed).trans (if_pos posted)

/-- Settles O47: an activation and a deactivation are each one write to a slot, of the clamped value and of 0. -/
theorem slotWrites : Obligations.SlotWrites := by
  refine ⟨leastCeiling_ceilingOf, fun p x run => ?_⟩
  exact ⟨fun v => ⟨writeSlot_held, fun changed => ⟨writeSlot_sameCeiling changed, writeSlot_newCeiling run changed⟩⟩,
    writeSlot_held, fun changed => ⟨writeSlot_sameCeiling changed, writeSlot_newCeiling run changed⟩⟩

/-! ## SET CEILING, CLEAR CEILING and CLEAR BREAK (R166 to R168) -/

/-- A write to a slot in RUN leaves the effective ceiling the least contribution (R160, R161). -/
theorem effective_writeSlot (run : p.mu.mode = .run) (g : Governed p) :
    (writeSlot x c p).sg.effective = some (ceilingOf (writeSlot x c p).sg) :=
  (Kept.refl p).thenWriteSlot.ceiling run ((governed_run run).1 g)

/-- The posts that a write to a slot can make leave the blocks of the web and of the orders. -/
theorem SlotWritten.blocks {q : Part} (h : SlotWritten x c p q) :
    q.wt = p.wt ∧ q.os = p.os ∧ q.bc = p.bc ∧ q.dec = p.dec ∧ q.sc = p.sc :=
  ⟨h.posted.wt, h.posted.os, h.posted.bc, h.posted.dec, h.posted.sc⟩

theorem setOperator_ok (run : p.mu.mode = .run) (g : Governed p) (v : Nat) :
    setOperator [v] p = okWith (w32 (min v p.sg.lineMax) ++ opt32 (some (ceilingOf (activate .operator v p).sg))) (activate .operator v p) := by
  rw [setOperator, activate, effective_writeSlot run g]

theorem clearSlot_ok (run : p.mu.mode = .run) (g : Governed p) (fs : List Nat) :
    clearSlot x fs p = okWith (flag (slotActive p x) ++ opt32 (some (ceilingOf (deactivate x p).sg))) (deactivate x p) := by
  rw [clearSlot, deactivate, effective_writeSlot run g]

section Asked

variable {s : State} {r : Request} (run : s.part.mu.mode = .run) (g : Governed s.part)
include run g

/-- SET CEILING's answer and effects (R166). -/
theorem setOperator_effects {v : Nat} (a : Asks s.part 66 [4] [v] r) :
    ∃ q : Part, exec .setCeiling s = Answered s r .ok (w32 (min v s.part.sg.lineMax) ++ opt32 (some (ceilingOf q.sg))) q
      ∧ q.sg.slots = upd s.part.sg.slots Slot.operator.idx { active := true, value := min v s.part.sg.lineMax }
      ∧ q.wt = s.part.wt ∧ q.os = s.part.os ∧ q.bc = s.part.bc ∧ q.dec = s.part.dec ∧ q.sc = s.part.sc := by
  have taken : (Taken.only .run).allows s.part.mu.mode = true := by rw [run]; rfl
  have governed : Governed (popRequest s.part) := (sound_popRequest s.part).governed g
  have written := slotWritten_activate .operator v (popRequest s.part)
  exact ⟨_, onPart_serve_of_asks a taken (setOperator_ok (p := popRequest s.part) run governed v), written.slots, written.blocks⟩

/-- The answer and the effects of a request that makes a slot inactive (R167, R168). -/
theorem clearSlot_effects {code : Nat} (x : Slot) (a : Asks s.part code [] [] r) :
    ∃ q : Part, onPart (serve code (.only .run) [] (clearSlot x)) s
        = Answered s r .ok (flag (slotActive s.part x) ++ opt32 (some (ceilingOf q.sg))) q
      ∧ q.sg.slots = upd s.part.sg.slots x.idx { active := false, value := 0 }
      ∧ q.wt = s.part.wt ∧ q.os = s.part.os ∧ q.bc = s.part.bc ∧ q.dec = s.part.dec ∧ q.sc = s.part.sc := by
  have taken : (Taken.only .run).allows s.part.mu.mode = true := by rw [run]; rfl
  have governed : Governed (popRequest s.part) := (sound_popRequest s.part).governed g
  have written := slotWritten_deactivate x (popRequest s.part)
  exact ⟨_, onPart_serve_of_asks a taken (clearSlot_ok (p := popRequest s.part) run governed []), written.slots, written.blocks⟩

end Asked

/-- Settles O46: each request makes one write to its slot and answers the ceiling after it. -/
theorem ceilingRequests : Obligations.CeilingRequests :=
  ⟨leastCeiling_ceilingOf, fun _ _ run g =>
    ⟨fun _ => setOperator_effects run g, clearSlot_effects run g .operator, clearSlot_effects run g .webBreak⟩⟩

/-! ## The refresh (R164) -/

theorem refreshExpires_due {d e : Nat} (run : p.mu.mode = .run) (next : p.sg.nextRefresh = some d) (due : d ≤ p.time)
    (effective : p.sg.effective = some e) :
    refreshExpires p = postCeiling e { p with sg := { p.sg with nextRefresh := some (d + p.sg.refreshPeriod) } } := by
  have expired : (inRun p && decide (d ≤ p.time)) = true := by rw [inRun_run run, decide_eq_true due, Bool.and_self]
  simp only [refreshExpires, next, effective, expired, if_true]

/-- Settles O48: the expiry that is due posts the ceiling in effect. -/
theorem refreshPostsCeiling : Obligations.RefreshPostsCeiling := by
  intro s d e run next due effective
  show onPart refreshExpires s = _
  rw [onPart, refreshExpires_due run next due effective]
  rfl

end Sys2Proof.Machine
end

section
/-! Steps as commands: what a step on an empty queue does, that every command answers a next state, the reset, and the node number, which every step keeps
legal, with O2, O3, O5 and O9 (R171, R196). -/

namespace Sys2Proof.Machine

/-! ## Steps and commands -/

/-- Settles O2: the two answers of `ownCommand` are the two cases of a step on an empty queue. -/
theorem idleStepTakesDueCommandOrTicks : Obligations.IdleStepTakesDueCommandOrTicks := by
  intro s empty
  refine ⟨fun c own => ?_, fun own => ?_⟩
  · simp only [step, empty, own]
  · simp only [step, empty, own, tick]

/-- Settles O3: a command that leaves the mode is sound, and the four others act on the part alone as well. -/
theorem everyCommandAnswersNext : Obligations.EveryCommandAnswersNext := by
  intro c s
  by_cases m : changesMode c = true
  · cases c with
    | powerOnReset straps => exact ⟨_, rfl⟩
    | enterRun => exact ⟨_, rfl⟩
    | enterConfig => exact ⟨_, rfl⟩
    | restart => exact ⟨_, rfl⟩
    | _ => cases m
  · obtain ⟨q, next, _⟩ := exec_sound c s (Bool.eq_false_iff.2 m)
    exact ⟨q, next⟩

theorem strapNode_legal {b : Byte} (h : 1 ≤ b.toNat ∧ b.toNat ≤ 239) : strapNode b = some b.toNat := if_pos h

theorem strapNode_none {b : Byte} (h : b.toNat = 0 ∨ 240 ≤ b.toNat) : strapNode b = none := if_neg (by omega)

/-- Settles O5: the straps give the node number, and no other value of the reset looks at them. -/
theorem powerOnResetReadsStraps : Obligations.PowerOnResetReadsStraps :=
  fun _ _ => ⟨rfl, strapNode_legal, strapNode_none, rfl⟩

/-! ## What each step keeps, from what each command keeps -/

/-- A step is a command's effect on the part, or the passing of a millisecond. -/
theorem step_cases {s t : State} (h : step s = .next t) :
    (∃ c s', s'.part = s.part ∧ exec c s' = .next t) ∨ t.part = tick s.part := by
  unfold step at h
  split at h
  · rename_i c rest _
    exact .inl ⟨c, { s with pending := rest }, rfl, h⟩
  · split at h
    · exact .inl ⟨_, s, rfl, h⟩
    · cases h
      exact .inr rfl

/-! ## The node number (R171) -/

section Node

variable {p : Part}

/-- With no request queued a request's command does nothing (R195; log 3). -/
theorem serve_noRequest {code : Nat} {t : Taken} {ws : List Nat} {act : List Nat → Part → Answer} (empty : p.mu.queue = []) :
    serve code t ws act p = p := by
  have none : headRequest code p = none := by simp only [headRequest, empty]
  simp only [serve, serveWith, none]

/-- A request leaves the node number where its owner's rule does. -/
theorem serve_node {code : Nat} {t : Taken} {ws : List Nat} {act : List Nat → Part → Answer} (rule : ∀ fs q, (act fs q).part.node = q.node) :
    (serve code t ws act p).node = p.node := by
  unfold serve serveWith
  split
  · rfl
  · dsimp only
    split
    · exact postReply_node _ _ _ _
    · split
      · exact (postReply_node _ _ _ _).trans (rule _ _)
      · exact postReply_node _ _ _ _

theorem nodeLegal_some {n : Nat} (h : p.node = some n) : NodeLegal p ↔ 1 ≤ n ∧ n ≤ 239 := by
  unfold NodeLegal
  rw [h]

theorem nodeLegal_none (h : p.node = none) : NodeLegal p ↔ p.mu.mode = .config ∧ p.mu.queue = [] := by
  unfold NodeLegal
  rw [h]

/-- A request that leaves the node number keeps it legal, whatever it does to the mode: a part without one has no request to execute. -/
theorem serve_nodeLegal {code : Nat} {t : Taken} {ws : List Nat} {act : List Nat → Part → Answer} (legal : NodeLegal p)
    (rule : ∀ fs q, (act fs q).part.node = q.node) : NodeLegal (serve code t ws act p) := by
  cases node : p.node with
  | none => rwa [serve_noRequest ((nodeLegal_none node).1 legal).2]
  | some n => exact (nodeLegal_some ((serve_node rule).trans node)).2 ((nodeLegal_some node).1 legal)

theorem endRun_node (record : Bool) (p : Part) : (endRun record p).node = p.node := by
  have regions : Kept p (p.os.regions.foldl (dropRegion record) p) := (Kept.refl p).thenFold (fun q r => dropRegion_kept record r) _
  unfold endRun
  rw [refill_node]
  exact regions.node

theorem enterRunMode_node (p : Part) : (enterRunMode p).node = p.node := by
  have kept : Kept (enteredPart p) (enterRunMode p) := enterRunMode_kept
  generalize enterRunMode p = q at kept
  exact kept.node

theorem enterRunRequest_node (fs : List Nat) (p : Part) : (enterRunRequest fs p).part.node = p.node := by
  unfold enterRunRequest
  split
  · rw [okWith_part]
    exact enterRunMode_node p
  · rfl

theorem enterConfigRequest_node (fs : List Nat) (p : Part) : (enterConfigRequest fs p).part.node = p.node := by
  unfold enterConfigRequest
  split
  · rfl
  · exact endRun_node true p

theorem restartRequest_node (fs : List Nat) (p : Part) : (restartRequest fs p).part.node = p.node := by
  unfold restartRequest
  split
  · exact endRun_node false p
  · rfl

theorem exec_nodeLegal {c : Instr} {s t : State} (legal : NodeLegal s.part) (e : exec c s = .next t) : NodeLegal t.part := by
  by_cases m : changesMode c = true
  · cases c with
    | powerOnReset straps => cases e; exact reset_nodeLegal straps
    | enterRun => cases e; exact serve_nodeLegal legal enterRunRequest_node
    | enterConfig => cases e; exact serve_nodeLegal legal enterConfigRequest_node
    | restart => cases e; exact serve_nodeLegal legal restartRequest_node
    | _ => cases m
  · obtain ⟨q, next, sound⟩ := exec_sound c s (Bool.eq_false_iff.2 m)
    cases next.symm.trans e
    exact sound.nodeLegal legal

end Node

/-- Settles O9: a command that leaves the mode is sound, and the mode changes leave the node number and need a request. -/
theorem stepKeepsNodeLegal : Obligations.StepKeepsNodeLegal := by
  intro s t legal h
  rcases step_cases h with ⟨c, s', part, e⟩ | ticked
  · exact exec_nodeLegal (part ▸ legal) e
  · rw [ticked]
    exact (tick_sound s.part).nodeLegal legal

end Sys2Proof.Machine
end

section
/-! Frames: the bytes of a frame and their check, what the receive path does with a frame, and O12 and O13 (R172, R175 to R177). -/

namespace Sys2Proof.Machine

/-! ## A frame's bytes (R172, R175) -/

theorem natOf_pair (hi lo : Byte) : natOf [hi, lo] = 256 * hi.toNat + lo.toNat := by
  simp only [natOf, List.foldl_cons, List.foldl_nil]
  omega

/-- Two bytes are a check when they spell it. -/
theorem check_eq_iff (hi lo : Byte) (c : BitVec 16) : BitVec.ofNat 16 (natOf [hi, lo]) = c ↔ c.toNat = 256 * hi.toNat + lo.toNat := by
  have small : 256 * hi.toNat + lo.toNat < 2 ^ 16 := by
    have := hi.isLt
    have := lo.isLt
    omega
  rw [natOf_pair, ← BitVec.toNat_inj, BitVec.toNat_ofNat, Nat.mod_eq_of_lt small, eq_comm]

/-- The bytes of a check spell it. -/
theorem natOf_bytesOf_check (c : BitVec 16) : natOf (bytesOf 2 c.toNat) = c.toNat := by
  have := c.isLt
  simp only [bytesOf, natOf_pair, BitVec.toNat_ofNat]
  omega

/-- What makes R175 drop bytes that hold a header, a payload and a check. -/
def FailsCheck (dest src kind hop seq len hi lo : Byte) (payload : List Byte) : Prop :=
  (crc16 ([dest, src, kind, hop, seq, len] ++ payload)).toNat ≠ 256 * hi.toNat + lo.toNat ∨ 120 < len.toNat ∨ len.toNat ≠ payload.length
    ∨ (240 ≤ dest.toNat ∧ dest.toNat ≤ 254)

section Spelled

variable (dest src kind hop seq len hi lo : Byte) (payload : List Byte)

theorem parseFrame_spelled :
    parseFrame ([dest, src, kind, hop, seq, len] ++ payload ++ [hi, lo])
      = if BitVec.ofNat 16 (natOf [hi, lo]) ≠ crc16 ([dest, src, kind, hop, seq, len] ++ payload) then none
        else if 120 < len.toNat then none
        else if len.toNat ≠ payload.length then none
        else if 240 ≤ dest.toNat ∧ dest.toNat ≤ 254 then none
        else some { dest := dest, src := src, kind := kind, hop := hop, seq := seq, payload := payload,
                    check := BitVec.ofNat 16 (natOf [hi, lo]) } := by
  have length : (payload ++ [hi, lo]).length - 2 = payload.length := by simp
  have room : ¬ (payload ++ [hi, lo]).length < 2 := by simp
  simp only [List.cons_append, List.nil_append, parseFrame, length, if_neg room, List.take_left', List.drop_left']

theorem parseFrame_fails (fails : FailsCheck dest src kind hop seq len hi lo payload) :
    parseFrame ([dest, src, kind, hop, seq, len] ++ payload ++ [hi, lo]) = none := by
  rw [parseFrame_spelled]
  rcases fails with check | long | length | reserved
  · rw [if_pos fun same => check ((check_eq_iff hi lo _).1 same)]
  · rw [if_pos long, ite_self]
  · rw [if_pos length, ite_self, ite_self]
  · rw [if_pos reserved, ite_self, ite_self, ite_self]

theorem parseFrame_passes (passes : ¬ FailsCheck dest src kind hop seq len hi lo payload) :
    parseFrame ([dest, src, kind, hop, seq, len] ++ payload ++ [hi, lo])
      = some { dest := dest, src := src, kind := kind, hop := hop, seq := seq, payload := payload,
               check := crc16 ([dest, src, kind, hop, seq, len] ++ payload) } := by
  simp only [FailsCheck, not_or, not_not] at passes
  obtain ⟨check, long, length, reserved⟩ := passes
  have same := (check_eq_iff hi lo _).2 check
  rw [parseFrame_spelled, same, if_neg (not_not.2 rfl), if_neg long, if_neg (not_not.2 length), if_neg reserved]

end Spelled

theorem parseFrame_short {bytes : List Byte} (h : bytes.length < 8) : parseFrame bytes = none := by
  unfold parseFrame
  split
  · dsimp only
    simp only [List.length_cons] at h
    exact if_pos (by omega)
  · rfl

/-- Settles O12: the bytes of a checked frame are a header, its payload and a check that none of R175's tests refuses. -/
theorem frameReadsBack : Obligations.FrameReadsBack := by
  intro f payload dest
  have len : (BitVec.ofNat 8 f.payload.length).toNat = f.payload.length := by
    rw [BitVec.toNat_ofNat]
    omega
  have check : natOf (bytesOf 2 f.checked.check.toNat) = f.checked.check.toNat := natOf_bytesOf_check _
  refine parseFrame_passes f.dest f.src f.kind f.hop f.seq (BitVec.ofNat 8 f.payload.length) _ _ f.payload ?_
  rintro (crc | long | length | reserved)
  · exact crc (check.symm.trans (natOf_pair _ _))
  · omega
  · exact length len
  · omega

/-! ## Frames that arrive (R175 to R177) -/

section Receive

variable {bytes : List Byte} {f : Frame} {n : Nat} {p : Part} {s : State}

theorem receive_fails (h : parseFrame bytes = none) :
    receive bytes p = latch .rxCheck (raise (.framesDropped .check) 1 (raise .framesReceived 1 p)) := by
  simp only [receive, h, dropFrame]

theorem receive_repeats (h : parseFrame bytes = some f) (node : p.node = none) : receive bytes p = forwardFrame f (raise .framesReceived 1 p) := by
  simp only [receive, h, raise_node, node]

theorem receive_handles (h : parseFrame bytes = some f) (node : p.node = some n) :
    receive bytes p = handleFrame n f (raise .framesReceived 1 p) := by
  simp only [receive, h, raise_node, node]

theorem exec_frameReceive (bytes : List Byte) (s : State) : exec (.frameReceive bytes) s = .next { s with part := receive bytes s.part } := rfl

/-- The part once the source of a frame from another node has been heard (R176, R184). -/
def heard (f : Frame) (p : Part) : Part := if f.src.toNat ≤ 239 then learn f.src p else p

theorem handleFrame_own (own : f.src.toNat = n) : handleFrame n f p = raise (.framesDropped .stripped) 1 p := by
  have unheard : ¬ (f.src.toNat ≤ 239 ∧ f.src.toNat ≠ n) := fun h => h.2 own
  simp only [handleFrame, if_neg unheard, if_pos own, dropFrame]

/-- A frame of another node is heard first. -/
theorem handleFrame_other (other : f.src.toNat ≠ n) :
    handleFrame n f p =
      if f.dest.toNat = n then
        if f.kind = kindRequest then takeIn f.src f.payload (heard f p) else raise (.framesDropped .notRequest) 1 (heard f p)
      else forwardFrame f (if f.kind = kindSample then takeSample f.src f.payload (heard f p) else heard f p) := by
  have hears : (f.src.toNat ≤ 239 ∧ f.src.toNat ≠ n) = (f.src.toNat ≤ 239) := by simp [other]
  simp only [handleFrame, hears, if_neg other, heard, dropFrame]

theorem exec_repeated (h : parseFrame bytes = some f) (node : s.part.node = none) :
    exec (.frameReceive bytes) s = .next { s with part := forwardFrame f (raise .framesReceived 1 s.part) } := by
  rw [exec_frameReceive, receive_repeats h node]

section Handled

variable (h : parseFrame bytes = some f) (node : s.part.node = some n)
include h node

theorem exec_own (own : f.src.toNat = n) :
    exec (.frameReceive bytes) s = .next { s with part := raise (.framesDropped .stripped) 1 (raise .framesReceived 1 s.part) } := by
  rw [exec_frameReceive, receive_handles h node, handleFrame_own own]

theorem exec_request (other : f.src.toNat ≠ n) (here : f.dest.toNat = n) (kind : f.kind = kindRequest) :
    exec (.frameReceive bytes) s = .next { s with part := takeIn f.src f.payload (heard f (raise .framesReceived 1 s.part)) } := by
  rw [exec_frameReceive, receive_handles h node, handleFrame_other other, if_pos here, if_pos kind]

theorem exec_notRequest (other : f.src.toNat ≠ n) (here : f.dest.toNat = n) (kind : f.kind ≠ kindRequest) :
    exec (.frameReceive bytes) s = .next { s with part := raise (.framesDropped .notRequest) 1 (heard f (raise .framesReceived 1 s.part)) } := by
  rw [exec_frameReceive, receive_handles h node, handleFrame_other other, if_pos here, if_neg kind]

theorem exec_forwarded (other : f.src.toNat ≠ n) (elsewhere : f.dest.toNat ≠ n) (kind : f.kind ≠ kindSample) :
    exec (.frameReceive bytes) s = .next { s with part := forwardFrame f (heard f (raise .framesReceived 1 s.part)) } := by
  rw [exec_frameReceive, receive_handles h node, handleFrame_other other, if_neg elsewhere, if_neg kind]

theorem exec_sample (other : f.src.toNat ≠ n) (elsewhere : f.dest.toNat ≠ n) (kind : f.kind = kindSample) :
    exec (.frameReceive bytes) s
      = .next { s with part := forwardFrame f (takeSample f.src f.payload (heard f (raise .framesReceived 1 s.part))) } := by
  rw [exec_frameReceive, receive_handles h node, handleFrame_other other, if_neg elsewhere, if_pos kind]

end Handled

end Receive

/-- Settles O13: the receive path of bytes that are no frame, and the reading of bytes by the tests of R175. -/
theorem badFrameIsDropped : Obligations.BadFrameIsDropped :=
  ⟨fun bytes s h => by rw [exec_frameReceive, receive_fails h], fun _ => parseFrame_short,
    fun dest src kind hop seq len hi lo payload =>
      ⟨parseFrame_fails dest src kind hop seq len hi lo payload, parseFrame_passes dest src kind hop seq len hi lo payload⟩⟩

end Sys2Proof.Machine
end

section
/-! The originate queues: how waiting frames enter them, what the port takes next, and O16 and O17 (R178 to R182, R95). -/

namespace Sys2Proof.Machine

/-! ## Owners that are told (R182, R95) -/

section Told

variable {p : Part} {m : Message} {ms : List Message} {i : Fin 5}

/-- The stand waits for the frame: its state is SENT, and the frame is the GO with its most recent number (R95). -/
def Stand.awaits (st : Stand) (i : Fin 5) (m : Message) : Prop :=
  st.splice = .sent ∧ ∃ w seq n c, st.recent.map GoRecord.seq = some seq ∧ m = .command (.go i w seq) n c

/-- The stand with its ACCEPTED limit started at a time (R95). -/
def Stand.limited (st : Stand) (now : Nat) : Stand := { st with acceptBy := some (now + 200) }

/-- The owners of frames that enter a queue are told, in order. -/
def tellOwners (ms : List Message) (p : Part) : Part := ms.foldl (fun q m => tellOwner m q) p

theorem awaits_limited (st : Stand) (now : Nat) : (st.limited now).awaits i m ↔ st.awaits i m := Iff.rfl

theorem tellOwner_eq (m : Message) (p : Part) : tellOwner m p = { p with rsc := (tellOwner m p).rsc } := by
  unfold tellOwner
  split
  · dsimp only
    split <;> rfl
  · rfl

/-- Telling an owner starts the ACCEPTED limit of the stand that waits for the frame, and changes no other stand. -/
theorem standOf_tellOwner (m : Message) (p : Part) (i : Fin 5) :
    ((standOf p i).awaits i m → standOf (tellOwner m p) i = (standOf p i).limited p.time) ∧
    (¬ (standOf p i).awaits i m → standOf (tellOwner m p) i = standOf p i) := by
  unfold tellOwner
  split
  · rename_i s w seq n c
    dsimp only
    split
    · rename_i sent
      by_cases stand : i = s
      · subst stand
        refine ⟨fun _ => standOf_setStandRec_same _ _ _, fun unmet => absurd ⟨sent.1, w, seq, n, c, sent.2, rfl⟩ unmet⟩
      · rw [standOf_setStandRec, if_neg stand]
        refine ⟨fun ⟨_, _, _, _, _, _, go⟩ => ?_, fun _ => rfl⟩
        cases go
        exact absurd rfl stand
    · rename_i unsent
      refine ⟨fun ⟨sent, _, _, _, _, recent, go⟩ => ?_, fun _ => rfl⟩
      cases go
      exact absurd ⟨sent, recent⟩ unsent
  · rename_i other
    refine ⟨fun ⟨_, _, _, _, _, _, go⟩ => ?_, fun _ => rfl⟩
    cases go
    exact absurd rfl (other _ _ _ _ _)

theorem tellOwners_eq (ms : List Message) (p : Part) : tellOwners ms p = { p with rsc := (tellOwners ms p).rsc } := by
  induction ms generalizing p with
  | nil => rfl
  | cons m ms ih =>
    rw [tellOwners, List.foldl_cons, ← tellOwners, ih, tellOwner_eq]

/-- The stands that wait for one of the frames have their limit started; a started limit does not change what a stand waits for. -/
theorem standOf_tellOwners (ms : List Message) (p : Part) (i : Fin 5) :
    ((∃ m ∈ ms, (standOf p i).awaits i m) → standOf (tellOwners ms p) i = (standOf p i).limited p.time) ∧
    ((∀ m ∈ ms, ¬ (standOf p i).awaits i m) → standOf (tellOwners ms p) i = standOf p i) := by
  induction ms generalizing p with
  | nil => exact ⟨fun ⟨_, h, _⟩ => absurd h List.not_mem_nil, fun _ => rfl⟩
  | cons m ms ih =>
    have time : (tellOwner m p).time = p.time := by rw [tellOwner_eq]
    obtain ⟨told, untold⟩ := ih (tellOwner m p)
    rw [time] at told
    change (_ → standOf (tellOwners ms (tellOwner m p)) i = _) ∧ (_ → standOf (tellOwners ms (tellOwner m p)) i = _)
    simp only [List.mem_cons, exists_eq_or_imp, forall_eq_or_imp]
    by_cases first : (standOf p i).awaits i m
    · refine ⟨fun _ => ?_, fun none => absurd first none.1⟩
      have stand := (standOf_tellOwner m p i).1 first
      simp only [stand, awaits_limited] at told untold
      by_cases later : ∃ m ∈ ms, (standOf p i).awaits i m
      · exact told later
      · exact untold fun m h a => later ⟨m, h, a⟩
    · have stand := (standOf_tellOwner m p i).2 first
      rw [stand] at told untold
      exact ⟨fun some => told (some.resolve_left first), fun none => untold none.2⟩

end Told

/-! ## Waiting frames (R182) -/

section Refill

variable {p : Part} {u : Bool}

/-- The part once the `n` oldest frames that wait for a queue stand at its tail, before their owners are told. -/
def advanced (u : Bool) (n : Nat) (p : Part) : Part :=
  setWait (setQueue p u (queueOf p u ++ ((waitOf p u).take n).map Waiting.msg)) u ((waitOf p u).drop n)

theorem advanced_zero (u : Bool) (p : Part) : advanced u 0 p = p := by
  cases u <;> simp [advanced, setWait, setQueue, queueOf, waitOf]

theorem advanced_rsc (u : Bool) (n : Nat) (p : Part) : (advanced u n p).rsc = p.rsc := by cases u <;> rfl

theorem advanced_time (u : Bool) (n : Nat) (p : Part) : (advanced u n p).time = p.time := by cases u <;> rfl

theorem advanced_withRsc (u : Bool) (n : Nat) (p : Part) (x : Rsc) : advanced u n { p with rsc := x } = { advanced u n p with rsc := x } := by
  cases u <;> rfl

theorem tellOwner_withQueues (m : Message) (u : Bool) (n : Nat) (p : Part) : (tellOwner m (advanced u n p)).rsc = (tellOwner m p).rsc := by
  unfold tellOwner
  split
  · dsimp only
    rw [standOf, advanced_rsc, advanced_time, ← standOf]
    split
    · rw [setStandRec, setStandRec, advanced_rsc]
    · exact advanced_rsc _ _ _
  · exact advanced_rsc _ _ _

/-- An owner is told of a frame whatever else enters the queues. -/
theorem advanced_tellOwner (m : Message) (u : Bool) (n : Nat) (p : Part) : advanced u n (tellOwner m p) = tellOwner m (advanced u n p) := by
  rw [tellOwner_eq m p, advanced_withRsc, tellOwner_eq m (advanced u n p), tellOwner_withQueues]

theorem advanced_advanced_one {w : Waiting} {ws : List Waiting} (wait : waitOf p u = w :: ws) (n : Nat) :
    advanced u n (advanced u 1 p) = advanced u (n + 1) p := by
  cases u <;> simp only [waitOf, if_true, Bool.false_eq_true, if_false] at wait <;>
    simp [advanced, setWait, setQueue, queueOf, waitOf, wait]

/-- The room in a queue (R180). -/
def roomOf (p : Part) (u : Bool) : Nat := queueCap u - (queueOf p u).length

/-- The oldest waiting frame enters and its owner is told, where there is room. -/
theorem enterOldest_room {w : Waiting} {ws : List Waiting} (wait : waitOf p u = w :: ws) (room : 0 < roomOf p u) :
    enterOldest u p = tellOwner w.msg (advanced u 1 p) := by
  have has : hasRoom p u = true := (hasRoom_iff p u).2 (by unfold roomOf at room; omega)
  simp only [enterOldest, wait, if_pos has, advanced, List.take_succ_cons, List.take_zero, List.map_cons, List.map_nil, List.drop_succ_cons,
    List.drop_zero]

theorem enterOldest_full (full : roomOf p u = 0) : enterOldest u p = p := by
  have none : ¬ hasRoom p u = true := fun has => by
    have := (hasRoom_iff p u).1 has
    unfold roomOf at full
    omega
  unfold enterOldest
  split
  · rfl
  · exact if_neg none

theorem enterTimes_full (full : roomOf p u = 0) (n : Nat) : enterTimes u n p = p := by
  induction n with
  | zero => rfl
  | succ n ih => rw [enterTimes, enterOldest_full full, ih]

/-- As many of the waiting frames enter, the oldest first, as there is room for; then it is as if the owners were told of them all. -/
theorem refill_eq (u : Bool) (p : Part) :
    refill u p = tellOwners (((waitOf p u).take (roomOf p u)).map Waiting.msg) (advanced u (roomOf p u) p) := by
  unfold refill
  generalize wait : waitOf p u = ws
  induction ws generalizing p with
  | nil =>
    have same : advanced u (roomOf p u) p = p := by
      rw [← advanced_zero u p]
      cases u <;> simp only [waitOf, if_true, Bool.false_eq_true, if_false] at wait <;>
        simp [advanced, setWait, setQueue, queueOf, waitOf, wait]
    rw [List.take_nil, same]
    rfl
  | cons w ws ih =>
    rcases Nat.eq_zero_or_pos (roomOf p u) with full | room
    · rw [enterTimes_full full, full, advanced_zero]
      rfl
    · have next : waitOf (tellOwner w.msg (advanced u 1 p)) u = ws := by
        rw [waitOf, rif_tellOwner, ← waitOf, advanced, waitOf_setWait_same, wait]
        rfl
      have less : roomOf p u = roomOf (tellOwner w.msg (advanced u 1 p)) u + 1 := by
        have : (queueOf (advanced u 1 p) u).length = (queueOf p u).length + 1 := by
          rw [advanced, queueOf_setWait, queueOf_setQueue_same, wait]
          simp
        unfold roomOf at room ⊢
        rw [queueOf.eq_def (tellOwner _ _), rif_tellOwner, ← queueOf, this]
        omega
      rw [List.length_cons, enterTimes, enterOldest_room wait room, ih _ next, less, advanced_tellOwner, advanced_advanced_one wait]
      rfl

theorem refill_rif (u : Bool) (p : Part) : (refill u p).rif = (advanced u (roomOf p u) p).rif := by
  rw [refill_eq, tellOwners_eq]

/-- Waiting frames that enter a queue change RIF and the stands' limits alone. -/
theorem refill_parts (u : Bool) (p : Part) : refill u p = { p with rif := (refill u p).rif, rsc := (refill u p).rsc } := by
  rw [refill_rif, refill_eq, tellOwners_eq]
  cases u <;> rfl

theorem refill_queue (u : Bool) (p : Part) : queueOf (refill u p) u = queueOf p u ++ ((waitOf p u).take (roomOf p u)).map Waiting.msg := by
  rw [queueOf, refill_rif, ← queueOf, advanced, queueOf_setWait, queueOf_setQueue_same]

theorem refill_wait (u : Bool) (p : Part) : waitOf (refill u p) u = (waitOf p u).drop (roomOf p u) := by
  rw [waitOf, refill_rif, ← waitOf, advanced, waitOf_setWait_same]

theorem refill_otherQueue (u : Bool) (p : Part) : queueOf (refill u p) (!u) = queueOf p (!u) := by
  rw [queueOf, refill_rif, ← queueOf, advanced, queueOf_setWait, queueOf_setQueue_other]

theorem refill_otherWait (u : Bool) (p : Part) : waitOf (refill u p) (!u) = waitOf p (!u) := by
  rw [waitOf, refill_rif, ← waitOf, advanced, waitOf_setWait_other, waitOf_setQueue]

theorem refill_forward (u : Bool) (p : Part) : (refill u p).rif.forward = p.rif.forward := by
  rw [refill_rif]
  cases u <;> rfl

theorem refill_forwardCount (u : Bool) (p : Part) : (refill u p).rif.forwardCount = p.rif.forwardCount := by
  rw [refill_rif]
  cases u <;> rfl

theorem refill_txSeq (u : Bool) (p : Part) : (refill u p).rif.txSeq = p.rif.txSeq := by
  rw [refill_rif]
  cases u <;> rfl

theorem refill_mu (u : Bool) (p : Part) : (refill u p).mu = p.mu := by rw [refill_parts]

theorem refill_stand (u : Bool) (p : Part) (i : Fin 5) :
    ((∃ m ∈ ((waitOf p u).take (roomOf p u)).map Waiting.msg, (standOf p i).awaits i m) →
      standOf (refill u p) i = (standOf p i).limited p.time) ∧
    ((∀ m ∈ ((waitOf p u).take (roomOf p u)).map Waiting.msg, ¬ (standOf p i).awaits i m) → standOf (refill u p) i = standOf p i) := by
  have same : standOf (advanced u (roomOf p u) p) i = standOf p i := by rw [standOf, advanced_rsc, standOf]
  have told := standOf_tellOwners (((waitOf p u).take (roomOf p u)).map Waiting.msg) (advanced u (roomOf p u) p) i
  rwa [same, advanced_time, ← refill_eq] at told

end Refill

/-! ## What the port takes next (R178) -/

section Port

variable {p : Part} {m : Message} {rest : List Message} {f : Frame} {fs : List Frame}

/-- The part once the head of the forward buffer is being sent. -/
def forwarding (f : Frame) (fs : List Frame) (p : Part) : Part :=
  { p with rif := { p.rif with port := some f, forward := fs, forwardCount := min 4 (p.rif.forwardCount + 1) } }

/-- The part once the head of the normal queue has left it for the port. -/
def normalTaken (rest : List Message) (p : Part) : Part := { p with rif := { p.rif with normal := rest, forwardCount := 0 } }

theorem nextFrame_urgent (urgent : p.rif.urgent = m :: rest) : nextFrame p = refill true (transmit m (setQueue p true rest)) := by
  simp only [nextFrame, arbitrate, urgent]

theorem nextFrame_forward (urgent : p.rif.urgent = []) (forward : p.rif.forward = f :: fs)
    (turn : p.rif.normal = [] ∨ p.rif.forwardCount ≠ 4) : nextFrame p = raiseQueued .framesForwarded 1 (forwarding f fs p) := by
  cases normal : p.rif.normal with
  | nil => simp only [nextFrame, arbitrate, urgent, forward, normal, forwarding]
  | cons m rest =>
    have below : p.rif.forwardCount ≠ 4 := turn.resolve_left (by rw [normal]; exact List.cons_ne_nil _ _)
    simp only [nextFrame, arbitrate, urgent, forward, normal, if_neg below, forwarding]

theorem nextFrame_normal (urgent : p.rif.urgent = []) (normal : p.rif.normal = m :: rest)
    (turn : p.rif.forward = [] ∨ p.rif.forwardCount = 4) : nextFrame p = refill false (transmit m (normalTaken rest p)) := by
  cases forward : p.rif.forward with
  | nil => simp only [nextFrame, arbitrate, urgent, forward, normal, normalTaken]
  | cons f fs =>
    have four : p.rif.forwardCount = 4 := turn.resolve_left (by rw [forward]; exact List.cons_ne_nil _ _)
    simp only [nextFrame, arbitrate, urgent, forward, normal, if_pos four, normalTaken]

theorem nextFrame_idle (urgent : p.rif.urgent = []) (forward : p.rif.forward = []) (normal : p.rif.normal = []) :
    nextFrame p = { p with rif := { p.rif with port := none } } := by
  simp only [nextFrame, arbitrate, urgent, forward, normal]

/-- The port, the forward buffer and its count, and the transmit sequence's value stay. -/
structure SameLine (p q : Part) : Prop where
  port : q.rif.port = p.rif.port
  forward : q.rif.forward = p.rif.forward
  forwardCount : q.rif.forwardCount = p.rif.forwardCount
  txSeq : q.rif.txSeq = p.rif.txSeq

theorem SameLine.ofRif {q : Part} (h : q.rif = p.rif) : SameLine p q := ⟨by rw [h], by rw [h], by rw [h], by rw [h]⟩

theorem SameLine.trans {q r : Part} (a : SameLine p q) (b : SameLine q r) : SameLine p r :=
  ⟨b.port.trans a.port, b.forward.trans a.forward, b.forwardCount.trans a.forwardCount, b.txSeq.trans a.txSeq⟩

theorem sameLine_setQueue (p : Part) (u : Bool) (l : List Message) : SameLine p (setQueue p u l) := by cases u <;> exact ⟨rfl, rfl, rfl, rfl⟩

theorem sameLine_setWait (p : Part) (u : Bool) (l : List Waiting) : SameLine p (setWait p u l) := by cases u <;> exact ⟨rfl, rfl, rfl, rfl⟩

theorem sameLine_queueNotice (n : Notice) (p : Part) : SameLine p (queueNotice n p) := by
  unfold queueNotice
  split
  · exact .ofRif rfl
  · split
    · exact sameLine_setQueue _ _ _
    · exact .ofRif (loseNotice_rif p)

theorem sameLine_latchQueued (w : Alarm) (p : Part) : SameLine p (latchQueued w p) := by
  have h : SameLine p (occur w p).1 := .ofRif (occur_rif w p)
  unfold latchQueued
  split <;> rename_i e <;> rw [e] at h
  · exact h
  · exact h.trans (sameLine_queueNotice _ _)

theorem sameLine_raiseQueued (c : Counter) (n : Nat) (p : Part) : SameLine p (raiseQueued c n p) := by
  have h : SameLine p (bump c n p).1 := .ofRif (bump_rif c n p)
  unfold raiseQueued
  split <;> rename_i e <;> rw [e] at h
  · exact h.trans (sameLine_latchQueued _ _)
  · exact h

theorem exec_transmissionEnd {s : State} {g : Frame} (port : s.part.rif.port = some g) :
    exec .transmissionEnd s = .next { s with part := nextFrame s.part } := by
  show onPart endTransmission s = _
  simp only [onPart, endTransmission, port]

/-- An originated frame that is being sent, after the place it freed has been filled. -/
theorem sends_refill (u : Bool) (m : Message) (p : Part) :
    let t := refill u (transmit m p)
    t.rif.port = some (m.frame (p.node.getD 0) p.rif.txSeq) ∧ t.rif.txSeq = p.rif.txSeq + 1 ∧ t.rif.forwardCount = p.rif.forwardCount :=
  ⟨refill_port _ _, refill_txSeq _ _, refill_forwardCount _ _⟩

end Port

/-- Settles O16, one case of the arbiter's choice for each part. -/
theorem transmissionEndChoosesNext : Obligations.TransmissionEndChoosesNext := by
  intro s g port
  refine ⟨_, exec_transmissionEnd port, fun m rest urgent => ?_, fun f rest urgent forward turn => ?_, fun m rest urgent normal turn => ?_,
    fun urgent forward normal => ?_⟩
  · rw [nextFrame_urgent urgent]
    exact sends_refill true m (setQueue s.part true rest)
  · rw [nextFrame_forward urgent forward turn]
    have line := sameLine_raiseQueued .framesForwarded 1 (forwarding f rest s.part)
    exact ⟨line.port, line.forward, line.txSeq, line.forwardCount⟩
  · rw [nextFrame_normal urgent normal turn]
    exact sends_refill false m (normalTaken rest s.part)
  · rw [nextFrame_idle urgent forward normal]

/-- Settles O17: what enters is what `refill_eq` says, and the frame that leaves a queue is followed by its entry. -/
theorem waitingFrameEntersAtTail : Obligations.WaitingFrameEntersAtTail := by
  refine ⟨fun p u => ?_, fun s => rfl, fun s g m rest port => ⟨fun urgent => ?_, fun urgent normal turn => ?_⟩⟩
  · have room : (if u = true then 16 else 32) - (queueOf p u).length = roomOf p u := by cases u <;> rfl
    dsimp only
    rw [room]
    refine ⟨refill_queue u p, refill_wait u p, refill_otherQueue u p, refill_otherWait u p, refill_forward u p, refill_port u p,
      refill_wt u p, refill_os u p, refill_mu u p, fun i => ?_⟩
    obtain ⟨told, untold⟩ := refill_stand u p i
    refine ⟨fun ⟨sent, w, seq, n, c, recent, enters⟩ => told ⟨_, enters, sent, w, seq, n, c, recent, rfl⟩, fun none => untold fun m enters a => none ?_⟩
    obtain ⟨sent, w, seq, n, c, recent, rfl⟩ := a
    exact ⟨sent, w, seq, n, c, recent, enters⟩
  · rw [exec_transmissionEnd port, nextFrame_urgent urgent]
  · rw [exec_transmissionEnd port, nextFrame_normal urgent normal turn]
    rfl

end Sys2Proof.Machine
end

section
/-! Counters and the port through posts, what a heard source leaves, requests taken in and frames forwarded, with O14 and O15 (R176 to R178, R182, R194,
R206). -/

namespace Sys2Proof.Machine

/-! ## Roster learning (R184) -/

section Roster

variable {p : Part} {src : Byte}

/-- The part with the time of a source's roster entry renewed. -/
def renewed (src : Byte) (p : Part) : Part :=
  { p with rif := { p.rif with
      roster := p.rif.roster.map (fun e => if e.node = src.toNat then { e with lastHeard := p.time } else e) } }

/-- The part with a source at the roster's end. -/
def listed (src : Byte) (p : Part) : Part :=
  { p with rif := { p.rif with roster := p.rif.roster ++ [{ node := src.toNat, lastHeard := p.time }] } }

theorem learn_known (h : ∃ e ∈ p.rif.roster, e.node = src.toNat) : learn src p = renewed src p := by
  have found : p.rif.roster.any (fun e => decide (e.node = src.toNat)) = true := by simpa using h
  simp only [learn, if_pos found, renewed, modifyWhere, decide_eq_true_eq]

theorem roster_unknown (h : ∀ e ∈ p.rif.roster, e.node ≠ src.toNat) : ¬ p.rif.roster.any (fun e => decide (e.node = src.toNat)) = true := by
  simpa using h

theorem learn_new (h : ∀ e ∈ p.rif.roster, e.node ≠ src.toNat) (room : p.rif.roster.length < 64) : learn src p = testLost (listed src p) :=
  (if_neg (roster_unknown h)).trans (if_pos room)

theorem learn_full (h : ∀ e ∈ p.rif.roster, e.node ≠ src.toNat) (full : 64 ≤ p.rif.roster.length) : learn src p = latch .rosterFull p :=
  (if_neg (roster_unknown h)).trans (if_neg (Nat.not_lt.2 full))

theorem learn_cases (src : Byte) (p : Part) :
    learn src p = renewed src p ∨ learn src p = testLost (listed src p) ∨ learn src p = latch .rosterFull p := by
  by_cases known : ∃ e ∈ p.rif.roster, e.node = src.toNat
  · exact .inl (learn_known known)
  · have unknown : ∀ e ∈ p.rif.roster, e.node ≠ src.toNat := fun e m same => known ⟨e, m, same⟩
    exact .inr ((Nat.lt_or_ge p.rif.roster.length 64).imp (learn_new unknown) (learn_full unknown))

end Roster

/-! ## Live counters (R206) -/

section Counters

variable {p q : Part} {c : Counter}

/-- The counters in the order of R206. -/
def counterTable : List Counter :=
  [.boardLength, .stackedCuts, .goodSheets, .culled .noOrder, .culled .untracked, .culled .registration, .culled .length, .culled .straddle,
   .culled .swap, .culled .splice, .culled .offGrade, .culled .bond, .culled .defect, .culled .mark, .culled .backlog, .droppedDefects,
   .splices 0, .splices 1, .splices 2, .splices 3, .splices 4, .framesReceived, .framesForwarded, .framesDropped .check,
   .framesDropped .stripped, .framesDropped .notRequest, .framesDropped .hopExpired, .framesDropped .forwardOverrun, .busyReplies, .noticesLost]

theorem counterTable_idx (c : Counter) : counterTable[c.idx.val]? = some c := by
  cases c with
  | culled c => cases c <;> rfl
  | splices s => revert s; decide
  | framesDropped r => cases r <;> rfl
  | _ => rfl

theorem Counter.idx_injective : Function.Injective Counter.idx := by
  intro c d same
  have places := congrArg (fun i : Fin 30 => counterTable[i.val]?) same
  simpa only [counterTable_idx, Option.some.injEq] using places

theorem counterOf_bump_ne {d : Counter} (h : d ≠ c) (n : Nat) (p : Part) : counterOf (bump c n p).1 d = counterOf p d := by
  unfold bump
  dsimp only
  split <;> exact get_upd_ne _ _ fun same => h (Counter.idx_injective same)

/-- A rise stops at the counter's greatest value. -/
theorem counterOf_bump_value (c : Counter) (n : Nat) (p : Part) :
    (counterOf (bump c n p).1 c).value = min c.max ((counterOf p c).value + n) := by
  unfold bump
  dsimp only
  split
  · rename_i below
    rw [Nat.min_eq_right below, counterOf, get_upd_same]
  · rename_i above
    rw [Nat.min_eq_left (Nat.le_of_not_le above), counterOf, get_upd_same]

theorem counterOf_setQueue (p : Part) (u : Bool) (l : List Message) : counterOf (setQueue p u l) c = counterOf p c := by cases u <;> rfl

theorem counterOf_queueNotice (h : c ≠ .noticesLost) (n : Notice) (p : Part) : counterOf (queueNotice n p) c = counterOf p c := by
  unfold queueNotice
  split
  · rfl
  · split
    · exact counterOf_setQueue _ _ _
    · unfold loseNotice
      dsimp only
      split <;> exact counterOf_bump_ne h 1 p

theorem counterOf_latchQueued (h : c ≠ .noticesLost) (w : Alarm) (p : Part) : counterOf (latchQueued w p) c = counterOf p c := by
  have occurred : counterOf (occur w p).1 c = counterOf p c := rfl
  unfold latchQueued
  split <;> rename_i e <;> rw [e] at occurred
  · exact occurred
  · exact (counterOf_queueNotice h _ _).trans occurred

/-- The latch of a saturation leaves the counter as the rise left it. -/
theorem counterOf_raiseQueued {d : Counter} (h : d ≠ .noticesLost) (n : Nat) (p : Part) :
    counterOf (raiseQueued c n p) d = counterOf (bump c n p).1 d := by
  unfold raiseQueued
  split <;> rename_i e <;> rw [e]
  exact counterOf_latchQueued h _ _

/-- What posts leave of the counters: all but those of forwarded frames and of lost notices. -/
def SameCounters (p q : Part) : Prop := ∀ c, c ≠ .framesForwarded → c ≠ .noticesLost → counterOf q c = counterOf p c

theorem SameCounters.trans {r : Part} (a : SameCounters p q) (b : SameCounters q r) : SameCounters p r :=
  fun c forwarded lost => (b c forwarded lost).trans (a c forwarded lost)

theorem SameCounters.same (h : q.mu.counters = p.mu.counters) : SameCounters p q := fun c _ _ => by rw [counterOf, h, counterOf]

theorem arbitrate_counters (p : Part) : (arbitrate p).1.mu.counters = p.mu.counters := by
  unfold arbitrate
  split
  · rw [refill_mu]
    rfl
  · split
    · rfl
    · split
      · rw [refill_mu]
        rfl
      · rfl
    · rw [refill_mu]
      rfl
    · rfl

theorem SameCounters.kick (h : SameCounters p q) : SameCounters p (kick q) := by
  refine h.trans ?_
  unfold Machine.kick
  split
  · intro c forwarded lost
    have chosen : counterOf (arbitrate q).1 c = counterOf q c := by rw [counterOf, arbitrate_counters, counterOf]
    unfold nextFrame
    split <;> rename_i e <;> rw [e] at chosen
    · rw [counterOf_raiseQueued lost, counterOf_bump_ne forwarded]
      exact chosen
    · exact chosen
  · exact .same rfl

theorem SameCounters.latch {w : Alarm} (h : SameCounters p q) : SameCounters p (latch w q) :=
  SameCounters.kick (h.trans fun _ _ lost => counterOf_latchQueued lost w q)

theorem sameCounters_placeMessage (u : Bool) (m : Message) (p : Part) : SameCounters p (placeMessage u m p).1 := by
  unfold placeMessage
  split <;> cases u <;> exact .same rfl

theorem sameCounters_placeSetpoint (o : Output) (u : Bool) (m : Message) (p : Part) : SameCounters p (placeSetpoint o u m p) := by
  unfold placeSetpoint
  split
  · cases u <;> exact .same rfl
  · split
    · refine SameCounters.trans (.same ?_) (sameCounters_placeMessage _ _ _)
      rw [refill_mu]
      cases u <;> rfl
    · split
      · cases u <;> exact .same rfl
      · split
        · refine SameCounters.trans (.same ?_) (sameCounters_placeMessage _ _ _)
          cases u <;> rfl
        · exact sameCounters_placeMessage _ _ _

theorem SameCounters.postSetpoint {x : Command} (h : SameCounters p q) : SameCounters p (postSetpoint x q) := by
  refine h.trans ?_
  unfold Machine.postSetpoint
  split
  · exact .same rfl
  · exact (sameCounters_placeSetpoint _ _ _ q).kick

theorem SameCounters.writeSlot {x : Slot} {v : Contribution} (h : SameCounters p q) : SameCounters p (writeSlot x v q) := by
  refine h.trans ?_
  unfold Machine.writeSlot
  split
  · exact .same rfl
  · dsimp only
    split
    · exact SameCounters.postSetpoint (.same rfl)
    · exact .same rfl

theorem sameCounters_testLost (p : Part) : SameCounters p (testLost p) := by
  unfold testLost
  dsimp only
  split
  · have marked (b : Bool) : SameCounters p { p with rif := { p.rif with lost := b } } := .same rfl
    split
    · exact (marked true).latch.writeSlot
    · split
      · exact (marked false).writeSlot
      · exact .same rfl
  · exact .same rfl

theorem sameCounters_learn (src : Byte) (p : Part) : SameCounters p (learn src p) := by
  rcases learn_cases src p with known | new | full
  · rw [known]
    exact .same rfl
  · rw [new]
    exact SameCounters.trans (q := listed src p) (.same rfl) (sameCounters_testLost _)
  · rw [full]
    exact SameCounters.latch (.same rfl)

theorem sameCounters_heard (f : Frame) (p : Part) : SameCounters p (heard f p) := by
  unfold heard
  split
  · exact sameCounters_learn _ p
  · exact .same rfl

theorem counterOf_raise_ne {d : Counter} (other : d ≠ c) (forwarded : d ≠ .framesForwarded) (lost : d ≠ .noticesLost) (n : Nat) (p : Part) :
    counterOf (raise c n p) d = counterOf p d :=
  (SameCounters.kick (.same rfl) d forwarded lost).trans ((counterOf_raiseQueued lost n p).trans (counterOf_bump_ne other n p))

theorem counterOf_raise_value (forwarded : c ≠ .framesForwarded) (lost : c ≠ .noticesLost) (n : Nat) (p : Part) :
    (counterOf (raise c n p) c).value = min c.max ((counterOf p c).value + n) := by
  rw [raise, SameCounters.kick (.same rfl) c forwarded lost, counterOf_raiseQueued lost, counterOf_bump_value]

end Counters

/-! ## A port that is sending (R178) -/

section Busy

variable {p q : Part}

theorem kick_sending (busy : p.rif.port.isSome) : kick p = p := by
  obtain ⟨f, port⟩ := Option.isSome_iff_exists.1 busy
  simp only [kick, port]

theorem SameLine.kick (h : SameLine p q) (busy : p.rif.port.isSome) : SameLine p (kick q) := by
  rwa [kick_sending (h.port.symm ▸ busy)]

theorem SameLine.latch {w : Alarm} (h : SameLine p q) (busy : p.rif.port.isSome) : SameLine p (latch w q) :=
  SameLine.kick (h.trans (sameLine_latchQueued w q)) busy

theorem SameLine.raise {c : Counter} {n : Nat} (h : SameLine p q) (busy : p.rif.port.isSome) : SameLine p (raise c n q) :=
  SameLine.kick (h.trans (sameLine_raiseQueued c n q)) busy

theorem sameLine_refill (u : Bool) (p : Part) : SameLine p (refill u p) :=
  ⟨refill_port u p, refill_forward u p, refill_forwardCount u p, refill_txSeq u p⟩

theorem sameLine_placeMessage (u : Bool) (m : Message) (p : Part) : SameLine p (placeMessage u m p).1 := by
  unfold placeMessage
  split
  · exact sameLine_setQueue _ _ _
  · exact sameLine_setWait _ _ _

theorem sameLine_placeSetpoint (o : Output) (u : Bool) (m : Message) (p : Part) : SameLine p (placeSetpoint o u m p) := by
  unfold placeSetpoint
  split
  · exact sameLine_setQueue _ _ _
  · split
    · exact ((sameLine_setQueue _ _ _).trans (sameLine_refill _ _)).trans (sameLine_placeMessage _ _ _)
    · split
      · exact sameLine_setWait _ _ _
      · split
        · exact (sameLine_setWait _ _ _).trans (sameLine_placeMessage _ _ _)
        · exact sameLine_placeMessage _ _ _

theorem SameLine.postSetpoint {c : Command} (h : SameLine p q) (busy : p.rif.port.isSome) : SameLine p (postSetpoint c q) := by
  unfold Machine.postSetpoint
  split
  · exact h
  · exact (h.trans (sameLine_placeSetpoint _ _ _ q)).kick busy

theorem SameLine.writeSlot {x : Slot} {v : Contribution} (h : SameLine p q) (busy : p.rif.port.isSome) : SameLine p (writeSlot x v q) := by
  unfold Machine.writeSlot
  split
  · exact h
  · dsimp only
    split
    · exact SameLine.postSetpoint (h.trans (.ofRif rfl)) busy
    · exact h.trans (.ofRif rfl)

theorem sameLine_testLost (busy : p.rif.port.isSome) : SameLine p (testLost p) := by
  unfold testLost
  dsimp only
  split
  · have marked (b : Bool) : SameLine p { p with rif := { p.rif with lost := b } } := ⟨rfl, rfl, rfl, rfl⟩
    split
    · exact ((marked true).latch busy).writeSlot busy
    · split
      · exact (marked false).writeSlot busy
      · exact .ofRif rfl
  · exact .ofRif rfl

theorem sameLine_learn (src : Byte) (busy : p.rif.port.isSome) : SameLine p (learn src p) := by
  rcases learn_cases src p with known | new | full
  · rw [known]
    exact ⟨rfl, rfl, rfl, rfl⟩
  · rw [new]
    exact SameLine.trans (q := listed src p) ⟨rfl, rfl, rfl, rfl⟩ (sameLine_testLost busy)
  · rw [full]
    exact SameLine.latch (.ofRif rfl) busy

theorem sameLine_heard (f : Frame) (busy : p.rif.port.isSome) : SameLine p (heard f p) := by
  unfold heard
  split
  · exact sameLine_learn _ busy
  · exact .ofRif rfl

end Busy

/-! ## A heard source and a request taken in (R184, R194) -/

section Taken

variable {p : Part} {src : Byte} {payload : List Byte}

/-- A hearing changes RIF and SG, and may post. -/
theorem posted_learn (src : Byte) (p : Part) : ∃ g x, Posted { p with sg := g, rif := x } (learn src p) := by
  rcases learn_cases src p with known | new | full
  · rw [known]
    exact ⟨p.sg, _, .refl _⟩
  · rw [new]
    exact ⟨_, _, posted_testLost (listed src p)⟩
  · rw [full]
    exact ⟨p.sg, p.rif, posted_latch _ p⟩

theorem posted_heard (f : Frame) (p : Part) : ∃ g x, Posted { p with sg := g, rif := x } (heard f p) := by
  unfold heard
  split
  · exact posted_learn _ p
  · exact ⟨p.sg, p.rif, .refl p⟩

theorem heard_requests (f : Frame) (p : Part) : (heard f p).mu.queue = p.mu.queue := by
  obtain ⟨g, x, posted⟩ := posted_heard f p
  exact posted.requests

theorem takeIn_room (room : p.mu.queue.length < 8) :
    takeIn src payload p
      = { p with free := p.free + 1,
                 mu := { p.mu with queue := p.mu.queue ++ [{ src := src, payload := payload, stamp := p.free }] } } := if_pos room

theorem takeIn_full (full : 8 ≤ p.mu.queue.length) :
    takeIn src payload p
      = raise .busyReplies 1 (postBusy { src := src, payload := payload, stamp := p.free } { p with free := p.free + 1 }) :=
  if_neg (Nat.not_lt.2 full)

/-- What a request taken in leaves: MU's mode, the web, the orders, the recipes and the dry end. -/
theorem takeIn_leaves (src : Byte) (payload : List Byte) (p : Part) :
    let t := takeIn src payload p
    t.mu.mode = p.mu.mode ∧ t.wt = p.wt ∧ t.os = p.os ∧ t.dec = p.dec ∧ t.sc = p.sc ∧ t.bc = p.bc := by
  dsimp only
  rcases Nat.lt_or_ge p.mu.queue.length 8 with room | full
  · rw [takeIn_room room]
    exact ⟨rfl, rfl, rfl, rfl, rfl, rfl⟩
  · rw [takeIn_full full]
    have a := (posted_postBusy { src := src, payload := payload, stamp := p.free } { p with free := p.free + 1 }).trans
      (posted_raise .busyReplies 1 _)
    exact ⟨a.mode, a.wt, a.os, a.dec, a.sc, a.bc⟩

theorem canEnter_iff (p : Part) (u : Bool) : canEnter p u = true ↔ (queueOf p u).length < queueCap u ∧ waitOf p u = [] := by
  rw [canEnter, Bool.and_eq_true, hasRoom_iff, List.isEmpty_iff]

theorem postBusy_enters {r : Request} (h : canEnter p false = true) :
    postBusy r p = kick (setQueue p false (queueOf p false ++ [.reply r.src r.codeByte r.number .busy []])) := if_pos h

theorem postBusy_discarded {r : Request} (h : ¬ canEnter p false = true) : postBusy r p = p := if_neg h

theorem sameCounters_postBusy (r : Request) (p : Part) : SameCounters p (postBusy r p) := by
  unfold postBusy
  split
  · exact SameCounters.kick (.same rfl)
  · exact .same rfl

/-- A BUSY reply that enters the normal queue is on its way. -/
theorem onItsWay_postBusy {r : Request} (h : canEnter p false = true) :
    OnItsWay (postBusy r p) (.reply r.src r.codeByte r.number .busy []) := by
  rw [postBusy_enters h]
  exact OnItsWay.kick (.inr (.inl (List.mem_append_right _ (List.mem_singleton.2 rfl))))

/-- A request at a full queue is counted (R194, R206). -/
theorem takeIn_busyReplies (full : 8 ≤ p.mu.queue.length) (below : (counterOf p .busyReplies).value < 2 ^ 32 - 1) :
    (counterOf (takeIn src payload p) .busyReplies).value = (counterOf p .busyReplies).value + 1 := by
  have same := sameCounters_postBusy { src := src, payload := payload, stamp := p.free } { p with free := p.free + 1 } .busyReplies
    (by decide) (by decide)
  rw [takeIn_full full, counterOf_raise_value (by decide) (by decide), same]
  exact Nat.min_eq_right below

/-- A request at a full queue leaves the queue (R194). -/
theorem takeIn_full_requests (full : 8 ≤ p.mu.queue.length) : (takeIn src payload p).mu.queue = p.mu.queue := by
  rw [takeIn_full full, raise_requests, (posted_postBusy _ _).requests]

/-- The BUSY reply that has room is on its way (R182, R194). -/
theorem onItsWay_takeIn (full : 8 ≤ p.mu.queue.length) (short : p.rif.normal.length < 32) (empty : p.rif.normalWait = []) :
    let r : Request := { src := src, payload := payload, stamp := p.free }
    OnItsWay (takeIn src payload p) (.reply src r.codeByte r.number .busy []) := by
  intro r
  have enters : canEnter { p with free := p.free + 1 } false = true := (canEnter_iff _ false).2 ⟨short, empty⟩
  have posted := onItsWay_postBusy (r := r) enters
  rw [takeIn_full full]
  exact posted.raise

/-- Without room the BUSY reply is discarded, and counted (R182, R194). -/
theorem takeIn_discards (full : 8 ≤ p.mu.queue.length) (blocked : 32 ≤ p.rif.normal.length ∨ p.rif.normalWait ≠ []) :
    takeIn src payload p = raise .busyReplies 1 { p with free := p.free + 1 } := by
  have closed : ¬ canEnter { p with free := p.free + 1 } false = true := fun enters => by
    obtain ⟨short, empty⟩ := (canEnter_iff _ false).1 enters
    exact blocked.elim (Nat.not_le.2 short) fun waits => waits empty
  rw [takeIn_full full, postBusy_discarded closed]

end Taken

/-- Settles O14: what the part has come to when MU takes the request is the `q` of the statement. -/
theorem requestFrameIsQueuedOrBusy : Obligations.RequestFrameIsQueuedOrBusy := by
  intro bytes s f n parsed node here other kind
  have next := exec_request parsed node other here kind
  have counters : counterOf (heard f (raise .framesReceived 1 s.part)) .busyReplies = counterOf s.part .busyReplies :=
    (sameCounters_heard f _ .busyReplies (by decide) (by decide)).trans (counterOf_raise_ne (by decide) (by decide) (by decide) 1 s.part)
  obtain ⟨g, x, posted⟩ := posted_heard f (raise .framesReceived 1 s.part)
  generalize heard f (raise .framesReceived 1 s.part) = q at next counters posted
  have requests : q.mu.queue = s.part.mu.queue := posted.requests.trans (raise_requests _ _ _)
  have free : q.free = s.part.free := posted.free.trans (raise_free _ _ _)
  obtain ⟨mode, wt, os, dec, sc, bc⟩ := takeIn_leaves f.src f.payload q
  refine ⟨_, next, fun room => ?_, fun full => ⟨?_, fun below => ?_⟩, mode.trans (posted.mode.trans (raise_mode _ _ _)),
    wt.trans (posted.wt.trans (raise_wt _ _ _)), os.trans (posted.os.trans (raise_os _ _ _)), dec.trans (posted.dec.trans (raise_dec _ _ _)),
    sc.trans (posted.sc.trans (raise_sc _ _ _)), bc.trans (posted.bc.trans (raise_bc _ _ _)), q, rfl, requests,
    fun full => ⟨fun short empty => ?_, fun blocked => ?_⟩⟩
  · rw [takeIn_room (requests ▸ room), requests, free]
  · rw [takeIn_full_requests (by rw [requests, full]), requests]
  · rw [takeIn_busyReplies (by rw [requests, full]) (counters ▸ below), counters]
  · exact onItsWay_takeIn (Nat.le_of_eq full.symm) short empty
  · exact takeIn_discards (Nat.le_of_eq full.symm) blocked

/-! ## Frames forwarded (R177, R178) -/

section Forward

variable {p : Part} {f : Frame}

/-- The frame as it is forwarded: its hop one lower, with a new check (R177). -/
def Frame.hopped (f : Frame) : Frame := ({ f with hop := f.hop - 1 } : Frame).checked

/-- The part with a frame at the tail of the forward buffer. -/
def buffered (g : Frame) (p : Part) : Part := { p with rif := { p.rif with forward := p.rif.forward ++ [g] } }

theorem forwardFrame_expired (hop : f.hop.toNat ≤ 1) : forwardFrame f p = latch .hopExpired (raise (.framesDropped .hopExpired) 1 p) := if_pos hop

theorem forwardFrame_overrun (hop : 2 ≤ f.hop.toNat) (full : 8 ≤ p.rif.forward.length) :
    forwardFrame f p = latch .forwardOverrun (raise (.framesDropped .forwardOverrun) 1 p) :=
  (if_neg (Nat.not_le.2 hop)).trans (if_neg (Nat.not_lt.2 full))

theorem forwardFrame_room (hop : 2 ≤ f.hop.toNat) (room : p.rif.forward.length < 8) :
    forwardFrame f p = kick (buffered f.hopped p) :=
  (if_neg (Nat.not_le.2 hop)).trans (if_pos room)

theorem forwardFrame_sending (hop : 2 ≤ f.hop.toNat) (room : p.rif.forward.length < 8) (busy : p.rif.port.isSome) :
    forwardFrame f p = buffered f.hopped p :=
  (forwardFrame_room hop room).trans (kick_sending busy)

/-- An IDLE port with nothing queued sends the frame at once, and it is counted (R178, R177). -/
theorem forwardFrame_idle (hop : 2 ≤ f.hop.toNat) (port : p.rif.port = none) (urgent : p.rif.urgent = []) (normal : p.rif.normal = [])
    (forward : p.rif.forward = []) : forwardFrame f p = raiseQueued .framesForwarded 1 (forwarding f.hopped [] (buffered f.hopped p)) := by
  have room : p.rif.forward.length < 8 := by rw [forward]; decide
  have alone : (buffered f.hopped p).rif.forward = [f.hopped] := congrArg (· ++ [f.hopped]) forward
  have idle : (buffered f.hopped p).rif.port = none := port
  rw [forwardFrame_room hop room, ← nextFrame_forward (p := buffered f.hopped p) urgent alone (.inl normal)]
  simp only [kick, idle]

end Forward

/-- Settles O15: a frame's way through R176's steps, and what becomes of it in the forward buffer. -/
theorem frameIsForwarded : Obligations.FrameIsForwarded := by
  refine ⟨fun bytes s f n parsed node elsewhere other kind hop room busy => ?_, fun bytes s f parsed => ⟨exec_repeated parsed, fun n node => ?_⟩,
    fun f p => ⟨forwardFrame_expired, forwardFrame_overrun, forwardFrame_sending, fun hop port urgent normal forward => ?_⟩⟩
  · have line : SameLine s.part (heard f (raise .framesReceived 1 s.part)) :=
      have received : SameLine s.part (raise .framesReceived 1 s.part) := SameLine.raise (.ofRif rfl) busy
      received.trans (sameLine_heard f (received.port.symm ▸ busy))
    have requests := (heard_requests f (raise .framesReceived 1 s.part)).trans (raise_requests _ _ _)
    refine ⟨_, exec_forwarded parsed node other elsewhere kind, ?_⟩
    rw [forwardFrame_sending hop (line.forward.symm ▸ room) (line.port.symm ▸ busy)]
    exact ⟨congrArg (· ++ [f.hopped]) line.forward, line.port, requests⟩
  · exact ⟨exec_own parsed node, exec_notRequest parsed node, exec_request parsed node, exec_forwarded parsed node, exec_sample parsed node⟩
  · rw [forwardFrame_idle hop port urgent normal forward]
    have line := sameLine_raiseQueued .framesForwarded 1 (forwarding f.hopped [] (buffered f.hopped p))
    refine ⟨line.port, line.forward, line.forwardCount, ?_⟩
    rw [counterOf_raiseQueued (by decide), counterOf_bump_value]
    rfl

end Sys2Proof.Machine
end

section
/-! Coalescing: where a posted setpoint command stands, and O18 (R181 to R183). -/

namespace Sys2Proof.Machine

/-! ## The first element of a list with a property -/

section Lists

variable {α : Type} {c : α → Bool} {before after : List α} {x y : α}

theorem replaceFirst_at (first : ∀ z ∈ before, c z = false) (here : c x = true) :
    replaceFirst c y (before ++ x :: after) = before ++ y :: after := by
  induction before with
  | nil => exact if_pos here
  | cons z before ih =>
    obtain ⟨other, first⟩ := List.forall_mem_cons.1 first
    rw [List.cons_append, replaceFirst, other, if_neg Bool.false_ne_true, ih first, List.cons_append]

theorem eraseP_at (first : ∀ z ∈ before, c z = false) (here : c x = true) : (before ++ x :: after).eraseP c = before ++ after := by
  rw [List.eraseP_append_right _ fun z m => by rw [first z m]; exact Bool.false_ne_true, List.eraseP_cons_of_pos here]

end Lists

/-! ## The pending command of an output (R181) -/

section Place

variable {p : Part} {o : Output} {u : Bool} {m : Message}

/-- How many commands for the output stand in a queue. -/
def inQueue (o : Output) (p : Part) (u : Bool) : Nat := (queueOf p u).countP (hasKey o)

/-- How many commands for the output wait for a queue. -/
def inWait (o : Output) (p : Part) (u : Bool) : Nat := (waitOf p u).countP (fun w => hasKey o w.msg)

theorem pendingSetpoints_places (o : Output) (p : Part) (u : Bool) :
    pendingSetpoints o p = inQueue o p u + inQueue o p (!u) + (inWait o p u + inWait o p (!u)) := by
  rw [pendingSetpoints_eq]
  cases u <;> simp only [tally, inQueue, inWait, queueOf, waitOf, if_true, Bool.false_eq_true, if_false, Bool.not_true, Bool.not_false]
  omega

theorem any_iff_inQueue : (queueOf p u).any (hasKey o) = true ↔ 0 < inQueue o p u := by
  rw [List.any_eq_true, inQueue, List.countP_pos_iff]

theorem any_iff_inWait : (waitOf p u).any (fun w => hasKey o w.msg) = true ↔ 0 < inWait o p u := by
  rw [List.any_eq_true, inWait, List.countP_pos_iff]

/-- The one command for the output is the first. -/
theorem none_before {α : Type} {c : α → Bool} {before after : List α} {x : α} (one : (before ++ x :: after).countP c ≤ 1) (here : c x = true) :
    ∀ z ∈ before, c z = false := by
  rw [List.countP_append, List.countP_cons_of_pos here] at one
  intro z m
  rw [← Bool.not_eq_true]
  exact fun held => by
    have := List.countP_pos_iff.2 ⟨z, m, held⟩
    omega

theorem placeSetpoint_sameQueue (h : 0 < inQueue o p u) :
    placeSetpoint o u m p = setQueue p u (replaceFirst (hasKey o) m (queueOf p u)) := if_pos (any_iff_inQueue.2 h)

theorem placeSetpoint_otherQueue (own : inQueue o p u = 0) (h : 0 < inQueue o p (!u)) :
    placeSetpoint o u m p = (placeMessage u m (refill (!u) (setQueue p (!u) ((queueOf p (!u)).eraseP (hasKey o))))).1 := by
  rw [placeSetpoint, if_neg fun any => Nat.ne_of_gt (any_iff_inQueue.1 any) own, if_pos (any_iff_inQueue.2 h)]

theorem placeSetpoint_sameWait (own : inQueue o p u = 0) (other : inQueue o p (!u) = 0) (h : 0 < inWait o p u) :
    placeSetpoint o u m p = setWait p u (replaceFirst (fun w => hasKey o w.msg) { msg := m, late := false } (waitOf p u)) := by
  rw [placeSetpoint, if_neg fun any => Nat.ne_of_gt (any_iff_inQueue.1 any) own, if_neg fun any => Nat.ne_of_gt (any_iff_inQueue.1 any) other,
    if_pos (any_iff_inWait.2 h)]

theorem placeSetpoint_otherWait (own : inQueue o p u = 0) (other : inQueue o p (!u) = 0) (wait : inWait o p u = 0) (h : 0 < inWait o p (!u)) :
    placeSetpoint o u m p = (placeMessage u m (setWait p (!u) ((waitOf p (!u)).eraseP (fun w => hasKey o w.msg)))).1 := by
  rw [placeSetpoint, if_neg fun any => Nat.ne_of_gt (any_iff_inQueue.1 any) own, if_neg fun any => Nat.ne_of_gt (any_iff_inQueue.1 any) other,
    if_neg fun any => Nat.ne_of_gt (any_iff_inWait.1 any) wait, if_pos (any_iff_inWait.2 h)]

theorem placeSetpoint_nowhere (own : inQueue o p u = 0) (other : inQueue o p (!u) = 0) (wait : inWait o p u = 0) (otherWait : inWait o p (!u) = 0) :
    placeSetpoint o u m p = (placeMessage u m p).1 := by
  rw [placeSetpoint, if_neg fun any => Nat.ne_of_gt (any_iff_inQueue.1 any) own, if_neg fun any => Nat.ne_of_gt (any_iff_inQueue.1 any) other,
    if_neg fun any => Nat.ne_of_gt (any_iff_inWait.1 any) wait, if_neg fun any => Nat.ne_of_gt (any_iff_inWait.1 any) otherWait]

/-- A place found in a list counts there. -/
theorem inQueue_pos {before after : List Message} {x : Message} (list : queueOf p u = before ++ x :: after) (here : hasKey o x = true) :
    0 < inQueue o p u :=
  List.countP_pos_iff.2 ⟨x, by rw [list]; exact List.mem_append_right _ List.mem_cons_self, here⟩

theorem inWait_pos {before after : List Waiting} {x : Waiting} (list : waitOf p u = before ++ x :: after) (here : hasKey o x.msg = true) :
    0 < inWait o p u :=
  List.countP_pos_iff.2 ⟨x, by rw [list]; exact List.mem_append_right _ List.mem_cons_self, here⟩

section One

variable (one : pendingSetpoints o p ≤ 1)
include one

theorem coalesces_sameQueue {before after : List Message} {x : Message} (list : queueOf p u = before ++ x :: after) (here : hasKey o x = true) :
    placeSetpoint o u m p = setQueue p u (before ++ m :: after) := by
  have total := pendingSetpoints_places o p u
  have alone : (before ++ x :: after).countP (hasKey o) ≤ 1 := by
    rw [← list, ← inQueue]
    omega
  rw [placeSetpoint_sameQueue (inQueue_pos list here), list, replaceFirst_at (none_before alone here) here]

theorem coalesces_otherQueue {before after : List Message} {x : Message} (list : queueOf p (!u) = before ++ x :: after)
    (here : hasKey o x = true) : placeSetpoint o u m p = (placeMessage u m (refill (!u) (setQueue p (!u) (before ++ after)))).1 := by
  have total := pendingSetpoints_places o p u
  have found := inQueue_pos list here
  have alone : (before ++ x :: after).countP (hasKey o) ≤ 1 := by
    rw [← list, ← inQueue]
    omega
  rw [placeSetpoint_otherQueue (by omega) found, list, eraseP_at (none_before alone here) here]

theorem coalesces_sameWait {before after : List Waiting} {x : Waiting} (list : waitOf p u = before ++ x :: after) (here : hasKey o x.msg = true) :
    placeSetpoint o u m p = setWait p u (before ++ { msg := m, late := false } :: after) := by
  have total := pendingSetpoints_places o p u
  have found := inWait_pos list here
  have alone : (before ++ x :: after).countP (fun w => hasKey o w.msg) ≤ 1 := by
    rw [← list, ← inWait]
    omega
  have first := none_before alone here
  rw [placeSetpoint_sameWait (by omega) (by omega) found, list, replaceFirst_at first here]

theorem coalesces_otherWait {before after : List Waiting} {x : Waiting} (list : waitOf p (!u) = before ++ x :: after)
    (here : hasKey o x.msg = true) : placeSetpoint o u m p = (placeMessage u m (setWait p (!u) (before ++ after))).1 := by
  have total := pendingSetpoints_places o p u
  have found := inWait_pos list here
  have alone : (before ++ x :: after).countP (fun w => hasKey o w.msg) ≤ 1 := by
    rw [← list, ← inWait]
    omega
  have first := none_before alone here
  rw [placeSetpoint_otherWait (by omega) (by omega) (by omega) found, list, eraseP_at first here]

end One

theorem placeSetpoint_unpended (none : pendingSetpoints o p = 0) : placeSetpoint o u m p = (placeMessage u m p).1 := by
  have total := pendingSetpoints_places o p u
  exact placeSetpoint_nowhere (by omega) (by omega) (by omega) (by omega)

theorem placeMessage_enters (h : canEnter p u = true) : (placeMessage u m p).1 = setQueue p u (queueOf p u ++ [m]) :=
  congrArg Prod.fst (if_pos h)

theorem placeMessage_waits (h : ¬ canEnter p u = true) : (placeMessage u m p).1 = setWait p u (waitOf p u ++ [{ msg := m, late := false }]) :=
  congrArg Prod.fst (if_neg h)

theorem InQueues.mem (h : InQueues p m) : m ∈ p.rif.urgent ++ p.rif.normal ++ (p.rif.urgentWait ++ p.rif.normalWait).map Waiting.msg := by
  rw [List.mem_append, List.mem_append, or_assoc, List.mem_map]
  exact h

theorem hasKey_iff : hasKey o m = true ↔ ∃ c n ch, m = .command c n ch ∧ c.setpoint = true ∧ c.output = o := by
  cases m with
  | command c n ch =>
    rw [hasKey, Bool.and_eq_true, decide_eq_true_eq]
    exact ⟨fun h => ⟨c, n, ch, rfl, h⟩, fun ⟨_, _, _, e, h⟩ => by cases e; exact h⟩
  | reply dest code number status results => exact ⟨nofun, nofun⟩
  | notice n => exact ⟨nofun, nofun⟩

theorem postSetpoint_posted {c : Command} {e : OutEntry} (h : outEntry p c.output = some e) :
    postSetpoint c p = kick (placeSetpoint c.output c.urgent (.command c e.node e.channel) p) := by simp only [postSetpoint, h]

theorem postSetpoint_discarded {c : Command} (h : outEntry p c.output = none) : postSetpoint c p = p := by simp only [postSetpoint, h]

end Place

/-- Settles O18: of the four places that `placeSetpoint` looks through, only the one with the pending command can be found. -/
theorem onePendingSetpointPerOutput : Obligations.OnePendingSetpointPerOutput := by
  refine ⟨fun p c u n ch setpoint one => ?_, fun p c => ⟨fun e => postSetpoint_posted, postSetpoint_discarded⟩, fun o m => hasKey_iff⟩
  have key : hasKey c.output (.command c n ch) = true := hasKey_iff.2 ⟨c, n, ch, rfl, setpoint, rfl⟩
  have held := held_placeSetpoint c.output u (.command c n ch) p key
  have capacity : queueCap u = if u = true then 16 else 32 := by cases u <;> rfl
  refine ⟨fun o => (held.setpoints o).trans (Nat.max_le.2 ⟨Nat.le_refl 1, one o⟩), (inQueues_placeSetpoint c.output u _ p).mem,
    fun before x after => coalesces_sameQueue (one c.output), fun before x after => coalesces_otherQueue (one c.output),
    fun before x after => coalesces_sameWait (one c.output), fun before x after => coalesces_otherWait (one c.output),
    placeSetpoint_unpended, fun q => ⟨fun short empty => ?_, fun blocked => ?_⟩⟩
  · exact placeMessage_enters ((canEnter_iff q u).2 ⟨capacity ▸ short, empty⟩)
  · refine placeMessage_waits fun enters => ?_
    obtain ⟨short, empty⟩ := (canEnter_iff q u).1 enters
    exact blocked.elim (fun full => by omega) fun waits => waits empty

end Sys2Proof.Machine
end

section
/-! The roster: its sweep, the hearing of a source, the test of the lost flag, and O19 (R184, R185). -/

namespace Sys2Proof.Machine

variable {p : Part}

/-! ## The lost flag (R185) -/

/-- The node of an OUT entry is absent from the roster. -/
def NodeAbsent (p : Part) : Prop := ∃ e ∈ p.si.outMap, ∀ r ∈ p.rif.roster, r.node ≠ e.node.toNat

/-- The part with the lost flag at a value. -/
def setLost (b : Bool) (p : Part) : Part := { p with rif := { p.rif with lost := b } }

theorem nodeAbsent_iff : p.si.outMap.any (fun e => !(p.rif.roster.any (fun r => decide (r.node = e.node.toNat)))) = true ↔ NodeAbsent p := by
  simp [NodeAbsent]

/-- The test in RUN, by whether a node is absent and whether the flag is set. -/
theorem testLost_run (run : p.mu.mode = .run) [Decidable (NodeAbsent p)] :
    testLost p =
      if NodeAbsent p ∧ p.rif.lost = false then activate .actuatorLost p.sg.crawl (latch .actuatorLost (setLost true p))
      else if ¬ NodeAbsent p ∧ p.rif.lost = true then deactivate .actuatorLost (setLost false p)
      else p := by
  simp only [testLost, inRun_run run, if_true, Bool.and_eq_true, Bool.not_eq_true', ← Bool.not_eq_true, nodeAbsent_iff, setLost]

section Run

variable (run : p.mu.mode = .run)
include run

theorem testLost_sets (absent : NodeAbsent p) (clear : p.rif.lost = false) :
    testLost p = activate .actuatorLost p.sg.crawl (latch .actuatorLost (setLost true p)) := by
  classical exact (testLost_run run).trans (if_pos ⟨absent, clear⟩)

theorem testLost_clears (present : ¬ NodeAbsent p) (set : p.rif.lost = true) : testLost p = deactivate .actuatorLost (setLost false p) := by
  classical
  rw [testLost_run run, if_neg fun h => present h.1, if_pos ⟨present, set⟩]

theorem testLost_agrees (agrees : NodeAbsent p ↔ p.rif.lost = true) : testLost p = p := by
  classical
  rw [testLost_run run, if_neg fun h => ?_, if_neg fun h => h.1 (agrees.2 h.2)]
  rw [agrees.1 h.1] at h
  cases h.2

/-- Where the flag is set, the alarm is latched and the contribution stands at the crawl speed. -/
theorem testLost_sets_effects (absent : NodeAbsent p) (clear : p.rif.lost = false) :
    let t := testLost p
    t.rif.lost = true ∧ (alarmOf t .actuatorLost).latch = true
      ∧ t.sg.slots = upd p.sg.slots Slot.actuatorLost.idx { active := true, value := min p.sg.crawl p.sg.lineMax } := by
  dsimp only
  rw [testLost_sets run absent clear]
  have written := slotWritten_activate .actuatorLost p.sg.crawl (latch .actuatorLost (setLost true p))
  refine ⟨?_, written.latches _ (latch_sets _ _), ?_⟩
  · exact written.posted.lost.trans (posted_latch .actuatorLost (setLost true p)).lost
  · rw [written.slots, latch_sg]
    rfl

/-- Where the flag is cleared, the contribution is inactive. -/
theorem testLost_clears_effects (present : ¬ NodeAbsent p) (set : p.rif.lost = true) :
    let t := testLost p
    t.rif.lost = false ∧ t.sg.slots = upd p.sg.slots Slot.actuatorLost.idx { active := false, value := 0 } := by
  dsimp only
  rw [testLost_clears run present set]
  have written := slotWritten_deactivate .actuatorLost (setLost false p)
  exact ⟨written.posted.lost, written.slots⟩

end Run

/-! ## The sweep (R184) -/

/-- The entries that a sweep leaves. -/
def youngEntries (p : Part) : List RosterEntry := p.rif.roster.filter (fun e => decide (p.time < e.lastHeard + 1000 * p.rif.agingSec))

/-- The part once a sweep has removed the aged entries and set the time of the next one. -/
def swept (p : Part) : Part := { p with rif := { p.rif with roster := youngEntries p, nextSweep := (p.time / 1000 + 1) * 1000 } }

theorem unaged_eq (p : Part) : (fun e => !aged p e) = fun e => decide (p.time < e.lastHeard + 1000 * p.rif.agingSec) := by
  funext e
  rw [aged, ← decide_not]
  exact decide_eq_decide.2 Nat.not_le

theorem sweep_eq (due : p.rif.nextSweep ≤ p.time) : sweep p = if p.rif.roster.any (aged p) = true then testLost (swept p) else swept p := by
  rw [sweep_due due, unaged_eq]
  rfl

theorem any_aged_iff : p.rif.roster.any (aged p) = true ↔ ∃ e ∈ p.rif.roster, e.lastHeard + 1000 * p.rif.agingSec ≤ p.time := by
  simp only [List.any_eq_true, aged, decide_eq_true_eq]

theorem lt_nextSecond (n : Nat) : n < (n / 1000 + 1) * 1000 := by omega

/-- A test of the lost flag after a sweep leaves the roster, the next sweep, and the web, the orders and the cut queue. -/
theorem testLost_swept (p : Part) :
    let t := testLost (swept p)
    t.rif.roster = youngEntries p ∧ p.time < t.rif.nextSweep ∧ t.wt = p.wt ∧ t.os = p.os ∧ t.sc = p.sc ∧ t.mu.mode = p.mu.mode := by
  have a := posted_testLost (swept p)
  refine ⟨a.roster, ?_, a.wt, a.os, a.sc, a.mode⟩
  rw [a.nextSweep]
  exact lt_nextSecond p.time

/-- Settles O19: a hearing has three cases, by the roster, and the test in RUN has three, by the roster and the flag. -/
theorem rosterSweepRemovesAged : Obligations.RosterSweepRemovesAged := by
  refine ⟨fun s due => ?_, fun bytes s f n parsed node source other => ?_, fun p src => ⟨learn_known, learn_new, learn_full⟩,
    fun p => ⟨testLost_config, fun run absent clear => ?_, fun run present set => ?_, testLost_agrees⟩⟩
  · refine ⟨sweep s.part, rfl, fun removes => ?_, fun none => ?_, ?_⟩
    · exact (sweep_eq due).trans (if_pos (any_aged_iff.2 removes))
    · exact (sweep_eq due).trans (if_neg fun any => none (any_aged_iff.1 any))
    · rw [sweep_eq due]
      split
      · exact testLost_swept s.part
      · exact ⟨rfl, lt_nextSecond s.part.time, rfl, rfl, rfl, rfl⟩
  · have hears : heard f (raise .framesReceived 1 s.part) = learn f.src (raise .framesReceived 1 s.part) := if_pos source
    rw [exec_frameReceive, receive_handles parsed node, handleFrame_other other, hears]
  · obtain ⟨lost, latched, slots⟩ := testLost_sets_effects run absent clear
    exact ⟨lost, latched, testLost_sets run absent clear, slots⟩
  · obtain ⟨lost, slots⟩ := testLost_clears_effects run present set
    exact ⟨lost, testLost_clears run present set, slots⟩

end Sys2Proof.Machine
end

section
/-! MAP WRITE, MAP CLEAR and ROSTER CLEAR: their refusals, their effects, and O54 (R186, R188, R189). -/

namespace Sys2Proof.Machine

variable {p : Part} {node channel role index dir : Nat} {i : Input} {o : Output}

/-! ## Keys (R187 to R189) -/

/-- The IN key of an entry is this node and channel. -/
def InEntry.At (x : InEntry) (node channel : Byte) : Prop := x.node = node ∧ x.channel = channel

theorem outEntry_isSome_iff : (outEntry p o).isSome ↔ ∃ x ∈ p.si.outMap, x.output = o := by
  rw [outEntry, List.find?_isSome]
  simp only [decide_eq_true_eq]

theorem outEntry_none_iff : outEntry p o = none ↔ ∀ x ∈ p.si.outMap, x.output ≠ o := by
  rw [outEntry, List.find?_eq_none]
  simp only [decide_eq_true_eq, ne_eq]

/-! ## MAP WRITE (R188) -/

/-- The node or the channel of a MAP WRITE is out of range, or the node is the part's own. -/
def BadKey (p : Part) (node channel : Nat) : Prop := node < 1 ∨ 239 < node ∨ p.node = some node ∨ 255 < channel

theorem badKey_iff :
    (!within 1 239 node || decide (p.node = some node) || decide (255 < channel)) = true ↔ BadKey p node channel := by
  simp only [Bool.or_eq_true, Bool.not_eq_true', ← Bool.not_eq_true, within_iff, decide_eq_true_eq, not_and_or, Nat.not_le, or_assoc, BadKey]

theorem writeMap_badKey (h : BadKey p node channel) : writeMap [dir, node, channel, role, index] p = refuse .badArg p := if_pos (badKey_iff.2 h)

section Key

variable (good : ¬ BadKey p node channel)
include good

theorem key_inRange : ¬ (!within 1 239 node || decide (p.node = some node) || decide (255 < channel)) = true := fun bad => good (badKey_iff.1 bad)

theorem writeMap_in (input : inputOfCodes role index = some i) :
    writeMap [1, node, channel, role, index] p = writeIn (BitVec.ofNat 8 node) (BitVec.ofNat 8 channel) i p := by
  simp only [writeMap, if_neg (key_inRange good), input]

theorem writeMap_out (output : outputOfCodes role index = some o) :
    writeMap [2, node, channel, role, index] p = writeOut (BitVec.ofNat 8 node) (BitVec.ofNat 8 channel) o p := by
  simp only [writeMap, if_neg (key_inRange good), output]

theorem writeMap_noInput (none : inputOfCodes role index = none) : writeMap [1, node, channel, role, index] p = refuse .badArg p := by
  simp only [writeMap, if_neg (key_inRange good), none]

theorem writeMap_noOutput (none : outputOfCodes role index = none) : writeMap [2, node, channel, role, index] p = refuse .badArg p := by
  simp only [writeMap, if_neg (key_inRange good), none]

theorem writeMap_noDirection (notIn : dir ≠ 1) (notOut : dir ≠ 2) : writeMap [dir, node, channel, role, index] p = refuse .badArg p := by
  refine (if_neg (key_inRange good)).trans ?_
  split
  · exact absurd rfl notIn
  · exact absurd rfl notOut
  · rfl

end Key

theorem writeMap_refused (h : BadKey p node channel ∨ (dir ≠ 1 ∧ dir ≠ 2) ∨ (dir = 1 ∧ inputOfCodes role index = none)
    ∨ (dir = 2 ∧ outputOfCodes role index = none)) : writeMap [dir, node, channel, role, index] p = refuse .badArg p := by
  by_cases bad : BadKey p node channel
  · exact writeMap_badKey bad
  · rcases h with bad' | ⟨notIn, notOut⟩ | ⟨rfl, none⟩ | ⟨rfl, none⟩
    · exact absurd bad' bad
    · exact writeMap_noDirection bad notIn notOut
    · exact writeMap_noInput bad none
    · exact writeMap_noOutput bad none

section Out

variable {n ch : Byte}

theorem writeOut_replaces (h : (outEntry p o).isSome) :
    writeOut n ch o p = okWith (w32 (mapCount p))
      { p with si := { p.si with outMap := p.si.outMap.map (fun x => if x.output = o then { output := o, node := n, channel := ch } else x) } } := by
  have known : p.si.outMap.any (fun x => decide (x.output = o)) = true := by simpa using outEntry_isSome_iff.1 h
  simp only [writeOut, if_pos known, modifyWhere, decide_eq_true_eq]

theorem output_unknown (h : outEntry p o = none) : ¬ p.si.outMap.any (fun x => decide (x.output = o)) = true := by
  simpa using outEntry_none_iff.1 h

theorem writeOut_adds (h : outEntry p o = none) (room : mapCount p < 96) :
    writeOut n ch o p = okWith (w32 (mapCount p + 1))
      { p with si := { p.si with outMap := p.si.outMap ++ [{ output := o, node := n, channel := ch }] } } :=
  (if_neg (output_unknown h)).trans (if_neg (Nat.not_le.2 room))

theorem writeOut_full (h : outEntry p o = none) (full : 96 ≤ mapCount p) : writeOut n ch o p = refuse .full p :=
  (if_neg (output_unknown h)).trans (if_pos full)

end Out

section In

variable {n ch : Byte}

/-- A new IN entry, with its record WAITING (R188, R191). -/
def newIn (n ch : Byte) (i : Input) : InEntry := { node := n, channel := ch, input := i, state := .waiting, last := none }

/-- The IN map with the entry of a key replaced. -/
def replacedIn (n ch : Byte) (i : Input) (l : List InEntry) : List InEntry :=
  modifyWhere (fun x => decide (x.node = n) && decide (x.channel = ch)) (fun _ => newIn n ch i) l

theorem at_iff {x : InEntry} : (decide (x.node = n) && decide (x.channel = ch)) = true ↔ x.At n ch := by
  rw [Bool.and_eq_true, decide_eq_true_eq, decide_eq_true_eq, InEntry.At]

theorem inKey_known_iff : p.si.inMap.any (fun x => decide (x.node = n) && decide (x.channel = ch)) = true ↔ ∃ x ∈ p.si.inMap, x.At n ch := by
  simp only [List.any_eq_true, at_iff]

theorem input_bound_iff :
    p.si.inMap.any (fun x => decide (x.input = i) && !(decide (x.node = n) && decide (x.channel = ch))) = true
      ↔ ∃ x ∈ p.si.inMap, x.input = i ∧ ¬ x.At n ch := by
  rw [List.any_eq_true]
  refine exists_congr fun x => and_congr_right fun _ => ?_
  rw [Bool.and_eq_true, decide_eq_true_eq, Bool.not_eq_true', ← Bool.not_eq_true, at_iff]

theorem writeIn_conflict (h : ∃ x ∈ p.si.inMap, x.input = i ∧ ¬ x.At n ch) : writeIn n ch i p = refuse .conflict p := if_pos (input_bound_iff.2 h)

section Unbound

variable (h : ∀ x ∈ p.si.inMap, x.input = i → x.At n ch)
include h

theorem input_unbound :
    ¬ p.si.inMap.any (fun x => decide (x.input = i) && !(decide (x.node = n) && decide (x.channel = ch))) = true := fun bound => by
  obtain ⟨x, m, input, other⟩ := input_bound_iff.1 bound
  exact other (h x m input)

theorem writeIn_replaces (known : ∃ x ∈ p.si.inMap, x.At n ch) :
    writeIn n ch i p = okWith (w32 (mapCount p)) { p with si := { p.si with inMap := replacedIn n ch i p.si.inMap } } :=
  (if_neg (input_unbound h)).trans (if_pos (inKey_known_iff.2 known))

theorem writeIn_adds (unknown : ∀ x ∈ p.si.inMap, ¬ x.At n ch) (room : mapCount p < 96) :
    writeIn n ch i p = okWith (w32 (mapCount p + 1)) { p with si := { p.si with inMap := p.si.inMap ++ [newIn n ch i] } } :=
  (if_neg (input_unbound h)).trans ((if_neg fun known => by
    obtain ⟨x, m, here⟩ := inKey_known_iff.1 known
    exact unknown x m here).trans (if_neg (Nat.not_le.2 room)))

theorem writeIn_full (unknown : ∀ x ∈ p.si.inMap, ¬ x.At n ch) (full : 96 ≤ mapCount p) : writeIn n ch i p = refuse .full p :=
  (if_neg (input_unbound h)).trans ((if_neg fun known => by
    obtain ⟨x, m, here⟩ := inKey_known_iff.1 known
    exact unknown x m here).trans (if_pos full))

end Unbound

/-- The entry of the key is replaced at its place, and every other stays. -/
theorem replacedIn_get {l : List InEntry} {k : Nat} {x : InEntry} (place : l[k]? = some x) :
    (x.At n ch → (replacedIn n ch i l)[k]? = some (newIn n ch i)) ∧ (¬ x.At n ch → (replacedIn n ch i l)[k]? = some x) := by
  have get : (replacedIn n ch i l)[k]? = some (if decide (x.node = n) && decide (x.channel = ch) then newIn n ch i else x) := by
    rw [replacedIn, modifyWhere, List.getElem?_map, place]
    rfl
  rw [get]
  exact ⟨fun here => by rw [if_pos (at_iff.2 here)], fun other => by rw [if_neg fun here => other (at_iff.1 here)]⟩

end In

/-! ## MAP CLEAR (R189) -/

section Clear

variable {a b : Nat}

/-- The IN key of an entry is this node and channel, as numbers. -/
def InEntry.AtNumbers (x : InEntry) (node channel : Nat) : Prop := x.node.toNat = node ∧ x.channel.toNat = channel

/-- The IN map without the entries of a key. -/
def withoutIn (node channel : Nat) (l : List InEntry) : List InEntry :=
  l.filter (fun x => !(decide (x.node.toNat = node) && decide (x.channel.toNat = channel)))

/-- The OUT map without the entries of an output. -/
def withoutOut (o : Output) (l : List OutEntry) : List OutEntry := l.filter (fun x => !decide (x.output = o))

theorem atNumbers_iff {x : InEntry} : (decide (x.node.toNat = node) && decide (x.channel.toNat = channel)) = true ↔ x.AtNumbers node channel := by
  rw [Bool.and_eq_true, decide_eq_true_eq, decide_eq_true_eq, InEntry.AtNumbers]

theorem mem_withoutIn {l : List InEntry} {x : InEntry} : x ∈ withoutIn node channel l ↔ x ∈ l ∧ ¬ x.AtNumbers node channel := by
  rw [withoutIn, List.mem_filter, Bool.not_eq_true', ← Bool.not_eq_true, atNumbers_iff]

theorem mem_withoutOut {l : List OutEntry} {x : OutEntry} : x ∈ withoutOut o l ↔ x ∈ l ∧ x.output ≠ o := by
  rw [withoutOut, List.mem_filter, Bool.not_eq_true', decide_eq_false_iff_not]

theorem clearIn_range (node channel : Nat) :
    (!within 1 239 node || decide (255 < channel)) = true ↔ node < 1 ∨ 239 < node ∨ 255 < channel := by
  simp only [Bool.or_eq_true, Bool.not_eq_true', ← Bool.not_eq_true, within_iff, decide_eq_true_eq, not_and_or, Nat.not_le, or_assoc]

theorem clearIn_refused (h : node < 1 ∨ 239 < node ∨ 255 < channel) : clearIn node channel p = refuse .badArg p :=
  if_pos ((clearIn_range node channel).2 h)

section Ranges

variable (legal : 1 ≤ node) (legal' : node ≤ 239) (small : channel ≤ 255)
include legal legal' small

theorem clearIn_inRange : ¬ (!within 1 239 node || decide (255 < channel)) = true := fun bad => by
  have := (clearIn_range node channel).1 bad
  omega

theorem clearIn_removes (known : ∃ x ∈ p.si.inMap, x.AtNumbers node channel) :
    clearIn node channel p = okWith (w32 ((withoutIn node channel p.si.inMap).length + p.si.outMap.length))
      { p with si := { p.si with inMap := withoutIn node channel p.si.inMap } } := by
  have any : p.si.inMap.any (fun x => decide (x.node.toNat = node) && decide (x.channel.toNat = channel)) = true := by
    simpa only [List.any_eq_true, atNumbers_iff] using known
  exact (if_neg (clearIn_inRange legal legal' small)).trans (if_pos any)

theorem clearIn_notFound (unknown : ∀ x ∈ p.si.inMap, ¬ x.AtNumbers node channel) : clearIn node channel p = refuse .notFound p := by
  have none : ¬ p.si.inMap.any (fun x => decide (x.node.toNat = node) && decide (x.channel.toNat = channel)) = true := by
    simpa only [List.any_eq_true, atNumbers_iff, not_exists, not_and] using unknown
  exact (if_neg (clearIn_inRange legal legal' small)).trans (if_neg none)

end Ranges

theorem clearOut_removes (h : (outEntry p o).isSome) :
    clearOut o p = okWith (w32 (p.si.inMap.length + (withoutOut o p.si.outMap).length))
      { p with si := { p.si with outMap := withoutOut o p.si.outMap } } := by
  have known : p.si.outMap.any (fun x => decide (x.output = o)) = true := by simpa using outEntry_isSome_iff.1 h
  exact if_pos known

theorem clearOut_notFound (h : outEntry p o = none) : clearOut o p = refuse .notFound p := if_neg (output_unknown h)

theorem clearMap_out (h : outputOfCodes a b = some o) : clearMap [2, a, b] p = clearOut o p := by simp only [clearMap, h]

theorem clearMap_refused (h : 2 < dir ∨ (dir = 0 ∧ (a ≠ 0 ∨ b ≠ 0)) ∨ (dir = 1 ∧ (a < 1 ∨ 239 < a ∨ 255 < b))
    ∨ (dir = 2 ∧ outputOfCodes a b = none)) : clearMap [dir, a, b] p = refuse .badArg p := by
  rcases h with above | ⟨rfl, key⟩ | ⟨rfl, range⟩ | ⟨rfl, unknown⟩
  · unfold clearMap
    split <;> rename_i fields
    · cases fields
      exact absurd above (by decide)
    · cases fields
      exact absurd above (by decide)
    · cases fields
      exact absurd above (by decide)
    · rfl
  · unfold clearMap
    split <;> rename_i fields
    · cases fields
      exact absurd key (by decide)
    · cases fields
    · cases fields
    · rfl
  · exact clearIn_refused range
  · simp only [clearMap, unknown]

end Clear

/-! ## The requests' answers (R195) -/

section Answers

variable {s : State} {r : Request} {st : Status} {l : List Byte} {q : Part} (config : s.part.mu.mode = .config)
include config

theorem mapWrite_answers {fs : List Nat} (asks : Asks s.part 22 [4, 4, 4, 4, 4] fs r)
    (h : writeMap fs (popRequest s.part) = { part := q, status := st, results := l }) : exec .mapWrite s = Answered s r st l q :=
  onPart_serve_of_asks asks (by rw [config]; rfl) h

theorem mapClear_answers {fs : List Nat} (asks : Asks s.part 23 [4, 4, 4] fs r)
    (h : clearMap fs (popRequest s.part) = { part := q, status := st, results := l }) : exec .mapClear s = Answered s r st l q :=
  onPart_serve_of_asks asks (by rw [config]; rfl) h

theorem rosterClear_answers (asks : Asks s.part 24 [] [] r) :
    exec .rosterClear s = Answered s r .ok (w32 s.part.rif.roster.length)
      { popRequest s.part with rif := { s.part.rif with roster := [] } } :=
  onPart_serve_of_asks asks (by rw [config]; rfl) rfl

end Answers

theorem goodKey (legal : 1 ≤ node) (legal' : node ≤ 239) (foreign : p.node ≠ some node) (small : channel ≤ 255) : ¬ BadKey p node channel := by
  unfold BadKey
  rintro (h | h | h | h)
  · omega
  · omega
  · exact foreign h
  · omega

/-- Settles O54, each answer by the lemma about its rule. -/
theorem mapAndRosterRequests : Obligations.MapAndRosterRequests := by
  intro s r config
  refine ⟨fun dir node channel role index asks bad => ?badWrite, fun dir a b asks bad => mapClear_answers config asks (clearMap_refused bad),
    fun node channel role index o asks output legal legal' foreign small new room => ?add,
    fun node channel role index o asks output legal legal' foreign small => ?out,
    fun node channel role index i asks input legal legal' foreign small => ?write,
    fun node channel asks legal legal' small => ⟨fun known => ?clear, fun unknown => ?unknown⟩,
    fun role index o asks output known => ?clearOut, fun asks => mapClear_answers config asks rfl, fun role index o asks output unknown => ?unknownOut,
    rosterClear_answers config⟩
  case badWrite =>
    refine mapWrite_answers config asks (writeMap_refused ?_)
    rcases bad with bad | bad | bad | bad | bad
    · exact .inl (.inl bad)
    · exact .inl (.inr (.inl bad))
    · exact .inl (.inr (.inr (.inl bad)))
    · exact .inl (.inr (.inr (.inr bad)))
    · exact .inr bad
  case add =>
    have good := goodKey (p := popRequest s.part) legal legal' foreign small
    exact mapWrite_answers config asks ((writeMap_out good output).trans (writeOut_adds new room))
  case out =>
    have good := goodKey (p := popRequest s.part) legal legal' foreign small
    exact ⟨fun known => mapWrite_answers config asks ((writeMap_out good output).trans (writeOut_replaces known)),
      fun new full => mapWrite_answers config asks ((writeMap_out good output).trans (writeOut_full new full))⟩
  case write =>
    have good := goodKey (p := popRequest s.part) legal legal' foreign small
    have written := writeMap_in good input
    refine ⟨fun bound => mapWrite_answers config asks (written.trans (writeIn_conflict bound)), fun free =>
      ⟨fun known => ⟨_, mapWrite_answers config asks (written.trans (writeIn_replaces free known)), length_modifyWhere _ _ _,
          fun k x => replacedIn_get⟩,
        fun new => ⟨fun room => mapWrite_answers config asks (written.trans (writeIn_adds free new room)),
          fun full => mapWrite_answers config asks (written.trans (writeIn_full free new full))⟩⟩⟩
  case clear =>
    exact ⟨_, mapClear_answers config asks (clearIn_removes (p := popRequest s.part) legal legal' small known), List.filter_sublist,
      fun x => mem_withoutIn⟩
  case unknown => exact mapClear_answers config asks (clearIn_notFound (p := popRequest s.part) legal legal' small unknown)
  case clearOut =>
    exact ⟨_, mapClear_answers config asks ((clearMap_out output).trans (clearOut_removes (p := popRequest s.part) known)), List.filter_sublist,
      fun x => mem_withoutOut⟩
  case unknownOut => exact mapClear_answers config asks ((clearMap_out output).trans (clearOut_notFound unknown))

end Sys2Proof.Machine
end

section
/-! SI's intake: the values of a sample, its delivery, the freshness records and what an input's owner is told, with O20 (R173, R187, R190, R191). -/

namespace Sys2Proof.Machine

variable {p : Part} {i : Input} {e : InEntry}

/-! ## The values of a sample (R173) -/

theorem natOf_w32 (v : Word) : natOf (w32 v.toNat) = v.toNat := by
  have := v.isLt
  simp only [w32, bytesOf, natOf, List.foldl_cons, List.foldl_nil, BitVec.toNat_ofNat]
  omega

theorem length_w32 (n : Nat) : (w32 n).length = 4 := rfl

/-- The values of a payload are read back from their bytes. -/
theorem wordsOf_flatMap (vs : List Word) : wordsOf vs.length (vs.flatMap (fun v => w32 v.toNat)) = vs := by
  induction vs with
  | nil => rfl
  | cons v vs ih =>
    rw [List.flatMap_cons, List.length_cons, wordsOf, List.take_left' (length_w32 _), List.drop_left' (length_w32 _), ih, natOf_w32,
      BitVec.ofNat_toNat, BitVec.setWidth_eq]

/-- R190's checks of a payload with `n` values in `body`. -/
def Passes (want : Nat) (n : Byte) (body : List Byte) : Prop :=
  1 ≤ n.toNat ∧ n.toNat ≤ 6 ∧ 1 + 1 + body.length = 2 + 4 * n.toNat ∧ n.toNat = want

theorem passes_iff {want : Nat} {n : Byte} {body : List Byte} :
    Passes want n body ↔ 1 ≤ n.toNat ∧ n.toNat ≤ 6 ∧ body.length = 4 * n.toNat ∧ n.toNat = want := by
  unfold Passes
  omega

theorem sampleValues_passes {want : Nat} {ch n : Byte} {body : List Byte} (h : Passes want n body) :
    sampleValues want (ch :: n :: body) = some (wordsOf n.toNat body) := if_pos (passes_iff.1 h)

theorem sampleValues_fails {want : Nat} {ch : Byte} {rest : List Byte} (h : ∀ n body, rest = n :: body → ¬ Passes want n body) :
    sampleValues want (ch :: rest) = none := by
  cases rest with
  | nil => rfl
  | cons n body => exact if_neg fun passes => h n body rfl (passes_iff.2 passes)

/-! ## The IN entry of a sample (R187, R190) -/

section Taken

variable {src ch : Byte} {rest : List Byte}

/-- The entry that a sample finds by its source and channel. -/
def keyedEntry (p : Part) (src ch : Byte) : Option InEntry := p.si.inMap.find? (fun e => decide (e.node = src) && decide (e.channel = ch))

theorem keyedEntry_none (h : ∀ e ∈ p.si.inMap, ¬ e.At src ch) : keyedEntry p src ch = none :=
  List.find?_eq_none.2 fun e m held => h e m (at_iff.1 held)

theorem keyedEntry_first {before after : List InEntry} (list : p.si.inMap = before ++ e :: after) (first : ∀ x ∈ before, ¬ x.At src ch)
    (here : e.At src ch) : keyedEntry p src ch = some e := by
  refine List.find?_eq_some_iff_append.2 ⟨at_iff.2 here, before, after, list, fun x m => ?_⟩
  rw [Bool.not_eq_true', ← Bool.not_eq_true, at_iff]
  exact first x m

theorem takeSample_unknown (h : keyedEntry p src ch = none) : takeSample src (ch :: rest) p = p := by
  unfold keyedEntry at h
  simp only [takeSample, h]

theorem takeSample_bad (h : keyedEntry p src ch = some e) (bad : sampleValues e.input.role.values (ch :: rest) = none) :
    takeSample src (ch :: rest) p = latch .badSample p := by
  unfold keyedEntry at h
  simp only [takeSample, h, bad]

theorem takeSample_good {vs : List Word} (h : keyedEntry p src ch = some e) (good : sampleValues e.input.role.values (ch :: rest) = some vs) :
    takeSample src (ch :: rest) p = deliver e.input vs (refresh e p) := by
  unfold keyedEntry at h
  simp only [takeSample, h, good]

end Taken

/-! ## Delivery (R190) -/

theorem handOn_none {r : Part × List Change} (h : r.2 = []) : handOn r = r.1 := if_pos (List.isEmpty_iff.2 h)

theorem handOn_some {r : Part × List Change} (h : r.2 ≠ []) : handOn r = handOver r.2 r.1 := if_neg fun empty => h (List.isEmpty_iff.1 empty)

/-- A wrapping counter is taken modulo its range (log 10). -/
theorem setWidth_eq_ofNat (n : Nat) (w : Word) : w.setWidth n = BitVec.ofNat n w.toNat := (BitVec.ofNat_toNat n w).symm

theorem deliver_jointSight (f : Fin 2) (a : Word) (p : Part) : deliver (.jointSight f) [a] p = sightSample f (BitVec.ofNat 8 a.toNat) p := by
  rw [← setWidth_eq_ofNat]
  rfl

theorem deliver_defect (d : Fin 4) (a b : Word) (p : Part) :
    deliver (.defect d) [a, b] p = defectSample d a.toNat (BitVec.ofNat 8 b.toNat) p := by
  rw [← setWidth_eq_ofNat]
  rfl

theorem deliver_knife (a b : Word) (p : Part) : deliver .knife [a, b] p = knifeSample (BitVec.ofNat 16 a.toNat) b.toNat p := by
  rw [← setWidth_eq_ofNat]
  rfl

theorem deliver_stacker (a : Word) (p : Part) : deliver .stacker [a] p = stackerSample (BitVec.ofNat 16 a.toNat) p := by
  rw [← setWidth_eq_ofNat]
  rfl

/-! ## What an owner is told (R191) -/

theorem holdEncoder_si (p : Part) : (holdEncoder p).si = p.si := by
  unfold holdEncoder
  split
  · exact (Kept.refl p).thenHoldAtCrawl.si
  · rfl

theorem evalStand_si (s : Fin 5) (p : Part) : (evalStand s p).si = p.si := (Kept.refl p).thenEvalStand.si

theorem zoneFreshness_si (z : Fin 8) (b : Bool) (p : Part) : (zoneFreshness z b p).si = p.si := (Kept.refl p).thenZoneFreshness.si

theorem toldFresh_si (i : Input) (p : Part) : (toldFresh i p).si = p.si := by
  unfold toldFresh
  split
  · exact holdEncoder_si p
  · exact holdEncoder_si p
  · exact evalStand_si _ p
  · exact zoneFreshness_si _ _ p
  · rfl

theorem toldStale_si (i : Input) (p : Part) : (toldStale i p).si = p.si := by
  unfold toldStale
  split
  · exact holdEncoder_si (setBoard p _)
  · exact holdEncoder_si (setFeeder p _ _)
  · exact evalStand_si _ (setStandRec p _ _)
  · exact zoneFreshness_si _ _ p
  · rfl

section Latches

variable {w : Alarm}

theorem Latched.holdEncoder (h : Latched w p) : Latched w (holdEncoder p) := by
  unfold Machine.holdEncoder holdAtCrawl
  exact .ite (.ite h.activate h.deactivate) h

theorem Latched.zoneFreshness {z : Fin 8} {b : Bool} (h : Latched w p) : Latched w (zoneFreshness z b p) :=
  .ite (Latched.writeHeat h.same) h

/-- An owner that is told clears no latch. -/
theorem Latched.toldStale (h : Latched w p) : Latched w (toldStale i p) := by
  unfold Machine.toldStale
  split
  · exact Latched.holdEncoder h.same
  · exact Latched.holdEncoder h.same
  · exact Latched.evalStand h.same
  · exact h.zoneFreshness
  · exact h

end Latches

section Zone

variable {z : Fin 8} {b : Bool}

theorem zoneFreshness_idle (h : p.mu.mode = .config ∨ p.bc.zoneCount ≤ z.val) : zoneFreshness z b p = p := by
  rcases h with config | unused
  · rw [zoneFreshness, inRun_config config]
    rfl
  · rw [zoneFreshness, zoneInUse_unused unused, Bool.and_false]
    rfl

/-- The mark for an emptied history is no part of a zone's state. -/
theorem zoneState_setZone_mark (z : Fin 8) (b : Bool) (p : Part) :
    zoneState (setZone p z { p.bc.zones.get z with staleSince := b }) z = zoneState p z := by
  unfold zoneState
  rw [setZone_zones, get_upd_same]
  rfl

theorem setZone_setZone (p : Part) (z : Fin 8) (u v : ZoneUnit) : setZone (setZone p z u) z v = setZone p z v := by
  simp only [setZone, upd_upd]

/-- A zone's state is set beside the mark. -/
theorem setZoneState_mark (z : Fin 8) (b : Bool) (p : Part) :
    setZoneState z (setZone p z { p.bc.zones.get z with staleSince := b })
      = setZone p z { p.bc.zones.get z with staleSince := b, state := zoneState p z } := by
  rw [setZoneState, zoneState_setZone_mark, setZone_setZone, setZone_zones, get_upd_same]

/-- In RUN the zone's state is set and HEAT written, with the history marked where the input is stale (R118, R120). -/
theorem zoneFreshness_run (run : p.mu.mode = .run) (used : z.val < p.bc.zoneCount) :
    zoneFreshness z b p = writeHeat z (setZone p z
      { p.bc.zones.get z with staleSince := (p.bc.zones.get z).staleSince || b, state := zoneState p z }) := by
  have taken : (inRun p && zoneInUse p z) = true := by rw [inRun_run run, zoneInUse_iff.2 used]; rfl
  exact (if_pos taken).trans (congrArg (writeHeat z) (setZoneState_mark z _ p))

end Zone

theorem told_other (board : i ≠ .boardEnc) (feeder : ∀ f, i ≠ .feederEnc f) (stand : ∀ s, i ≠ .standDia s) (zone : ∀ z, i ≠ .zoneTemp z) :
    toldStale i p = p ∧ toldFresh i p = p := by
  cases i with
  | boardEnc => exact absurd rfl board
  | feederEnc f => exact absurd rfl (feeder f)
  | standDia s => exact absurd rfl (stand s)
  | zoneTemp z => exact absurd rfl (zone z)
  | _ => exact ⟨rfl, rfl⟩

/-! ## Freshness records (R191) -/

theorem inputOf_role (i : Input) : inputOf i.role i.index = some i := by
  cases i with
  | boardEnc => rfl
  | knife => rfl
  | slitter => rfl
  | stacker => rfl
  | _ => exact congrArg (Option.map _) (place_eq_some.2 rfl)

theorem freshLimit_encoder (h : i = .boardEnc ∨ ∃ f, i = .feederEnc f) : freshLimit p i = p.si.encoderLimit := by
  rcases h with rfl | ⟨f, rfl⟩ <;> rfl

theorem freshLimit_other (board : i ≠ .boardEnc) (feeder : ∀ f, i ≠ .feederEnc f) : freshLimit p i = p.si.inputLimit := by
  cases i with
  | boardEnc => exact absurd rfl board
  | feederEnc f => exact absurd rfl (feeder f)
  | _ => rfl

theorem setFreshness_eq (i : Input) (st : Fresh) (last : Option Nat) (p : Part) :
    setFreshness i st last p = { p with si := { p.si with
      inMap := p.si.inMap.map (fun e => if e.input = i then { e with state := st, last := last } else e) } } := by
  simp only [setFreshness, modifyWhere, decide_eq_true_eq]

/-- The record that is changed is the one found for the input. -/
theorem inEntry_setFreshness (h : inEntry p i = some e) (st : Fresh) (last : Option Nat) :
    inEntry (setFreshness i st last p) i = some { e with state := st, last := last } := by
  have input := (inEntry_spec h).2
  have same : ((fun x : InEntry => decide (x.input = i)) ∘ fun x => if x.input = i then { x with state := st, last := last } else x)
      = fun x => decide (x.input = i) := by
    funext x
    dsimp only [Function.comp]
    split <;> rfl
  rw [inEntry] at h ⊢
  rw [setFreshness_eq, List.find?_map, same, h, Option.map_some, if_pos input]

theorem inEntry_same {q : Part} (h : q.si = p.si) : inEntry q i = inEntry p i := by rw [inEntry, h, inEntry]

theorem refresh_stale (run : p.mu.mode = .run) (stale : e.state = .stale) :
    refresh e p = toldFresh e.input (setFreshness e.input .fresh (some p.time) p) :=
  (if_pos (inRun_run run)).trans (if_pos stale)

theorem refresh_unstale (run : p.mu.mode = .run) (unstale : e.state ≠ .stale) : refresh e p = setFreshness e.input .fresh (some p.time) p :=
  (if_pos (inRun_run run)).trans (if_neg unstale)

theorem refresh_config (config : p.mu.mode = .config) : refresh e p = setFreshness e.input .waiting (some p.time) p := by
  rw [refresh, inRun_config config, if_neg Bool.false_ne_true]

theorem inEntry_refresh_run (run : p.mu.mode = .run) (h : inEntry p e.input = some e) :
    inEntry (refresh e p) e.input = some { e with state := .fresh, last := some p.time } := by
  by_cases stale : e.state = .stale
  · rw [refresh_stale run stale, inEntry_same (toldFresh_si _ _), inEntry_setFreshness h]
  · rw [refresh_unstale run stale, inEntry_setFreshness h]

theorem inEntry_refresh_config (config : p.mu.mode = .config) (h : inEntry p e.input = some e) :
    inEntry (refresh e p) e.input = some { e with state := .waiting, last := some p.time } := by
  rw [refresh_config config, inEntry_setFreshness h]

/-- An input whose limit has run out is STALE and INPUT_STALE latched, whatever its owner does when told. -/
theorem toldStale_expired (h : inEntry p i = some e) (last : Option Nat) :
    (inEntry (toldStale i (expired i last p)) i).map InEntry.state = some .stale ∧ Latched .inputStale (toldStale i (expired i last p)) := by
  refine ⟨?_, Latched.toldStale (latch_sets .inputStale _)⟩
  rw [inEntry_same (toldStale_si _ _), expired, inEntry_same (latch_si _ _), inEntry_setFreshness h]
  rfl

/-- Settles O20, each part by the lemma about its operation. -/
theorem freshnessExpiryMakesStale : Obligations.FreshnessExpiryMakesStale := by
  refine ⟨fun p i => ⟨freshLimit_encoder, freshLimit_other, inputStale_iff⟩, fun s i e last run found fresh taken due => ?expires,
    fun bytes s f n parsed node elsewhere other kind => exec_sample parsed node other elsewhere kind,
    fun p src ch rest => ⟨fun unknown => takeSample_unknown (keyedEntry_none unknown), fun before e after list first here => ?keyed⟩,
    fun p e found => ⟨fun run => inEntry_refresh_run run found, fun config => inEntry_refresh_config config found⟩,
    fun p e => ⟨refresh_stale, refresh_unstale, refresh_config⟩, fun p i st last => setFreshness_eq i st last p, fun p s => ⟨rfl, rfl⟩,
    fun p z => ⟨fun idle => ⟨zoneFreshness_idle idle, zoneFreshness_idle idle⟩, fun run used => ⟨?stale, ?fresh⟩⟩, fun p i => told_other,
    wordsOf_flatMap, fun p a b c => ⟨rfl, fun _ => rfl, fun _ => rfl, fun _ => rfl, fun _ => rfl, fun f => deliver_jointSight f a p, fun _ => rfl,
      fun g => ⟨handOn_none, handOn_some⟩, fun d => deliver_defect d a b p, deliver_knife a b p, rfl, deliver_stacker a p⟩⟩
  case expires =>
    have told := freshnessExpires_due run found fresh taken due
    obtain ⟨stale, latched⟩ := toldStale_expired found e.last
    refine ⟨_, exec_freshnessExpiry (inputOf_role i) s, ?_, ?_, ?_⟩
    · rw [told]
      exact stale
    · rw [told]
      exact latched
    · rw [told, taken]
      rfl
  case keyed =>
    have found := keyedEntry_first list first here
    exact ⟨fun bad => takeSample_bad found (sampleValues_fails bad), fun n body payload passes => by
      subst payload
      exact takeSample_good found (sampleValues_passes passes)⟩
  case stale =>
    have told := zoneFreshness_run (b := true) run used
    rw [Bool.or_true] at told
    exact told
  case fresh =>
    have told := zoneFreshness_run (b := false) run used
    rw [Bool.or_false] at told
    exact told

end Sys2Proof.Machine
end

section
/-! MU's alarms and counters: occurrences, rises and where a notice goes, the requests for them, with O55 to O59 (R201 to R207). -/

namespace Sys2Proof.Machine

/-! ## A set of flags as one number (R193) -/

theorem bitsOf_cons (b : Bool) (l : List Bool) : bitsOf (b :: l) = Nat.bit b (bitsOf l) := by
  rw [bitsOf, Nat.bit_val, Nat.add_comm]
  cases b <;> rfl

/-- Bit `i` of a set is its flag `i`. -/
theorem testBit_bitsOf (l : List Bool) (i : Nat) : (bitsOf l).testBit i = l[i]?.getD false := by
  induction l generalizing i with
  | nil => exact Nat.zero_testBit i
  | cons b l ih =>
    rw [bitsOf_cons]
    cases i with
    | zero => exact Nat.testBit_bit_zero b _
    | succ i =>
      rw [Nat.testBit_bit_succ, ih]
      rfl

theorem bitsOf_lt (l : List Bool) : bitsOf l < 2 ^ l.length := by
  induction l with
  | nil => exact Nat.one_pos
  | cons b l ih =>
    rw [bitsOf_cons, Nat.bit_val, List.length_cons, Nat.pow_succ]
    have := b.toNat_lt
    omega

/-- Bit `i` of the set of a table's flags is the flag at place `i`. -/
theorem testBit_bitsOf_table {α : Type} {n : Nat} (v : Vector α n) (f : α → Bool) (i : Fin n) :
    (bitsOf (v.toList.map f)).testBit i.val = f (v.get i) := by
  rw [testBit_bitsOf, List.getElem?_map, Vector.getElem?_toList, Vector.getElem?_eq_getElem i.isLt]
  rfl

theorem bitsOf_table_lt {α : Type} {n : Nat} (v : Vector α n) (f : α → Bool) : bitsOf (v.toList.map f) < 2 ^ n := by
  have bound := bitsOf_lt (v.toList.map f)
  rwa [List.length_map, Vector.length_toList] at bound

/-! ## READ ALARMS and SET NOTICE MASK (R202, R204) -/

theorem bytesOf_one (n : Nat) : bytesOf 1 n = [BitVec.ofNat 8 n] := by simp [bytesOf]

/-- The counts stand one byte each. -/
theorem flatMap_count (l : List AlarmRecord) : l.flatMap (fun x => bytesOf 1 x.count) = l.map (fun x => BitVec.ofNat 8 x.count) := by
  simp only [bytesOf_one]
  exact List.flatMap_pure_eq_map _ _

/-- Settles O55: the set of latches is the number whose bits are the latches. -/
theorem readAlarmsAnswersLatches : Obligations.ReadAlarmsAnswersLatches := by
  intro s r asks
  refine ⟨bitsOf (s.part.mu.alarms.toList.map AlarmRecord.latch), fun w => testBit_bitsOf_table _ _ w.idx, bitsOf_table_lt _ _, ?_⟩
  refine onPart_serve_of_asks asks rfl ?_
  rw [readAlarmsAll, okWith, flatMap_count, bytesOf_one]
  rfl

/-- Settles O56: bit 37 and the bits above it are no alarm's. -/
theorem noticeMaskIsStored : Obligations.NoticeMaskIsStored := by
  intro s r m asks
  exact ⟨fun legal => onPart_serve_of_asks asks rfl (if_neg (Nat.not_le.2 legal)), fun above => onPart_serve_of_asks asks rfl (if_pos above)⟩

/-! ## What posts leave of the alarms (R201) -/

section Others

variable {p : Part} {v w : Alarm}

theorem arbitrate_mu (p : Part) : (arbitrate p).1.mu = p.mu := by
  unfold arbitrate
  split
  · rw [refill_mu]
    rfl
  · split
    · rfl
    · split
      · rw [refill_mu]
        rfl
      · rfl
    · rw [refill_mu]
      rfl
    · rfl

theorem bump_alarms (c : Counter) (n : Nat) (p : Part) : (bump c n p).1.mu.alarms = p.mu.alarms := by
  unfold bump
  dsimp only
  split <;> rfl

theorem alarmOf_occur_ne (other : v ≠ w) (p : Part) : alarmOf (occur w p).1 v = alarmOf p v := by rw [alarmOf_occur, if_neg other]

theorem alarmOf_bump (c : Counter) (n : Nat) (p : Part) : alarmOf (bump c n p).1 v = alarmOf p v := by rw [alarmOf, bump_alarms, alarmOf]

theorem alarmOf_loseNotice (other : v ≠ .counterSaturated) (p : Part) : alarmOf (loseNotice p) v = alarmOf p v := by
  unfold loseNotice
  dsimp only
  split
  · exact (alarmOf_occur_ne other _).trans (alarmOf_bump _ _ _)
  · exact alarmOf_bump _ _ _

theorem alarmOf_queueNotice (other : v ≠ .counterSaturated) (n : Notice) (p : Part) : alarmOf (queueNotice n p) v = alarmOf p v := by
  unfold queueNotice
  split
  · rfl
  · split
    · rfl
    · exact alarmOf_loseNotice other p

/-- A latch leaves the others as its occurrence does, but for a notice that is lost. -/
theorem alarmOf_latchQueued (other : v ≠ .counterSaturated) (w : Alarm) (p : Part) : alarmOf (latchQueued w p) v = alarmOf (occur w p).1 v := by
  unfold latchQueued
  split <;> rename_i e <;> rw [e]
  exact alarmOf_queueNotice other _ _

theorem alarmOf_raiseQueued (other : v ≠ .counterSaturated) (c : Counter) (n : Nat) (p : Part) :
    alarmOf (raiseQueued c n p) v = alarmOf p v := by
  have risen := alarmOf_bump (v := v) c n p
  unfold raiseQueued
  split <;> rename_i e <;> rw [e] at risen
  · exact (alarmOf_latchQueued other _ _).trans ((alarmOf_occur_ne other _).trans risen)
  · exact risen

/-- The transmit port latches no alarm but COUNTER_SATURATED (R177, R206). -/
theorem alarmOf_kick (other : v ≠ .counterSaturated) (p : Part) : alarmOf (kick p) v = alarmOf p v := by
  have chosen : alarmOf (arbitrate p).1 v = alarmOf p v := by rw [alarmOf, arbitrate_mu, alarmOf]
  unfold kick nextFrame
  split
  · split <;> rename_i e <;> rw [e] at chosen
    · exact (alarmOf_raiseQueued other _ _ _).trans chosen
    · exact chosen
  · rfl

theorem alarmOf_postReply (other : v ≠ .counterSaturated) (r : Request) (st : Status) (l : List Byte) (p : Part) :
    alarmOf (postReply r st l p) v = alarmOf p v := by
  refine (alarmOf_kick other _).trans ?_
  unfold placeMessage
  split <;> rfl

/-- A latched alarm's record after the posts of its notice. -/
theorem alarmOf_latch (other : w ≠ .counterSaturated) (p : Part) :
    alarmOf (latch w p) w = { latch := true, count := min 255 ((alarmOf p w).count + 1), stamp := p.mu.generation } := by
  rw [latch, alarmOf_kick other, alarmOf_latchQueued other, alarmOf_occur, if_pos rfl]

end Others

/-! ## ACK ALARMS (R203) -/

section Ack

variable {p : Part} {r : Request} {token g : Nat}

/-- The acknowledged generation is the greatest below the present one that has the token's low byte. -/
theorem acknowledged_eq_some (small : token ≤ 255) (now : Nat) :
    acknowledged now token = some g ↔ g < now ∧ g % 256 = token ∧ ∀ h, h < now → h % 256 = token → h ≤ g := by
  unfold acknowledged
  by_cases none : now = 0
  · simp [none]
  rw [if_neg none]
  dsimp only
  generalize back : (now - 1 + (256 - token)) % 256 = b
  split
  · rename_i enough
    rw [Option.some.injEq]
    constructor
    · rintro rfl
      exact ⟨by omega, by omega, fun h below same => by omega⟩
    · rintro ⟨below, same, greatest⟩
      have := greatest (now - 1 - b) (by omega) (by omega)
      omega
  · simp only [reduceCtorEq, false_iff]
    rintro ⟨below, same, _⟩
    omega

theorem anyOpenOff_iff : anyOpenOff p = true ↔ ∃ e ∈ p.wt.track, (∃ i tag, e.kind = .offGrade i tag) ∧ e.extent = none := by
  have kind (e : TrackEntry) : (match e.kind with | .offGrade _ _ => true | _ => false) = true ↔ ∃ i tag, e.kind = .offGrade i tag := by
    cases e.kind <;> simp
  simp only [anyOpenOff, List.any_eq_true, Bool.and_eq_true, TrackEntry.closed, Bool.not_eq_true', Option.isSome_eq_false_iff,
    Option.isNone_iff_eq_none]
  exact exists_congr fun e => and_congr_right fun _ => and_congr_left fun _ => kind e

/-- The latches that the acknowledgement covers are cleared, and nothing else of a record (R203). -/
theorem alarmOf_clearLatches (g : Nat) (p : Part) (w : Alarm) :
    alarmOf (clearLatches g p) w = { alarmOf p w with latch := (alarmOf p w).latch && decide (g < (alarmOf p w).stamp) } := by
  have mapped : alarmOf (clearLatches g p) w
      = if (alarmOf p w).covered g then { alarmOf p w with latch := false } else alarmOf p w := by
    rw [alarmOf, clearLatches, Vector.get_eq_getElem, Vector.getElem_map]
    rfl
  rw [mapped]
  generalize alarmOf p w = x
  obtain ⟨l, count, stamp⟩ := x
  cases l
  · rfl
  · by_cases seen : stamp ≤ g
    · simp [AlarmRecord.covered, seen]
    · simp [AlarmRecord.covered, seen, Nat.lt_of_not_le seen]

theorem ackAlarmsBy_above (h : 255 < token) : ackAlarmsBy r [token] p = postReply r .badArg [] p := if_pos h

theorem ackAlarmsBy_none (small : token ≤ 255) (h : p.mu.readMade = false ∨ acknowledged p.mu.generation token = none) :
    ackAlarmsBy r [token] p = postReply r .state [] p := by
  have absent : (if p.mu.readMade then acknowledged p.mu.generation token else none) = none := by
    rcases h with h | h <;> simp [h]
  simp only [ackAlarmsBy, if_neg (Nat.not_lt.2 small), absent, replyTo_refuse]

theorem ackAlarmsBy_some (small : token ≤ 255) (read : p.mu.readMade = true) (h : acknowledged p.mu.generation token = some g) :
    ackAlarmsBy r [token] p =
      (let t := postReply r .ok (latchSet (clearLatches g p) ++ w32 (p.mu.alarms.toList.filter (AlarmRecord.covered g)).length) (clearLatches g p)
       if (alarmOf p .offGrade).covered g && anyOpenOff p then latch .offGrade t else t) := by
  simp only [ackAlarmsBy, if_neg (Nat.not_lt.2 small), read, if_true, h, replyTo_okWith]

end Ack

theorem exec_ackAlarms {s : State} {r : Request} {token : Nat} (asks : Asks s.part 47 [4] [token] r) :
    exec .ackAlarms s = .next { s with part := ackAlarmsBy r [token] (popRequest s.part) } := by
  show onPart (serveWith 47 .either [4] ackAlarmsBy) s = _
  rw [onPart, serveWith_of_asks asks rfl]

/-- Settles O57, by the token: above 255, without an acknowledged generation, and with one. -/
theorem ackClearsSeenLatches : Obligations.AckClearsSeenLatches := by
  intro s r token asks
  refine ⟨fun above => ?above, fun small => ⟨fun g => acknowledged_eq_some small _, fun absent => ?absent, fun g read found => ?found⟩⟩
  case above => rw [exec_ackAlarms asks, ackAlarmsBy_above above, Answered]
  case absent => rw [exec_ackAlarms asks, ackAlarmsBy_none (p := popRequest s.part) small absent, Answered]
  case found =>
    have answer := exec_ackAlarms asks
    rw [ackAlarmsBy_some (p := popRequest s.part) small read found] at answer
    refine ⟨clearLatches g (popRequest s.part), fun once => ?_, fun again => ⟨?_, ?_⟩, alarmOf_clearLatches g (popRequest s.part), rfl, rfl, rfl⟩
    · rw [answer, if_neg (by rw [Bool.and_eq_true, anyOpenOff_iff]; exact once)]
      rfl
    · rw [answer, if_pos (by rw [Bool.and_eq_true, anyOpenOff_iff]; exact again)]
      rfl
    · have other : Alarm.offGrade ≠ .counterSaturated := by decide
      rw [alarmOf_latch other, alarmOf_postReply other, alarmOf_clearLatches, (posted_postReply _ _ _ _).generation]
      rfl

/-! ## Occurrences and rises (R201, R206) -/

section Rises

variable {p : Part} {c : Counter} {n : Nat} {w : Alarm}

/-- An occurrence gives its notice exactly when the latch was clear and the alarm is enabled. -/
theorem occur_notice : (occur w p).2.isSome ↔ (alarmOf p w).latch = false ∧ enabled p w = true := by
  unfold occur
  dsimp only
  cases (alarmOf p w).latch <;> cases enabled p w <;> simp

/-- The part with a counter's record replaced. -/
def setCounter (c : Counter) (x : CounterRecord) (p : Part) : Part := { p with mu := { p.mu with counters := upd p.mu.counters c.idx x } }

theorem counterOf_setCounter (c : Counter) (x : CounterRecord) (p : Part) : counterOf (setCounter c x p) c = x := get_upd_same _ _ _

theorem bump_below (h : (counterOf p c).value + n ≤ c.max) :
    (bump c n p).2 = false ∧ counterOf (bump c n p).1 c = { counterOf p c with value := (counterOf p c).value + n } := by
  have risen : bump c n p = (setCounter c { counterOf p c with value := (counterOf p c).value + n } p, false) := if_pos h
  rw [risen]
  exact ⟨rfl, counterOf_setCounter c _ p⟩

theorem bump_above (h : c.max < (counterOf p c).value + n) :
    (bump c n p).2 = !(counterOf p c).saturated ∧ counterOf (bump c n p).1 c = { value := c.max, saturated := true } := by
  have risen : bump c n p = (setCounter c { value := c.max, saturated := true } p, !(counterOf p c).saturated) := if_neg (Nat.not_le.2 h)
  rw [risen]
  exact ⟨rfl, counterOf_setCounter c _ p⟩

theorem bump_saturated : (counterOf (bump c n p).1 c).saturated = true ↔ (counterOf p c).saturated = true ∨ c.max < (counterOf p c).value + n := by
  rcases Nat.lt_or_ge c.max ((counterOf p c).value + n) with above | below
  · simp [(bump_above above).2, above]
  · simp [(bump_below below).2, Nat.not_lt.2 below]

/-- The rise sets the flag where it passes the maximum and the flag was clear. -/
theorem bump_sets : (bump c n p).2 = true ↔ (counterOf p c).saturated = false ∧ c.max < (counterOf p c).value + n := by
  rcases Nat.lt_or_ge c.max ((counterOf p c).value + n) with above | below
  · simp [(bump_above above).1, above]
  · simp [(bump_below below).1, Nat.not_lt.2 below]

theorem latch_noticed (clear : (alarmOf p w).latch = false) (on : enabled p w = true) :
    latch w p = postNotice (.alarm w (min 255 ((alarmOf p w).count + 1)) p.mu.generation) (occur w p).1 := by
  have given : (occur w p).2 = some (.alarm w (min 255 ((alarmOf p w).count + 1)) p.mu.generation) := by simp [occur, clear, on]
  rw [latch, latchQueued, ← Prod.eta (occur w p), given, postNotice]

theorem latch_unnoticed (h : (alarmOf p w).latch = true ∨ enabled p w = false) : latch w p = kick (occur w p).1 := by
  have none : (occur w p).2 = none := by rcases h with h | h <;> simp [occur, h]
  rw [latch, latchQueued, ← Prod.eta (occur w p), none]

theorem raise_unsaturated (h : (bump c n p).2 = false) : raise c n p = kick (bump c n p).1 := by
  rw [raise, raiseQueued, ← Prod.eta (bump c n p), h]

theorem raise_saturates (h : (bump c n p).2 = true) : raise c n p = latch .counterSaturated (bump c n p).1 := by
  rw [raise, raiseQueued, ← Prod.eta (bump c n p), h, latch]

end Rises

/-! ## Notices (R182, R205) -/

section Notices

variable {p : Part} {n : Notice}

theorem kick_empty (urgent : p.rif.urgent = []) (normal : p.rif.normal = []) (forward : p.rif.forward = []) : kick p = p := by
  cases port : p.rif.port with
  | some f => exact kick_sending (by rw [port]; rfl)
  | none =>
    have idle : kick p = nextFrame p := by simp only [kick, port]
    rw [idle, nextFrame_idle urgent forward normal, ← port]

theorem queueNotice_enters (node : p.node.isSome) (h : canEnter p false = true) :
    queueNotice n p = { p with rif := { p.rif with normal := p.rif.normal ++ [.notice n] } } := by
  have numbered : p.node.isNone = false := by rw [Option.isNone_eq_false_iff, node]
  simp only [queueNotice, numbered, h, if_true, Bool.false_eq_true, if_false]
  rfl

theorem queueNotice_lost (node : p.node.isSome) (h : ¬ canEnter p false = true) : queueNotice n p = loseNotice p := by
  have numbered : p.node.isNone = false := by rw [Option.isNone_eq_false_iff, node]
  simp only [queueNotice, numbered, h, Bool.false_eq_true, if_false]

theorem postNotice_unnumbered (node : p.node = none) : postNotice n p = kick p := by
  rw [postNotice, queueNotice, node, Option.isNone_none, if_pos rfl]

theorem onItsWay_postNotice (node : p.node.isSome) (h : canEnter p false = true) : OnItsWay (postNotice n p) (.notice n) := by
  rw [postNotice, queueNotice_enters node h]
  exact OnItsWay.kick (.inr (.inl (List.mem_append_right _ (List.mem_singleton.2 rfl))))

/-- The normal queue is full, or a frame waits for it. -/
theorem not_canEnter_normal : ¬ canEnter p false = true ↔ 32 ≤ p.rif.normal.length ∨ p.rif.normalWait ≠ [] := by
  rw [canEnter_iff, not_and_or, Nat.not_lt]
  exact Iff.rfl

end Notices

/-- Settles O58, each part by the lemma about its operation. -/
theorem occurrencesAndRises : Obligations.OccurrencesAndRises := by
  refine ⟨fun p w => ⟨?record, fun v other => alarmOf_occur_ne other p, occur_notice, rfl, rfl⟩,
    fun p c n _ => ⟨counterOf_bump_value c n p, bump_saturated, bump_sets, fun d other => counterOf_bump_ne other n p, bump_rif c n p,
      (posted_bump c n p).wt⟩,
    fun p w => ⟨latch_noticed, latch_unnoticed⟩, fun p c n => ⟨raise_unsaturated, raise_saturates⟩, fun p n node => ?notice,
    fun p n => postNotice_unnumbered, fun p idle => ?kick⟩
  case record => rw [alarmOf_occur, if_pos rfl]
  case notice =>
    refine ⟨fun room => ?_, fun full flag => ?_, fun full flag => ?_⟩
    · have enters : canEnter p false = true := by rwa [← not_canEnter_normal, not_not] at room
      exact ⟨onItsWay_postNotice node enters, fun busy => by rw [postNotice, queueNotice_enters node enters]; exact kick_sending busy⟩
    · rw [postNotice, queueNotice_lost node (not_canEnter_normal.2 full), loseNotice, flag]
      rfl
    · rw [postNotice, queueNotice_lost node (not_canEnter_normal.2 full), loseNotice, flag]
      rfl
  case kick =>
    rcases idle with busy | ⟨urgent, normal, forward⟩
    · exact kick_sending busy
    · exact kick_empty urgent normal forward

/-! ## SNAPSHOT and SNAPSHOT CLEAR (R207) -/

theorem endRun_time (record : Bool) (p : Part) : (endRun record p).time = p.time := by
  have regions : Kept p (p.os.regions.foldl (dropRegion record) p) := (Kept.refl p).thenFold (fun q r => dropRegion_kept record r) _
  unfold endRun
  rw [refill_time]
  exact regions.time

/-- Settles O59: the copies, and the reset values that RESTART restores. -/
theorem snapshotCopiesCounters : Obligations.SnapshotCopiesCounters := by
  refine ⟨fun s r => ⟨fun asks => onPart_serve_of_asks asks rfl rfl, fun asks => onPart_serve_of_asks asks rfl rfl⟩,
    fun b s => ⟨Part.reset b, rfl, rfl, rfl⟩, fun s r asks => ⟨_, onPart_serve_of_asks asks rfl rfl, rfl, ?_⟩⟩
  show (if inRun (popRequest s.part) then endRun false (popRequest s.part) else _).time = s.part.time
  split
  · exact (endRun_time false _).trans rfl
  · rfl

end Sys2Proof.Machine
end

section
/-! MU's own checks of a request, its code, length and mode, with O49 (R193, R195, R196). -/

namespace Sys2Proof.Machine

/-- MU is free while no reply waits for the normal queue (R195). -/
theorem muFree_iff (p : Part) :
    muFree p = true ↔ ∀ w ∈ p.rif.normalWait, ∀ dest code number st results, w.msg ≠ .reply dest code number st results := by
  have noReply (m : Message) : m.isReply = false ↔ ∀ dest code number st results, m ≠ .reply dest code number st results := by
    cases m <;> simp [Message.isReply]
  simp only [muFree, Bool.not_eq_true', List.any_eq_false, Bool.not_eq_true]
  exact forall_congr' fun w => imp_congr_right fun _ => noReply w.msg

theorem refuseMalformed_head {p : Part} {r : Request} (free : muFree p = true) (head : p.mu.queue.head? = some r) (bad : r.malformed = true) :
    refuseMalformed p = postReply r .badArg [] (popRequest p) := by
  obtain ⟨rest, queue⟩ := List.head?_eq_some_iff.1 head
  simp only [refuseMalformed, queue, free, bad, Bool.and_self, if_true]

/-! ## Codes and lengths (R193) -/

/-- The requests of fixed lengths, each code with a length that it admits. -/
def requestTable : List (Nat × Nat) :=
  [(1, 0), (2, 0), (3, 0), (16, 4), (17, 16), (18, 8), (19, 32), (20, 32), (22, 20), (23, 12), (24, 0), (32, 88), (32, 172), (33, 4), (34, 4),
   (35, 28), (36, 31), (37, 60), (38, 4), (39, 4), (40, 4), (41, 8), (42, 8), (43, 0), (44, 8), (45, 4), (46, 0), (47, 4), (48, 8), (49, 0),
   (50, 0), (51, 4), (64, 12), (65, 12), (66, 4), (67, 0), (68, 0)]

theorem known_of_table {c n : Nat} (h : (c, n) ∈ requestTable ∨ (c = 21 ∧ n % 6 = 0)) : c ∈ knownCodes := by
  have codes : ∀ x ∈ requestTable, x.1 ∈ knownCodes := by decide
  rcases h with h | ⟨rfl, _⟩
  · exact codes _ h
  · decide

/-- A known code admits the lengths that the table gives it, and SET LIMITS those of whole pairs. -/
theorem lengthOk_iff {c : Nat} (known : c ∈ knownCodes) (n : Nat) :
    lengthOk c n = true ↔ (c, n) ∈ requestTable ∨ (c = 21 ∧ n % 6 = 0) := by
  fin_cases known <;> simp [lengthOk, requestTable]
  -- The goal left is that of SET LIMITS, whose length is not in the table.
  exact Iff.rfl

/-- A request fails the first check when its code, where it has one, does not go with its length (R195). -/
theorem malformed_iff (r : Request) :
    r.malformed = true ↔ ∀ c, r.code = some c → (c, r.args.length) ∉ requestTable ∧ ¬(c = 21 ∧ r.args.length % 6 = 0) := by
  unfold Request.malformed
  cases r.code with
  | none => simp
  | some c =>
    have fits : (decide (c ∈ knownCodes) && lengthOk c r.args.length) = true ↔ (c, r.args.length) ∈ requestTable ∨ (c = 21 ∧ r.args.length % 6 = 0) := by
      rw [Bool.and_eq_true, decide_eq_true_eq]
      exact ⟨fun ⟨known, length⟩ => (lengthOk_iff known _).1 length, fun h => ⟨known_of_table h, (lengthOk_iff (known_of_table h) _).2 h⟩⟩
    simp only [Bool.not_eq_true', ← Bool.not_eq_true, fits, not_or, Option.some.injEq, forall_eq']

/-! ## The mode (R195, R196) -/

/-- A request's command in a mode that does not take it. -/
theorem onPart_serve_wrongMode {code : Nat} {m : Mode} {ws fs : List Nat} {act : List Nat → Part → Answer} {s : State} {r : Request}
    (asks : Asks s.part code ws fs r) (other : s.part.mu.mode ≠ m) :
    onPart (serve code (.only m) ws act) s = Answered s r .wrongMode [] (popRequest s.part) :=
  onPart_answered (serve_wrongMode asks (allows_other other))

theorem serveLimits_of_asks {p : Part} {fs : List Nat} {r : Request} (asks : Asks p 21 (pairWidths r.args.length) fs r) :
    serveLimits p = serve 21 (.only .config) (pairWidths r.args.length) (fun fs q => storePairs (pairUp fs) q) p := by
  simp only [serveLimits, headRequest_of_asks asks]

/-- The requests that one mode alone takes: command, code, mode and the widths of the arguments (R196). -/
def modeTable : List (Instr × Nat × Mode × List Nat) :=
  [(.enterRun, 1, .config, []), (.enterConfig, 2, .run, []), (.setLine, 16, .config, [4]), (.setEncoder, 17, .config, [4, 4, 4, 4]),
   (.setStation, 18, .config, [4, 4]), (.setStand, 19, .config, [4, 4, 4, 4, 4, 4, 4, 4]), (.setBridge, 20, .config, [4, 4, 4, 4, 4, 4, 4, 4]),
   (.mapWrite, 22, .config, [4, 4, 4, 4, 4]), (.mapClear, 23, .config, [4, 4, 4]), (.rosterClear, 24, .config, []), (.alignBridge, 64, .run, [4, 8]),
   (.mark, 65, .run, [4, 4, 4]), (.setCeiling, 66, .run, [4]), (.clearCeiling, 67, .run, []), (.clearBreak, 68, .run, [])]

/-- Each command of the table serves its own code. -/
theorem exec_of_modeTable {c : Instr} {code : Nat} {m : Mode} {ws : List Nat} (listed : (c, code, m, ws) ∈ modeTable) :
    ∃ act, exec c = onPart (serve code (.only m) ws act) := by
  fin_cases listed <;> exact ⟨_, rfl⟩

theorem exec_wrongMode {s : State} {r : Request} {c : Instr} {code : Nat} {m : Mode} {ws fs : List Nat} (listed : (c, code, m, ws) ∈ modeTable)
    (asks : Asks s.part code ws fs r) (other : s.part.mu.mode ≠ m) : exec c s = Answered s r .wrongMode [] (popRequest s.part) := by
  obtain ⟨act, served⟩ := exec_of_modeTable listed
  rw [served]
  exact onPart_serve_wrongMode asks other

/-- Settles O49, each part by the lemma about the check. -/
theorem muChecksComeFirst : Obligations.MuChecksComeFirst := by
  refine ⟨muFree_iff, fun s r free head bad => onPart_answered (refuseMalformed_head free head bad), malformed_iff,
    fun s r fs run asks => onPart_answered ?_, fun s r c code m ws fs => exec_wrongMode⟩
  rw [serveLimits_of_asks asks]
  exact serve_wrongMode asks (allows_other (by rw [run]; decide))

end Sys2Proof.Machine
end

section
/-! SET LIMITS: the identities and ranges of the settings, what a pair stores, and the adjustments, with O53 (R200). -/

namespace Sys2Proof.Machine

/-! ## Identities and ranges (R200) -/

/-- The settings of which there is one, with their identities and ranges. -/
def singleSettings : List (Nat × Setting × Nat × Nat) :=
  [(1, .bucketSize, 1, 64), (2, .refillLength, 1000, 10000000), (3, .commitLead, 200000, 5000000), (4, .wasteLength, 2000, 60000),
   (5, .swapTime, 100, 20000), (24, .settleTime, 0, 5000), (40, .zoneCount, 1, 8), (48, .regLimit, 100, 50000), (49, .lengthTol, 0, 5000),
   (50, .straddleTol, 0, 30000), (56, .transit, 100, 60000), (57, .watermark, 8, 64), (64, .lineMax, 10000, 100000), (65, .crawl, 1000, 20000),
   (66, .refreshPeriod, 50, 5000), (72, .aging, 1, 300), (73, .encoderLimit, 5, 1000), (74, .inputLimit, 50, 10000)]

/-- The settings of a unit. -/
def unitSettings (u : Fin 3) : List (Nat × Setting × Nat × Nat) :=
  [(17 + u.val, .minGap u, 50, 1000), (21 + u.val, .maxGap u, 50, 1000), (25 + u.val, .wrapLead u, 0, 3000000)]

/-- The setting of a zone. -/
def zoneSetting (z : Fin 8) : Nat × Setting × Nat × Nat := (32 + z.val, .zoneLead z, 0, 3000000)

/-- The settings with their identities and ranges. -/
def settingTable : List (Nat × Setting × Nat × Nat) :=
  singleSettings ++ (List.finRange 3).flatMap unitSettings ++ (List.finRange 8).map zoneSetting

/-- The identity of a setting. -/
def Setting.identity : Setting → Nat
  | .bucketSize => 1
  | .refillLength => 2
  | .commitLead => 3
  | .wasteLength => 4
  | .swapTime => 5
  | .minGap g => 17 + g.val
  | .maxGap g => 21 + g.val
  | .settleTime => 24
  | .wrapLead w => 25 + w.val
  | .zoneLead z => 32 + z.val
  | .zoneCount => 40
  | .regLimit => 48
  | .lengthTol => 49
  | .straddleTol => 50
  | .transit => 56
  | .watermark => 57
  | .lineMax => 64
  | .crawl => 65
  | .refreshPeriod => 66
  | .aging => 72
  | .encoderLimit => 73
  | .inputLimit => 74

theorem settingTable_sound : ∀ e ∈ settingTable, settingOf e.1 = some e.2.1 ∧ e.2.1.range = e.2.2 := by decide

theorem settingTable_complete (x : Setting) : (x.identity, x, x.range) ∈ settingTable := by
  cases x with
  | minGap g => revert g; decide
  | maxGap g => revert g; decide
  | wrapLead w => revert w; decide
  | zoneLead z => revert z; decide
  | _ => decide

/-- A setting is found by its own identity alone. -/
theorem identity_of_settingOf {n : Nat} {x : Setting} (h : settingOf n = some x) : n = x.identity := by
  unfold settingOf at h
  split at h
  case h_19 =>
    split_ifs at h
    all_goals
      obtain ⟨i, placed, rfl⟩ := Option.map_eq_some_iff.1 h
      have := place_eq_some.1 placed
      simp only [Setting.identity]
      omega
  all_goals
    cases h
    rfl

theorem mem_settingTable (n : Nat) (x : Setting) (lo hi : Nat) : (n, x, lo, hi) ∈ settingTable ↔ settingOf n = some x ∧ x.range = (lo, hi) := by
  refine ⟨settingTable_sound _, fun ⟨found, range⟩ => ?_⟩
  have listed := settingTable_complete x
  rwa [← identity_of_settingOf found, range] at listed

/-! ## What a pair stores (R200) -/

theorem readSetting_storeSetting (x : Setting) (v : Nat) (p : Part) : readSetting x (storeSetting x v p) = v := by
  cases x with
  | minGap g => exact get_upd_same _ _ _
  | maxGap g => exact get_upd_same _ _ _
  | wrapLead w => exact get_upd_same _ _ _
  | zoneLead z => exact get_upd_same _ _ _
  | _ => rfl

theorem readSetting_storeSetting_ne {x y : Setting} (other : y ≠ x) (v : Nat) (p : Part) :
    readSetting y (storeSetting x v p) = readSetting y p := by
  cases x with
  | minGap g =>
    cases y with
    | minGap h => exact get_upd_ne _ _ fun same => other (congrArg _ same)
    | _ => rfl
  | maxGap g =>
    cases y with
    | maxGap h => exact get_upd_ne _ _ fun same => other (congrArg _ same)
    | _ => rfl
  | wrapLead w =>
    cases y with
    | wrapLead h => exact get_upd_ne _ _ fun same => other (congrArg _ same)
    | _ => rfl
  | zoneLead z =>
    cases y with
    | zoneLead h => exact get_upd_ne _ _ fun same => other (congrArg _ same)
    | _ => rfl
  | _ => cases y <;> first | rfl | exact absurd rfl other

/-- The setting that is put back leaves the part as it was: nothing else was changed. -/
theorem storeSetting_back (x : Setting) (v : Nat) (p : Part) : storeSetting x (readSetting x p) (storeSetting x v p) = p := by
  cases x with
  | minGap g => simp only [storeSetting, readSetting, upd_upd, upd_get_self]
  | maxGap g => simp only [storeSetting, readSetting, upd_upd, upd_get_self]
  | wrapLead w => simp only [storeSetting, readSetting, upd_upd, upd_get_self]
  | zoneLead z => simp only [storeSetting, readSetting, upd_upd, upd_get_self]
  | _ => rfl

/-! ## The pairs of a request -/

section Pairs

variable {n : Nat} {bs : List Byte} {fs : List Nat} {l : List (Nat × Nat)} {xs : List (Setting × Nat)} {p : Part}

/-- Fields are none, or at least one pair. -/
theorem pairUp_ne_nil (read : fieldsOf (pairWidths n) bs = some fs) (some : fs ≠ []) : pairUp fs ≠ [] := by
  unfold pairWidths at read
  generalize n / 6 = k at read
  cases k with
  | zero =>
    cases bs with
    | nil => exact absurd (Option.some.inj read).symm some
    | cons b bs => cases read
  | succ k =>
    rw [List.replicate_succ, List.flatten_cons] at read
    simp only [List.cons_append, List.nil_append, fieldsOf] at read
    split_ifs at read
    · cases read
    · rw [Option.map_map, Option.map_eq_some_iff] at read
      obtain ⟨rest, _, rfl⟩ := read
      exact List.cons_ne_nil _ _

theorem settingPairs_some (h : List.Forall₂ (fun a x => settingOf a.1 = some x.1 ∧ a.2 = x.2) l xs) : settingPairs l = some xs := by
  induction h with
  | nil => rfl
  | @cons a x l xs found _ ih =>
    obtain ⟨identity, value⟩ := found
    simp only [settingPairs, identity, ih, value]

theorem settingPairs_none (h : ∃ a ∈ l, settingOf a.1 = none) : settingPairs l = none := by
  obtain ⟨a, mem, unknown⟩ := h
  induction mem with
  | head l => simp only [settingPairs, unknown]
  | @tail b l _ ih =>
    simp only [settingPairs, ih]
    cases settingOf b.1 <;> rfl

/-- The pairs stored clamped, in their order. -/
def storeAll (xs : List (Setting × Nat)) (p : Part) : Part :=
  xs.foldl (fun p x => storeSetting x.1 (clamp x.1.range.1 x.1.range.2 x.2) p) p

theorem storePairs_known (nonempty : l ≠ []) (known : settingPairs l = some xs) :
    storePairs l p = okWith (xs.flatMap (fun x => w32 (readSetting x.1 (adjustSettings (storeAll xs p))))) (adjustSettings (storeAll xs p)) := by
  cases l with
  | nil => exact absurd rfl nonempty
  | cons a l => simp only [storePairs, known, storeAll]

theorem storePairs_refused (h : l = [] ∨ settingPairs l = none) : storePairs l p = refuse .badArg p := by
  rcases h with rfl | unknown
  · rfl
  · cases l with
    | nil => rfl
    | cons a l => simp only [storePairs, unknown]

end Pairs

/-! ## The adjustments (R107, R162) -/

theorem adjustSettings_maxGap (g : Fin 3) (p : Part) :
    readSetting (.maxGap g) (adjustSettings p) = max (readSetting (.minGap g) p) (readSetting (.maxGap g) p) := by
  simp only [readSetting, adjustSettings, Vector.get_eq_getElem, Vector.getElem_ofFn]

theorem setLimits_answers {s : State} {r : Request} {fs : List Nat} {st : Status} {l : List Byte} {q : Part}
    (config : s.part.mu.mode = .config) (asks : Asks s.part 21 (pairWidths r.args.length) fs r)
    (h : storePairs (pairUp fs) (popRequest s.part) = { part := q, status := st, results := l }) :
    exec .setLimits s = Answered s r st l q := by
  refine onPart_answered ?_
  rw [serveLimits_of_asks asks, serve_of_asks asks (by rw [config]; rfl), h, replyTo]

/-- Settles O53: the table of the settings, what one pair stores, and the request as a whole. -/
theorem limitsAreStoredClamped : Obligations.LimitsAreStoredClamped := by
  refine ⟨mem_settingTable, fun x v p => ⟨readSetting_storeSetting x v p, fun y other => readSetting_storeSetting_ne other v p,
    storeSetting_back x v p⟩, fun s r fs config asks => ⟨fun xs nonempty known => ?stored, fun bad => ?refused⟩⟩
  case stored =>
    have pairs := pairUp_ne_nil asks.2.2.2 nonempty
    exact ⟨adjustSettings (storeAll xs (popRequest s.part)), setLimits_answers config asks (storePairs_known pairs (settingPairs_some known)),
      fun g => adjustSettings_maxGap g _, rfl, rfl⟩
  case refused =>
    refine setLimits_answers config asks (storePairs_refused ?_)
    rcases bad with rfl | unknown
    · exact .inl rfl
    · exact .inr (settingPairs_none unknown)

end Sys2Proof.Machine
end

section
/-! READ STATUS section by section, READ TRACK and READ COUNTERS, with O60 (R39, R208, R209; log 8). -/

namespace Sys2Proof.Machine

/-! ## A list in a reply (R209) -/

/-- As many items as fit: the first ones, up to the first that does not. -/
theorem fitItems_spec (room : Nat) (items : List (List Byte)) :
    ∃ k, fitItems room items = ((items.take k).flatten, k) ∧ k ≤ items.length ∧ (items.take k).flatten.length ≤ room
      ∧ (k < items.length → room < (items.take (k + 1)).flatten.length) := by
  induction items generalizing room with
  | nil => exact ⟨0, rfl, Nat.le_refl _, Nat.zero_le _, fun h => absurd h (Nat.lt_irrefl _)⟩
  | cons x xs ih =>
    by_cases fits : x.length ≤ room
    · obtain ⟨k, taken, bound, short, more⟩ := ih (room - x.length)
      refine ⟨k + 1, ?_, Nat.succ_le_succ bound, ?_, fun h => ?_⟩
      · simp only [fitItems, if_pos fits, taken, List.take_succ_cons, List.flatten_cons]
      · rw [List.take_succ_cons, List.flatten_cons, List.length_append]
        omega
      · have := more (Nat.lt_of_succ_lt_succ h)
        rw [List.take_succ_cons, List.flatten_cons, List.length_append]
        omega
    · refine ⟨0, ?_, Nat.zero_le _, Nat.zero_le _, fun _ => ?_⟩
      · simp only [fitItems, if_neg fits, List.take_zero, List.flatten_nil]
      · simpa using Nat.lt_of_not_le fits

/-- The answer with the items of a list from the start index on, as many as fit, or the refusal of a start index beyond the list. -/
def AnswersList (s : State) (r : Request) (i : Nat) (fields : List Byte) (items : List (List Byte)) (after : List Byte) : Prop :=
  let size (l : List (List Byte)) : Nat := fields.length + l.flatten.length + after.length + 4
  (items.length ≤ i ∧ ¬ (items = [] ∧ i = 0) → exec .readStatus s = Answered s r .badArg [] (popRequest s.part)) ∧
  (i < items.length ∨ (items = [] ∧ i = 0) →
    ∃ k : Nat, i + k ≤ items.length ∧ size ((items.drop i).take k) ≤ 116
      ∧ (i + k < items.length → 116 < size ((items.drop i).take (k + 1)))
      ∧ exec .readStatus s = Answered s r .ok
          (fields ++ ((items.drop i).take k).flatten ++ after ++ opt32 (if k ≠ 0 ∧ i + k < items.length then some (i + k) else none))
          (popRequest s.part))

section Status

variable {s : State} {r : Request} {n i : Nat}

theorem readStatus_ok (asks : Asks s.part 44 [4, 4] [n, i] r) {l m : List Byte}
    (read : readStatusOf [n, i] (popRequest s.part) = okWith l (popRequest s.part)) (same : l = m) :
    exec .readStatus s = Answered s r .ok m (popRequest s.part) :=
  onPart_serve_of_asks asks rfl (read.trans (congrArg (fun x => okWith x _) same))

theorem readStatus_refused (asks : Asks s.part 44 [4, 4] [n, i] r)
    (read : readStatusOf [n, i] (popRequest s.part) = refuse .badArg (popRequest s.part)) :
    exec .readStatus s = Answered s r .badArg [] (popRequest s.part) :=
  onPart_serve_of_asks asks rfl read

/-- A section with a list answers it, where the fields around the list leave room for a next index. -/
theorem answersList (asks : Asks s.part 44 [4, 4] [n, i] r) {fields after : List Byte} {items : List (List Byte)}
    (read : readStatusOf [n, i] (popRequest s.part) = listSection i fields items after (popRequest s.part))
    (room : fields.length + after.length + 4 ≤ 116) : AnswersList s r i fields items after := by
  refine ⟨fun beyond => readStatus_refused asks (read.trans (if_pos beyond)), fun inside => ?_⟩
  obtain ⟨k, taken, bound, short, more⟩ := fitItems_spec (Config.resultRoom - fields.length - after.length - 4) (items.drop i)
  have within : i ≤ items.length := inside.elim Nat.le_of_lt fun empty => empty.2 ▸ Nat.zero_le _
  rw [List.length_drop] at bound more
  rw [Config.resultRoom] at short more
  have listed : ¬(items.length ≤ i ∧ ¬(items = [] ∧ i = 0)) := fun ⟨beyond, nonempty⟩ => inside.elim (Nat.not_lt.2 beyond) nonempty
  refine ⟨k, by omega, by dsimp only; omega, fun left => ?_, readStatus_ok asks (read.trans (if_neg listed)) ?_⟩
  · have := more (by omega)
    dsimp only
    omega
  · simp only [taken, nextIndex]

end Status

/-! ## Codes of the sections' fields (R174) -/

theorem Mode.code_eq (m : Mode) : m.code = if m = .config then 0 else 1 := by cases m <;> rfl

theorem LineForm.code_eq (l : LineForm) : l.code = if l = .single then 1 else 2 := by cases l <;> rfl

theorem meanInt_eq (l : List Int) : meanInt l = if l = [] then none else some (l.sum / l.length) := by
  cases l <;> rfl

theorem length_opt32 (x : Option Nat) : (opt32 x).length = 4 := by cases x <;> rfl

theorem length_flag (b : Bool) : (flag b).length = 4 := rfl

/-! ## READ TRACK and READ COUNTERS (R39, R208) -/

section Track

variable {p : Part} {i : Nat} {e : TrackEntry}

theorem readTrackFrom_entry (small : i ≤ 63) (h : p.wt.track[i]? = some e) :
    readTrackFrom [i] p = okWith (w32 p.wt.track.length ++ w32 (dbmCount p) ++ w32 p.wt.credit ++ entryFields e
      ++ opt32 (nextIndex i 1 p.wt.track.length)) p := by
  simp only [readTrackFrom, if_neg (Nat.not_lt.2 small), h]

theorem readTrackFrom_none (small : i ≤ 63) (h : p.wt.track.length ≤ i) :
    readTrackFrom [i] p = okWith (w32 p.wt.track.length ++ w32 (dbmCount p) ++ w32 p.wt.credit ++ opt32 none) p := by
  simp only [readTrackFrom, if_neg (Nat.not_lt.2 small), List.getElem?_eq_none h]

end Track

/-- A table of counters holds them in the order of R206. -/
theorem toList_eq_counterTable {α : Type} (v : Vector α 30) : v.toList = counterTable.map (fun c => v.get c.idx) := by
  have order : counterTable.map Counter.idx = List.finRange 30 := by decide
  have places : v.toList = (List.finRange 30).map v.get := by
    refine List.ext_getElem (by simp) fun k _ _ => ?_
    simp [Vector.get_eq_getElem]
  rw [places, ← order, List.map_map]
  rfl

theorem readCountersPage_beyond {n : Nat} (h : 1 < n) (p : Part) : readCountersPage [n] p = refuse .badArg p := by
  unfold readCountersPage
  split
  · rename_i page
    cases page
    exact absurd h (by decide)
  · rename_i page
    cases page
    exact absurd h (by decide)
  · rfl

theorem readStatusOf_beyond {n : Nat} (h : 9 < n) (i : Nat) (p : Part) : readStatusOf [n, i] p = refuse .badArg p := by
  unfold readStatusOf
  split
  case h_11 => rfl
  all_goals
    rename_i page
    cases page
    exact absurd h (by decide)

/-! ## Items of the lists -/

section Items

variable {p : Part}

theorem planFields_eq (pl : Option Plan) : planFields pl = match pl with
    | none => opt32 none ++ present32 none ++ opt64 none ++ opt32 none
    | some y => opt32 (some y.grade) ++ present32 (some y.tag) ++ opt64 (some y.target) ++ opt32 (some (if y.reached then 2 else 1)) := by
  cases pl <;> rfl

/-- The line max binds while there is a ceiling and no slot is below it. -/
theorem lineBinds_eq (p : Part) : (p.sg.effective.isSome && !(p.sg.slots.toList.any (fun c => c.active && decide (c.value < p.sg.lineMax))))
    = (p.sg.effective.isSome && p.sg.slots.toList.all (fun c => !(c.active && decide (c.value < p.sg.lineMax)))) := by
  rw [List.not_any_eq_all_not]

theorem absentOutputs_eq (p : Part) : absentOutputs p
    = (p.si.outMap.filter (fun e => p.rif.roster.all (fun x => !decide (x.node = e.node.toNat)))).map
        (fun e => w32 e.output.roleCode ++ w32 e.output.index) := by
  simp only [absentOutputs, List.not_any_eq_all_not]

theorem length_setpointHold (p : Part) : (setpointHold p).length
    = (p.rif.urgentWait ++ p.rif.normalWait).countP (fun w => match w.msg with | .command c _ _ => c.setpoint | _ => false) :=
  List.countP_eq_length_filter.symm

theorem portCode_eq (x : Option Frame) : (if x.isNone then 1 else 2) = (match x with | none => 1 | some _ => 2) := by cases x <;> rfl

end Items

/-- Settles O60: each pages fields, the items of its list, a page of the list, and the reads by index. -/
theorem statusTrackAndCounterReads : Obligations.StatusTrackAndCounterReads := by
  intro s r
  refine ⟨fun n i asks => ⟨fun here => ?part, fun here => ?web, fun here => ?dry, fun here => ?stacker,
      ⟨fun here => ?stands, fun here => ?bond, fun here => ?ceiling, fun here => ?ring, fun here => ?roster, fun here => ?inputs⟩,
      fun beyond => readStatus_refused asks (readStatusOf_beyond beyond i _)⟩,
    fun i asks => ⟨fun e small found => onPart_serve_of_asks asks rfl (readTrackFrom_entry (p := popRequest s.part) small found),
      fun small none => onPart_serve_of_asks asks rfl (readTrackFrom_none (p := popRequest s.part) small none),
      fun beyond => onPart_serve_of_asks asks rfl (if_pos beyond)⟩,
    ⟨fun asks => ?first, fun asks => ?second⟩, fun n beyond asks => onPart_serve_of_asks asks rfl (readCountersPage_beyond beyond _)⟩
  case part =>
    subst here
    refine readStatus_ok asks rfl ?_
    have free : muFree (popRequest s.part) = true := asks.1
    rw [statusPart, free, Mode.code_eq, LineForm.code_eq]
    rfl
  case web =>
    subst here
    refine readStatus_ok asks rfl ?_
    rw [statusWeb, contributionFields, ← List.append_assoc]
    rfl
  case dry =>
    subst here
    refine readStatus_ok asks rfl ?_
    simp only [statusDry, popRequest_dec, List.append_assoc]
    cases s.part.dec.swapRec <;> simp only [List.append_assoc] <;> rfl
  case stacker =>
    subst here
    refine readStatus_ok asks rfl ?_
    simp only [statusStacker, popRequest_sc, List.append_assoc]
    cases s.part.sc.cuts <;> simp only [List.append_assoc] <;> rfl
  case stands =>
    subst here
    refine answersList asks (congrArg (fun l => listSection i [] l [] _) (List.map_congr_left fun x _ => ?_)) (by decide)
    simp only [statusStand, planFields_eq]
    rfl
  case bond =>
    subst here
    refine answersList asks (congrArg (fun l => listSection i [] l [] _) (congrArg₂ List.append rfl (List.map_congr_left fun z _ => ?_))) (by decide)
    simp only [statusZone, meanInt_eq]
    rfl
  case ceiling =>
    subst here
    refine ⟨bitsOf (bindingSlots s.part), bitsOf_table_lt _ _, fun x => testBit_bitsOf_table _ _ x.idx, ?_⟩
    refine answersList asks ?_ ?_
    · rw [← lineBinds_eq]
      rfl
    · simp only [List.length_append, length_w32, length_opt32, length_flag]
      decide
  case ring =>
    subst here
    refine answersList asks ?_ ?_
    · show listSection i (statusRing (popRequest s.part)) (absentOutputs (popRequest s.part)) [] (popRequest s.part) = _
      rw [statusRing, absentOutputs_eq, length_setpointHold, portCode_eq]
      rfl
    · simp only [List.length_append, length_w32]
      decide
  case roster =>
    subst here
    exact answersList asks rfl (by decide)
  case inputs =>
    subst here
    exact answersList asks rfl (by decide)
  case first =>
    refine onPart_serve_of_asks asks rfl (congrArg (fun x => okWith x (popRequest s.part)) ?_)
    rw [counterPage0, toList_eq_counterTable, ← List.map_drop, ← List.map_take, List.flatMap_map]
    simp only [counterTable, List.drop, List.take, List.flatMap_cons, List.flatMap_nil, List.append_assoc, List.append_nil]
    rfl
  case second =>
    refine ⟨bitsOf (s.part.mu.snap.counters.toList.map CounterRecord.saturated), bitsOf_table_lt _ _, fun c => testBit_bitsOf_table _ _ c.idx,
      onPart_serve_of_asks asks rfl (congrArg (fun x => okWith x (popRequest s.part)) ?_)⟩
    have places : (s.part.mu.snap.counters.toList.drop 16).flatMap (fun r => w32 r.value)
        = (counterTable.drop 16).flatMap (fun c => w32 (s.part.mu.snap.counters.get c.idx).value) := by
      rw [toList_eq_counterTable, ← List.map_drop, List.flatMap_map]
    rw [counterPage1, popRequest_snap, places]
    simp only [counterTable, List.drop, List.flatMap_cons, List.flatMap_nil, List.append_assoc, List.append_nil]
    rfl

end Sys2Proof.Machine
end

section
/-! The end of a run: its records, the slots' reference counts, and what is left of each block, with O51 and O52 (R20, R44, R66, R70, R198, R199). -/

namespace Sys2Proof.Machine

/-! ## Reference counts (R44) -/

/-- The region's order names the slot at place `i`. -/
def Region.names (i : Fin 32) (x : Region) : Bool := decide ((x.order.bind (fun o => place 32 o.slot)) = some i)

/-- The slot with `n` references fewer. -/
def RecipeSlot.released (x : RecipeSlot) (n : Nat) : RecipeSlot := { x with refs := x.refs - n }

section Slots

variable {p : Part} {x : Region} {i : Fin 32}

theorem slot_dropRef (n : Nat) (p : Part) (i : Fin 32) :
    (dropRef n p).bc.slots.get i = (p.bc.slots.get i).released (if place 32 n = some i then 1 else 0) := by
  cases h : place 32 n with
  | none => simp only [dropRef, changeRefs, h, reduceCtorEq, if_false]; rfl
  | some j =>
    rw [dropRef_of_place h, setSlot_slots, get_upd]
    by_cases here : i = j
    · subst here
      rw [if_pos rfl, if_pos rfl]
      rfl
    · rw [if_neg here, if_neg fun same => here (Option.some.inj same).symm]
      rfl

/-- A region that leaves takes its reference from the slot its order names. -/
theorem slot_dropRegion (record : Bool) (x : Region) (p : Part) (i : Fin 32) :
    (dropRegion record p x).bc.slots.get i = (p.bc.slots.get i).released (if x.names i then 1 else 0) := by
  unfold dropRegion Region.names
  cases x.order with
  | none => rfl
  | some o =>
    have dropped := slot_dropRef o.slot p i
    cases record
    · simpa using dropped
    · simpa [(posted_writeRecord _ _).bc] using dropped

theorem slot_dropRegions (record : Bool) (l : List Region) (p : Part) (i : Fin 32) :
    (l.foldl (dropRegion record) p).bc.slots.get i = (p.bc.slots.get i).released (l.filter (Region.names i)).length := by
  induction l generalizing p with
  | nil => rfl
  | cons x l ih =>
    rw [List.foldl_cons, ih, slot_dropRegion, List.filter_cons, RecipeSlot.released, RecipeSlot.released, RecipeSlot.released, Nat.sub_sub]
    cases x.names i
    · simp
    · simp [Nat.add_comm]

end Slots

/-! ## Aborted records (R66, R67, R70) -/

section Records

variable {p q : Part} {x : Region} {o : Order}

/-- The record of an ORDER region that the end of a run cuts off. -/
def abortedRecord (p : Part) (x : Region) (o : Order) : Completion := recordOf x o (abortedLength p x) true

/-- The records of the regions of a list, in its order. -/
def abortedRecords (p : Part) (l : List Region) : List Completion := l.filterMap (fun x => x.order.map (abortedRecord p x))

theorem abortedLength_eq (p : Part) (x : Region) :
    abortedLength p x = (match x.stop with | none => posB p | some e => min (posB p) e) - x.start := by
  unfold abortedLength
  cases x.stop <;> rfl

theorem abortedRecords_congr (h : q.wt = p.wt) (l : List Region) : abortedRecords q l = abortedRecords p l := by
  have same : abortedRecord q = abortedRecord p := by
    funext x o
    simp only [abortedRecord, abortedLength, posB, h]
  rw [abortedRecords, same, abortedRecords]

theorem dropRegion_waste (record : Bool) (p : Part) (h : x.order = none) : dropRegion record p x = p := by simp only [dropRegion, h]

theorem dropRegion_order (p : Part) (h : x.order = some o) : dropRegion true p x = writeRecord (abortedRecord p x o) (dropRef o.slot p) := by
  simp only [dropRegion, h, if_true, abortedRecord]

theorem os_dropRegion_order (p : Part) (h : x.order = some o) :
    (dropRegion true p x).os = { p.os with log := logWith (abortedRecord p x o) p.os.log } := by
  rw [dropRegion_order p h, (posted_writeRecord _ _).os, show (dropRef o.slot p).os = p.os from changeRefs_os _ _ _]

/-- The log takes the records one by one, and nothing else of OS changes until the list is dropped. -/
theorem os_dropRegions (l : List Region) (p : Part) : (l.foldl (dropRegion true) p).os
    = { p.os with log := (abortedRecords p l).foldl (fun log c => logWith c log) p.os.log } := by
  induction l generalizing p with
  | nil => rfl
  | cons x l ih =>
    rw [List.foldl_cons, ih, abortedRecords_congr (dropRegion_wt true x)]
    cases h : x.order with
    | none => simp only [dropRegion_waste true p h, abortedRecords, List.filterMap_cons, h, Option.map_none]
    | some o =>
      rw [os_dropRegion_order p h]
      simp only [abortedRecords, List.filterMap_cons, h, Option.map_some, List.foldl_cons]

/-- The log keeps the latest 16 of the records before and the new ones. -/
theorem foldl_logWith (cs l : List Completion) (short : l.length ≤ 16) :
    cs.foldl (fun log c => logWith c log) l = (l ++ cs).drop (l.length + cs.length - 16) := by
  induction cs generalizing l with
  | nil =>
    have none : l.length + ([] : List Completion).length - 16 = 0 := Nat.sub_eq_zero_of_le short
    rw [none, List.append_nil]
    rfl
  | cons c cs ih =>
    rw [List.foldl_cons, logWith]
    split
    · rename_i full
      cases l with
      | nil => simp at full
      | cons a l =>
        simp only [List.length_cons] at short full
        rw [List.tail_cons, ih _ (by simp; omega), List.append_assoc, List.singleton_append, List.cons_append]
        have lost : (a :: l).length + (c :: cs).length - 16 = (l ++ [c]).length + cs.length - 16 + 1 := by simp; omega
        rw [lost, List.drop_succ_cons]
    · rename_i room
      rw [ih _ (by simp; omega), List.append_assoc, List.singleton_append]
      congr 1
      simp
      omega

theorem dropRegions_latches (l : List Region) (p : Part)
    (h : (alarmOf p .completionLost).latch = true ∨ (16 < p.os.log.length + (abortedRecords p l).length ∧ abortedRecords p l ≠ [])) :
    (alarmOf (l.foldl (dropRegion true) p) .completionLost).latch = true := by
  induction l generalizing p with
  | nil => exact h.resolve_right fun lost => lost.2 rfl
  | cons x l ih =>
    rw [List.foldl_cons]
    refine ih _ ?_
    rw [abortedRecords_congr (dropRegion_wt true x)]
    cases order : x.order with
    | none =>
      rw [dropRegion_waste true p order]
      simpa only [abortedRecords, List.filterMap_cons, order, Option.map_none] using h
    | some o =>
      by_cases full : 16 ≤ p.os.log.length
      · left
        rw [dropRegion_order p order]
        exact writeRecord_latches _ (by rwa [show (dropRef o.slot p).os = p.os from changeRefs_os _ _ _])
      · rcases h with set | ⟨lost, some⟩
        · left
          rw [dropRegion_order p order]
          refine (posted_writeRecord _ _).latches _ ?_
          rwa [alarmOf, show (dropRef o.slot p).mu = p.mu from changeRefs_mu _ _ _]
        · right
          rw [os_dropRegion_order p order]
          simp only [abortedRecords, List.filterMap_cons, order, Option.map_some, List.length_cons] at lost ⊢
          simp only [logWith, if_neg full, List.length_append, List.length_singleton]
          refine ⟨by omega, fun none => ?_⟩
          rw [none] at lost
          simp at lost
          omega

end Records

/-! ## What a run's end leaves (R20, R40, R70, R101, R121, R144, R158, R170, R183, R192) -/

section Ends

variable {p : Part} {record : Bool}

/-- No frame of the list is a command. -/
def CommandFree (l : List Message) : Prop := ∀ m ∈ l, m.isCommand = false

theorem CommandFree.append {l m : List Message} (h : CommandFree l) (k : CommandFree m) : CommandFree (l ++ m) :=
  fun x mem => (List.mem_append.1 mem).elim (h x) (k x)

theorem commandFree_filter (l : List Message) : CommandFree (l.filter (fun m => !m.isCommand)) :=
  fun _ mem => by simpa using (List.mem_filter.1 mem).2

theorem commandFree_filterWait (l : List Waiting) : CommandFree ((l.filter (fun w => !w.msg.isCommand)).map Waiting.msg) := by
  intro m mem
  obtain ⟨w, kept, rfl⟩ := List.mem_map.1 mem
  simpa using (List.mem_filter.1 kept).2

/-- What enters the normal queue from its waiting order brings no command where none waits. -/
theorem refill_commandFree (urgent : CommandFree p.rif.urgent) (normal : CommandFree p.rif.normal)
    (urgentWait : CommandFree (p.rif.urgentWait.map Waiting.msg)) (normalWait : CommandFree (p.rif.normalWait.map Waiting.msg)) :
    CommandFree ((refill false p).rif.urgent ++ (refill false p).rif.normal)
      ∧ CommandFree (((refill false p).rif.urgentWait ++ (refill false p).rif.normalWait).map Waiting.msg) := by
  have entered : (refill false p).rif.normal = p.rif.normal ++ (p.rif.normalWait.take (roomOf p false)).map Waiting.msg := refill_queue false p
  have left : (refill false p).rif.normalWait = p.rif.normalWait.drop (roomOf p false) := refill_wait false p
  have other : (refill false p).rif.urgent = p.rif.urgent := refill_otherQueue false p
  have otherWait : (refill false p).rif.urgentWait = p.rif.urgentWait := refill_otherWait false p
  rw [entered, left, other, otherWait, List.map_append, List.map_take, List.map_drop]
  exact ⟨urgent.append (normal.append fun m mem => normalWait m (List.mem_of_mem_take mem)),
    urgentWait.append fun m mem => normalWait m (List.mem_of_mem_drop mem)⟩

/-- The commands are gone from the queues and from the waiting orders (R183). -/
theorem endRun_commandFree (record : Bool) (p : Part) : CommandFree ((endRun record p).rif.urgent ++ (endRun record p).rif.normal)
    ∧ CommandFree (((endRun record p).rif.urgentWait ++ (endRun record p).rif.normalWait).map Waiting.msg) :=
  refill_commandFree (commandFree_filter _) (commandFree_filter _) (commandFree_filterWait _) (commandFree_filterWait _)

theorem endRun_slot (record : Bool) (p : Part) (i : Fin 32) :
    (endRun record p).bc.slots.get i = (p.bc.slots.get i).released (p.os.regions.filter (Region.names i)).length := by
  unfold endRun
  rw [refill_bc]
  exact slot_dropRegions record _ p i

theorem endRun_os (p : Part) : (endRun true p).os
    = { p.os with next := none, regions := [], log := (abortedRecords p p.os.regions).foldl (fun log c => logWith c log) p.os.log } := by
  unfold endRun
  rw [refill_os]
  show { (p.os.regions.foldl (dropRegion true) p).os with next := none, regions := [] } = _
  rw [os_dropRegions]

theorem endRun_si (record : Bool) (p : Part) : (endRun record p).si = p.si.waiting := by
  have regions : Kept p (p.os.regions.foldl (dropRegion record) p) := (Kept.refl p).thenFold (fun q r => dropRegion_kept record r) _
  unfold endRun
  rw [refill_si]
  exact congrArg Si.waiting regions.si

theorem endRun_latch (h : 16 < p.os.log.length + (abortedRecords p p.os.regions).length) (some : abortedRecords p p.os.regions ≠ []) :
    (alarmOf (endRun true p) .completionLost).latch = true := by
  have latched := dropRegions_latches p.os.regions p (.inr ⟨h, some⟩)
  rwa [alarmOf, endRun, refill_mu]

end Ends

/-! ## ENTER CONFIG (R198) -/

section EnterConfig

variable {s : State} {r : Request}

theorem enterConfig_answers (run : s.part.mu.mode = .run) (asks : Asks s.part 2 [] [] r) {st : Status} {l : List Byte} {q : Part}
    (h : enterConfigRequest [] (popRequest s.part) = { part := q, status := st, results := l }) : exec .enterConfig s = Answered s r st l q :=
  onPart_serve_of_asks asks (by rw [run]; rfl) h

end EnterConfig

/-- Settles O51: the answer at each line speed, and the record of one region. -/
theorem enterConfigEndsRun : Obligations.EnterConfigEndsRun := by
  refine ⟨fun s r run asks => ⟨fun moving => enterConfig_answers run asks (if_pos moving), fun still => ?ends⟩,
    fun p x => ⟨dropRegion_waste true p, fun o order => ?record⟩⟩
  case ends =>
    intro recordOf records naming
    have wt := endRun_wt (p := popRequest s.part) true
    have os := endRun_os (popRequest s.part)
    have listed : records = abortedRecords (popRequest s.part) s.part.os.regions := by
      refine congrArg (fun f => List.filterMap f s.part.os.regions) (funext fun x => congrArg (fun f => x.order.map f) (funext fun o => ?_))
      rw [abortedRecord, abortedLength_eq]
      rfl
    refine ⟨endRun true (popRequest s.part), enterConfig_answers run asks (if_neg (Nat.not_lt.2 still.le)), endRun_mode true,
      (congrArg (fun w => w.board.pos) wt :), (congrArg Wt.track wt :), ?_, (congrArg Os.regions os :), (congrArg Os.next os :),
      (congrArg Os.queue os :), ?_, (endRun_commandFree true _).1, (congrArg Wt.offsets wt :),
      (congrArg Si.outMap (endRun_si true (popRequest s.part)) :), wt, fun short => ?_, fun lost some => ?_,
      endRun_slot true _, rfl⟩
    · unfold endRun
      rw [refill_sc]
      rfl
    · unfold endRun
      rw [refill_sg]
      rfl
    · rw [os, listed]
      exact foldl_logWith _ _ short
    · rw [listed] at lost some
      exact endRun_latch lost some
  case record =>
    refine ⟨abortedRecord p x o, rfl, rfl, ?_⟩
    rw [dropRegion_order p order, writeRecord_eq, show (dropRef o.slot p).os = p.os from changeRefs_os _ _ _]
    rfl

/-! ## RESTART (R199) -/

section Restart

variable {p t : Part}

/-- The part at the end of a run without records, its slots given, before what waits enters the normal queue. -/
def endedPart (p : Part) (slots : Vector RecipeSlot 32) : Part :=
  endValues { p with bc := { p.bc with slots := slots }, os := { p.os with next := none, regions := [] } }

/-- A run that ends without records leaves OS's lists as they were, but for the regions. -/
theorem endRun_false_eq (p : Part) : ∃ slots : Vector RecipeSlot 32,
    (∀ i, slots.get i = (p.bc.slots.get i).released (p.os.regions.filter (Region.names i)).length)
      ∧ endRun false p = refill false (endedPart p slots) := by
  obtain ⟨slots, dropped⟩ := discardRegions_eq p.os.regions p
  refine ⟨slots, fun i => ?_, ?_⟩
  · have counted := slot_dropRegions false p.os.regions p i
    rwa [dropped] at counted
  · rw [endRun, endOs, dropped]
    rfl

/-- The part that RESTART leaves, but for what it clears in both modes. -/
def restarted (p : Part) : Part := if inRun p then endRun false p else { p with rsc := p.rsc.ended }

/-- What a restart leaves in either mode: `t` is in CONFIG with each stand's run-state empty. -/
structure Restarted (p t : Part) : Prop where
  time : t.time = p.time
  mode : t.mu.mode = .config
  mask : t.mu.mask = p.mu.mask
  orders : t.os.queue = p.os.queue
  outMap : t.si.outMap = p.si.outMap
  inKeys : t.si.inMap.map (fun e => (e.node, e.channel, e.input)) = p.si.inMap.map (fun e => (e.node, e.channel, e.input))
  stands : ∀ i, standOf t i = (standOf p i).ended
  board : posB t = posB p
  feeders : ∀ f, posF t f = posF p f
  bridges : ∀ f, bridgeK t f = bridgeK p f

theorem standOf_ended (h : t.rsc = p.rsc.ended) (i : Fin 5) : standOf t i = (standOf p i).ended := by
  rw [standOf, h, standOf]
  simp only [Rsc.ended, Vector.get_eq_getElem, Vector.getElem_map]

theorem bridgeK_ended (h : t.wt = p.wt.ended) (f : Fin 2) : bridgeK t f = bridgeK p f := by
  rw [bridgeK, h, bridgeK]
  simp only [Wt.ended, Vector.get_eq_getElem, Vector.getElem_map, Bridge.ended]

theorem posF_ended (h : t.wt = p.wt.ended) (f : Fin 2) : posF t f = posF p f := by
  rw [posF, h, posF]
  simp only [Wt.ended, Vector.get_eq_getElem, Vector.getElem_map, Encoder.ended]

theorem inKeys_waiting (x : Si) :
    x.waiting.inMap.map (fun e => (e.node, e.channel, e.input)) = x.inMap.map (fun e => (e.node, e.channel, e.input)) := by
  rw [Si.waiting, List.map_map]
  rfl

/-- A stand whose run-state is empty waits for no frame, so what enters a queue leaves it. -/
theorem standOf_refill_idle (i : Fin 5) (idle : (standOf p i).splice = .idle) : standOf (refill false p) i = standOf p i :=
  (refill_stand false p i).2 fun _ _ waits => by
    have sent := waits.1
    rw [idle] at sent
    cases sent

theorem restarted_run (run : p.mu.mode = .run) : Restarted p (restarted p) := by
  have left : restarted p = endRun false p := if_pos (inRun_run run)
  have wt := endRun_wt (p := p) false
  have si := endRun_si false p
  obtain ⟨slots, _, ended⟩ := endRun_false_eq p
  have stand (i : Fin 5) : standOf (endedPart p slots) i = (standOf p i).ended := standOf_ended rfl i
  rw [left]
  exact {
    time := endRun_time false p
    mode := endRun_mode false
    mask := by rw [ended, refill_mu]; rfl
    orders := by rw [ended, refill_os]; rfl
    outMap := (congrArg Si.outMap si :)
    inKeys := by rw [si, inKeys_waiting]
    stands := fun i => by rw [ended, standOf_refill_idle i (by rw [stand]; rfl), stand]
    board := (congrArg (fun w => w.board.pos) wt :)
    feeders := posF_ended wt
    bridges := bridgeK_ended wt }

theorem restarted_config (config : p.mu.mode = .config) : Restarted p (restarted p) := by
  have left : restarted p = { p with rsc := p.rsc.ended } := if_neg (by rw [inRun_config config]; exact Bool.false_ne_true)
  rw [left]
  exact { time := rfl, mode := config, mask := rfl, orders := rfl, outMap := rfl, inKeys := rfl, stands := standOf_ended rfl, board := rfl,
          feeders := fun _ => rfl, bridges := fun _ => rfl }

theorem restarted_either (p : Part) : Restarted p (restarted p) := by
  cases mode : p.mu.mode with
  | config => exact restarted_config mode
  | run => exact restarted_run mode

end Restart

theorem exec_restart {s : State} {r : Request} (asks : Asks s.part 3 [] [] r) :
    exec .restart s = Answered s r .ok [] (restartClear (restarted (popRequest s.part))) := onPart_serve_of_asks asks rfl rfl

/-- Settles O52: what a restart leaves in either mode, the run's end in RUN, and CONFIG. -/
theorem restartClears : Obligations.RestartClears := by
  intro s r asks p emptied encoder bridge counters cleared naming ended
  have left := restarted_either (popRequest s.part)
  refine ⟨⟨restartClear (restarted (popRequest s.part)), exec_restart asks, left.mode, fun w => Vector.get_replicate _ _ w.idx,
    fun c => Vector.get_replicate _ _ c.idx, rfl, rfl, left.time, rfl, rfl, left.orders, left.mask, left.outMap, left.inKeys, left.stands, left.board,
    fun f => ⟨left.feeders f, left.bridges f⟩, fun run => ?run⟩, fun config => ?config⟩
  case run =>
    have ends : restarted (popRequest s.part) = endRun false (popRequest s.part) := if_pos (inRun_run run)
    obtain ⟨slots, counted, h⟩ := endRun_false_eq (popRequest s.part)
    obtain ⟨queued, waiting⟩ := endRun_commandFree false (popRequest s.part)
    rw [ends]
    refine ⟨queued, fun w mem => waiting _ (List.mem_map_of_mem mem), slots, counted, ?_⟩
    have same : endedPart (popRequest s.part) slots = ended slots := rfl
    have cleared_eq (x : Part) (now : x.time = p.time) : restartClear x = cleared x :=
      congrArg (fun n => { restartClear x with mu := { (restartClear x).mu with lastClear := n } }) now
    rw [h, same]
    exact cleared_eq _ (refill_time false _)
  case config =>
    have ends : restarted (popRequest s.part) = { popRequest s.part with rsc := (popRequest s.part).rsc.ended } :=
      if_neg (by rw [inRun_config (p := popRequest s.part) config]; exact Bool.false_ne_true)
    rw [exec_restart asks, ends]
    rfl

end Sys2Proof.Machine
end

section
/-! ENTER RUN: the roles that are missing, what RUN entry's posts, checks and lookups leave, and the part it makes, with O50 (R48, R165, R197). -/

namespace Sys2Proof.Machine

/-! ## The required roles (R197) -/

section Roles

variable {p : Part}

/-- The inputs that must be bound. -/
def requiredInputs (p : Part) : List Input :=
  [.boardEnc, .feederEnc 0] ++ (if p.wt.line = .double then [.feederEnc 1] else []) ++ [.knife, .slitter, .stacker]

/-- The outputs that must be bound. -/
def requiredOutputs : List Output := [.driveCeiling, .knife, .slitter, .stacker, .rejectGate]

/-- A role in the results of a NOT_CONFIGURED reply. -/
def Required.bytes (r : Required) : List Byte := w32 r.direction ++ w32 r.role ++ w32 r.index

theorem requiredRoles_eq (p : Part) : requiredRoles p = (requiredInputs p).map (needIn p) ++ requiredOutputs.map (needOut p) := by
  unfold requiredRoles requiredInputs
  split <;> rfl

/-- The missing roles in bytes, by the entries that are absent. -/
theorem missingRoles_bytes (p : Part) : (missingRoles p).map Required.bytes
    = ((requiredInputs p).filter (fun i => (inEntry p i).isNone)).map (fun i => w32 1 ++ w32 i.role.code ++ w32 i.index)
      ++ (requiredOutputs.filter (fun o => (outEntry p o).isNone)).map (fun o => w32 2 ++ w32 o.roleCode ++ w32 o.index) := by
  have unboundIn : (fun r : Required => !r.bound) ∘ needIn p = fun i => (inEntry p i).isNone := funext fun i => Option.not_isSome _
  have unboundOut : (fun r : Required => !r.bound) ∘ needOut p = fun o => (outEntry p o).isNone := funext fun o => Option.not_isSome _
  rw [missingRoles, requiredRoles_eq, List.filter_append, List.filter_map, List.filter_map, unboundIn, unboundOut, List.map_append, List.map_map,
    List.map_map]
  rfl

theorem notConfigured_eq (p : Part) : notConfigured p
    = (((missingRoles p).map Required.bytes).take 8).flatten ++ w32 (if p.os.commitLead ≤ minimumLead p then 1 else 0) := by
  have failed : flag (!leadOk p) = w32 (if p.os.commitLead ≤ minimumLead p then 1 else 0) := by
    unfold leadOk
    by_cases enough : minimumLead p < p.os.commitLead
    · rw [decide_eq_true enough, if_neg (Nat.not_le.2 enough)]
      rfl
    · rw [decide_eq_false enough, if_pos (Nat.not_lt.1 enough)]
      rfl
  rw [notConfigured, failed, ← List.map_take]
  rfl

theorem enterRunRequest_starts (bound : (missingRoles p).map Required.bytes = []) (lead : minimumLead p < p.os.commitLead) :
    enterRunRequest [] p = okWith [] (enterRunMode p) := by
  have none : missingRoles p = [] := List.map_eq_nil_iff.1 bound
  have enough : leadOk p = true := decide_eq_true lead
  rw [enterRunRequest, none, enough]
  rfl

theorem enterRunRequest_refuses (h : (missingRoles p).map Required.bytes ≠ [] ∨ p.os.commitLead ≤ minimumLead p) :
    enterRunRequest [] p = { part := p, status := .notConfigured, results := notConfigured p } := by
  refine if_neg fun both => ?_
  obtain ⟨none, enough⟩ := Bool.and_eq_true_iff.1 both
  rcases h with missing | short
  · exact missing (List.map_eq_nil_iff.2 (List.isEmpty_iff.1 none))
  · exact Nat.not_lt.2 short (of_decide_eq_true enough)

end Roles

/-! ## OS beside the regions of orders: where only waste regions stand, the stand evaluations and the lookups leave OS as it is -/

section Waste

variable {p : Part} {o : Os}

@[simp] theorem os_activate (x : Slot) (v : Nat) (p : Part) : (activate x v p).os = p.os := (slotWritten_activate x v p).posted.os

@[simp] theorem os_deactivate (x : Slot) (p : Part) : (deactivate x p).os = p.os := (slotWritten_deactivate x p).posted.os

@[simp] theorem os_postChange (n : Nat) (c : Option Nat) (p : Part) : (postChange n c p).os = p.os := (posted_postLimited _ _ _ _ p).os

@[simp] theorem os_postGo (s : Fin 5) (w : Arm) (p : Part) : (postGo s w p).os = p.os := by
  unfold postGo
  dsimp only
  split <;> simp

/-- No region of the list is an ORDER region. -/
def Os.OnlyWaste (o : Os) : Prop := ∀ x ∈ o.regions, x.order = none

theorem os_setGradeLate (waste : p.os.OnlyWaste) (t : Nat) : (setGradeLate t p).os = p.os := by
  have same : modifyWhere (fun r => decide (r.order.map Order.tag = some t)) (fun r => { r with gradeLate := true }) p.os.regions = p.os.regions := by
    refine (List.map_congr_left fun x mem => ?_).trans (List.map_id _)
    refine if_neg fun named => ?_
    have tagged : x.order.map Order.tag = some t := of_decide_eq_true named
    rw [waste x mem] at tagged
    cases tagged
  rw [setGradeLate, modifyRegion, same]

theorem os_testHopeless (waste : p.os.OnlyWaste) (s : Fin 5) : (testHopeless s p).os = p.os := by
  unfold testHopeless
  split
  · rfl
  · split
    · rw [latch_os]
      exact os_setGradeLate waste _
    · rfl

theorem os_evalStand (waste : p.os.OnlyWaste) (s : Fin 5) : (evalStand s p).os = p.os := by
  have exhausted (q : Part) : (testExhausted s q).os = q.os := by unfold testExhausted; split <;> simp
  have trigger (q : Part) : (testTrigger s q).1.os = q.os := by
    unfold testTrigger
    split
    · rfl
    · split <;> rfl
  have decided (b : Bool) (q : Part) : (decideGo s b q).os = q.os := by
    unfold decideGo
    split <;> simp only [apply_ite Part.os, os_postGo, latch_os, ite_self]
  have settled (q : Part) : (settleSplice s q).os = q.os := by unfold settleSplice; dsimp only; split <;> rfl
  have written (q : Part) : (writeSplice s q).os = q.os := by unfold writeSplice; dsimp only; split <;> split <;> simp
  unfold evalStand
  split
  · rw [written, settled, decided, trigger, os_testHopeless (by rwa [exhausted]), exhausted]
  · rfl

theorem os_evalStands (waste : p.os.OnlyWaste) : (forEach (n := 5) evalStand p).os = p.os := by
  unfold forEach
  induction List.finRange 5 generalizing p with
  | nil => rfl
  | cons s l ih =>
    have same := os_evalStand waste s
    exact (ih (by rwa [same])).trans same

@[simp] theorem os_lookupGlue (g : Fin 3) (p : Part) : (lookupGlue g p).os = p.os := by
  have computed (q : Part) : (computeGlue g q).os = q.os := by
    unfold computeGlue
    dsimp only
    split
    · rfl
    · split <;> simp
  unfold lookupGlue
  split
  · dsimp only
    split <;> simp [computed]
  · rfl

@[simp] theorem os_lookupWrap (w : Fin 3) (p : Part) : (lookupWrap w p).os = p.os := by
  have computed (q : Part) : (computeWrap w q).os = q.os := by
    unfold computeWrap
    dsimp only
    split
    · rfl
    · split <;> simp
  unfold lookupWrap
  split
  · dsimp only
    split <;> simp [computed]
  · rfl

@[simp] theorem os_lookupZone (z : Fin 8) (p : Part) : (lookupZone z p).os = p.os := by
  unfold lookupZone
  split
  · exact (zoneKept_zoneChanged _ _).os
  · rfl

@[simp] theorem os_lookupAll (p : Part) : (lookupAll p).os = p.os :=
  (forEach_keeps Part.os os_lookupZone _).trans ((forEach_keeps Part.os os_lookupWrap _).trans (forEach_keeps Part.os os_lookupGlue p))

/-- NEXT selection changes nothing of OS but NEXT (R45). -/
theorem os_selectNext (p : Part) : (selectNext p).os = { p.os with next := (selectNext p).os.next } := by
  unfold selectNext compareProfile presetStation
  split
  · rfl
  · split
    · split
      · rfl
      · split <;> simp
    · rfl

theorem onlyWaste_initial {n : Nat} (list : o.regions = [initialRegion n]) : o.OnlyWaste := by
  intro x mem
  rw [list, List.mem_singleton] at mem
  rw [mem]
  rfl

/-- The initial region has no cut number, so it is never due: NEXT selection starts no commitment (R48, R54). -/
theorem nextSelection_initial {n : Nat} (run : p.mu.mode = .run) (list : p.os.regions = [initialRegion n]) : nextSelection p = selectNext p := by
  have listed : (selectNext p).os.regions = [] ++ [initialRegion n] := by rw [os_selectNext]; exact list
  have mode : (selectNext p).mu.mode = .run := (Kept.refl p).thenSelectNext.mode.trans run
  have early : ¬ commitDue (selectNext p) (initialRegion n) = true := fun due => Bool.false_ne_true (commitDue_iff.1 due).1
  rw [nextSelection, commitCheck_open mode listed rfl, if_neg early, endDeferral_none rfl]

end Waste

/-! ## The bridges' check (R15) -/

section Check

variable {p : Part}

theorem posted_checkLow (f : Fin 2) (p : Part) : Posted { p with wt := (checkLow f p).wt, sg := (checkLow f p).sg } (checkLow f p) := by
  unfold checkLow
  dsimp only
  split
  · have latched := posted_latch .bridgeLow (setBridgeRec p f { p.wt.bridges.get f with low := true })
    have written := (slotWritten_activate (.bridge f) p.sg.crawl (latch .bridgeLow (setBridgeRec p f { p.wt.bridges.get f with low := true }))).posted
    rw [wt_activate, latch_wt]
    exact (latched.withSg _).trans written
  · split
    · have written := (slotWritten_deactivate (.bridge f) (setBridgeRec p f { p.wt.bridges.get f with low := false })).posted
      rw [wt_deactivate]
      exact written
    · exact .refl p

/-- Posts do not read WT: they are made beside any other one. -/
theorem Posted.withWt {p q : Part} (h : Posted p q) (w : Wt) : Posted { p with wt := w } { q with wt := w } := { h with wt := rfl }

/-- A check of a bridge writes WT and SG, latches and posts. -/
theorem posted_checkBridge (f : Fin 2) (p : Part) : Posted { p with wt := (checkBridge f p).wt, sg := (checkBridge f p).sg } (checkBridge f p) := by
  unfold checkBridge
  split
  · have high := posted_checkHigh f (checkLow f p)
    rw [high.sg]
    exact ((posted_checkLow f p).withWt _).trans high
  · exact .refl p

theorem track_checkBridge (f : Fin 2) (p : Part) : (checkBridge f p).wt.track = p.wt.track := by
  unfold checkBridge
  split
  · calc (checkHigh f (checkLow f p)).wt.track
        = (checkLow f p).wt.track := (congrArg Wt.track (checkHigh_wt f _) :)
      _ = p.wt.track := (congrArg Wt.track (checkLow_wt f p) :)
  · rfl

end Check

/-! ## RUN entry (R48, R165, R197) -/

section Entry

variable {p : Part}

/-- The part of RUN entry with the ceiling posted, the bridges checked and the lost flag tested. -/
def testedPart (p : Part) : Part := testLost (forEach (n := 2) checkBridge (enterRunSg (enterValues p)))

/-- The part of RUN entry with the initial region and the first CHANGE LENGTH posted. -/
def sentPart (p : Part) : Part := postChange p.os.wasteLength none (setRegions (testedPart p) [initialRegion p.os.wasteLength])

theorem credit_of_webOf {q : Part} (h : webOf q = webOf p) : q.wt.credit = p.wt.credit := (congrArg Wt.credit h :)

theorem offsets_of_webOf {q : Part} (h : webOf q = webOf p) : q.wt.offsets = p.wt.offsets := (congrArg Wt.offsets h :)

theorem posF_enteredPart (p : Part) (f : Fin 2) : posF (enteredPart p) f = 0 := by
  show ((p.wt.feeders.map Encoder.fresh).get f).pos = 0
  rw [Vector.get_eq_getElem, Vector.getElem_map]
  rfl

theorem bridgeK_enterValues (p : Part) (f : Fin 2) :
    bridgeK (enterValues p) f = (p.wt.bridges.get f).lfix + (p.wt.bridges.get f).qnom := by
  show ((p.wt.bridges.map Bridge.fresh).get f).k = _
  rw [Vector.get_eq_getElem, Vector.getElem_map]
  rfl

theorem os_testedPart (p : Part) : (testedPart p).os = (enterValues p).os :=
  (posted_testLost _).os.trans ((forEach_keeps Part.os (fun f q => (posted_checkBridge f q).os) _).trans (posted_postSetpoint _ _).os)

theorem dec_testedPart (p : Part) : (testedPart p).dec = (enterValues p).dec :=
  (posted_testLost _).dec.trans ((forEach_keeps Part.dec (fun f q => (posted_checkBridge f q).dec) _).trans (posted_postSetpoint _ _).dec)

theorem si_testedPart (p : Part) : (testedPart p).si = (enterValues p).si :=
  (posted_testLost _).si.trans ((forEach_keeps Part.si (fun f q => (posted_checkBridge f q).si) _).trans (posted_postSetpoint _ _).si)

theorem track_testedPart (p : Part) : (testedPart p).wt.track = [] := by
  have posted : (enterRunSg (enterValues p)).wt = (enterValues p).wt := (posted_postSetpoint _ _).wt
  have tested : (testedPart p).wt = (forEach (n := 2) checkBridge (enterRunSg (enterValues p))).wt := (posted_testLost _).wt
  rw [tested, forEach_keeps (fun q => q.wt.track) track_checkBridge, posted]
  rfl

theorem webOf_testedPart (p : Part) : webOf (testedPart p) = webOf (enterValues p) :=
  (webOf_congr (posted_testLost _).wt).trans ((forEach_keeps webOf webOf_checkBridge _).trans (webOf_congr (posted_postSetpoint _ _).wt))

theorem sentPart_mode (p : Part) : (sentPart p).mu.mode = .run :=
  (posted_postLimited _ _ _ _ _).mode.trans (regionEntered_kept (p := p)).mode

theorem sentPart_os (p : Part) : (sentPart p).os = { (enterValues p).os with regions := [initialRegion p.os.wasteLength] } := by
  rw [sentPart, os_postChange, setRegions, os_testedPart]

theorem enterRunMode_sent (p : Part) : enterRunMode p = lookupAll (forEach (n := 5) evalStand (nextSelection (sentPart p))) := by
  have waste : (testedPart p).os.wasteLength = p.os.wasteLength := (congrArg Os.wasteLength (os_testedPart p) :)
  rw [sentPart, ← waste]
  rfl

theorem forEach_stands (f : Fin 5 → Part → Part) (p : Part) : forEach f p = f 4 (f 3 (f 2 (f 1 (f 0 p)))) := rfl

theorem enterRunMode_selected (p : Part) : enterRunMode p = lookupAll (forEach (n := 5) evalStand (selectNext (sentPart p))) := by
  rw [enterRunMode_sent, nextSelection_initial (n := p.os.wasteLength) (sentPart_mode p) (by rw [sentPart_os])]

theorem enterRunMode_wt (p : Part) : (enterRunMode p).wt = (testedPart p).wt := by
  rw [enterRunMode_selected, wt_lookupAll, forEach_keeps Part.wt wt_evalStand, wt_selectNext, sentPart, wt_postChange]
  rfl

theorem enterRunMode_os (p : Part) : ∃ next, (enterRunMode p).os = { p.os with next := next, regions := [initialRegion p.os.wasteLength] } := by
  have selected := os_selectNext (sentPart p)
  rw [sentPart_os] at selected
  have waste : (selectNext (sentPart p)).os.OnlyWaste := onlyWaste_initial (n := p.os.wasteLength) (by rw [selected])
  rw [enterRunMode_selected, os_lookupAll, os_evalStands waste]
  exact ⟨_, selected⟩

theorem enterRunMode_cLast (p : Part) : (enterRunMode p).dec.cLast = none := by
  have sent : (sentPart p).dec = (testedPart p).dec := dec_postChange _ _ _
  rw [enterRunMode_selected, dec_lookupAll, forEach_keeps Part.dec dec_evalStand, cLast_selectNext, sent, dec_testedPart]
  rfl

/-- RUN entry's reactions take no cut. -/
theorem enterRunMode_steady (p : Part) : Steady (enteredPart p) (enterRunMode p) := by
  have driven : Steady (enteredPart p) (enterRunSg (enterValues p)) :=
    (Steady.refl (enteredPart p)).thenPostSetpoint (c := .driveCeiling (enterValues p).sg.lineMax)
  have checked := driven.thenForEach (n := 2) (f := checkBridge) fun _ r => (Steady.refl r).thenCheckBridge
  have lost := posted_testLost (forEach (n := 2) checkBridge (enterRunSg (enterValues p)))
  have tested : Steady (enteredPart p) (testedPart p) := checked.same (congrArg Wt.track lost.wt) (congrArg Dec.kLast lost.dec) lost.sc
  have sent : Steady (enteredPart p) (sentPart p) := tested.thenOs.thenPostChange
  rw [enterRunMode_selected]
  exact (sent.thenSelectNext.thenForEach fun _ r => (Steady.refl r).thenEvalStand).thenLookupAll

end Entry

/-- ENTER RUN's command answers what its rule answers. -/
theorem enterRun_answers {s : State} {r : Request} (config : s.part.mu.mode = .config) (asks : Asks s.part 1 [] [] r) {st : Status}
    {l : List Byte} {q : Part} (h : enterRunRequest [] (popRequest s.part) = { part := q, status := st, results := l }) :
    exec .enterRun s = Answered s r st l q := onPart_serve_of_asks asks (by rw [config]; rfl) h

/-- Settles O50: the part RUN entry makes and what is on its way then, and the refusal with the roles that are missing. -/
theorem enterRunStartsOrRefuses : Obligations.EnterRunStartsOrRefuses := by
  intro s r config asks p inputs outputs missing least waste
  have listed : missing = (missingRoles (popRequest s.part)).map Required.bytes := (missingRoles_bytes (popRequest s.part)).symm
  refine ⟨fun bound lead => ?starts, fun refused => ?refuses⟩
  case starts =>
    have kept : Kept (enteredPart (popRequest s.part)) (enterRunMode (popRequest s.part)) := enterRunMode_kept
    have wt := enterRunMode_wt (popRequest s.part)
    have web := (webOf_congr wt).trans (webOf_testedPart (popRequest s.part))
    obtain ⟨next, os⟩ := enterRunMode_os (popRequest s.part)
    refine ⟨enterRunMode (popRequest s.part), enterRun_answers config asks (enterRunRequest_starts (listed ▸ bound) lead), kept.mode, kept.board,
      fun f => ⟨(kept.feeders f).trans (posF_enteredPart _ f), (bridgeK_of_webOf web f).trans (bridgeK_enterValues _ f)⟩, ?_, (congrArg Os.regions os :), ?_,
      enterRunMode_cLast _, credit_of_webOf web, (congrArg Os.log os :), (offsets_of_webOf web).trans rfl, (congrArg Si.outMap kept.si :), ?_⟩
    · rw [wt]
      exact track_testedPart _
    · exact (congrArg Sc.cuts (enterRunMode_steady _).sc :)
    · intro encoder bridge stand glue zone v driven tested sent
      have tests : tested = testedPart (popRequest s.part) := rfl
      have sends : sent = sentPart (popRequest s.part) := rfl
      rw [sends, tests]
      refine ⟨?_, fun e ceiling => onItsWay_postSetpoint ceiling, fun e knife room => onItsWay_postChange ?_ room⟩
      · rw [enterRunMode_sent, forEach_stands]
      · rw [outEntry, setRegions, si_testedPart]
        exact knife
  case refuses =>
    rw [listed] at refused ⊢
    rw [enterRun_answers config asks (enterRunRequest_refuses refused), notConfigured_eq]
    rfl

end Sys2Proof.Machine
end

section
/-! A step with a command waiting, with O1: the queue is the model's own, first in, first out (log 2). -/

namespace Sys2Proof.Machine

/-- The first of the two cases of a step, for any state by its queue: the front command is taken off before it acts, so it sees only the commands
behind it. -/
theorem step_of_pending {s : State} {c : Instr} {rest : List Instr} (front : s.pending = c :: rest) :
    step s = exec c { s with pending := rest } := by
  simp only [step, front]

/-- Settles O1: the queue is given with its front command, and the step's new queue replaces it, whatever stood there before. -/
theorem stepTakesFrontCommand : Obligations.StepTakesFrontCommand :=
  fun _ _ _ => step_of_pending rfl

end Sys2Proof.Machine
end
